-- ==== Sys2Proof/Word.lean ====
section
/-! DEFINITION. The widths of the LZW codec block: bus words, code units, bit groups, phrases. -/

namespace Sys2Proof

/-- A host-visible register or a bus data word: 32 bits (10_state.md R20, 20_memory.md R62). -/
abbrev Word := BitVec 32

/-- A code unit, and one element of IN or OUT: 16 bits (00_scope.md R7, 10_state.md R29, R30). -/
abbrev CodeUnit := BitVec 16

/-- A bit group, the BPC = 6 bits one character stands for (00_scope.md R8). -/
abbrev Group := BitVec 6

/-- A phrase: a finite sequence of code units (00_scope.md R14). -/
abbrev Phrase := List CodeUnit

/-- BPC, the bits of one character (00_scope.md R8). -/
abbrev bpc : Nat := 6

end Sys2Proof
end

