-- ==== Sys2Proof/Config.lean ====
section
/-! DEFINITION. What one build of the block fixes (the parameters of 00_scope.md R9, R11, R12), and the
values the spec leaves open ("any value", 93_implementation_defined.md section 1) as constants with no body. -/

namespace Sys2Proof

/-- TOKEN_BIT_ORDER: the order in which the bits of one token value enter the bitstream (00_scope.md R11). -/
inductive TokenBitOrder where
  | msbFirst
  | lsbFirst
deriving DecidableEq, Repr

/-- The parameters of one block. They are data, not constants: every claim of the model is made for every
value of them, and CONFIG, IN_CAP_R, OUT_CAP_R and DICT_CAP_R read them out (10_state.md R27, R28). -/
structure Params where
  inCap    : Nat
  outCap   : Nat
  dictCap  : Nat
  order    : TokenBitOrder
  baseAddr : Word
deriving DecidableEq, Repr

/-- The ranges 00_scope.md R9 gives the capacities. -/
abbrev Params.wf (p : Params) : Prop :=
  (1 ≤ p.inCap ∧ p.inCap ≤ 2 ^ 18) ∧ (1 ≤ p.outCap ∧ p.outCap ≤ 2 ^ 18) ∧
    (4 ≤ p.dictCap ∧ p.dictCap ≤ 2 ^ 24)

/-- DESIGN CHOICE (log entry 1), unsafe: the parameters of the block that `State.reset` describes, the largest
capacities R9 allows, the default bit order of R11, and offset 0 as base address. -/
def Params.default : Params :=
  { inCap := 2 ^ 18, outCap := 2 ^ 18, dictCap := 2 ^ 24, order := .msbFirst, baseAddr := 0 }

/-- Free value (log entry 3): what element `k` of IN holds after the `n`-th reset until the host writes it
(10_state.md R29, R43; UB4, UB23). -/
opaque Config.freeIn : (n k : Nat) → CodeUnit

/-- Free value (log entry 4): what a read of OUT[k] gives where 44_host_interface.md R240 leaves it
unspecified; `n` counts events (UB1, UB2). -/
opaque Config.freeOut : (n k : Nat) → CodeUnit

/-- Free value (log entry 5): what a read of OUT_LEN gives while BUSY (10_state.md R25; UB3). -/
opaque Config.freeOutLen : (n : Nat) → Word

/-- Free value (log entry 5): what a read of ERR_INFO gives while BUSY (10_state.md R26; UB3). -/
opaque Config.freeErrInfo : (n : Nat) → Word

end Sys2Proof
end

