-- ==== Sys2Proof/Syntax.lean ====
section
/-! DEFINITION. The instructions of the block: one constructor of `Instr` per row of spec/opcode_table.json
(command words, tokens, bus accesses), and the types of their operands. -/

namespace Sys2Proof

/-- CTRL.OP (10_state.md R21): 0 = COMPRESS, 1 = DECOMPRESS. -/
inductive Op where
  | compress
  | decompress
deriving DecidableEq, Repr

/-- CTRL.ALPH (10_state.md R21): 0 = BASE64, 1 = URI. -/
inductive Alphabet where
  | base64
  | uri
deriving DecidableEq, Repr

/-- The width of a bus access; only 32 bits is legal (20_memory.md R62). -/
inductive AccessWidth where
  | w8
  | w16
  | w32
deriving DecidableEq, Repr

/-- The direction of a bus access, with the data of a write. -/
inductive AccessKind where
  | read
  | write (v : Word)
deriving DecidableEq, Repr

/-- One bus access as the host issues it; `addr - BASE_ADDR` is its offset (00_scope.md R12). -/
structure BusAccess where
  addr  : Word
  width : AccessWidth
  kind  : AccessKind
deriving DecidableEq, Repr

/-- The row of 30_encoding.md R91 that a value written to CTRL falls in, the busy case first (R221). -/
inductive Command where
  | writeBusy
  | setmode (alph : Alphabet) (op : Op)
  | compressB64
  | compressUri
  | decompressB64
  | decompressUri
  | illegal
deriving DecidableEq, Repr

/-- One constructor per row of spec/opcode_table.json, in the table's order. -/
inductive Instr where
  -- format CTRL: command words
  | ctrlWriteBusy (v : Word)
  | setmode (alph : Alphabet) (op : Op)
  | compressB64
  | decompressB64
  | compressUri
  | decompressUri
  | ctrlIllegal (v : Word)
  -- format TOKEN: what COMPRESS emits
  | encLit8 (c : BitVec 8)
  | encLit16 (c : BitVec 16)
  | encCode (k : Nat)
  | encEos
  -- format TOKEN_FIRST: the first token DECOMPRESS reads
  | decFirstLit8 (c : BitVec 8)
  | decFirstLit16 (c : BitVec 16)
  | decFirstEos
  | decFirstCorrupt
  -- format TOKEN: the later tokens DECOMPRESS reads
  | decLit8 (c : BitVec 8)
  | decLit16 (c : BitVec 16)
  | decEos
  | decCodeKnown (k : Nat)
  | decCodeSelf (k : Nat)
  | decCodeCorrupt (k : Nat)
  -- format BUS: bus accesses
  | rdCtrl
  | wrCtrl (v : Word)
  | rwStatus (a : AccessKind)
  | rwInLen (a : AccessKind)
  | rdOutLen (a : AccessKind)
  | rdErrInfo (a : AccessKind)
  | rdConfig (a : AccessKind)
  | rdInCapR (a : AccessKind)
  | rdOutCapR (a : AccessKind)
  | rdDictCapR (a : AccessKind)
  | rwReservedReg (idx : BitVec 10) (a : AccessKind)
  | rwIn (k : BitVec 18) (a : AccessKind)
  | rdOut (k : BitVec 18) (a : AccessKind)
  | busIllegal (off : Word) (w : AccessWidth) (a : AccessKind)
deriving DecidableEq, Repr

/-- An encoded instruction: a value written to CTRL (30_encoding.md R90), a bus access (20_memory.md R62), or
the bits of one token in stream order (30_encoding.md R92). -/
inductive Encoded where
  | command (v : Word)
  | access (a : BusAccess)
  | token (bits : List Bool)
deriving DecidableEq, Repr

/-- Why a bit sequence is not one token. Bus accesses and command words are never rejected: their rows cover
every value (30_encoding.md R91, 20_memory.md R66). -/
inductive DecodeError where
  /-- fewer bits than the code width -/
  | shortMarker
  /-- not the payload length R92 gives the marker -/
  | payloadLength
  /-- an ENC_LIT16 whose unit is below 256, which the encoder never writes (R99) -/
  | nonCanonicalLit16
deriving DecidableEq, Repr

/-- Which tokens a bit sequence is read as: those COMPRESS writes, the first DECOMPRESS reads, or the later
ones it reads (30_encoding.md R94). -/
inductive TokenSide where
  | enc
  | first
  | loop
deriving DecidableEq, Repr

/-- All that the meaning of an encoded instruction depends on beside its own bits: the build's parameters,
whether STATUS.STATE is BUSY (30_encoding.md R91), and for a token its place in the stream, the code width it
is read or written at, and D_NEXT (R94, R96). -/
structure DecodeCtx where
  cfg   : Params
  busy  : Bool
  side  : TokenSide
  width : Nat
  next  : Nat
deriving DecidableEq, Repr

end Sys2Proof
end

