-- ==== Sys2Proof/WellFormed.lean ====
section
/-! DEFINITION. Which terms of `Instr` are instructions of the block in a given context: the operand ranges and
the match conditions of spec/opcode_table.json. -/

namespace Sys2Proof

/-- 20_memory.md R62 with the map of R61: the offset is aligned, the access 32 bits wide, and the offset
mapped. -/
def accessLegal (p : Params) (off : Nat) (w : AccessWidth) : Bool :=
  w == .w32 && off % 4 == 0 &&
    (decide (off < 0x1000) ||
     (decide (0x00100000 ≤ off) && decide (off < 0x00100000 + 4 * p.inCap) && decide (off < 0x00200000)) ||
     (decide (0x00200000 ≤ off) && decide (off < 0x00200000 + 4 * p.outCap) && decide (off < 0x00300000)))

/-- A token of the encoder or of the decoder's loop stands at a code width of 2 to 25 (10_state.md R32, R33). -/
def widthOk (w : Nat) : Bool := decide (2 ≤ w) && decide (w ≤ 25)

/-- The operand ranges and conditions of each row of the table. -/
def Instr.wf (c : DecodeCtx) : Instr → Bool
  | .ctrlWriteBusy _ => c.busy
  | .setmode _ _ => !c.busy
  | .compressB64 => !c.busy
  | .decompressB64 => !c.busy
  | .compressUri => !c.busy
  | .decompressUri => !c.busy
  | .ctrlIllegal v => !c.busy && decide (8 ≤ v.toNat)
  | .encLit8 _ => c.side == .enc && widthOk c.width
  | .encLit16 u => c.side == .enc && widthOk c.width && decide (256 ≤ u.toNat)
  | .encCode k => c.side == .enc && widthOk c.width && decide (3 ≤ k) && decide (k < 2 ^ c.width)
  | .encEos => c.side == .enc && widthOk c.width
  | .decFirstLit8 _ => c.side == .first
  | .decFirstLit16 _ => c.side == .first
  | .decFirstEos => c.side == .first
  | .decFirstCorrupt => c.side == .first
  | .decLit8 _ => c.side == .loop && widthOk c.width
  | .decLit16 _ => c.side == .loop && widthOk c.width
  | .decEos => c.side == .loop && widthOk c.width
  | .decCodeKnown k =>
      c.side == .loop && widthOk c.width && decide (3 ≤ k) && decide (k < c.next) && decide (k < 2 ^ c.width)
  | .decCodeSelf k =>
      c.side == .loop && widthOk c.width && decide (3 ≤ k) && k == c.next && decide (k < 2 ^ c.width)
  | .decCodeCorrupt k =>
      c.side == .loop && widthOk c.width && decide (3 ≤ k) && decide (c.next < k) && decide (k < 2 ^ c.width)
  | .rdCtrl => true
  | .wrCtrl _ => true
  | .rwStatus _ => true
  | .rwInLen _ => true
  | .rdOutLen _ => true
  | .rdErrInfo _ => true
  | .rdConfig _ => true
  | .rdInCapR _ => true
  | .rdOutCapR _ => true
  | .rdDictCapR _ => true
  | .rwReservedReg idx _ => decide (9 ≤ idx.toNat)
  | .rwIn k _ => decide (k.toNat < c.cfg.inCap)
  | .rdOut k _ => decide (k.toNat < c.cfg.outCap)
  | .busIllegal off w _ => !accessLegal c.cfg off.toNat w

end Sys2Proof
end

