-- ==== Sys2Proof/Decode.lean ====
section
/-! DEFINITION. From bits to instructions and back: the fields of a token (30_encoding.md R92 to R97), the command
words (R90, R91), the bus map (20_memory.md R61 to R63), then the encoder written from the same rules. -/

namespace Sys2Proof

/-! ### The bits of one field (30_encoding.md R93, 40_bitpack.md R122, R130) -/

/-- The `n` bits of the field value `v` in stream order. -/
def fieldBits (o : TokenBitOrder) (n v : Nat) : List Bool :=
  match o with
  | .msbFirst => (List.range n).map fun j => v.testBit (n - 1 - j)
  | .lsbFirst => (List.range n).map fun j => v.testBit j

/-- The field value that bits taken in stream order assemble to. -/
def fieldValue (o : TokenBitOrder) (bits : List Bool) : Nat :=
  match o with
  | .msbFirst => bits.foldl (fun v b => 2 * v + b.toNat) 0
  | .lsbFirst => bits.foldr (fun b v => b.toNat + 2 * v) 0

/-- The payload bits that follow a marker of value `t` (30_encoding.md R92). -/
def payloadLength (t : Nat) : Nat := if t = 0 then 8 else if t = 1 then 16 else 0

/-! ### Command words -/

/-- 30_encoding.md R91: every value falls in exactly one row; the busy row is matched before the others. -/
def decodeCommand (busy : Bool) (v : Word) : Command :=
  if busy then .writeBusy
  else if v.toNat = 0 then .setmode .base64 .compress
  else if v.toNat = 1 then .compressB64
  else if v.toNat = 2 then .setmode .base64 .decompress
  else if v.toNat = 3 then .decompressB64
  else if v.toNat = 4 then .setmode .uri .compress
  else if v.toNat = 5 then .compressUri
  else if v.toNat = 6 then .setmode .uri .decompress
  else if v.toNat = 7 then .decompressUri
  else .illegal

/-- The instruction of the row a command word falls in. -/
def commandInstr (v : Word) : Command → Instr
  | .writeBusy => .ctrlWriteBusy v
  | .setmode a o => .setmode a o
  | .compressB64 => .compressB64
  | .compressUri => .compressUri
  | .decompressB64 => .decompressB64
  | .decompressUri => .decompressUri
  | .illegal => .ctrlIllegal v

/-! ### Bus accesses -/

/-- The register page (10_state.md R20): the row of a 32-bit access at word index `i` of the page; an index
that R20 does not list is reserved (20_memory.md R63). -/
def decodeRegister (i : Nat) (a : AccessKind) : Instr :=
  match i, a with
  | 0, .read => .rdCtrl
  | 0, .write v => .wrCtrl v
  | 1, _ => .rwStatus a
  | 2, _ => .rwInLen a
  | 3, _ => .rdOutLen a
  | 4, _ => .rdErrInfo a
  | 5, _ => .rdConfig a
  | 6, _ => .rdInCapR a
  | 7, _ => .rdOutCapR a
  | 8, _ => .rdDictCapR a
  | i, _ => .rwReservedReg (BitVec.ofNat 10 i) a

/-- 20_memory.md R61, R62: the row of a bus access; what no row takes is illegal. -/
def decodeAccess (p : Params) (b : BusAccess) : Instr :=
  let off := b.addr - p.baseAddr
  let n := off.toNat
  if b.width = .w32 ∧ n % 4 = 0 then
    if n < 0x1000 then decodeRegister (n / 4) b.kind
    else if n < 0x00100000 then .busIllegal off b.width b.kind
    else if n < 0x00200000 then
      if (n - 0x00100000) / 4 < p.inCap then .rwIn (BitVec.ofNat 18 ((n - 0x00100000) / 4)) b.kind
      else .busIllegal off b.width b.kind
    else if n < 0x00300000 then
      if (n - 0x00200000) / 4 < p.outCap then .rdOut (BitVec.ofNat 18 ((n - 0x00200000) / 4)) b.kind
      else .busIllegal off b.width b.kind
    else .busIllegal off b.width b.kind
  else .busIllegal off b.width b.kind

/-! ### Tokens -/

/-- A token whose marker has value `t`, with the payload bits that follow it, as COMPRESS writes it
(42_encoder.md R167 to R170). -/
def decodeEncToken (o : TokenBitOrder) (t : Nat) (payload : List Bool) : Except DecodeError Instr :=
  if payload.length ≠ payloadLength t then .error .payloadLength
  else if t = 0 then .ok (.encLit8 (BitVec.ofNat 8 (fieldValue o payload)))
  else if t = 1 then
    if fieldValue o payload < 256 then .error .nonCanonicalLit16
    else .ok (.encLit16 (BitVec.ofNat 16 (fieldValue o payload)))
  else if t = 2 then .ok .encEos
  else .ok (.encCode t)

/-- The first token of a stream (43_decoder.md R190, R193 to R196). -/
def decodeFirstToken (o : TokenBitOrder) (t : Nat) (payload : List Bool) : Except DecodeError Instr :=
  if payload.length ≠ payloadLength t then .error .payloadLength
  else if t = 0 then .ok (.decFirstLit8 (BitVec.ofNat 8 (fieldValue o payload)))
  else if t = 1 then .ok (.decFirstLit16 (BitVec.ofNat 16 (fieldValue o payload)))
  else if t = 2 then .ok .decFirstEos
  else .ok .decFirstCorrupt

/-- A token of the decoder's loop, classified against D_NEXT = `next` (30_encoding.md R96, 43_decoder.md R198 to
R203). -/
def decodeLoopToken (o : TokenBitOrder) (next t : Nat) (payload : List Bool) : Except DecodeError Instr :=
  if payload.length ≠ payloadLength t then .error .payloadLength
  else if t = 0 then .ok (.decLit8 (BitVec.ofNat 8 (fieldValue o payload)))
  else if t = 1 then .ok (.decLit16 (BitVec.ofNat 16 (fieldValue o payload)))
  else if t = 2 then .ok .decEos
  else if t < next then .ok (.decCodeKnown t)
  else if t = next then .ok (.decCodeSelf t)
  else .ok (.decCodeCorrupt t)

/-- The code width of a token: 2 for the first one, the context's for every other (30_encoding.md R94). -/
def DecodeCtx.tokenWidth (c : DecodeCtx) : Nat :=
  match c.side with
  | .first => 2
  | .enc => c.width
  | .loop => c.width

/-- 30_encoding.md R95: the first `W` bits are the marker, and its value alone fixes the payload. -/
def decodeToken (c : DecodeCtx) (bits : List Bool) : Except DecodeError Instr :=
  if bits.length < c.tokenWidth then .error .shortMarker
  else
    let t := fieldValue c.cfg.order (bits.take c.tokenWidth)
    let payload := bits.drop c.tokenWidth
    match c.side with
    | .enc => decodeEncToken c.cfg.order t payload
    | .first => decodeFirstToken c.cfg.order t payload
    | .loop => decodeLoopToken c.cfg.order c.next t payload

/-- The decoder, total on every encoded instruction. -/
def decode (c : DecodeCtx) : Encoded → Except DecodeError Instr
  | .command v => .ok (commandInstr v (decodeCommand c.busy v))
  | .access a => .ok (decodeAccess c.cfg a)
  | .token bits => decodeToken c bits

/-! ### The encoder -/

/-- The command word of a legal command (30_encoding.md R90): bit 0 START, bit 1 OP, bit 2 ALPH. -/
def commandWord (start : Bool) (op : Op) (alph : Alphabet) : Word :=
  BitVec.ofNat 32
    (start.toNat + (match op with | .compress => 0 | .decompress => 2) +
      (match alph with | .base64 => 0 | .uri => 4))

/-- A legal 32-bit access at an offset from BASE_ADDR (30_encoding.md R103). -/
def accessAt (p : Params) (off : Nat) (a : AccessKind) : BusAccess :=
  { addr := p.baseAddr + BitVec.ofNat 32 off, width := .w32, kind := a }

/-- The bits of a token: the marker field at width `w`, then the payload field (30_encoding.md R92). -/
def tokenBits (o : TokenBitOrder) (w t payload : Nat) : List Bool :=
  fieldBits o w t ++ fieldBits o (payloadLength t) payload

/-- The encoder, written from 20_memory.md R61, 30_encoding.md R90 to R94. -/
def encode (c : DecodeCtx) : Instr → Encoded
  | .ctrlWriteBusy v => .command v
  | .setmode a o => .command (commandWord false o a)
  | .compressB64 => .command (commandWord true .compress .base64)
  | .decompressB64 => .command (commandWord true .decompress .base64)
  | .compressUri => .command (commandWord true .compress .uri)
  | .decompressUri => .command (commandWord true .decompress .uri)
  | .ctrlIllegal v => .command v
  | .encLit8 u => .token (tokenBits c.cfg.order c.width 0 u.toNat)
  | .encLit16 u => .token (tokenBits c.cfg.order c.width 1 u.toNat)
  | .encCode k => .token (tokenBits c.cfg.order c.width k 0)
  | .encEos => .token (tokenBits c.cfg.order c.width 2 0)
  | .decFirstLit8 u => .token (tokenBits c.cfg.order 2 0 u.toNat)
  | .decFirstLit16 u => .token (tokenBits c.cfg.order 2 1 u.toNat)
  | .decFirstEos => .token (tokenBits c.cfg.order 2 2 0)
  | .decFirstCorrupt => .token (tokenBits c.cfg.order 2 3 0)
  | .decLit8 u => .token (tokenBits c.cfg.order c.width 0 u.toNat)
  | .decLit16 u => .token (tokenBits c.cfg.order c.width 1 u.toNat)
  | .decEos => .token (tokenBits c.cfg.order c.width 2 0)
  | .decCodeKnown k => .token (tokenBits c.cfg.order c.width k 0)
  | .decCodeSelf k => .token (tokenBits c.cfg.order c.width k 0)
  | .decCodeCorrupt k => .token (tokenBits c.cfg.order c.width k 0)
  | .rdCtrl => .access (accessAt c.cfg 0x000 .read)
  | .wrCtrl v => .access (accessAt c.cfg 0x000 (.write v))
  | .rwStatus a => .access (accessAt c.cfg 0x004 a)
  | .rwInLen a => .access (accessAt c.cfg 0x008 a)
  | .rdOutLen a => .access (accessAt c.cfg 0x00C a)
  | .rdErrInfo a => .access (accessAt c.cfg 0x010 a)
  | .rdConfig a => .access (accessAt c.cfg 0x014 a)
  | .rdInCapR a => .access (accessAt c.cfg 0x018 a)
  | .rdOutCapR a => .access (accessAt c.cfg 0x01C a)
  | .rdDictCapR a => .access (accessAt c.cfg 0x020 a)
  | .rwReservedReg idx a => .access (accessAt c.cfg (4 * idx.toNat) a)
  | .rwIn k a => .access (accessAt c.cfg (0x00100000 + 4 * k.toNat) a)
  | .rdOut k a => .access (accessAt c.cfg (0x00200000 + 4 * k.toNat) a)
  | .busIllegal off w a => .access { addr := c.cfg.baseAddr + off, width := w, kind := a }

/-! ### The opcode table's own numbering -/

/-- What a word of the opcode table is the encoding of (log entry 12). The table numbers command words, bus
offsets and first tokens alike from bit 0, so one number can belong to rows of several formats. A row of fewer
than 32 bits is a first token, its marker in bits 1:0 and its payload above; of the 32-bit rows a multiple of 4 is
the offset of a 32-bit bus read (from BASE_ADDR), and every other number a word written to CTRL. -/
def tableEncoded (p : Params) (nbits w : Nat) : Encoded :=
  if nbits < 32 then .token (tokenBits p.order 2 (w % 4) (w / 4 % 2 ^ payloadLength (w % 4)))
  else if w % 4 = 0 then .access (accessAt p w .read)
  else .command (BitVec.ofNat 32 w)

/-- The context in which a table word is decoded: the parameters of `State.reset`, the engine not busy, a first
token. -/
def tableCtx : DecodeCtx :=
  { cfg := Params.default, busy := false, side := .first, width := 2, next := 3 }

/-- The instruction the decoder reads from a word of the opcode table. -/
def decodeTableWord (nbits w : Nat) : Option Instr :=
  match decode tableCtx (tableEncoded Params.default nbits w) with
  | .ok i => some i
  | .error _ => none

end Sys2Proof
end

