-- ==== Sys2Proof/Machine/State.lean ====
section
/-! DEFINITION. The state of the block: every register, buffer, dictionary and cursor of 10_state.md, the model's own
fields (the inputs still to come, the response port, the engine's place in its pseudocode, the counters of the
free values), the reasons to stop, and the state after reset. -/

namespace Sys2Proof.Machine

open Sys2Proof

/-- A buffer of 16-bit elements, by element index (20_memory.md R61, R67; log entry 2): only the elements that have
been written are listed, indices strictly rising. -/
abbrev Memory := List (Nat × CodeUnit)

/-- STATUS.STATE (10_state.md R22). -/
inductive OpState where
  | idle
  | busy
  | done
  | error
deriving DecidableEq, Repr

/-- STATUS.ERR (60_exceptions.md R251); the codes 6 to 15 are never produced. -/
inductive ErrCode where
  | none
  | alphabet
  | dictCorrupt
  | truncated
  | resource
  | illegalCmd
deriving DecidableEq, Repr

/-- Which capacity RESOURCE reports (60_exceptions.md R255): subcodes 1, 2, 3. -/
inductive Resource where
  | input
  | dictionary
  | output
deriving DecidableEq, Repr

/-- An error that ends an operation, with its information (60_exceptions.md R252 to R255). -/
inductive OpError where
  | alphabet (k : Nat)
  | dictCorrupt (t : Nat)
  | truncated (bits : Nat)
  | resource (r : Resource)
deriving DecidableEq, Repr

/-- What Run returned (44_host_interface.md R236, R237): `ok m`, the result is OUT[0 .. m-1]; or an error. -/
inductive RunResult where
  | ok (m : Nat)
  | err (e : OpError)
deriving DecidableEq, Repr

/-- PHASE (10_state.md R31). -/
inductive Phase where
  | idle
  | run
deriving DecidableEq, Repr

/-- Where the running operation stands in the pseudocode of Run (log entry 6): the model's own field. The host
sees nothing of it before the completion step. -/
inductive Stage where
  /-- no operation runs -/
  | idle
  /-- Run begins (44_host_interface.md R237) -/
  | start
  /-- the head of the COMPRESS loop (42_encoder.md R160) -/
  | encLoop
  /-- EncStep found that E_W + c is no key; EmitPhrase(E_W) is next (R166) -/
  | encBreak (c : CodeUnit)
  /-- Insert(E_W + c) and E_W <- [c] are next (R166) -/
  | encInsert (c : CodeUnit)
  /-- EncFinish: the last phrase is next (R170) -/
  | encLast
  /-- EncFinish: EOS, Flush and PadOut are next (R170) -/
  | encEos
  /-- the first token is next (43_decoder.md R190) -/
  | decFirst
  /-- DecStep is next (43_decoder.md section 3) -/
  | decLoop
  /-- Run has returned; the completion step is next (44_host_interface.md R234, R235) -/
  | complete (r : RunResult)
deriving DecidableEq, Repr

/-- The encoder registers (10_state.md R32), E_DICT and E_PEND (R36, R37). -/
structure EncRegs where
  /-- E_W, the longest phrase matched so far -/
  w     : Phrase
  /-- E_NEXT, the next code to assign -/
  next  : Nat
  /-- E_WIDTH, the code width -/
  width : Nat
  /-- E_ENL, the enlarge counter -/
  enl   : Nat
  /-- E_I, the index of the next input code unit -/
  i     : Nat
  /-- E_DICT, phrase to code, the newest entry first -/
  dict  : List (Phrase × Nat)
  /-- E_PEND, the phrases whose literal is not yet emitted -/
  pend  : List Phrase
deriving DecidableEq, Repr

/-- The decoder registers (10_state.md R33) and D_DICT (R38). -/
structure DecRegs where
  /-- D_W, the code of the last decoded entry -/
  w      : Nat
  /-- D_NEXT, the next free index -/
  next   : Nat
  /-- D_WIDTH, the current code width -/
  width  : Nat
  /-- D_ENL, the enlarge counter -/
  enl    : Nat
  /-- RES_LEN, the number of code units written to OUT -/
  resLen : Nat
  /-- D_DICT, code to phrase, the newest entry first -/
  dict   : List (Nat × Phrase)
deriving DecidableEq, Repr

/-- The bit sink registers (10_state.md R34). -/
structure SinkRegs where
  /-- ACC, the bits of the current partial character -/
  acc  : Group
  /-- POS, how many bits ACC holds -/
  pos  : Nat
  /-- OUT_N, the number of characters written to OUT -/
  outN : Nat
deriving DecidableEq, Repr

/-- The bit source registers (10_state.md R35). -/
structure SourceRegs where
  /-- CUR, the bit group of the current character -/
  cur   : Group
  /-- REM, how many bits of CUR are not yet read -/
  rem   : Nat
  /-- IDX, the number of characters fetched -/
  idx   : Nat
  /-- NDATA, the number of data characters -/
  ndata : Nat
  /-- BCNT, the number of bits consumed -/
  bcnt  : Nat
deriving DecidableEq, Repr

/-- What the host port answers to an access (20_memory.md R66, R70): the model's own field (log entry 7). -/
inductive Response where
  /-- no access has been answered since reset -/
  | none
  /-- the data of a legal read -/
  | data (v : Word)
  /-- a legal write was taken, or ignored -/
  | ack
  /-- the bus error response -/
  | busError
deriving DecidableEq, Repr

/-- What the world outside the engine does next (44_host_interface.md R220, 70_reset_and_hazards.md R280): the
model's own type (log entry 8). -/
inductive Event where
  /-- the host issues a bus access -/
  | access (a : BusAccess)
  /-- the platform resets the block -/
  | reset
  /-- the engine is given the next turn -/
  | engine
deriving DecidableEq, Repr

/-- The state of the block. -/
structure State where
  /-- the parameters, which CONFIG, IN_CAP_R, OUT_CAP_R and DICT_CAP_R read out (10_state.md R27, R28) -/
  cfg      : Params
  /-- CTRL.OP (R21) -/
  ctrlOp   : Op
  /-- CTRL.ALPH (R21) -/
  ctrlAlph : Alphabet
  /-- STATUS.STATE (R22) -/
  status   : OpState
  /-- STATUS.ERR (R22) -/
  err      : ErrCode
  /-- IN_LEN (R24) -/
  inLen    : Word
  /-- OUT_LEN (R25) -/
  outLen   : Word
  /-- ERR_INFO (R26) -/
  errInfo  : Word
  /-- IN (R29) -/
  inBuf    : Memory
  /-- OUT (R30) -/
  outBuf   : Memory
  /-- PHASE (R31) -/
  phase    : Phase
  /-- OPL, the operation that runs (R31) -/
  opl      : Op
  /-- ALPHL, its alphabet (R31) -/
  alphl    : Alphabet
  /-- IN_LEN as it stood at START (20_memory.md R72, 44_host_interface.md R228) -/
  snapLen  : Word
  /-- IN as it stood at START (20_memory.md R72, 44_host_interface.md R228) -/
  snapIn   : Memory
  /-- the encoder registers (R32, R36, R37) -/
  enc      : EncRegs
  /-- the decoder registers (R33, R38) -/
  dec      : DecRegs
  /-- the bit sink (R34) -/
  sink     : SinkRegs
  /-- the bit source (R35) -/
  src      : SourceRegs
  /-- the model's own: the place in the pseudocode of Run (log entry 6) -/
  stage    : Stage
  /-- the model's own: the response port (log entry 7) -/
  resp     : Response
  /-- the model's own: the inputs still to come, first one first (log entry 8) -/
  events   : List Event
  /-- the model's own: the event counter the free values of OUT, OUT_LEN and ERR_INFO are read at (log
  entries 4, 5) -/
  freeCtr  : Nat
  /-- the model's own: the number of resets so far, which the free contents of IN are read at (log entry 3) -/
  resets   : Nat
deriving DecidableEq, Repr

/-- Why the machine stops. No run from a state that meets the invariant of Sys2Proof/Safety.lean reaches one of
these: they stand where the spec's pseudocode reads something it never leaves unset, and stopping is safe. -/
inductive Fault where
  /-- Raised by Emit (42_encoder.md R167 to R170): a field that does not fit its width. 40_bitpack.md R127: "if a
  model admits one, it must fault rather than truncate v" (UB16). Safe. -/
  | emitOutOfRange
  /-- Raised by Tail, or when EmitPhrase chooses its token: a phrase or a code that no dictionary entry gives, or
  an entry that is empty (10_state.md R36, R38: never read). Safe. -/
  | dictionaryHole
  /-- Raised by Tail: a code above D_NEXT, outside the operands 43_decoder.md R204 gives it. Safe. -/
  | tailOutOfRange
  /-- Raised by ReadBit: a data character with no bit group (40_bitpack.md R129: "never invalid"). Safe. -/
  | invalidCharacter
  /-- Raised by the decoder's fetch: bits that are no token. The fetch always takes a whole token. Safe. -/
  | undecodable
  /-- Raised by the engine's turn: STATE = BUSY while no operation stands anywhere in Run. Safe. -/
  | noOperation
deriving DecidableEq, Repr

/-- Why an instruction is refused. -/
inductive Refusal where
  /-- Raised by an arm of `exec` whose instruction has no meaning yet; no arm is one. Safe. -/
  | notModelled (mnemonic : String)
deriving DecidableEq, Repr

/-- Encoder registers after reset: DESIGN CHOICE (log entry 9), unsafe. -/
def EncRegs.reset : EncRegs :=
  { w := [], next := 0, width := 0, enl := 0, i := 0, dict := [], pend := [] }

/-- Decoder registers after reset: DESIGN CHOICE (log entry 9), unsafe. -/
def DecRegs.reset : DecRegs := { w := 0, next := 0, width := 0, enl := 0, resLen := 0, dict := [] }

/-- Bit sink after reset: DESIGN CHOICE (log entry 9), unsafe. -/
def SinkRegs.reset : SinkRegs := { acc := 0, pos := 0, outN := 0 }

/-- Bit source after reset: DESIGN CHOICE (log entry 9), unsafe. -/
def SourceRegs.reset : SourceRegs := { cur := 0, rem := 0, idx := 0, ndata := 0, bcnt := 0 }

/-- The block with parameters `p` right after its `n`-th reset (10_state.md R43, 70_reset_and_hazards.md R280), with
the inputs `evs` still to come. OPL, ALPHL, the snapshot and the working registers are unspecified there: DESIGN
CHOICE (log entry 9). -/
def State.resetWith (p : Params) (n ctr : Nat) (evs : List Event) : State :=
  { cfg := p, ctrlOp := .compress, ctrlAlph := .base64, status := .idle, err := .none
    inLen := 0, outLen := 0, errInfo := 0, inBuf := [], outBuf := [], phase := .idle
    opl := .compress, alphl := .base64, snapLen := 0, snapIn := []
    enc := EncRegs.reset, dec := DecRegs.reset, sink := SinkRegs.reset, src := SourceRegs.reset
    stage := .idle, resp := .none, events := evs, freeCtr := ctr, resets := n }

/-- The block right after power-on: nothing of IN or OUT written, no input waiting. Its parameters are those of
`Params.default` (log entry 1). -/
def State.reset : State := State.resetWith Params.default 0 0 []

end Sys2Proof.Machine
end

