-- ==== Sys2Proof/Machine/Ops.lean ====
section
/-! DEFINITION. The operations every meaning is built from: buffers as canonical lists, the result of an engine
operation, the response port, raising and recording an error, leaving it by a START, and reset. -/

namespace Sys2Proof.Machine

open Sys2Proof

/-! ### Buffers -/

/-- The canonical form of a buffer: indices strictly rising. An unlisted element reads as `none`, which is no
element, so no entry can equal what an unlisted one reads as. -/
abbrev Memory.wf (m : Memory) : Prop := (m.map Prod.fst).Pairwise (· < ·)

/-- The element listed at index `k`; `none` where nothing has been written. -/
def Memory.read? : Memory → Nat → Option CodeUnit
  | [], _ => none
  | (a, v) :: m, k => if k = a then some v else Memory.read? m k

/-- Write the element at index `k`, keeping the canonical form. -/
def Memory.write : Memory → Nat → CodeUnit → Memory
  | [], k, v => [(k, v)]
  | (a, u) :: m, k, v =>
      if k < a then (k, v) :: (a, u) :: m
      else if k = a then (k, v) :: m
      else (a, u) :: Memory.write m k v

/-! ### One field at a time -/

/-- Write the encoder registers. -/
def State.setEnc (e : EncRegs) (s : State) : State := { s with enc := e }

/-- Write the decoder registers. -/
def State.setDec (d : DecRegs) (s : State) : State := { s with dec := d }

/-- Write the bit sink registers. -/
def State.setSink (k : SinkRegs) (s : State) : State := { s with sink := k }

/-- Write the bit source registers. -/
def State.setSrc (r : SourceRegs) (s : State) : State := { s with src := r }

/-- Go to a place in the pseudocode of Run. -/
def State.setStage (g : Stage) (s : State) : State := { s with stage := g }

/-- Write the buffer OUT. -/
def State.setOut (m : Memory) (s : State) : State := { s with outBuf := m }

/-- Write the buffer IN. -/
def State.setIn (m : Memory) (s : State) : State := { s with inBuf := m }

/-- Write IN_LEN. -/
def State.setInLen (v : Word) (s : State) : State := { s with inLen := v }

/-- Write the latches CTRL.OP and CTRL.ALPH. -/
def State.setMode (op : Op) (alph : Alphabet) (s : State) : State := { s with ctrlOp := op, ctrlAlph := alph }

/-- One more event for the counter of the free values (log entries 4, 5). -/
def State.countEvent (s : State) : State := { s with freeCtr := s.freeCtr + 1 }

/-- Write the inputs still to come. -/
def State.setEvents (l : List Event) (s : State) : State := { s with events := l }

/-! ### Errors -/

/-- The code of 60_exceptions.md R251 an operation error is reported with. -/
def OpError.code : OpError → ErrCode
  | .alphabet _ => .alphabet
  | .dictCorrupt _ => .dictCorrupt
  | .truncated _ => .truncated
  | .resource _ => .resource

/-- The subcode of 60_exceptions.md R255. -/
def Resource.subcode : Resource → Nat
  | .input => 1
  | .dictionary => 2
  | .output => 3

/-- The information word of 60_exceptions.md R252 to R255. -/
def OpError.info : OpError → Word
  | .alphabet k => BitVec.ofNat 32 k
  | .dictCorrupt t => BitVec.ofNat 32 t
  | .truncated b => BitVec.ofNat 32 b
  | .resource r => BitVec.ofNat 32 r.subcode

/-! ### The result of an engine operation -/

/-- An operation of the engine goes on, raises an error (60_exceptions.md R258), or stops. -/
inductive Eng (α : Type) where
  | ok (a : α) (s : State)
  | raise (e : OpError) (s : State)
  | stop (f : Fault)

/-- What follows an operation is run only where it went on: "nothing after a `raise` … executes"
(00_scope.md R15). -/
def Eng.bind {α β : Type} (x : Eng α) (f : α → State → Eng β) : Eng β :=
  match x with
  | .ok a s => f a s
  | .raise e s => .raise e s
  | .stop r => .stop r

/-- Run has returned `r`: the completion step is next (44_host_interface.md R236). -/
def State.returned (r : RunResult) (s : State) : State := s.setStage (.complete r)

/-- An engine operation as a step: a raise ends Run at once with the error (60_exceptions.md R258). -/
def Eng.outcome (x : Eng Unit) : Host.Outcome State Fault Refusal :=
  match x with
  | .ok _ s => .next s
  | .raise e s => .next (s.returned (.err e))
  | .stop f => .fault f

/-! ### The host's side -/

/-- STATE = BUSY. -/
def State.busy (s : State) : Bool := s.status == .busy

/-- Answer the host's access. -/
def State.respond (r : Response) (s : State) : State := { s with resp := r }

/-- The element the engine reads: MemRead(IN, k) on the snapshot taken at START (20_memory.md R64, R72). An element
the host has not written since reset is a free value (log entry 3). -/
def State.memRead (s : State) (k : Nat) : CodeUnit :=
  (s.snapIn.read? k).getD (Config.freeIn s.resets k)

/-- MemWrite(OUT, k, v) (20_memory.md R65). -/
def State.memWrite (k : Nat) (v : CodeUnit) (s : State) : State := s.setOut (s.outBuf.write k v)

/-! ### Entering and leaving an error; completion; reset -/

/-- TAKING AN ERROR, the block's whole "trap entry" (60_exceptions.md R258; 44_host_interface.md R222, R235): STATE
and ERR, the information word, OUT_LEN; OUT becomes unspecified, so nothing of it stays listed. -/
def State.enterError (code : ErrCode) (info : Word) (s : State) : State :=
  { s with status := .error, err := code, errInfo := info, outLen := 0, outBuf := [] }

/-- StartOp(op, alph), which also is the way out of an error (44_host_interface.md R228, 60_exceptions.md R261). OUT
becomes unspecified: nothing of it stays listed. -/
def State.startOp (op : Op) (alph : Alphabet) (s : State) : State :=
  { s with
    ctrlOp := op, ctrlAlph := alph, opl := op, alphl := alph
    snapLen := s.inLen, snapIn := s.inBuf
    status := .busy, err := .none, phase := .run, stage := .start, outBuf := [] }

/-- The completion step (44_host_interface.md R234, R235): everything the host sees of the result changes in this
one event. DESIGN CHOICE (log entry 24): OPL, ALPHL, the snapshot, the dictionaries and the other working registers
keep the operation's last values, which 10_state.md R42, 20_memory.md R77 and UB5 leave at any value. -/
def State.completion (r : RunResult) (s : State) : State :=
  match r with
  | .ok m =>
      { s with
        outLen := BitVec.ofNat 32 m, errInfo := 0, status := .done, err := .none, phase := .idle, stage := .idle }
  | .err e => { s.enterError e.code e.info with phase := .idle, stage := .idle }

/-- Reset (70_reset_and_hazards.md R280, R281): one atomic event; a running operation is abandoned, the parameters
are constants, and the inputs still to come stay. -/
def State.resetEvent (s : State) : State :=
  State.resetWith s.cfg (s.resets + 1) s.freeCtr s.events

/-- The enlarge-counter step (42_encoder.md R163) on a pair (WIDTH, ENL). -/
def tick (width enl : Nat) : Nat × Nat :=
  if enl - 1 = 0 then (width + 1, 2 ^ width) else (width, enl - 1)

/-- The context in which the next encoded instruction is read: STATUS for a command, the engine's place, width and
D_NEXT for a token. -/
def State.decodeCtx (s : State) : DecodeCtx :=
  match s.stage with
  | .decFirst => { cfg := s.cfg, busy := s.busy, side := .first, width := 2, next := s.dec.next }
  | .decLoop => { cfg := s.cfg, busy := s.busy, side := .loop, width := s.dec.width, next := s.dec.next }
  | _ => { cfg := s.cfg, busy := s.busy, side := .enc, width := s.enc.width, next := s.dec.next }

end Sys2Proof.Machine
end

