-- ==== Sys2Proof/Machine/Flags.lean ====
section
/-! DEFINITION. The fields of the host-visible registers: CTRL, STATUS and CONFIG as words. -/

namespace Sys2Proof.Machine

open Sys2Proof

/-- CTRL.OP as a bit (10_state.md R21). -/
def opBit : Op → Word
  | .compress => 0
  | .decompress => 1

/-- CTRL.ALPH as a bit (10_state.md R21). -/
def alphBit : Alphabet → Word
  | .base64 => 0
  | .uri => 1

/-- STATUS.STATE as a field (10_state.md R22). -/
def OpState.field : OpState → Word
  | .idle => 0
  | .busy => 1
  | .done => 2
  | .error => 3

/-- STATUS.ERR as a field (60_exceptions.md R251). -/
def ErrCode.field : ErrCode → Word
  | .none => 0
  | .alphabet => 1
  | .dictCorrupt => 2
  | .truncated => 3
  | .resource => 4
  | .illegalCmd => 5

/-- What CTRL reads (44_host_interface.md R229): START and bits 31:3 read 0. -/
def State.ctrlWord (s : State) : Word := (alphBit s.ctrlAlph <<< 2) ||| (opBit s.ctrlOp <<< 1)

/-- What STATUS reads (44_host_interface.md R230). -/
def State.statusWord (s : State) : Word := (s.err.field <<< 4) ||| s.status.field

/-- TOKEN_BIT_ORDER as CONFIG bit 0 (10_state.md R27). -/
def orderBit : TokenBitOrder → Word
  | .msbFirst => 0
  | .lsbFirst => 1

/-- What CONFIG reads (10_state.md R27): bit 0 TOKEN_BIT_ORDER, bits 7:4 BPC, bits 15:8 REVISION. -/
def State.configWord (s : State) : Word :=
  (1#32 <<< 8) ||| (BitVec.ofNat 32 bpc <<< 4) ||| orderBit s.cfg.order

end Sys2Proof.Machine
end

