-- ==== Sys2Proof/Machine/Operands.lean ====
section
/-! DEFINITION. The operand forms of a bus access: a read-only register, the registers whose value is unspecified
while BUSY, an element of IN, an element of OUT. -/

namespace Sys2Proof.Machine

open Sys2Proof

/-- A register the host can only read: a read gives `v`, a write is ignored (44_host_interface.md R230, R232). -/
def State.readOnly (v : Word) (a : AccessKind) (s : State) : State :=
  match a with
  | .read => s.respond (.data v)
  | .write _ => s.respond .ack

/-- What OUT_LEN reads: a free value while BUSY (10_state.md R25, 44_host_interface.md R232; log entry 5). -/
def State.outLenValue (s : State) : Word := if s.busy then Config.freeOutLen s.freeCtr else s.outLen

/-- What ERR_INFO reads: a free value while BUSY (10_state.md R26, 44_host_interface.md R232; log entry 5). -/
def State.errInfoValue (s : State) : Word := if s.busy then Config.freeErrInfo s.freeCtr else s.errInfo

/-- IN[k] (44_host_interface.md R233): a free value until the host writes it (10_state.md R29; log entry 3). -/
def State.inElem (s : State) (k : Nat) : CodeUnit :=
  (s.inBuf.read? k).getD (Config.freeIn s.resets k)

/-- OUT[k] as the host reads it (44_host_interface.md R240): the result in DONE below OUT_LEN, a free value in every
other case (log entry 4). -/
def State.outElem (s : State) (k : Nat) : CodeUnit :=
  if s.status = .done ∧ k < s.outLen.toNat then (s.outBuf.read? k).getD (Config.freeOut s.freeCtr k)
  else Config.freeOut s.freeCtr k

/-- A write the host may make only while the engine is not busy, and which is ignored otherwise (20_memory.md R72,
44_host_interface.md R221, R231, R233). -/
def State.writeUnlessBusy (f : State → State) (s : State) : State :=
  (if s.busy then s else f s).respond .ack

end Sys2Proof.Machine
end

