-- ==== Sys2Proof/Machine/Command.lean ====
section
/-! DEFINITION. The command words (44_host_interface.md section 2): what a write of CTRL does. A CTRL write while BUSY is
ignored whatever its value (R221), so every meaning below looks at STATUS. -/

namespace Sys2Proof.Machine

open Sys2Proof

/-- SETMODE (44_host_interface.md R223): the two latches and nothing else. -/
def execSetmode (alph : Alphabet) (op : Op) (s : State) : Host.Outcome State Fault Refusal :=
  .next (s.writeUnlessBusy (State.setMode op alph))

/-- COMPRESS_B64 (44_host_interface.md R224). -/
def execCompressB64 (s : State) : Host.Outcome State Fault Refusal :=
  .next (s.writeUnlessBusy (State.startOp .compress .base64))

/-- COMPRESS_URI (44_host_interface.md R225). -/
def execCompressUri (s : State) : Host.Outcome State Fault Refusal :=
  .next (s.writeUnlessBusy (State.startOp .compress .uri))

/-- DECOMPRESS_B64 (44_host_interface.md R226). -/
def execDecompressB64 (s : State) : Host.Outcome State Fault Refusal :=
  .next (s.writeUnlessBusy (State.startOp .decompress .base64))

/-- DECOMPRESS_URI (44_host_interface.md R227). -/
def execDecompressUri (s : State) : Host.Outcome State Fault Refusal :=
  .next (s.writeUnlessBusy (State.startOp .decompress .uri))

/-- CTRL_ILLEGAL (44_host_interface.md R222, 60_exceptions.md R256): ILLEGAL_CMD, reported at once. -/
def execCtrlIllegal (v : Word) (s : State) : Host.Outcome State Fault Refusal :=
  .next (s.writeUnlessBusy (State.enterError .illegalCmd v))

/-- A legal 32-bit write of `v` to CTRL: the row of 30_encoding.md R91 it falls in, in the present state. -/
def writeCtrl (v : Word) (s : State) : Host.Outcome State Fault Refusal :=
  match decodeCommand s.busy v with
  | .writeBusy => .next (s.respond .ack)
  | .setmode a o => execSetmode a o s
  | .compressB64 => execCompressB64 s
  | .compressUri => execCompressUri s
  | .decompressB64 => execDecompressB64 s
  | .decompressUri => execDecompressUri s
  | .illegal => execCtrlIllegal v s

/-- CTRL_WRITE_BUSY (44_host_interface.md R221): nothing changes while BUSY. Its row matches only then; where the
engine is not busy the same write is the command its value decodes to. -/
def execCtrlWriteBusy (v : Word) (s : State) : Host.Outcome State Fault Refusal :=
  if s.busy then .next (s.respond .ack) else writeCtrl v s

end Sys2Proof.Machine
end

