-- ==== Sys2Proof/Machine/Bus.lean ====
section
/-! DEFINITION. The bus accesses (44_host_interface.md section 3, 20_memory.md R62, R63, R66). -/

namespace Sys2Proof.Machine

open Sys2Proof

/-- RD_CTRL (44_host_interface.md R229). -/
def execRdCtrl (s : State) : Host.Outcome State Fault Refusal :=
  .next (s.respond (.data s.ctrlWord))

/-- WR_CTRL (30_encoding.md R90): a command word, decoded by the rows of format CTRL. -/
def execWrCtrl (v : Word) (s : State) : Host.Outcome State Fault Refusal := writeCtrl v s

/-- RW_STATUS (44_host_interface.md R230). -/
def execRwStatus (a : AccessKind) (s : State) : Host.Outcome State Fault Refusal :=
  .next (s.readOnly s.statusWord a)

/-- RW_IN_LEN (44_host_interface.md R231). -/
def execRwInLen (a : AccessKind) (s : State) : Host.Outcome State Fault Refusal :=
  match a with
  | .read => .next (s.respond (.data s.inLen))
  | .write v => .next (s.writeUnlessBusy (State.setInLen v))

/-- RD_OUT_LEN (44_host_interface.md R232). -/
def execRdOutLen (a : AccessKind) (s : State) : Host.Outcome State Fault Refusal :=
  .next (s.readOnly s.outLenValue a)

/-- RD_ERR_INFO (44_host_interface.md R232). -/
def execRdErrInfo (a : AccessKind) (s : State) : Host.Outcome State Fault Refusal :=
  .next (s.readOnly s.errInfoValue a)

/-- RD_CONFIG (44_host_interface.md R232, 10_state.md R27). -/
def execRdConfig (a : AccessKind) (s : State) : Host.Outcome State Fault Refusal :=
  .next (s.readOnly s.configWord a)

/-- RD_IN_CAP_R (44_host_interface.md R232, 10_state.md R28). -/
def execRdInCapR (a : AccessKind) (s : State) : Host.Outcome State Fault Refusal :=
  .next (s.readOnly (BitVec.ofNat 32 s.cfg.inCap) a)

/-- RD_OUT_CAP_R (44_host_interface.md R232, 10_state.md R28). -/
def execRdOutCapR (a : AccessKind) (s : State) : Host.Outcome State Fault Refusal :=
  .next (s.readOnly (BitVec.ofNat 32 s.cfg.outCap) a)

/-- RD_DICT_CAP_R (44_host_interface.md R232, 10_state.md R28). -/
def execRdDictCapR (a : AccessKind) (s : State) : Host.Outcome State Fault Refusal :=
  .next (s.readOnly (BitVec.ofNat 32 s.cfg.dictCap) a)

/-- RW_RESERVED_REG (20_memory.md R63): reads 0, writes are ignored, at every reserved offset. -/
def execRwReservedReg (_idx : BitVec 10) (a : AccessKind) (s : State) : Host.Outcome State Fault Refusal :=
  .next (s.readOnly 0 a)

/-- RW_IN (44_host_interface.md R233). An index at or beyond IN_CAP is unmapped (20_memory.md R61, R66). -/
def execRwIn (k : BitVec 18) (a : AccessKind) (s : State) : Host.Outcome State Fault Refusal :=
  if k.toNat < s.cfg.inCap then
    match a with
    | .read => .next (s.respond (.data ((s.inElem k.toNat).setWidth 32)))
    | .write v =>
        .next (s.writeUnlessBusy (State.setIn (s.inBuf.write k.toNat (v.setWidth 16))))
  else .next (s.respond .busError)

/-- RD_OUT (44_host_interface.md R240). An index at or beyond OUT_CAP is unmapped (20_memory.md R61, R66). -/
def execRdOut (k : BitVec 18) (a : AccessKind) (s : State) : Host.Outcome State Fault Refusal :=
  if k.toNat < s.cfg.outCap then .next (s.readOnly ((s.outElem k.toNat).setWidth 32) a)
  else .next (s.respond .busError)

/-- BUS_ILLEGAL (20_memory.md R66, 60_exceptions.md R257): the bus error response, and no change to the block. -/
def execBusIllegal (_off : Word) (_w : AccessWidth) (_a : AccessKind) (s : State) :
    Host.Outcome State Fault Refusal :=
  .next (s.respond .busError)

end Sys2Proof.Machine
end

