-- ==== Sys2Proof/Machine/Alphabet.lean ====
section
/-! DEFINITION. The alphabet adapter (41_alphabet.md): the forward and reverse tables, Validate and NDATA. -/

namespace Sys2Proof.Machine

open Sys2Proof

/-- The pad character `=` (41_alphabet.md R140). -/
def padChar : CodeUnit := 0x3D

/-- Map(g): the forward tables (41_alphabet.md R140 to R142). -/
def mapGroup (al : Alphabet) (g : Group) : CodeUnit :=
  let n := g.toNat
  if n < 26 then BitVec.ofNat 16 (0x41 + n)
  else if n < 52 then BitVec.ofNat 16 (0x61 + (n - 26))
  else if n < 62 then BitVec.ofNat 16 (0x30 + (n - 52))
  else if n = 62 then 0x2B
  else match al with
    | .base64 => 0x2F
    | .uri => 0x2D

/-- Unmap(ch): the reverse tables; `none` is "invalid" (41_alphabet.md R140, R141, R143, R144). The decode-only `$`
of URI is group 0. -/
def unmapChar (al : Alphabet) (ch : CodeUnit) : Option Group :=
  let n := ch.toNat
  if 0x41 ≤ n ∧ n ≤ 0x5A then some (BitVec.ofNat 6 (n - 0x41))
  else if 0x61 ≤ n ∧ n ≤ 0x7A then some (BitVec.ofNat 6 (n - 0x61 + 26))
  else if 0x30 ≤ n ∧ n ≤ 0x39 then some (BitVec.ofNat 6 (n - 0x30 + 52))
  else if n = 0x2B then some 62
  else match al with
    | .base64 => if n = 0x2F then some 63 else none
    | .uri => if n = 0x2D then some 63 else if n = 0x24 then some 0 else none

/-- `ch` and all that follows it are a final run of at most three `=` (41_alphabet.md R147). -/
def isTrailingPad (chars : List CodeUnit) : Bool :=
  decide (chars.length ≤ 3) && chars.all (· == padChar)

/-- Validate from index `k` on (41_alphabet.md R147): the lowest index of an invalid character, if there is one. -/
def validateFrom (al : Alphabet) (k : Nat) : List CodeUnit → Option Nat
  | [] => none
  | ch :: rest =>
      if al = .base64 ∧ ch = padChar then
        if isTrailingPad (ch :: rest) then validateFrom al (k + 1) rest else some k
      else if unmapChar al ch = none then some k
      else validateFrom al (k + 1) rest

/-- The length of the final run of `=`. -/
def padRun (chars : List CodeUnit) : Nat := (chars.reverse.takeWhile (· == padChar)).length

/-- NDATA (41_alphabet.md R148): the characters that carry bits. -/
def dataLength (al : Alphabet) (chars : List CodeUnit) : Nat :=
  match al with
  | .base64 => chars.length - padRun chars
  | .uri => chars.length

end Sys2Proof.Machine
end

