-- ==== Sys2Proof/Machine/BitPack.lean ====
section
/-! DEFINITION. The bit sink and the bit source (40_bitpack.md), and the padding of BASE64 output
(41_alphabet.md R145). -/

namespace Sys2Proof.Machine

open Sys2Proof

/-! ### Bit sink -/

/-- The sink registers SinkInit writes (40_bitpack.md R120). -/
def SinkRegs.init : SinkRegs := { acc := 0, pos := 0, outN := 0 }

/-- The accumulator with one more bit (40_bitpack.md R123): the bit pushed at POS = p becomes bit 5 - p (R121). -/
def shiftIn (acc : Group) (b : Bool) : Group := (acc <<< 1) ||| BitVec.ofNat 6 b.toNat

/-- One more bit in ACC (40_bitpack.md R123). -/
def SinkRegs.shift (k : SinkRegs) (b : Bool) : SinkRegs := { k with acc := shiftIn k.acc b, pos := k.pos + 1 }

/-- ACC <- 0 and POS <- 0 (40_bitpack.md R123). -/
def SinkRegs.clear (k : SinkRegs) : SinkRegs := { k with acc := 0, pos := 0 }

/-- OUT_N <- OUT_N + 1 (40_bitpack.md R125). -/
def SinkRegs.count (k : SinkRegs) : SinkRegs := { k with outN := k.outN + 1 }

/-- SinkInit (40_bitpack.md R120). -/
def sinkInit (s : State) : State := s.setSink .init

/-- Write one character at OUT_N, or raise RESOURCE(3): the common part of PutChar (40_bitpack.md R125) and of
PadOut (41_alphabet.md R145). -/
def putRaw (ch : CodeUnit) (s : State) : Eng Unit :=
  if s.sink.outN = s.cfg.outCap then .raise (.resource .output) s
  else .ok () ((s.memWrite s.sink.outN ch).setSink s.sink.count)

/-- PutChar(g) (40_bitpack.md R125). -/
def putChar (g : Group) (s : State) : Eng Unit := putRaw (mapGroup s.alphl g) s

/-- PushBit(b) (40_bitpack.md R123). DESIGN CHOICE (log entry 24): where PutChar raises RESOURCE(3), ACC keeps the
value it had before the bit; the operation ends there, and UB5 leaves ACC at any value. -/
def pushBit (b : Bool) (s : State) : Eng Unit :=
  if s.sink.pos = bpc - 1 then
    (putChar (shiftIn s.sink.acc b) s).bind fun _ t => .ok () (t.setSink t.sink.clear)
  else .ok () (s.setSink (s.sink.shift b))

/-- PushBit for each bit in turn. -/
def pushBits : List Bool → State → Eng Unit
  | [], s => .ok () s
  | b :: bs, s => (pushBit b s).bind fun _ t => pushBits bs t

/-- Emit(v, n) (40_bitpack.md R122). A value that does not fit is a fault (R127, UB16). -/
def emit (v n : Nat) (s : State) : Eng Unit :=
  if 1 ≤ n ∧ n ≤ 25 ∧ v < 2 ^ n then pushBits (fieldBits s.cfg.order n v) s else .stop .emitOutOfRange

/-- Flush() (40_bitpack.md R124): zero bits up to the end of the character, at least one; where the last of them
raises, ACC is as `pushBit` leaves it (DESIGN CHOICE, log entry 24). -/
def flush (s : State) : Eng Unit := pushBits (List.replicate (bpc - s.sink.pos) false) s

/-- The number of `=` PadOut adds after `n` characters (41_alphabet.md R145): 0→0, 1→3, 2→2, 3→1. -/
def padCount (n : Nat) : Nat := (4 - n % 4) % 4

/-- Write `n` pad characters. -/
def putPads : Nat → State → Eng Unit
  | 0, s => .ok () s
  | n + 1, s => (putRaw padChar s).bind fun _ t => putPads n t

/-- PadOut (41_alphabet.md R145, R146). -/
def padOut (s : State) : Eng Unit :=
  match s.alphl with
  | .base64 => putPads (padCount s.sink.outN) s
  | .uri => .ok () s

/-! ### Bit source -/

/-- SourceInit (40_bitpack.md R128). -/
def sourceInit (ndata : Nat) (s : State) : State :=
  s.setSrc { cur := 0, rem := 0, idx := 0, ndata := ndata, bcnt := 0 }

/-- The next character is fetched as the group `g` (40_bitpack.md R129). -/
def SourceRegs.fetch (r : SourceRegs) (g : Group) : SourceRegs := { r with cur := g, idx := r.idx + 1, rem := bpc }

/-- The next bit of CUR is taken (40_bitpack.md R129). -/
def SourceRegs.take (r : SourceRegs) : SourceRegs := { r with rem := r.rem - 1, bcnt := r.bcnt + 1 }

/-- The bit of CUR that is next (40_bitpack.md R129). -/
def SourceRegs.bit (r : SourceRegs) : Bool := r.cur.getLsbD (r.rem - 1)

/-- ReadBit() (40_bitpack.md R129). -/
def readBit (s : State) : Eng Bool :=
  if s.src.rem = 0 then
    if s.src.idx = s.src.ndata then .raise (.truncated s.src.bcnt) s
    else match unmapChar s.alphl (s.memRead s.src.idx) with
      | none => .stop .invalidCharacter
      | some g => .ok (s.src.fetch g).bit (s.setSrc (s.src.fetch g).take)
  else .ok s.src.bit (s.setSrc s.src.take)

/-- The bits ReadBits(n) takes, in stream order (40_bitpack.md R130). -/
def readRaw : Nat → State → Eng (List Bool)
  | 0, s => .ok [] s
  | n + 1, s => (readBit s).bind fun b t => (readRaw n t).bind fun bs u => .ok (b :: bs) u

/-- ReadBits(n) (40_bitpack.md R130): bits taken before a fault stay consumed, the value is discarded. -/
def readBits (n : Nat) (s : State) : Eng Nat :=
  (readRaw n s).bind fun bs t => .ok (fieldValue t.cfg.order bs) t

/-- The bits of the next token (30_encoding.md R95): `w` marker bits, then the payload the marker's value fixes. -/
def readToken (w : Nat) (s : State) : Eng (List Bool) :=
  (readRaw w s).bind fun m t =>
    (readRaw (payloadLength (fieldValue t.cfg.order m)) t).bind fun p u => .ok (m ++ p) u

end Sys2Proof.Machine
end

