-- ==== Sys2Proof/Machine/Decoder.lean ====
section
/-! DEFINITION. The dictionary decoder (43_decoder.md): D_DICT, Append, Seed, Tail, and the meanings of the tokens
DECOMPRESS reads. -/

namespace Sys2Proof.Machine

open Sys2Proof

/-- D_DICT[k] (10_state.md R38): the phrase of an index, where it holds one. -/
def dictPhrase : List (Nat × Phrase) → Nat → Option Phrase
  | [], _ => none
  | (j, p) :: d, k => if j = k then some p else dictPhrase d k

/-- The registers after DInsert(p) where it has room (43_decoder.md R208). -/
def DecRegs.insert (d : DecRegs) (p : Phrase) : DecRegs :=
  { d with dict := (d.next, p) :: d.dict, next := d.next + 1 }

/-- Tick(D_WIDTH, D_ENL) (42_encoder.md R163). -/
def DecRegs.tick (d : DecRegs) : DecRegs :=
  { d with width := (Machine.tick d.width d.enl).1, enl := (Machine.tick d.width d.enl).2 }

/-- D_W <- k. -/
def DecRegs.setW (d : DecRegs) (k : Nat) : DecRegs := { d with w := k }

/-- The decoder registers DecInit writes; D_W is written by the seed (43_decoder.md R192). -/
def DecRegs.init (d : DecRegs) : DecRegs := { d with next := 3, width := 2, enl := 1, resLen := 0, dict := [] }

/-- RES_LEN <- RES_LEN + 1 (43_decoder.md R207). -/
def DecRegs.count (d : DecRegs) : DecRegs := { d with resLen := d.resLen + 1 }

/-- DecInit (43_decoder.md R192). -/
def decInit (ndata : Nat) (s : State) : State := (sourceInit ndata s).setDec s.dec.init

/-- DInsert(p) (43_decoder.md R208). -/
def decInsert (p : Phrase) (s : State) : Eng Unit :=
  if s.dec.next = s.cfg.dictCap then .raise (.resource .dictionary) s
  else .ok () (s.setDec (s.dec.insert p))

/-- One unit of Append (43_decoder.md R207). -/
def appendUnit (u : CodeUnit) (s : State) : Eng Unit :=
  if s.dec.resLen = s.cfg.outCap then .raise (.resource .output) s
  else .ok () ((s.memWrite s.dec.resLen u).setDec s.dec.count)

/-- Append(p) (43_decoder.md R207). -/
def append : Phrase → State → Eng Unit
  | [], s => .ok () s
  | u :: p, s => (appendUnit u s).bind fun _ t => append p t

/-- Seed(c) (43_decoder.md R197). -/
def seed (c : CodeUnit) (s : State) : Eng Unit :=
  (decInsert [c] s).bind fun _ t => append [c] (t.setDec (t.dec.tick.setW 3))

/-- The entry Tail(k) outputs (43_decoder.md R204): D_DICT[k] where k < D_NEXT is known, D_DICT[D_W] extended by its
own first unit where k = D_NEXT. -/
def tailEntry (k : Nat) (d : DecRegs) : Except Fault Phrase :=
  if k < d.next then
    match dictPhrase d.dict k with
    | some p => .ok p
    | none => .error .dictionaryHole
  else if k = d.next then
    match dictPhrase d.dict d.w with
    | some (u :: p) => .ok (u :: p ++ [u])
    | some [] => .error .dictionaryHole
    | none => .error .dictionaryHole
  else .error .tailOutOfRange

/-- Tail(k) (43_decoder.md R204). -/
def tail (k : Nat) (s : State) : Eng Unit :=
  match tailEntry k s.dec, dictPhrase s.dec.dict s.dec.w with
  | .ok (u :: p), some w =>
      (append (u :: p) s).bind fun _ t => (decInsert (w ++ [u]) t).bind fun _ v =>
        .ok () (v.setDec (v.dec.tick.setW k))
  | .ok [], some _ => .stop .dictionaryHole
  | .ok _, none => .stop .dictionaryHole
  | .error f, _ => .stop f

/-- A literal token in the loop (43_decoder.md R198, R199). -/
def loopLiteral (c : CodeUnit) (s : State) : Eng Unit :=
  (decInsert [c] s).bind fun _ t => tail (t.dec.next - 1) (t.setDec t.dec.tick)

/-- DEC_FIRST_LIT8 (43_decoder.md R193). -/
def execDecFirstLit8 (c : BitVec 8) (s : State) : Host.Outcome State Fault Refusal :=
  (seed (c.setWidth 16) s).outcome

/-- DEC_FIRST_LIT16 (43_decoder.md R194). -/
def execDecFirstLit16 (c : BitVec 16) (s : State) : Host.Outcome State Fault Refusal :=
  (seed c s).outcome

/-- DEC_FIRST_EOS (43_decoder.md R195): the empty result. -/
def execDecFirstEos (s : State) : Host.Outcome State Fault Refusal := .next (s.returned (.ok 0))

/-- DEC_FIRST_CORRUPT (43_decoder.md R196). -/
def execDecFirstCorrupt (s : State) : Host.Outcome State Fault Refusal :=
  (Eng.raise (.dictCorrupt 3) s : Eng Unit).outcome

/-- DEC_LIT8 (43_decoder.md R198). -/
def execDecLit8 (c : BitVec 8) (s : State) : Host.Outcome State Fault Refusal :=
  (loopLiteral (c.setWidth 16) s).outcome

/-- DEC_LIT16 (43_decoder.md R199). -/
def execDecLit16 (c : BitVec 16) (s : State) : Host.Outcome State Fault Refusal :=
  (loopLiteral c s).outcome

/-- DEC_EOS (43_decoder.md R200): Run returns OUT[0 .. RES_LEN-1]. -/
def execDecEos (s : State) : Host.Outcome State Fault Refusal := .next (s.returned (.ok s.dec.resLen))

/-- DEC_CODE_KNOWN (43_decoder.md R201). -/
def execDecCodeKnown (k : Nat) (s : State) : Host.Outcome State Fault Refusal := (tail k s).outcome

/-- DEC_CODE_SELF (43_decoder.md R202). -/
def execDecCodeSelf (k : Nat) (s : State) : Host.Outcome State Fault Refusal := (tail k s).outcome

/-- DEC_CODE_CORRUPT (43_decoder.md R203). -/
def execDecCodeCorrupt (k : Nat) (s : State) : Host.Outcome State Fault Refusal :=
  (Eng.raise (.dictCorrupt k) s : Eng Unit).outcome

end Sys2Proof.Machine
end

