-- ==== Sys2Proof/Machine/Encoder.lean ====
section
/-! DEFINITION. The dictionary encoder (42_encoder.md): E_DICT and E_PEND, the blocks of EncStep, and the meanings of the
tokens COMPRESS emits. -/

namespace Sys2Proof.Machine

open Sys2Proof

/-- E_DICT[p] (10_state.md R36): the code of the phrase, where it is a key. -/
def dictCode : List (Phrase × Nat) → Phrase → Option Nat
  | [], _ => none
  | (q, k) :: d, p => if q = p then some k else dictCode d p

/-- The encoder registers EncInit writes (42_encoder.md R162). -/
def EncRegs.init : EncRegs := { w := [], next := 3, width := 2, enl := 2, i := 0, dict := [], pend := [] }

/-- The registers after Insert(p) where it has room (42_encoder.md R174). -/
def EncRegs.insert (e : EncRegs) (p : Phrase) : EncRegs :=
  { e with dict := (p, e.next) :: e.dict, next := e.next + 1 }

/-- Tick(E_WIDTH, E_ENL) (42_encoder.md R163). -/
def EncRegs.tick (e : EncRegs) : EncRegs :=
  { e with width := (Machine.tick e.width e.enl).1, enl := (Machine.tick e.width e.enl).2 }

/-- E_PEND <- E_PEND ∪ {p} (42_encoder.md R164). -/
def EncRegs.pendAdd (e : EncRegs) (p : Phrase) : EncRegs :=
  { e with pend := if p ∈ e.pend then e.pend else p :: e.pend }

/-- E_PEND <- E_PEND \ {p} (42_encoder.md R167, R168). -/
def EncRegs.pendRemove (e : EncRegs) (p : Phrase) : EncRegs := { e with pend := e.pend.filter (· ≠ p) }

/-- E_I <- E_I + 1 (42_encoder.md R164). -/
def EncRegs.advance (e : EncRegs) : EncRegs := { e with i := e.i + 1 }

/-- E_W <- p. -/
def EncRegs.setW (e : EncRegs) (p : Phrase) : EncRegs := { e with w := p }

/-- EncInit (42_encoder.md R162). -/
def encInit (s : State) : State := s.setEnc .init

/-- Insert(p) (42_encoder.md R174). -/
def encInsert (p : Phrase) (s : State) : Eng Unit :=
  if s.enc.next = s.cfg.dictCap then .raise (.resource .dictionary) s
  else .ok () (s.setEnc (s.enc.insert p))

/-- EncStep, first-sight registration (42_encoder.md R164) of the unit `c`. -/
def encRegister (c : CodeUnit) (s : State) : Eng Unit :=
  if dictCode s.enc.dict [c] = none then
    (encInsert [c] s).bind fun _ t => .ok () (t.setEnc (t.enc.pendAdd [c]))
  else .ok () s

/-- EncStep, extend or break (42_encoder.md R165, R166): E_W + c is a key, or EmitPhrase(E_W) is next. -/
def encExtend (c : CodeUnit) (s : State) : State :=
  if dictCode s.enc.dict (s.enc.w ++ [c]) = none then s.setStage (.encBreak c)
  else s.setEnc (s.enc.setW (s.enc.w ++ [c]))

/-- EncStep up to the point where a token is due (42_encoder.md R164 to R166). -/
def encStep (s : State) : Eng Unit :=
  (encRegister (s.memRead s.enc.i) (s.setEnc s.enc.advance)).bind fun _ t =>
    .ok () (encExtend (s.memRead s.enc.i) t)

/-- EncStep after its token (42_encoder.md R166): Insert(E_W + c), then E_W <- [c]. -/
def encAfterBreak (c : CodeUnit) (s : State) : Eng Unit :=
  (encInsert (s.enc.w ++ [c]) s).bind fun _ t => .ok () (t.setEnc (t.enc.setW [c]))

/-- EmitPhrase(E_W): the one of R167, R168, R169 whose condition holds, as an instruction. -/
def chooseToken (e : EncRegs) : Option Instr :=
  if e.w ∈ e.pend then
    match e.w with
    | [] => none
    | v :: _ => if v.toNat < 256 then some (.encLit8 (v.setWidth 8)) else some (.encLit16 v)
  else (dictCode e.dict e.w).map .encCode

/-- A literal token of 42_encoder.md R167, R168: marker `t`, payload `u` of `n` bits, and the two Ticks around the
removal of [u] from E_PEND. -/
def emitLiteral (t n : Nat) (u : CodeUnit) (s : State) : Eng Unit :=
  (emit t s.enc.width s).bind fun _ s₁ => (emit u.toNat n s₁).bind fun _ s₂ =>
    .ok () (s₂.setEnc ((s₂.enc.tick.pendRemove [u]).tick))

/-- ENC_LIT8 (42_encoder.md R167). -/
def execEncLit8 (c : BitVec 8) (s : State) : Host.Outcome State Fault Refusal :=
  (emitLiteral 0 8 (c.setWidth 16) s).outcome

/-- ENC_LIT16 (42_encoder.md R168). -/
def execEncLit16 (c : BitVec 16) (s : State) : Host.Outcome State Fault Refusal :=
  (emitLiteral 1 16 c s).outcome

/-- ENC_CODE (42_encoder.md R169). -/
def execEncCode (k : Nat) (s : State) : Host.Outcome State Fault Refusal :=
  ((emit k s.enc.width s).bind fun _ t => .ok () (t.setEnc t.enc.tick)).outcome

/-- ENC_EOS (42_encoder.md R170): EOS without a Tick, Flush, PadOut, and Run returns OUT[0 .. OUT_N-1]. -/
def execEncEos (s : State) : Host.Outcome State Fault Refusal :=
  ((emit 2 s.enc.width s).bind fun _ s₁ => (flush s₁).bind fun _ s₂ => (padOut s₂).bind fun _ s₃ =>
    .ok () (s₃.returned (.ok s₃.sink.outN))).outcome

end Sys2Proof.Machine
end

