-- ==== Sys2Proof/Machine/Dispatch.lean ====
section
/-! DEFINITION. One arm per instruction: the row's own meaning. -/

namespace Sys2Proof.Machine

open Sys2Proof

def exec (i : Instr) (s : State) : Host.Outcome State Fault Refusal :=
  match i with
  | .ctrlWriteBusy v => Sys2Proof.Machine.execCtrlWriteBusy v s
  | .setmode alph op => Sys2Proof.Machine.execSetmode alph op s
  | .compressB64 => Sys2Proof.Machine.execCompressB64 s
  | .decompressB64 => Sys2Proof.Machine.execDecompressB64 s
  | .compressUri => Sys2Proof.Machine.execCompressUri s
  | .decompressUri => Sys2Proof.Machine.execDecompressUri s
  | .ctrlIllegal v => Sys2Proof.Machine.execCtrlIllegal v s
  | .encLit8 c => Sys2Proof.Machine.execEncLit8 c s
  | .encLit16 c => Sys2Proof.Machine.execEncLit16 c s
  | .encCode k => Sys2Proof.Machine.execEncCode k s
  | .encEos => Sys2Proof.Machine.execEncEos s
  | .decFirstLit8 c => Sys2Proof.Machine.execDecFirstLit8 c s
  | .decFirstLit16 c => Sys2Proof.Machine.execDecFirstLit16 c s
  | .decFirstEos => Sys2Proof.Machine.execDecFirstEos s
  | .decFirstCorrupt => Sys2Proof.Machine.execDecFirstCorrupt s
  | .decLit8 c => Sys2Proof.Machine.execDecLit8 c s
  | .decLit16 c => Sys2Proof.Machine.execDecLit16 c s
  | .decEos => Sys2Proof.Machine.execDecEos s
  | .decCodeKnown k => Sys2Proof.Machine.execDecCodeKnown k s
  | .decCodeSelf k => Sys2Proof.Machine.execDecCodeSelf k s
  | .decCodeCorrupt k => Sys2Proof.Machine.execDecCodeCorrupt k s
  | .rdCtrl => Sys2Proof.Machine.execRdCtrl s
  | .wrCtrl v => Sys2Proof.Machine.execWrCtrl v s
  | .rwStatus a => Sys2Proof.Machine.execRwStatus a s
  | .rwInLen a => Sys2Proof.Machine.execRwInLen a s
  | .rdOutLen a => Sys2Proof.Machine.execRdOutLen a s
  | .rdErrInfo a => Sys2Proof.Machine.execRdErrInfo a s
  | .rdConfig a => Sys2Proof.Machine.execRdConfig a s
  | .rdInCapR a => Sys2Proof.Machine.execRdInCapR a s
  | .rdOutCapR a => Sys2Proof.Machine.execRdOutCapR a s
  | .rdDictCapR a => Sys2Proof.Machine.execRdDictCapR a s
  | .rwReservedReg idx a => Sys2Proof.Machine.execRwReservedReg idx a s
  | .rwIn k a => Sys2Proof.Machine.execRwIn k a s
  | .rdOut k a => Sys2Proof.Machine.execRdOut k a s
  | .busIllegal off w a => Sys2Proof.Machine.execBusIllegal off w a s

end Sys2Proof.Machine
end

