-- ==== Sys2Proof/Machine/Engine.lean ====
section
/-! DEFINITION. The engine: how Run (44_host_interface.md R237) goes from one block of its pseudocode to the next. The
tokens it emits and reads are instructions, run by `exec`; here stands what is around them. -/

namespace Sys2Proof.Machine

open Sys2Proof

/-- The input characters or units of the operation: IN[0 .. N-1] of the snapshot. -/
def State.inputUnits (s : State) : List CodeUnit := (List.range s.snapLen.toNat).map s.memRead

/-- Compress() up to its loop (42_encoder.md R160 to R162). -/
def startCompress (s : State) : Eng Unit :=
  if s.snapLen.toNat = 0 then .ok () (s.returned (.ok 0))
  else .ok () ((sinkInit (encInit s)).setStage .encLoop)

/-- Decompress() up to its first token (43_decoder.md R190 to R192): Validate comes before the empty case. -/
def startDecompress (s : State) : Eng Unit :=
  match validateFrom s.alphl 0 s.inputUnits with
  | some k => .raise (.alphabet k) s
  | none =>
      if s.snapLen.toNat = 0 then .ok () (s.returned (.ok 0))
      else .ok () ((decInit (dataLength s.alphl s.inputUnits) s).setStage .decFirst)

/-- The beginning of Run (44_host_interface.md R237): the capacity check, then the operation. -/
def startRun (s : State) : Eng Unit :=
  if s.cfg.inCap < s.snapLen.toNat then .raise (.resource .input) s
  else match s.opl with
    | .compress => startCompress s
    | .decompress => startDecompress s

/-- The head of the COMPRESS loop (42_encoder.md R160): one more EncStep, or EncFinish. -/
def encHead (s : State) : Eng Unit :=
  if s.enc.i < s.snapLen.toNat then encStep s else .ok () (s.setStage .encLast)

/-- EmitPhrase(E_W) (42_encoder.md section 3): run the token that E_W, E_PEND and E_DICT choose; `after` is what
follows it. -/
def emitPhrase (after : Stage) (s : State) : Host.Outcome State Fault Refusal :=
  match chooseToken s.enc with
  | some i => exec i (s.setStage after)
  | none => .fault .dictionaryHole

/-- Read the next token and run it (43_decoder.md R190 and section 3): a bit demanded beyond the data raises TRUNCATED
before the token's value is looked at (60_exceptions.md R260). `w` is the code width it is read at. -/
def runToken (w : Nat) (s : State) : Host.Outcome State Fault Refusal :=
  match readToken w s with
  | .raise e t => .next (t.returned (.err e))
  | .stop f => .fault f
  | .ok bits t =>
      match decode s.decodeCtx (.token bits) with
      | .ok i => exec i (t.setStage .decLoop)
      | .error _ => .fault .undecodable

/-- One turn of the engine. While STATE is not BUSY it has nothing to do (60_exceptions.md R269). -/
def engineTurn (s : State) : Host.Outcome State Fault Refusal :=
  if s.busy then
    match s.stage with
    | .idle => .fault .noOperation
    | .start => (startRun s).outcome
    | .encLoop => (encHead s).outcome
    | .encBreak c => emitPhrase (.encInsert c) s
    | .encInsert c => (encAfterBreak c (s.setStage .encLoop)).outcome
    | .encLast => emitPhrase .encEos s
    | .encEos => exec .encEos s
    | .decFirst => runToken 2 s
    | .decLoop => runToken s.dec.width s
    | .complete r => .next (s.completion r)
  else .next s

/-- The engine left alone for at most `n` turns: it stops early when the operation has completed. -/
def engineRun : Nat → State → Host.Outcome State Fault Refusal
  | 0, s => .next s
  | n + 1, s =>
      if s.busy then
        match engineTurn s with
        | .next t => engineRun n t
        | .fault f => .fault f
        | .refused r => .refused r
      else .next s

/-- A number of turns after which every operation has completed (42_encoder.md R177: N steps and one finish;
43_decoder.md R209: at most 2 * NDATA + 1 token reads), with the beginning of Run and the completion step. -/
def State.turnBound (s : State) : Nat := 3 * s.snapLen.toNat + 6

end Sys2Proof.Machine
end

