-- ==== Sys2Proof/Machine/Step.lean ====
section
/-! DEFINITION. One step of the block: the next event of the host, the platform or the engine. -/

namespace Sys2Proof.Machine

open Sys2Proof

/-- The event writes nothing of the block: a read (20_memory.md R70), an illegal access (R66), or a turn of an engine
that is not busy (60_exceptions.md R269). -/
def State.writesNothing (s : State) : Event → Bool
  | .access a => a.kind == .read || !accessLegal s.cfg (a.addr - s.cfg.baseAddr).toNat a.width
  | .reset => false
  | .engine => true

/-- The counter of the free values after an event (log entries 4, 5): while the engine is not busy it stays over an
event that writes nothing, since 20_memory.md R70 makes a read repeatable there; it goes on over every other one. -/
def State.nextFree (s : State) (e : Event) : Nat :=
  if s.busy = false ∧ s.writesNothing e = true then s.freeCtr else s.freeCtr + 1

/-- The event `e` is taken from the inputs, `rest` remain. -/
def State.take (e : Event) (rest : List Event) (s : State) : State :=
  { s with events := rest, freeCtr := s.nextFree e }

/-- The effect of one event (44_host_interface.md R220): a bus access runs the instruction it decodes to. -/
def State.event (e : Event) (s : State) : Host.Outcome State Fault Refusal :=
  match e with
  | .access a => exec (decodeAccess s.cfg a) s
  | .reset => .next s.resetEvent
  | .engine => engineTurn s

/-- One step: the first waiting event; with none waiting the engine goes on until its operation completes
(44_host_interface.md R238), and a block that is not busy stays as it is (60_exceptions.md R269, UB24). -/
def step (s : State) : Host.Outcome State Fault Refusal :=
  match s.events with
  | e :: rest => (s.take e rest).event e
  | [] => if s.busy then engineTurn s.countEvent else .next s

/-- The characters that carry a bit sequence, six bits each, the last one filled with zero bits (40_bitpack.md R121,
R124). `n` is the number of characters. -/
def charsOf (al : Alphabet) : Nat → List Bool → List CodeUnit
  | 0, _ => []
  | n + 1, bits =>
      mapGroup al (BitVec.ofNat 6 (fieldValue .msbFirst ((bits ++ List.replicate bpc false).take bpc))) ::
        charsOf al n (bits.drop bpc)

/-- A buffer holding `xs` from index `k` on. -/
def Memory.ofList : Nat → List CodeUnit → Memory
  | _, [] => []
  | k, x :: xs => (k, x) :: Memory.ofList (k + 1) xs

/-- `s` where the next token DECOMPRESS reads is the first one of a stream with these bits. -/
def State.withStream (bits : List Bool) (s : State) : State :=
  let chars := charsOf s.alphl ((bits.length + 5) / 6) bits
  decInit chars.length
    { s with
      status := .busy, phase := .run, opl := .decompress, stage := .decFirst, outBuf := []
      snapLen := BitVec.ofNat 32 chars.length, snapIn := Memory.ofList 0 chars, events := [] }

/-- `s` with a word of the opcode table placed where the next step fetches its instruction (log entries 11, 12): an
access or a command is the next event, a command as the write of CTRL that carries it; the bits of a first token
are the stream of a DECOMPRESS that has just begun. -/
def State.withFetchWord (s : State) (nbits w : Nat) : State :=
  match tableEncoded s.cfg nbits w with
  | .access a => s.setEvents (.access a :: s.events)
  | .command v => s.setEvents (.access (accessAt s.cfg 0 (.write v)) :: s.events)
  | .token bits => s.withStream bits

end Sys2Proof.Machine
end

