-- ==== Sys2Proof/Machine/HostProgram.lean ====
section
/-! DEFINITION. The host's programs as inputs of the block: the lines and pseudo-instructions of 30_encoding.md R103,
R104, and the listing syntax of tokens (R102). -/

namespace Sys2Proof.Machine

open Sys2Proof

/-- `WR <offset>, <value>`. -/
def wr (p : Params) (off : Nat) (v : Word) : Event := .access (accessAt p off (.write v))

/-- `RD <offset>`. -/
def rd (p : Params) (off : Nat) : Event := .access (accessAt p off .read)

/-- The offset of IN[k]. -/
def inOffset (k : Nat) : Nat := 0x00100000 + 4 * k

/-- The offset of OUT[k]. -/
def outOffset (k : Nat) : Nat := 0x00200000 + 4 * k

/-- `WR IN[k], x` for the elements of `xs` from index `k` on. -/
def writeIn (p : Params) : Nat → List CodeUnit → List Event
  | _, [] => []
  | k, x :: xs => wr p (inOffset k) (x.setWidth 32) :: writeIn p (k + 1) xs

/-- `LOAD s`. -/
def load (p : Params) (xs : List CodeUnit) : List Event :=
  wr p 0x008 (BitVec.ofNat 32 xs.length) :: writeIn p 0 xs

/-- `COMPRESS a`. -/
def startCompressOf (p : Params) (al : Alphabet) : Event := wr p 0x000 (commandWord true .compress al)

/-- `DECOMPRESS a`. -/
def startDecompressOf (p : Params) (al : Alphabet) : Event := wr p 0x000 (commandWord true .decompress al)

/-- `n` rounds of `POLL` (`WAIT`): how many the loop makes is not specified (70_reset_and_hazards.md R291). -/
def poll (p : Params) (n : Nat) : List Event := List.replicate n (rd p 0x004)

/-- `FETCH`, where the read of OUT_LEN gave `m`. -/
def fetchOut (p : Params) (m : Nat) : List Event :=
  rd p 0x00C :: (List.range m).map fun k => rd p (outOffset k)

/-- `n` hexadecimal digits of `v`. -/
def hexDigits (n v : Nat) : String :=
  "0x" ++ String.ofList ((List.range n).map fun j => Nat.digitChar (v / 16 ^ (n - 1 - j) % 16))

/-- The listing of a token at code width `w` (R102); an instruction that is no token has none. -/
def listToken (w : Nat) : Instr → Option String
  | .encLit8 c => some ("LIT8 w=" ++ toString w ++ " " ++ hexDigits 2 c.toNat)
  | .encLit16 c => some ("LIT16 w=" ++ toString w ++ " " ++ hexDigits 4 c.toNat)
  | .encCode k => some ("CODE w=" ++ toString w ++ " " ++ toString k)
  | .encEos => some ("EOS w=" ++ toString w)
  | .decFirstLit8 c => some ("LIT8 w=2 " ++ hexDigits 2 c.toNat)
  | .decFirstLit16 c => some ("LIT16 w=2 " ++ hexDigits 4 c.toNat)
  | .decFirstEos => some "EOS w=2"
  | .decLit8 c => some ("LIT8 w=" ++ toString w ++ " " ++ hexDigits 2 c.toNat)
  | .decLit16 c => some ("LIT16 w=" ++ toString w ++ " " ++ hexDigits 4 c.toNat)
  | .decEos => some ("EOS w=" ++ toString w)
  | .decCodeKnown k => some ("CODE w=" ++ toString w ++ " " ++ toString k)
  | .decCodeSelf k => some ("CODE w=" ++ toString w ++ " " ++ toString k)
  | .decCodeCorrupt k => some ("CODE w=" ++ toString w ++ " " ++ toString k)
  | .decFirstCorrupt => some "CODE w=2 3"
  | .ctrlWriteBusy _ => none
  | .setmode _ _ => none
  | .compressB64 => none
  | .decompressB64 => none
  | .compressUri => none
  | .decompressUri => none
  | .ctrlIllegal _ => none
  | .rdCtrl => none
  | .wrCtrl _ => none
  | .rwStatus _ => none
  | .rwInLen _ => none
  | .rdOutLen _ => none
  | .rdErrInfo _ => none
  | .rdConfig _ => none
  | .rdInCapR _ => none
  | .rdOutCapR _ => none
  | .rdDictCapR _ => none
  | .rwReservedReg _ _ => none
  | .rwIn _ _ => none
  | .rdOut _ _ => none
  | .busIllegal _ _ _ => none

end Sys2Proof.Machine
end

