-- ==== Sys2Proof/Safety.lean ====
section
/-! DEFINITION. What holds of the block between any two steps: the host-visible part (10_state.md R22 to R31), the
dictionaries, widths and cursors of a running operation (42_encoder.md R171 to R173, 43_decoder.md R205), what the host
can see of a state, and the words the statements are made in. -/

namespace Sys2Proof.Machine

open Sys2Proof

/-- The buffer lists exactly the elements 0 .. n-1. -/
abbrev Memory.filled (m : Memory) (n : Nat) : Prop := m.map Prod.fst = List.range n

/-- Every listed element has an index below `n`. -/
abbrev Memory.below (m : Memory) (n : Nat) : Prop := ∀ e ∈ m, e.1 < n

/-- The width invariant (42_encoder.md R171, 43_decoder.md R205) of a width, its enlarge counter, and the number V
of codes it has to represent. -/
structure Balanced (width enl v : Nat) : Prop where
  width_ge : 2 ≤ width
  enl_pos  : 1 ≤ enl
  enl_le   : enl ≤ 2 ^ (width - 1)
  total    : enl + v = 2 ^ width

/-- The host-visible part. -/
structure HostInv (s : State) : Prop where
  /-- the parameters are in the ranges of 00_scope.md R9 -/
  cfg       : s.cfg.wf
  /-- PHASE = RUN exactly when STATE = BUSY (10_state.md R31) -/
  phase     : s.phase = .run ↔ s.status = .busy
  /-- an operation stands somewhere in Run exactly when STATE = BUSY -/
  stage     : s.stage = .idle ↔ s.status ≠ .busy
  /-- ERR is 0 unless STATE = ERROR, and then it is not (10_state.md R22) -/
  err       : s.err = .none ↔ s.status ≠ .error
  /-- IDLE: no operation has run since reset (10_state.md R23) -/
  idle      : s.status = .idle → s.outLen = 0 ∧ s.errInfo = 0
  /-- ERROR: no result (10_state.md R25) -/
  error     : s.status = .error → s.outLen = 0
  /-- DONE: OUT[0 .. OUT_LEN-1] holds the result, and ERR_INFO is 0 (10_state.md R23, R26) -/
  done      : s.status = .done → s.errInfo = 0 ∧ s.outBuf.filled s.outLen.toNat ∧ s.outLen.toNat ≤ s.cfg.outCap
  /-- IN is in canonical form and within IN_CAP -/
  inWf      : s.inBuf.wf
  inBelow   : s.inBuf.below s.cfg.inCap
  /-- OUT is in canonical form and within OUT_CAP -/
  outWf     : s.outBuf.wf
  outBelow  : s.outBuf.below s.cfg.outCap
  /-- a running operation works on what IN_LEN and IN still hold (20_memory.md R72) -/
  snapshot  : s.status = .busy → s.snapLen = s.inLen ∧ s.snapIn = s.inBuf
  /-- and with the operation and alphabet CTRL shows (10_state.md R31) -/
  latches   : s.status = .busy → s.opl = s.ctrlOp ∧ s.alphl = s.ctrlAlph

/-- The keys of E_DICT. -/
def EncRegs.keys (e : EncRegs) : List Phrase := e.dict.map Prod.fst

/-- The dictionary invariant of the encoder (42_encoder.md R173), with the capacity of R174. -/
structure EncDictInv (dictCap : Nat) (e : EncRegs) : Prop where
  next_ge  : 3 ≤ e.next
  next_le  : e.next ≤ dictCap
  /-- the codes are exactly 3 .. E_NEXT-1, each used once, in increasing order -/
  codes    : e.dict.map Prod.snd = (List.range' 3 (e.next - 3)).reverse
  /-- a phrase has one code -/
  keys     : e.keys.Nodup
  /-- no key is empty -/
  nonempty : [] ∉ e.keys
  /-- every key longer than one unit extends another key by one unit -/
  extends_ : ∀ p c, p ≠ [] → p ++ [c] ∈ e.keys → p ∈ e.keys
  /-- the last unit of a key has been registered (42_encoder.md R164) -/
  units    : ∀ p c, p ++ [c] ∈ e.keys → [c] ∈ e.keys
  /-- a pending phrase is a key that no entry extends yet: its literal comes first (42_encoder.md R166, R172) -/
  pending  : ∀ p ∈ e.pend, p ∈ e.keys ∧ ∀ c, p ++ [c] ∉ e.keys

/-- The bit sink between steps (10_state.md R34): OUT holds what has been written. -/
structure SinkInv (s : State) : Prop where
  pos    : s.sink.pos ≤ 5
  acc    : s.sink.acc.toNat < 2 ^ s.sink.pos
  outN   : s.sink.outN ≤ s.cfg.outCap
  filled : s.outBuf.filled s.sink.outN

/-- What holds of COMPRESS at every one of its blocks. -/
structure EncInv (s : State) : Prop where
  op    : s.opl = .compress
  some_ : 0 < s.snapLen.toNat
  fits  : s.snapLen.toNat ≤ s.cfg.inCap
  dict  : EncDictInv s.cfg.dictCap s.enc
  sink  : SinkInv s
  i     : s.enc.i ≤ s.snapLen.toNat

/-- E_W is a key, E_PEND is {E_W} or empty (42_encoder.md R172, R173), and the widths stand as R171 says; V is
E_NEXT - 1 less the phrases still pending. -/
structure PhraseInv (e : EncRegs) : Prop where
  w     : e.w ∈ e.keys
  pend  : e.pend = [] ∨ e.pend = [e.w] ∧ e.w.length = 1
  width : Balanced e.width e.enl (e.next - 1 - e.pend.length)

/-- Inside a step, once `c` is registered and E_W + c is no key (42_encoder.md R166, R172). -/
structure BreakInv (c : CodeUnit) (e : EncRegs) : Prop where
  w     : e.w ∈ e.keys
  unit  : [c] ∈ e.keys
  fresh : e.w ++ [c] ∉ e.keys
  /-- at most E_W and [c] are pending, each once -/
  pend  : e.pend.Nodup ∧ ∀ p ∈ e.pend, p.length = 1 ∧ (p = e.w ∨ p = [c])
  /-- a code that is emitted is at most V (42_encoder.md R171) -/
  code  : e.w ∉ e.pend → ∀ k, dictCode e.dict e.w = some k → k + e.pend.length < e.next
  width : Balanced e.width e.enl (e.next - 1 - e.pend.length)

/-- Inside a step, once the token of E_W is emitted: E_W + c has no entry yet, and V is one ahead. -/
structure InsertInv (c : CodeUnit) (e : EncRegs) : Prop where
  w     : e.w ∈ e.keys
  unit  : [c] ∈ e.keys
  fresh : e.w ++ [c] ∉ e.keys
  pend  : e.pend = [] ∨ e.pend = [[c]] ∧ e.w ≠ [c]
  width : Balanced e.width e.enl (e.next - e.pend.length)

/-- The bit source between tokens (10_state.md R35, 40_bitpack.md R129): every data character has a group. -/
structure SourceInv (s : State) : Prop where
  ndata : s.src.ndata ≤ s.snapLen.toNat
  idx   : s.src.idx ≤ s.src.ndata
  rem   : s.src.rem ≤ 6
  bcnt  : s.src.bcnt + s.src.rem = 6 * s.src.idx
  chars : ∀ k < s.src.ndata, unmapChar s.alphl (s.memRead k) ≠ none
  /-- CUR is the group of the last character fetched -/
  cur   : 0 < s.src.rem → unmapChar s.alphl (s.memRead (s.src.idx - 1)) = some s.src.cur

/-- What holds of DECOMPRESS at every one of its blocks. -/
structure DecInv (s : State) : Prop where
  op     : s.opl = .decompress
  some_  : 0 < s.snapLen.toNat
  fits   : s.snapLen.toNat ≤ s.cfg.inCap
  src    : SourceInv s
  resLen : s.dec.resLen ≤ s.cfg.outCap
  filled : s.outBuf.filled s.dec.resLen

/-- The decoder invariant (43_decoder.md R205), with the capacity of R208. -/
structure LoopInv (dictCap : Nat) (d : DecRegs) : Prop where
  next_le  : d.next ≤ dictCap
  w        : 3 ≤ d.w ∧ d.w < d.next
  /-- D_DICT[3 .. D_NEXT-1] are all defined, and nothing else is -/
  codes    : d.dict.map Prod.fst = (List.range' 3 (d.next - 3)).reverse
  nonempty : ∀ e ∈ d.dict, e.2 ≠ []
  width    : Balanced d.width d.enl d.next

/-- Which errors an operation can end in (60_exceptions.md R252 to R255, R270). -/
def ErrorFits (s : State) : OpError → Prop
  | .alphabet k => s.opl = .decompress ∧ k < s.snapLen.toNat
  | .dictCorrupt t => s.opl = .decompress ∧ 3 ≤ t ∧ t < 2 ^ 25
  | .truncated b => s.opl = .decompress ∧ b = 6 * s.src.ndata ∧ b < 2 ^ 21
  | .resource .input => s.cfg.inCap < s.snapLen.toNat
  | .resource .dictionary => True
  | .resource .output => True

/-- What holds at each place of the pseudocode of Run. -/
def StageInv (s : State) : Stage → Prop
  | .idle => True
  | .start => s.outBuf = []
  | .encLoop =>
      EncInv s ∧
        (PhraseInv s.enc ∨
          s.enc.w = [] ∧ s.enc.i = 0 ∧ s.enc.dict = [] ∧ s.enc.pend = [] ∧ Balanced s.enc.width s.enc.enl 2)
  | .encBreak c => EncInv s ∧ BreakInv c s.enc
  | .encInsert c => EncInv s ∧ InsertInv c s.enc
  | .encLast => EncInv s ∧ PhraseInv s.enc ∧ s.enc.i = s.snapLen.toNat
  | .encEos => EncInv s ∧ s.enc.pend = [] ∧ Balanced s.enc.width s.enc.enl s.enc.next
  | .decFirst =>
      DecInv s ∧ s.dec.next = 3 ∧ s.dec.width = 2 ∧ s.dec.enl = 1 ∧ s.dec.dict = [] ∧ s.dec.resLen = 0
  | .decLoop => DecInv s ∧ LoopInv s.cfg.dictCap s.dec
  | .complete (.ok m) => s.outBuf.filled m ∧ m ≤ s.cfg.outCap
  | .complete (.err e) => ErrorFits s e

/-- The invariant of the block: it holds at reset, and every step keeps it. -/
structure Inv (s : State) : Prop where
  host  : HostInv s
  run   : StageInv s s.stage

/-- What the host can read of a state: the registers, IN, and OUT where 44_host_interface.md R240 gives it a value. -/
structure HostView where
  cfg     : Params
  ctrl    : Word
  status  : Word
  inLen   : Word
  outLen  : Word
  errInfo : Word
  inBuf   : Memory
  outBuf  : Memory
deriving DecidableEq, Repr

/-- The host's view. While BUSY, OUT, OUT_LEN and ERR_INFO show nothing (20_memory.md R71), and OUT is a result only
in DONE. -/
def State.view (s : State) : HostView :=
  { cfg := s.cfg, ctrl := s.ctrlWord, status := s.statusWord, inLen := s.inLen
    outLen := if s.busy then 0 else s.outLen
    errInfo := if s.busy then 0 else s.errInfo
    inBuf := s.inBuf
    outBuf := if s.status = .done then s.outBuf else [] }

/-! ### The words the statements are made in -/

/-- STATUS.STATE as a number (10_state.md R22). -/
def OpState.number : OpState → Nat
  | .idle => 0
  | .busy => 1
  | .done => 2
  | .error => 3

/-- STATUS.ERR as a number (60_exceptions.md R251). -/
def ErrCode.number : ErrCode → Nat
  | .none => 0
  | .alphabet => 1
  | .dictCorrupt => 2
  | .truncated => 3
  | .resource => 4
  | .illegalCmd => 5

/-- The operation a bit of a command word names (10_state.md R21). -/
def opOfBit (b : Bool) : Op := if b then .decompress else .compress

/-- The alphabet a bit of a command word names (10_state.md R21). -/
def alphOfBit (b : Bool) : Alphabet := if b then .uri else .base64

/-- What StartOp(op, al) does to the block (44_host_interface.md R228), and that it does nothing to the rest. -/
structure Started (op : Op) (al : Alphabet) (s t : State) : Prop where
  latches  : t.ctrlOp = op ∧ t.ctrlAlph = al ∧ t.opl = op ∧ t.alphl = al
  snapshot : t.snapLen = s.inLen ∧ t.snapIn = s.inBuf
  status   : t.status = .busy ∧ t.err = .none ∧ t.phase = .run
  /-- Run is at its beginning -/
  stage    : t.stage = .start
  /-- IN, IN_LEN and the parameters stay, and so do the working registers until Run initialises them -/
  kept     : t.inLen = s.inLen ∧ t.inBuf = s.inBuf ∧ t.cfg = s.cfg ∧ t.enc = s.enc ∧ t.dec = s.dec ∧
    t.sink = s.sink ∧ t.src = s.src ∧ t.resets = s.resets ∧ t.events = s.events ∧ t.freeCtr = s.freeCtr

/-- What a CTRL write of a value with reserved bits set does (44_host_interface.md R222), and that it does nothing
to the rest; of OUT nothing is said, which becomes unspecified. -/
structure Illegal (v : Word) (s t : State) : Prop where
  status  : t.status = .error ∧ t.err = .illegalCmd
  info    : t.errInfo = v ∧ t.outLen = 0
  kept    : t.ctrlOp = s.ctrlOp ∧ t.ctrlAlph = s.ctrlAlph ∧ t.inLen = s.inLen ∧ t.inBuf = s.inBuf ∧
    t.cfg = s.cfg ∧ t.phase = s.phase ∧ t.opl = s.opl ∧ t.alphl = s.alphl ∧ t.snapLen = s.snapLen ∧
    t.snapIn = s.snapIn ∧ t.enc = s.enc ∧ t.dec = s.dec ∧ t.sink = s.sink ∧ t.src = s.src ∧ t.stage = s.stage ∧
    t.resets = s.resets ∧ t.events = s.events ∧ t.freeCtr = s.freeCtr

/-- What a legal write of `v` to CTRL does, by the bits of `v` (30_encoding.md R90, R91; 44_host_interface.md R221 to
R227). -/
def CtrlWritten (v : Word) (s t : State) : Prop :=
  if s.status = .busy then ∃ r, t = s.respond r
  else if 8 ≤ v.toNat then Illegal v s t
  else if v.getLsbD 0 then Started (opOfBit (v.getLsbD 1)) (alphOfBit (v.getLsbD 2)) s t
  else ∃ r, t = (s.setMode (opOfBit (v.getLsbD 1)) (alphOfBit (v.getLsbD 2))).respond r

/-- The offset is that of a register, or of an element of IN or OUT (20_memory.md R61). -/
def Mapped (p : Params) (off : Nat) : Prop :=
  off < 0x1000 ∨ (∃ k < p.inCap, off = 0x00100000 + 4 * k) ∨ ∃ k < p.outCap, off = 0x00200000 + 4 * k

/-- The bits in ACC, the first one pushed first (40_bitpack.md R121). -/
def SinkRegs.pending (k : SinkRegs) : List Bool := fieldBits .msbFirst k.pos k.acc.toNat

/-- The group that six bits of the stream make, the first of them its bit 5 (40_bitpack.md R121). -/
def groupOf (bits : List Bool) : Group := BitVec.ofNat 6 (fieldValue .msbFirst bits)

/-- `bits` have been pushed into the sink (40_bitpack.md R121, R123, R125): together with those that were in ACC
they make characters of six bits each, written to OUT from OUT_N on, and the bits left over are in ACC. -/
structure Pushed (bits : List Bool) (s t : State) : Prop where
  outN    : t.sink.outN = s.sink.outN + (s.sink.pos + bits.length) / 6
  pos     : t.sink.pos = (s.sink.pos + bits.length) % 6
  pending : t.sink.pending = (s.sink.pending ++ bits).drop (6 * ((s.sink.pos + bits.length) / 6))
  chars   : ∀ j, s.sink.outN + j < t.sink.outN → t.outBuf.read? (s.sink.outN + j) =
    some (mapGroup s.alphl (groupOf (((s.sink.pending ++ bits).drop (6 * j)).take 6)))
  rest    : ∀ k, k < s.sink.outN ∨ t.sink.outN ≤ k → t.outBuf.read? k = s.outBuf.read? k

/-- The room the sink needs for `n` more bits. -/
def SinkRegs.room (k : SinkRegs) (n cap : Nat) : Prop := k.outN + (k.pos + n) / 6 ≤ cap

/-- Two Ticks (42_encoder.md R167, 43_decoder.md R198). -/
def tick2 (width enl : Nat) : Nat × Nat := tick (tick width enl).1 (tick width enl).2

/-- OUT holds the phrase `e` at RES_LEN and is otherwise as it was (43_decoder.md R207). -/
def Appended (e : Phrase) (s t : State) : Prop :=
  ∀ k, t.outBuf.read? k =
    if s.dec.resLen ≤ k ∧ k < s.dec.resLen + e.length then e[k - s.dec.resLen]? else s.outBuf.read? k

/-- The bits of the data characters of a DECOMPRESS, in stream order (40_bitpack.md R121, R129). -/
def State.streamBits (s : State) : List Bool :=
  (List.range s.src.ndata).flatMap fun k =>
    match unmapChar s.alphl (s.memRead k) with
    | some g => fieldBits .msbFirst 6 g.toNat
    | none => []

/-- The bits not yet read. -/
def State.bitsLeft (s : State) : List Bool := s.streamBits.drop s.src.bcnt

/-- The character at index `k` is invalid (41_alphabet.md R147): for BASE64 a `=` outside a final run of at most
three, and otherwise a character with no group. -/
def InvalidAt (al : Alphabet) (chars : List CodeUnit) (k : Nat) : Prop :=
  ∃ ch, chars[k]? = some ch ∧
    if al = .base64 ∧ ch = padChar then ¬ (chars.length ≤ k + 3 ∧ ∀ c ∈ chars.drop k, c = padChar)
    else unmapChar al ch = none

/-- `n` steps of the block, ended early by a fault or a refusal. -/
def stepRun : Nat → State → Host.Outcome State Fault Refusal
  | 0, s => .next s
  | n + 1, s =>
      match step s with
      | .next t => stepRun n t
      | .fault f => .fault f
      | .refused r => .refused r

end Sys2Proof.Machine
end

