-- ==== Sys2Proof/Certificates/Slice0/Obligations.lean ====
section
/-! DEFINITION. The statements for the provers, each after a rule of spec/ or after several of them. -/

open Sys2Proof Sys2Proof.Machine

/-! ### The block as a whole -/

/-- 70_reset_and_hazards.md R280 and the model's own choices for the unspecified registers (log entries 1, 9): the
reset state meets the invariant. -/
def Obligations.ResetMeetsTheInvariant : Prop := Inv State.reset

/-- 70_reset_and_hazards.md R280, 10_state.md R43: a reset, as one event in any state, busy or not; IN and OUT become
any value, the parameters are unchanged. The model's own choices in it: the count of resets goes on and the later
inputs stay (log entry 22), an element of IN is `Config.freeIn` (log entry 3), a read of OUT is `Config.freeOut`
zero-extended (log entry 4, after 20_memory.md R67). -/
def Obligations.ResetSetsTheHostRegisters : Prop :=
  ∀ (s : State) (rest : List Event), s.events = .reset :: rest →
    ∃ t, step s = .next t ∧ t.ctrlOp = .compress ∧ t.ctrlAlph = .base64 ∧ t.status = .idle ∧ t.err = .none ∧
      t.inLen = 0 ∧ t.outLen = 0 ∧ t.errInfo = 0 ∧ t.phase = .idle ∧ t.stage = .idle ∧ t.cfg = s.cfg ∧
      t.resets = s.resets + 1 ∧ (∀ k, t.inElem k = Config.freeIn t.resets k) ∧
      (∀ k : BitVec 18, k.toNat < t.cfg.outCap → exec (.rdOut k .read) t =
        .next (t.respond (.data ((Config.freeOut t.freeCtr k.toNat).setWidth 32)))) ∧ t.events = rest

/-- The invariant of Sys2Proof/Safety.lean (10_state.md R22 to R38, 42_encoder.md R171 to R173, 43_decoder.md R205) is
kept by every step. -/
def Obligations.StepKeepsTheInvariant : Prop :=
  ∀ s t : State, Inv s → step s = .next t → Inv t

/-- No step stops, by a fault or a refusal (40_bitpack.md R127, R129: what a model faults on is unreachable). -/
def Obligations.StepNeverStops : Prop :=
  ∀ s : State, Inv s → ∃ t, step s = .next t

/-- 44_host_interface.md R238 with 42_encoder.md R177 and 43_decoder.md R209: an operation completes, by the
engine's turns alone and by the steps of a block with no input waiting. -/
def Obligations.EveryOperationCompletes : Prop :=
  ∀ s : State, Inv s → s.status = .busy →
    (∃ t, engineRun s.turnBound s = .next t ∧ Inv t ∧ t.phase = .idle ∧ (t.status = .done ∨ t.status = .error)) ∧
      (s.events = [] → ∃ t, stepRun s.turnBound s = .next t ∧ (t.status = .done ∨ t.status = .error))

/-- The round-trip law (43_decoder.md R206): DECOMPRESS of what COMPRESS left in OUT gives back the input, for
every block the two results fit into. -/
def Obligations.DecompressUndoesCompress : Prop :=
  ∀ (s t : State) (al : Alphabet), Inv s → s.status ≠ .busy →
    engineRun (s.startOp .compress al).turnBound (s.startOp .compress al) = .next t → t.status = .done →
    t.outLen.toNat ≤ s.cfg.inCap → s.inLen.toNat ≤ s.cfg.outCap →
    ∃ u, engineRun (((t.setInLen t.outLen).setIn t.outBuf).startOp .decompress al).turnBound
        (((t.setInLen t.outLen).setIn t.outBuf).startOp .decompress al) = .next u ∧
      u.status = .done ∧ u.outLen = s.inLen ∧ ∀ k < s.inLen.toNat, u.outBuf.read? k = some (s.inElem k)

/-- 20_memory.md R72, 42_encoder.md R176, 44_host_interface.md R237, 70_reset_and_hazards.md R284: the result is a
function of the parameters, OPL, ALPHL and the snapshot. -/
def Obligations.ResultDependsOnlyOnTheSnapshot : Prop :=
  ∀ (s s' t t' : State) (n : Nat), Inv s → Inv s' → s.stage = .start → s'.stage = .start →
    s'.cfg = s.cfg → s'.opl = s.opl → s'.alphl = s.alphl → s'.snapLen = s.snapLen →
    (∀ k < s.snapLen.toNat, s'.memRead k = s.memRead k) →
    engineRun n s = .next t → engineRun n s' = .next t' →
    t'.status = t.status ∧
      (t.status ≠ .busy → t'.err = t.err ∧ t'.outLen = t.outLen ∧ t'.errInfo = t.errInfo ∧ t'.outBuf = t.outBuf)

/-- 20_memory.md R72 and 70_reset_and_hazards.md R286: while BUSY an access of any kind is only answered, and the
operation goes on to the same result. -/
def Obligations.HostCannotDisturbTheEngine : Prop :=
  ∀ (s t : State) (b : BusAccess) (n : Nat), s.status = .busy → engineRun n s = .next t →
    ∃ r, exec (decodeAccess s.cfg b) s = .next (s.respond r) ∧ engineRun n (s.respond r) = .next (t.respond r)

/-- 20_memory.md R71, 44_host_interface.md R240: until the completion step the host sees nothing of the engine's work.
Every read access, legal or not, is answered after a step as it was before it; the event counter is put back for
this, since the unspecified value of OUT, OUT_LEN or ERR_INFO read while BUSY may be a new one at every event, the
model's own choice (log entries 4, 5). -/
def Obligations.ResultsAppearOnlyAtCompletion : Prop :=
  ∀ s t : State, Inv s → s.status = .busy → t.status = .busy → step s = .next t →
    t.view = s.view ∧
    ∀ b : BusAccess, b.kind = .read → ∃ r, exec (decodeAccess s.cfg b) s = .next (s.respond r) ∧
      exec (decodeAccess t.cfg b) { t with freeCtr := s.freeCtr } =
        .next ({ t with freeCtr := s.freeCtr }.respond r)

/-- 10_state.md R23: STATE leaves BUSY only through the completion step or reset. -/
def Obligations.BusyEndsOnlyByCompletionOrReset : Prop :=
  ∀ s t : State, Inv s → s.status = .busy → step s = .next t → t.status ≠ .busy →
    (∃ rest, s.events = .reset :: rest ∧ t.status = .idle) ∨
      (s.events = [] ∨ ∃ rest, s.events = .engine :: rest) ∧
        ((∃ m, s.stage = .complete (.ok m) ∧ t.status = .done) ∨
          ∃ e, s.stage = .complete (.err e) ∧ t.status = .error)

/-- 44_host_interface.md R237 and R233 (the engine never writes IN), 10_state.md R21: the engine writes none of the
host's registers, nor the latches and the snapshot of its operation. That OPL, ALPHL and the snapshot stay where the
turn is the completion step is the model's own choice (log entry 24). -/
def Obligations.EngineLeavesTheHostsRegisters : Prop :=
  ∀ s t : State, Inv s → engineTurn s = .next t →
    t.cfg = s.cfg ∧ t.ctrlOp = s.ctrlOp ∧ t.ctrlAlph = s.ctrlAlph ∧ t.inLen = s.inLen ∧ t.inBuf = s.inBuf ∧
      t.opl = s.opl ∧ t.alphl = s.alphl ∧ t.snapLen = s.snapLen ∧ t.snapIn = s.snapIn ∧ t.resets = s.resets ∧
      t.resp = s.resp ∧ t.events = s.events ∧ t.freeCtr = s.freeCtr

/-- 60_exceptions.md R270. -/
def Obligations.CompressEndsInSuccessOrResource : Prop :=
  ∀ (s t : State) (n : Nat), Inv s → s.status = .busy → s.opl = .compress → engineRun n s = .next t →
    t.status ≠ .busy →
    t.status = .done ∨ t.status = .error ∧ t.err = .resource ∧ (t.errInfo = 1 ∨ t.errInfo = 2 ∨ t.errInfo = 3)

/-- 60_exceptions.md R252 to R255: what a DECOMPRESS that ends in an error reports. That NDATA still stands in the state
after the completion step, where the TRUNCATED clause reads it, is the model's own choice (log entry 24). -/
def Obligations.DecompressErrorInformation : Prop :=
  ∀ (s t : State) (n : Nat), Inv s → s.status = .busy → s.opl = .decompress → engineRun n s = .next t →
    t.status = .error →
    (t.err = .alphabet ∧ t.errInfo.toNat < s.snapLen.toNat) ∨
      (t.err = .dictCorrupt ∧ 3 ≤ t.errInfo.toNat ∧ t.errInfo.toNat < 2 ^ 25) ∨
      (t.err = .truncated ∧ t.errInfo.toNat = 6 * t.src.ndata) ∨
      t.err = .resource ∧ (t.errInfo = 1 ∨ t.errInfo = 2 ∨ t.errInfo = 3)

/-- 60_exceptions.md R261: what leaves an error is a CTRL write that starts an operation, or reset. -/
def Obligations.ErrorIsLeftOnlyByStartOrReset : Prop :=
  ∀ s t : State, s.status = .error → step s = .next t →
    t.status = .error ∨ (∃ rest, s.events = .reset :: rest ∧ t.status = .idle) ∨
      ∃ b rest v, s.events = .access b :: rest ∧ decodeAccess s.cfg b = .wrCtrl v ∧
        (v.toNat = 1 ∨ v.toNat = 3 ∨ v.toNat = 5 ∨ v.toNat = 7) ∧ t.status = .busy

/-- 60_exceptions.md R269: with STATE not BUSY the block does nothing of its own. -/
def Obligations.IdleBlockKeepsItsState : Prop :=
  ∀ s : State, s.status ≠ .busy →
    (s.events = [] → step s = .next s) ∧
      ∀ rest, s.events = .engine :: rest → step s = .next { s with events := rest }

/-! ### Encodings -/

/-- No bit of an encoding is dropped: every well-formed instruction, in every context (30_encoding.md R90 to R97,
20_memory.md R61). -/
def Obligations.DecodeUndoesEncode : Prop :=
  ∀ (c : DecodeCtx) (i : Instr), i.wf c = true → decode c (encode c i) = .ok i

/-- Every word has one meaning: encoding what was decoded gives the word back. -/
def Obligations.EncodeUndoesDecode : Prop :=
  ∀ (c : DecodeCtx) (e : Encoded) (i : Instr), decode c e = .ok i → encode c i = e

/-- What is decoded at a code width of 10_state.md R32 and R33 is well-formed. -/
def Obligations.DecodedInstructionsAreWellFormed : Prop :=
  ∀ (c : DecodeCtx) (e : Encoded) (i : Instr), widthOk c.width = true → decode c e = .ok i → i.wf c = true

/-- 30_encoding.md R96: a CODE token of the decoder's loop is known, the self-reference, or corrupt, which raises
DICT_CORRUPT. -/
def Obligations.LoopCodeClassification : Prop :=
  ∀ (c : DecodeCtx) (t : Nat), c.side = .loop → 3 ≤ t → t < 2 ^ c.width →
    decode c (.token (fieldBits c.cfg.order c.width t)) =
      .ok (if t < c.next then .decCodeKnown t else if t = c.next then .decCodeSelf t else .decCodeCorrupt t) ∧
    ∀ s : State, exec (.decCodeCorrupt t) s = .next { s with stage := .complete (.err (.dictCorrupt t)) }

/-- 20_memory.md R61, R62, R66: which accesses are legal; every other one gets the bus error response. The model's own
choice in it: the offset is the address less BASE_ADDR modulo 2^32, for every base address (log entry 14). -/
def Obligations.LegalAccesses : Prop :=
  ∀ (p : Params) (b : BusAccess), p.wf →
    ((∃ off w a, decodeAccess p b = .busIllegal off w a) ↔
      ¬ (b.width = .w32 ∧ (b.addr - p.baseAddr).toNat % 4 = 0 ∧ Mapped p (b.addr - p.baseAddr).toNat)) ∧
    ∀ s : State, ¬ (b.width = .w32 ∧ (b.addr - p.baseAddr).toNat % 4 = 0 ∧ Mapped p (b.addr - p.baseAddr).toNat) →
      exec (decodeAccess p b) s = .next (s.respond .busError)

/-- Words of every family written out from the encodings of 30_encoding.md R90 to R97 and 20_memory.md R61: a sanity
statement. -/
def Obligations.SampleWordsDecode : Prop :=
  let c := tableCtx
  let loop : DecodeCtx := { c with side := .loop, width := 3, next := 6 }
  let enc : DecodeCtx := { c with side := .enc, width := 3 }
  decode c (.command 0x6) = .ok (.setmode .uri .decompress) ∧
    decode c (.command 0x5) = .ok .compressUri ∧
    decode c (.command 0x9) = .ok (.ctrlIllegal 0x9) ∧
    decode c (.token [false, false, false, true, false, false, false, false, false, true]) =
      .ok (.decFirstLit8 0x41) ∧
    decode c (.token [true, true]) = .ok .decFirstCorrupt ∧
    decode loop (.token [true, false, true]) = .ok (.decCodeKnown 5) ∧
    decode loop (.token [false, true, false]) = .ok .decEos ∧
    decode enc (.token [false, false, false, false, true, false, false, false, false, true, false]) =
      .ok (.encLit8 0x42) ∧
    decode c (.access { addr := 0x4, width := .w32, kind := .read }) = .ok (.rwStatus .read) ∧
    decode c (.access { addr := 0x200004, width := .w32, kind := .read }) = .ok (.rdOut 1 .read) ∧
    decode c (.access { addr := 0x6, width := .w32, kind := .read }) = .ok (.busIllegal 0x6 .w32 .read)

/-! ### A step runs the decoded instruction -/

/-- 44_host_interface.md R220, 30_encoding.md R91, R95, 42_encoder.md section 3: the first waiting access, and the CTRL
write that carries a command, run the instruction they decode to, on the state with that input taken; a turn of
the engine runs the token whose bits it has read, or the token EmitPhrase chooses. -/
def Obligations.StepRunsTheDecodedInstruction : Prop :=
  (∀ (s : State) (b : BusAccess) (rest : List Event) (i : Instr), s.events = .access b :: rest →
    decode s.decodeCtx (.access b) = .ok i → step s = exec i (s.take (.access b) rest)) ∧
  (∀ (s : State) (v : Word) (rest : List Event) (i : Instr),
    s.events = .access (accessAt s.cfg 0 (.write v)) :: rest →
    decode s.decodeCtx (.command v) = .ok i →
    step s = exec i (s.take (.access (accessAt s.cfg 0 (.write v))) rest)) ∧
  (∀ (s t : State) (w : Nat) (bits : List Bool) (i : Instr), s.status = .busy →
    (s.stage = .decFirst ∧ w = 2 ∨ s.stage = .decLoop ∧ w = s.dec.width) →
    readToken w s = .ok bits t → decode s.decodeCtx (.token bits) = .ok i →
    engineTurn s = exec i (t.setStage .decLoop)) ∧
  (∀ (s : State) (c : CodeUnit) (i : Instr), s.status = .busy → s.stage = .encBreak c → chooseToken s.enc = some i →
    engineTurn s = exec i (s.setStage (.encInsert c))) ∧
  (∀ (s : State) (i : Instr), s.status = .busy → s.stage = .encLast → chooseToken s.enc = some i →
    engineTurn s = exec i (s.setStage .encEos)) ∧
  (∀ s : State, s.status = .busy → s.stage = .encEos → engineTurn s = exec .encEos s) ∧
  (∀ (s : State) (rest : List Event), s.events = .engine :: rest → step s = engineTurn (s.take .engine rest)) ∧
  ∀ s : State, s.events = [] → s.status = .busy → step s = engineTurn s.countEvent

/-- 40_bitpack.md R129 to R131 with 30_encoding.md R94, R95: the decoder reads the bits of the data characters in stream
order, none twice and none skipped, exactly one token a turn. -/
def Obligations.DecoderReadsTheStream : Prop :=
  ∀ (s : State) (w : Nat), Inv s → s.status = .busy →
    (s.stage = .decFirst ∧ w = 2 ∨ s.stage = .decLoop ∧ w = s.dec.width) →
    w + payloadLength (fieldValue s.cfg.order (s.bitsLeft.take w)) ≤ s.bitsLeft.length →
    ∃ (i : Instr) (u : State), decode s.decodeCtx (.token (s.bitsLeft.take
          (w + payloadLength (fieldValue s.cfg.order (s.bitsLeft.take w))))) = .ok i ∧
      engineTurn s = exec i (u.setStage .decLoop) ∧ u = { s with src := u.src } ∧
      u.bitsLeft = s.bitsLeft.drop (w + payloadLength (fieldValue s.cfg.order (s.bitsLeft.take w)))

/-- 60_exceptions.md R254, R260, 40_bitpack.md R129: a token that the bits left do not cover raises TRUNCATED with
6 * NDATA, before its value is looked at. -/
def Obligations.TruncatedReportsTheBitCount : Prop :=
  ∀ (s : State) (w : Nat), Inv s → s.status = .busy →
    (s.stage = .decFirst ∧ w = 2 ∨ s.stage = .decLoop ∧ w = s.dec.width) →
    (s.bitsLeft.length < w ∨
      s.bitsLeft.length < w + payloadLength (fieldValue s.cfg.order (s.bitsLeft.take w))) →
    ∃ t, engineTurn s = .next t ∧ t.stage = .complete (.err (.truncated (6 * s.src.ndata))) ∧
      t.src.bcnt = 6 * s.src.ndata ∧ t = { s with src := t.src, stage := t.stage }

/-- 43_decoder.md R209: at most 2 * NDATA + 1 token reads. -/
def Obligations.TokenReadsAreBounded : Prop :=
  ∀ s : State, Inv s → s.status = .busy → s.stage = .decFirst →
    ∃ n t r, n ≤ 2 * s.src.ndata + 1 ∧ engineRun n s = .next t ∧ t.stage = .complete r

/-! ### Command words -/

/-- 44_host_interface.md R221: every CTRL write while BUSY changes nothing; and, the model's own reading of the row
CTRL_WRITE_BUSY outside its match condition (log entry 10), there it is the write of its value. -/
def Obligations.CommandsWhileBusyAreIgnored : Prop :=
  ∀ (s : State) (v : Word) (op : Op) (al : Alphabet),
    (s.status = .busy →
      (∃ r, exec (.ctrlWriteBusy v) s = .next (s.respond r)) ∧ (∃ r, exec (.setmode al op) s = .next (s.respond r)) ∧
      (∃ r, exec .compressB64 s = .next (s.respond r)) ∧ (∃ r, exec .compressUri s = .next (s.respond r)) ∧
      (∃ r, exec .decompressB64 s = .next (s.respond r)) ∧ (∃ r, exec .decompressUri s = .next (s.respond r)) ∧
      ∃ r, exec (.ctrlIllegal v) s = .next (s.respond r)) ∧
    (s.status ≠ .busy → exec (.ctrlWriteBusy v) s = exec (.wrCtrl v) s)

/-- 44_host_interface.md R223: SETMODE writes the two latches and nothing else. -/
def Obligations.SetmodeWritesTheLatches : Prop :=
  ∀ (s : State) (op : Op) (al : Alphabet), s.status ≠ .busy →
    ∃ r, exec (.setmode al op) s = .next { s with ctrlOp := op, ctrlAlph := al, resp := r }

/-- 44_host_interface.md R224 to R228: the four START commands. -/
def Obligations.StartCommandsStart : Prop :=
  ∀ s : State, s.status ≠ .busy →
    (∃ t, exec .compressB64 s = .next t ∧ Started .compress .base64 s t) ∧
    (∃ t, exec .compressUri s = .next t ∧ Started .compress .uri s t) ∧
    (∃ t, exec .decompressB64 s = .next t ∧ Started .decompress .base64 s t) ∧
    ∃ t, exec .decompressUri s = .next t ∧ Started .decompress .uri s t

/-- 44_host_interface.md R222, 60_exceptions.md R256: an illegal command is reported at once. -/
def Obligations.IllegalCommandIsReported : Prop :=
  ∀ (s : State) (v : Word), s.status ≠ .busy → 8 ≤ v.toNat →
    ∃ t, exec (.ctrlIllegal v) s = .next t ∧ Illegal v s t

/-- 30_encoding.md R91 with 44_host_interface.md R221 to R227: a write of any value to CTRL, in any state, does what
the bits of the value say. -/
def Obligations.CtrlWriteDoesItsCommand : Prop :=
  ∀ (s : State) (v : Word), ∃ t, exec (.wrCtrl v) s = .next t ∧ CtrlWritten v s t

/-! ### Registers and buffers -/

/-- 44_host_interface.md R229. -/
def Obligations.CtrlReadGivesTheLatches : Prop :=
  ∀ s : State, exec .rdCtrl s = .next (s.respond (.data (BitVec.ofNat 32
    ((if s.ctrlAlph = .uri then 4 else 0) + (if s.ctrlOp = .decompress then 2 else 0)))))

/-- 44_host_interface.md R230, with the numbers of 10_state.md R22 and 60_exceptions.md R251. -/
def Obligations.StatusAccess : Prop :=
  ∀ (s : State) (v : Word),
    exec (.rwStatus .read) s =
        .next (s.respond (.data (BitVec.ofNat 32 (16 * s.err.number + s.status.number)))) ∧
      ∃ r, exec (.rwStatus (.write v)) s = .next (s.respond r)

/-- 44_host_interface.md R231. -/
def Obligations.InLenAccess : Prop :=
  ∀ (s : State) (v : Word),
    exec (.rwInLen .read) s = .next (s.respond (.data s.inLen)) ∧
      (s.status ≠ .busy → ∃ r, exec (.rwInLen (.write v)) s = .next { s with inLen := v, resp := r }) ∧
      (s.status = .busy → ∃ r, exec (.rwInLen (.write v)) s = .next (s.respond r))

/-- 44_host_interface.md R232, 10_state.md R25 to R28. -/
def Obligations.ReadOnlyRegisters : Prop :=
  ∀ (s : State) (v : Word),
    (s.status ≠ .busy → exec (.rdOutLen .read) s = .next (s.respond (.data s.outLen)) ∧
      exec (.rdErrInfo .read) s = .next (s.respond (.data s.errInfo))) ∧
    (s.status = .busy → (∃ x, exec (.rdOutLen .read) s = .next (s.respond (.data x))) ∧
      ∃ x, exec (.rdErrInfo .read) s = .next (s.respond (.data x))) ∧
    exec (.rdConfig .read) s =
      .next (s.respond (.data (if s.cfg.order = .msbFirst then 0x160 else 0x161))) ∧
    exec (.rdInCapR .read) s = .next (s.respond (.data (BitVec.ofNat 32 s.cfg.inCap))) ∧
    exec (.rdOutCapR .read) s = .next (s.respond (.data (BitVec.ofNat 32 s.cfg.outCap))) ∧
    exec (.rdDictCapR .read) s = .next (s.respond (.data (BitVec.ofNat 32 s.cfg.dictCap))) ∧
    (∃ r, exec (.rdOutLen (.write v)) s = .next (s.respond r)) ∧
    (∃ r, exec (.rdErrInfo (.write v)) s = .next (s.respond r)) ∧
    (∃ r, exec (.rdConfig (.write v)) s = .next (s.respond r)) ∧
    (∃ r, exec (.rdInCapR (.write v)) s = .next (s.respond r)) ∧
    (∃ r, exec (.rdOutCapR (.write v)) s = .next (s.respond r)) ∧
    ∃ r, exec (.rdDictCapR (.write v)) s = .next (s.respond r)

/-- 20_memory.md R63: every offset of the register page beyond DICT_CAP_R. -/
def Obligations.ReservedRegisters : Prop :=
  ∀ (s : State) (i : Nat) (v : Word), 9 ≤ i → i < 1024 →
    (∀ a, decodeAccess s.cfg (accessAt s.cfg (4 * i) a) = .rwReservedReg (BitVec.ofNat 10 i) a) ∧
      exec (.rwReservedReg (BitVec.ofNat 10 i) .read) s = .next (s.respond (.data 0)) ∧
      ∃ r, r ≠ .busError ∧ exec (.rwReservedReg (BitVec.ofNat 10 i) (.write v)) s = .next (s.respond r)

/-- 44_host_interface.md R233, and 20_memory.md R61, R66 beyond IN_CAP. -/
def Obligations.InElementAccess : Prop :=
  ∀ (s : State) (k : BitVec 18) (v : Word), s.inBuf.wf →
    (k.toNat < s.cfg.inCap →
      exec (.rwIn k .read) s = .next (s.respond (.data ((s.inElem k.toNat).setWidth 32))) ∧
      (s.status = .busy → ∃ r, exec (.rwIn k (.write v)) s = .next (s.respond r)) ∧
      (s.status ≠ .busy → ∃ t, exec (.rwIn k (.write v)) s = .next t ∧
        t.inElem k.toNat = v.extractLsb' 0 16 ∧ (∀ j, j ≠ k.toNat → t.inElem j = s.inElem j) ∧
        t = { s with inBuf := t.inBuf, resp := t.resp })) ∧
    (s.cfg.inCap ≤ k.toNat → ∀ a, exec (.rwIn k a) s = .next (s.respond .busError))

/-- 44_host_interface.md R240, and 20_memory.md R61, R66 beyond OUT_CAP; `OUT[k]` in DONE is what the operation wrote
there. The model's own choice in it (log entry 4): an unspecified value is a 16-bit one, zero-extended, as 20_memory.md
R67 says of a buffer element, where R240 says "any value". -/
def Obligations.OutElementAccess : Prop :=
  ∀ (s : State) (k : BitVec 18) (v : Word),
    (k.toNat < s.cfg.outCap →
      (∀ u, s.status = .done → k.toNat < s.outLen.toNat → s.outBuf.read? k.toNat = some u →
        exec (.rdOut k .read) s = .next (s.respond (.data (u.setWidth 32)))) ∧
      (∃ x : CodeUnit, exec (.rdOut k .read) s = .next (s.respond (.data (x.setWidth 32)))) ∧
      ∃ r, exec (.rdOut k (.write v)) s = .next (s.respond r)) ∧
    (s.cfg.outCap ≤ k.toNat → ∀ a, exec (.rdOut k a) s = .next (s.respond .busError))

/-- 20_memory.md R66, 60_exceptions.md R257. -/
def Obligations.IllegalAccessGetsBusError : Prop :=
  ∀ (s : State) (off : Word) (w : AccessWidth) (a : AccessKind),
    exec (.busIllegal off w a) s = .next (s.respond .busError)

/-- 20_memory.md R70: no read, legal or not, has a side effect; and while STATE is not BUSY a repeated read gives the
same value, an unspecified one too, whatever reads, illegal accesses and turns of the idle engine come between. -/
def Obligations.ReadsHaveNoSideEffect : Prop :=
  (∀ (s : State) (b : BusAccess), b.kind = .read → ∃ r, exec (decodeAccess s.cfg b) s = .next (s.respond r)) ∧
  ∀ (s : State) (b : BusAccess) (mid rest : List Event), s.status ≠ .busy → b.kind = .read →
    (∀ e ∈ mid, e = .engine ∨ ∃ a, e = .access a ∧
      (a.kind = .read ∨ ∃ off w k, decodeAccess s.cfg a = .busIllegal off w k)) →
    s.events = .access b :: (mid ++ .access b :: rest) →
    ∃ t u v, step s = .next t ∧ stepRun mid.length t = .next u ∧ step u = .next v ∧ v.resp = t.resp

/-- 30_encoding.md R104: `LOAD s`, run from any state that is not busy, with its frame. -/
def Obligations.LoadWritesTheInput : Prop :=
  ∀ (s : State) (xs : List CodeUnit) (rest : List Event), s.cfg.wf → s.inBuf.wf → s.status ≠ .busy →
    xs.length ≤ s.cfg.inCap → s.events = load s.cfg xs ++ rest →
    ∃ t, stepRun (xs.length + 1) s = .next t ∧ t.inLen.toNat = xs.length ∧
      (∀ k u, xs[k]? = some u → t.inElem k = u) ∧ (∀ k, xs.length ≤ k → t.inElem k = s.inElem k) ∧
      t = { s with inLen := t.inLen, inBuf := t.inBuf, resp := t.resp, events := rest, freeCtr := t.freeCtr }

/-! ### The engine -/

/-- 42_encoder.md R163. -/
def Obligations.TickCountsDown : Prop :=
  ∀ width enl : Nat, 1 ≤ enl →
    tick width enl = if enl = 1 then (width + 1, 2 ^ width) else (width, enl - 1)

/-- 44_host_interface.md R234, R235: the completion step. That the working registers, the latches OPL and ALPHL and the
snapshot keep their values over it is the model's own choice (log entry 24). -/
def Obligations.CompletionStep : Prop :=
  (∀ (s : State) (m : Nat), s.status = .busy → s.stage = .complete (.ok m) →
    engineTurn s = .next { s with
      outLen := BitVec.ofNat 32 m, errInfo := 0, status := .done, err := .none, phase := .idle, stage := .idle }) ∧
  ∀ (s : State) (e : OpError), s.status = .busy → s.stage = .complete (.err e) →
    ∃ t, engineTurn s = .next t ∧ t.outLen = 0 ∧ t.errInfo = e.info ∧ t.status = .error ∧ t.err = e.code ∧
      t.phase = .idle ∧ t = { s with
        outLen := t.outLen, errInfo := t.errInfo, status := t.status, err := t.err, phase := t.phase, stage := .idle
        outBuf := t.outBuf }

/-- 44_host_interface.md R237, 60_exceptions.md R260, 42_encoder.md R161, 43_decoder.md R190, R191: what Run does before
its first token. -/
def Obligations.RunBeginsWithItsChecks : Prop :=
  ∀ s : State, s.status = .busy → s.stage = .start →
    (s.cfg.inCap < s.snapLen.toNat →
      engineTurn s = .next { s with stage := .complete (.err (.resource .input)) }) ∧
    (s.snapLen.toNat = 0 → engineTurn s = .next { s with stage := .complete (.ok 0) }) ∧
    (s.snapLen.toNat ≤ s.cfg.inCap → s.opl = .decompress → ∀ k, InvalidAt s.alphl s.inputUnits k →
      (∀ j < k, ¬ InvalidAt s.alphl s.inputUnits j) →
      engineTurn s = .next { s with stage := .complete (.err (.alphabet k)) })

/-- 42_encoder.md R162, 40_bitpack.md R120, R128, 43_decoder.md R192, 70_reset_and_hazards.md R284: the working registers
are initialised at START. NDATA is `n`, by 41_alphabet.md R148: the input length, for BASE64 less the final run of
`=`, which is at most three long (R147). -/
def Obligations.StartInitialisesTheEngine : Prop :=
  ∀ s : State, s.status = .busy → s.stage = .start → 0 < s.snapLen.toNat → s.snapLen.toNat ≤ s.cfg.inCap →
    (s.opl = .compress → engineTurn s = .next { s with
      enc := { w := [], next := 3, width := 2, enl := 2, i := 0, dict := [], pend := [] }
      sink := { acc := 0, pos := 0, outN := 0 }
      stage := .encLoop }) ∧
    (s.opl = .decompress → (∀ k, ¬ InvalidAt s.alphl s.inputUnits k) → ∃ n, engineTurn s = .next { s with
      dec := { s.dec with next := 3, width := 2, enl := 1, resLen := 0, dict := [] }
      src := { cur := 0, rem := 0, idx := 0, ndata := n, bcnt := 0 }
      stage := .decFirst } ∧
      (s.alphl = .uri → n = s.snapLen.toNat) ∧
      (s.alphl = .base64 → n ≤ s.snapLen.toNat ∧ s.snapLen.toNat ≤ n + 3 ∧
        (∀ k, n ≤ k → k < s.snapLen.toNat → s.memRead k = 0x3D) ∧ (n = 0 ∨ s.memRead (n - 1) ≠ 0x3D)))

/-- 41_alphabet.md R147, 60_exceptions.md R252: Validate passes what is valid, and reports the lowest index that is
not. -/
def Obligations.ValidateReportsTheLowestIndex : Prop :=
  ∀ (al : Alphabet) (chars : List CodeUnit),
    (validateFrom al 0 chars = none ↔ ∀ k, ¬ InvalidAt al chars k) ∧
      ∀ k, validateFrom al 0 chars = some k ↔ InvalidAt al chars k ∧ ∀ j < k, ¬ InvalidAt al chars j

/-- 41_alphabet.md R140 to R144: the forward tables are the spec's strings, and the reverse tables, over all 2^16
characters, those of the forward ones with `$` for URI. -/
def Obligations.AlphabetTables : Prop :=
  ((List.range 64).map (fun g => mapGroup .base64 (BitVec.ofNat 6 g)) =
      "ABCDEFGHIJKLMNOPQRSTUVWXYZabcdefghijklmnopqrstuvwxyz0123456789+/".toList.map
        (fun c => BitVec.ofNat 16 c.toNat)) ∧
    ((List.range 64).map (fun g => mapGroup .uri (BitVec.ofNat 6 g)) =
      "ABCDEFGHIJKLMNOPQRSTUVWXYZabcdefghijklmnopqrstuvwxyz0123456789+-".toList.map
        (fun c => BitVec.ofNat 16 c.toNat)) ∧
    ∀ (al : Alphabet) (ch : CodeUnit) (g : Group),
      unmapChar al ch = some g ↔ mapGroup al g = ch ∨ (al = .uri ∧ ch = 0x24 ∧ g = 0)

/-! ### COMPRESS -/

/-- 42_encoder.md R164 to R166, R174: the parts of EncStep around its token, and the end of the loop (R160). -/
def Obligations.EncoderStep : Prop :=
  (∀ (s : State) (e : EncRegs), s.status = .busy → s.stage = .encLoop → s.enc.i < s.snapLen.toNat →
    ([s.memRead s.enc.i] ∈ s.enc.keys ∧ e = { s.enc with i := s.enc.i + 1 } ∨
      [s.memRead s.enc.i] ∉ s.enc.keys ∧ [s.memRead s.enc.i] ∉ s.enc.pend ∧ s.enc.next ≠ s.cfg.dictCap ∧
        e = { s.enc with
          i := s.enc.i + 1, dict := ([s.memRead s.enc.i], s.enc.next) :: s.enc.dict, next := s.enc.next + 1
          pend := [s.memRead s.enc.i] :: s.enc.pend }) →
    (s.enc.w ++ [s.memRead s.enc.i] ∈ e.keys →
      engineTurn s = .next { s with enc := { e with w := s.enc.w ++ [s.memRead s.enc.i] } }) ∧
    (s.enc.w ++ [s.memRead s.enc.i] ∉ e.keys →
      engineTurn s = .next { s with enc := e, stage := .encBreak (s.memRead s.enc.i) })) ∧
  (∀ s : State, s.status = .busy → s.stage = .encLoop → s.enc.i < s.snapLen.toNat →
    [s.memRead s.enc.i] ∉ s.enc.keys → s.enc.next = s.cfg.dictCap →
    ∃ t, engineTurn s = .next t ∧ t.stage = .complete (.err (.resource .dictionary))) ∧
  (∀ (s : State) (c : CodeUnit), s.status = .busy → s.stage = .encInsert c →
    (s.enc.next ≠ s.cfg.dictCap → engineTurn s = .next { s with
      enc := { s.enc with
        dict := (s.enc.w ++ [c], s.enc.next) :: s.enc.dict, next := s.enc.next + 1, w := [c] }
      stage := .encLoop }) ∧
    (s.enc.next = s.cfg.dictCap →
      ∃ t, engineTurn s = .next t ∧ t.stage = .complete (.err (.resource .dictionary)))) ∧
  ∀ s : State, s.status = .busy → s.stage = .encLoop → s.snapLen.toNat ≤ s.enc.i →
    engineTurn s = .next { s with stage := .encLast }

/-- The conditions of 42_encoder.md R167 to R169: which token EmitPhrase(E_W) emits. -/
def Obligations.EmitPhraseChoosesItsToken : Prop :=
  ∀ e : EncRegs,
    (∀ u, e.w = [u] → e.w ∈ e.pend → u.toNat < 256 → chooseToken e = some (.encLit8 (u.setWidth 8))) ∧
    (∀ u, e.w = [u] → e.w ∈ e.pend → 256 ≤ u.toNat → chooseToken e = some (.encLit16 u)) ∧
    ∀ k, e.w ∉ e.pend → dictCode e.dict e.w = some k → chooseToken e = some (.encCode k)

/-- 42_encoder.md R167, R168: a literal token, with its frame. -/
def Obligations.EncLiteralTokens : Prop :=
  ∀ s : State, SinkInv s → 2 ≤ s.enc.width → s.enc.width ≤ 25 →
    (∀ c : BitVec 8, s.sink.room (s.enc.width + 8) s.cfg.outCap →
      ∃ t, exec (.encLit8 c) s = .next t ∧
        Pushed (fieldBits s.cfg.order s.enc.width 0 ++ fieldBits s.cfg.order 8 c.toNat) s t ∧
        t = { s with
          enc := { s.enc with
            width := (tick2 s.enc.width s.enc.enl).1, enl := (tick2 s.enc.width s.enc.enl).2
            pend := s.enc.pend.filter (· ≠ [c.setWidth 16]) }
          sink := t.sink, outBuf := t.outBuf }) ∧
    ∀ c : BitVec 16, s.sink.room (s.enc.width + 16) s.cfg.outCap →
      ∃ t, exec (.encLit16 c) s = .next t ∧
        Pushed (fieldBits s.cfg.order s.enc.width 1 ++ fieldBits s.cfg.order 16 c.toNat) s t ∧
        t = { s with
          enc := { s.enc with
            width := (tick2 s.enc.width s.enc.enl).1, enl := (tick2 s.enc.width s.enc.enl).2
            pend := s.enc.pend.filter (· ≠ [c]) }
          sink := t.sink, outBuf := t.outBuf }

/-- 42_encoder.md R169: a code token, with its frame. -/
def Obligations.EncCodeToken : Prop :=
  ∀ (s : State) (k : Nat), SinkInv s → 2 ≤ s.enc.width → s.enc.width ≤ 25 → k < 2 ^ s.enc.width →
    s.sink.room s.enc.width s.cfg.outCap →
    ∃ t, exec (.encCode k) s = .next t ∧ Pushed (fieldBits s.cfg.order s.enc.width k) s t ∧
      t = { s with
        enc := { s.enc with
          width := (tick s.enc.width s.enc.enl).1, enl := (tick s.enc.width s.enc.enl).2 }
        sink := t.sink, outBuf := t.outBuf }

/-- 42_encoder.md R170 with 40_bitpack.md R124, R126 and 41_alphabet.md R145, R146: EOS, the bits that complete the last
character, the `=` of BASE64, and the result. -/
def Obligations.EncEosToken : Prop :=
  ∀ (s : State) (n m : Nat), SinkInv s → 2 ≤ s.enc.width → s.enc.width ≤ 25 →
    n = s.sink.outN + (s.sink.pos + s.enc.width) / 6 + 1 →
    m = (if s.alphl = .base64 then 4 * ((n + 3) / 4) else n) → m ≤ s.cfg.outCap →
    ∃ u t, exec .encEos s = .next t ∧
      Pushed (fieldBits s.cfg.order s.enc.width 2 ++
        List.replicate (6 - (s.sink.pos + s.enc.width) % 6) false) s u ∧
      (∀ k, t.outBuf.read? k = if n ≤ k ∧ k < m then some 0x3D else u.outBuf.read? k) ∧
      t = { s with sink := { acc := 0, pos := 0, outN := m }, outBuf := t.outBuf, stage := .complete (.ok m) }

/-- 40_bitpack.md R125, 41_alphabet.md R145, 60_exceptions.md R255: where OUT has no room for a token's characters, the
token raises RESOURCE(3) with OUT full. -/
def Obligations.OutputFullRaisesResource : Prop :=
  ∀ s : State, SinkInv s → 2 ≤ s.enc.width → s.enc.width ≤ 25 →
    (∀ c : BitVec 8, ¬ s.sink.room (s.enc.width + 8) s.cfg.outCap →
      ∃ t, exec (.encLit8 c) s = .next t ∧ t.stage = .complete (.err (.resource .output)) ∧
        t.sink.outN = s.cfg.outCap) ∧
    (∀ c : BitVec 16, ¬ s.sink.room (s.enc.width + 16) s.cfg.outCap →
      ∃ t, exec (.encLit16 c) s = .next t ∧ t.stage = .complete (.err (.resource .output)) ∧
        t.sink.outN = s.cfg.outCap) ∧
    (∀ k, k < 2 ^ s.enc.width → ¬ s.sink.room s.enc.width s.cfg.outCap →
      ∃ t, exec (.encCode k) s = .next t ∧ t.stage = .complete (.err (.resource .output)) ∧
        t.sink.outN = s.cfg.outCap) ∧
    ∀ n, n = s.sink.outN + (s.sink.pos + s.enc.width) / 6 + 1 →
      s.cfg.outCap < (if s.alphl = .base64 then 4 * ((n + 3) / 4) else n) →
      ∃ t, exec .encEos s = .next t ∧ t.stage = .complete (.err (.resource .output)) ∧ t.sink.outN = s.cfg.outCap

/-- 40_bitpack.md R127: a value that does not fit its field is a fault, and nothing is truncated. -/
def Obligations.FieldTooNarrowIsAFault : Prop :=
  ∀ (s : State) (k : Nat), 2 ^ s.enc.width ≤ k → exec (.encCode k) s = .fault .emitOutOfRange

/-- 41_alphabet.md R145: the output length of a BASE64 COMPRESS is a multiple of 4. -/
def Obligations.Base64LengthIsAMultipleOfFour : Prop :=
  ∀ (s t : State) (n : Nat), Inv s → s.stage = .start → s.opl = .compress → s.alphl = .base64 →
    engineRun n s = .next t → t.status = .done → t.outLen.toNat % 4 = 0

/-- 42_encoder.md R163, R171, 43_decoder.md R205: in a turn of the engine a code width stays or grows by one. That
E_WIDTH and D_WIDTH stay where the turn is the completion step is the model's own choice (log entry 24). -/
def Obligations.CodeWidthGrowsByOne : Prop :=
  ∀ s t : State, Inv s → s.status = .busy → s.stage ≠ .start → engineTurn s = .next t →
    (t.enc.width = s.enc.width ∨ t.enc.width = s.enc.width + 1) ∧
      (t.dec.width = s.dec.width ∨ t.dec.width = s.dec.width + 1)

/-! ### DECOMPRESS -/

/-- 43_decoder.md R193, R194, R197: the first literal, with its frame. -/
def Obligations.DecFirstLiterals : Prop :=
  ∀ s : State, s.dec.next ≠ s.cfg.dictCap → s.dec.resLen ≠ s.cfg.outCap →
    (∀ c : BitVec 8, exec (.decFirstLit8 c) s = .next { s with
      dec := {
        w := 3, next := s.dec.next + 1, width := (tick s.dec.width s.dec.enl).1
        enl := (tick s.dec.width s.dec.enl).2, resLen := s.dec.resLen + 1
        dict := (s.dec.next, [c.setWidth 16]) :: s.dec.dict }
      outBuf := s.outBuf.write s.dec.resLen (c.setWidth 16) }) ∧
    ∀ c : BitVec 16, exec (.decFirstLit16 c) s = .next { s with
      dec := {
        w := 3, next := s.dec.next + 1, width := (tick s.dec.width s.dec.enl).1
        enl := (tick s.dec.width s.dec.enl).2, resLen := s.dec.resLen + 1, dict := (s.dec.next, [c]) :: s.dec.dict }
      outBuf := s.outBuf.write s.dec.resLen c }

/-- 43_decoder.md R195, R196, R200, R203: the tokens that end the operation; they write nothing. -/
def Obligations.DecEndingTokens : Prop :=
  ∀ (s : State) (k : Nat),
    exec .decFirstEos s = .next { s with stage := .complete (.ok 0) } ∧
    exec .decFirstCorrupt s = .next { s with stage := .complete (.err (.dictCorrupt 3)) } ∧
    exec .decEos s = .next { s with stage := .complete (.ok s.dec.resLen) } ∧
    exec (.decCodeCorrupt k) s = .next { s with stage := .complete (.err (.dictCorrupt k)) }

/-- 43_decoder.md R198, R199, R204: a literal in the loop makes two entries and two Ticks and outputs its unit; with
its frame. -/
def Obligations.DecLiteralTokens : Prop :=
  ∀ (s : State) (w : Phrase), LoopInv s.cfg.dictCap s.dec → dictPhrase s.dec.dict s.dec.w = some w →
    s.dec.next + 2 ≤ s.cfg.dictCap → s.dec.resLen < s.cfg.outCap →
    (∀ c : BitVec 8, exec (.decLit8 c) s = .next { s with
      dec := {
        w := s.dec.next, next := s.dec.next + 2, width := (tick2 s.dec.width s.dec.enl).1
        enl := (tick2 s.dec.width s.dec.enl).2, resLen := s.dec.resLen + 1
        dict := (s.dec.next + 1, w ++ [c.setWidth 16]) :: (s.dec.next, [c.setWidth 16]) :: s.dec.dict }
      outBuf := s.outBuf.write s.dec.resLen (c.setWidth 16) }) ∧
    ∀ c : BitVec 16, exec (.decLit16 c) s = .next { s with
      dec := {
        w := s.dec.next, next := s.dec.next + 2, width := (tick2 s.dec.width s.dec.enl).1
        enl := (tick2 s.dec.width s.dec.enl).2, resLen := s.dec.resLen + 1
        dict := (s.dec.next + 1, w ++ [c]) :: (s.dec.next, [c]) :: s.dec.dict }
      outBuf := s.outBuf.write s.dec.resLen c }

/-- 43_decoder.md R201, R202, R204: a known code outputs its entry, a self-reference the last entry extended by its own
first unit; one entry and one Tick; with their frame. -/
def Obligations.DecCodeTokens : Prop :=
  ∀ (s : State) (k : Nat) (w e : Phrase), LoopInv s.cfg.dictCap s.dec → s.outBuf.wf →
    dictPhrase s.dec.dict s.dec.w = some w → s.dec.next < s.cfg.dictCap →
    s.dec.resLen + e.length ≤ s.cfg.outCap →
    (3 ≤ k → k < s.dec.next → dictPhrase s.dec.dict k = some e →
      ∃ t, exec (.decCodeKnown k) s = .next t ∧ Appended e s t ∧ t = { s with
        dec := {
          w := k, next := s.dec.next + 1, width := (tick s.dec.width s.dec.enl).1
          enl := (tick s.dec.width s.dec.enl).2, resLen := s.dec.resLen + e.length
          dict := (s.dec.next, w ++ e.take 1) :: s.dec.dict }
        outBuf := t.outBuf }) ∧
    (k = s.dec.next → e = w ++ w.take 1 →
      ∃ t, exec (.decCodeSelf k) s = .next t ∧ Appended e s t ∧ t = { s with
        dec := {
          w := k, next := s.dec.next + 1, width := (tick s.dec.width s.dec.enl).1
          enl := (tick s.dec.width s.dec.enl).2, resLen := s.dec.resLen + e.length
          dict := (s.dec.next, e) :: s.dec.dict }
        outBuf := t.outBuf })

/-- 43_decoder.md R198, R199, R204, R207, R208 with 60_exceptions.md R260: the capacity errors of the loop's tokens, in
the order of the pseudocode, for both literals and for both kinds of code; `e` is the entry the code outputs. -/
def Obligations.DecCapacityErrors : Prop :=
  ∀ (s : State) (i : Instr), LoopInv s.cfg.dictCap s.dec → s.dec.resLen ≤ s.cfg.outCap →
    ((∃ c, i = .decLit8 c) ∨ (∃ c, i = .decLit16 c) →
      (s.dec.next = s.cfg.dictCap →
        ∃ t, exec i s = .next t ∧ t.stage = .complete (.err (.resource .dictionary)) ∧ t.outBuf = s.outBuf) ∧
      (s.dec.next ≠ s.cfg.dictCap → s.dec.resLen = s.cfg.outCap →
        ∃ t, exec i s = .next t ∧ t.stage = .complete (.err (.resource .output))) ∧
      (s.dec.next + 1 = s.cfg.dictCap → s.dec.resLen < s.cfg.outCap →
        ∃ t, exec i s = .next t ∧ t.stage = .complete (.err (.resource .dictionary)))) ∧
    ∀ (k : Nat) (e : Phrase),
      (i = .decCodeKnown k ∧ 3 ≤ k ∧ k < s.dec.next ∧ dictPhrase s.dec.dict k = some e) ∨
        (i = .decCodeSelf k ∧ k = s.dec.next ∧ ∃ w, dictPhrase s.dec.dict s.dec.w = some w ∧ e = w ++ w.take 1) →
      (s.cfg.outCap < s.dec.resLen + e.length →
        ∃ t, exec i s = .next t ∧ t.stage = .complete (.err (.resource .output))) ∧
      (s.dec.resLen + e.length ≤ s.cfg.outCap → s.dec.next = s.cfg.dictCap →
        ∃ t, exec i s = .next t ∧ t.stage = .complete (.err (.resource .dictionary)))
end

