-- ==== Sys2Proof/Laws/Memory.lean ====
section
/-! SUPPORT. The laws of a buffer: read after write, the canonical form, and buffers filled from 0. -/

namespace Sys2Proof.Machine

open Sys2Proof

@[simp] theorem Memory.read?_nil (k : Nat) : Memory.read? [] k = none := rfl

theorem Memory.read?_write (m : Memory) (hm : m.wf) (j k : Nat) (v : CodeUnit) :
    (m.write k v).read? j = if j = k then some v else m.read? j := by
  induction m with
  | nil => simp [Memory.write, Memory.read?]
  | cons e m ih =>
    obtain ⟨a, u⟩ := e
    have hm' : Memory.wf m := (List.pairwise_cons.mp hm).2
    unfold Memory.write
    split
    · simp [Memory.read?]
    · split
      · subst k; simp only [Memory.read?]; split <;> rfl
      · simp only [Memory.read?, ih hm']
        split <;> split <;> simp_all

/-- The indices of a buffer after a write: those it had, and the one written. -/
theorem Memory.mem_write (m : Memory) (k : Nat) (v : CodeUnit) (e : Nat × CodeUnit) :
    e ∈ m.write k v → e = (k, v) ∨ e ∈ m := by
  induction m with
  | nil => simp [Memory.write]
  | cons x m ih =>
    obtain ⟨a, u⟩ := x
    unfold Memory.write
    split
    · simp
    · split
      · simp only [List.mem_cons]
        rintro (h | h)
        · exact .inl h
        · exact .inr (.inr h)
      · simp only [List.mem_cons]
        rintro (h | h)
        · exact .inr (.inl h)
        · rcases ih h with h | h
          · exact .inl h
          · exact .inr (.inr h)

theorem Memory.wf_write (m : Memory) (hm : m.wf) (k : Nat) (v : CodeUnit) : Memory.wf (m.write k v) := by
  induction m with
  | nil => simp [Memory.write, Memory.wf]
  | cons e m ih =>
    obtain ⟨a, u⟩ := e
    simp only [Memory.wf, List.map_cons, List.pairwise_cons] at hm
    obtain ⟨h1, h2⟩ := hm
    unfold Memory.write
    split
    · rename_i hka
      simp only [Memory.wf, List.map_cons, List.pairwise_cons]
      refine ⟨?_, h1, h2⟩
      intro b hb
      rcases List.mem_cons.mp hb with rfl | hb
      · exact hka
      · exact Nat.lt_trans hka (h1 b hb)
    · split
      · rename_i h; subst h
        exact List.pairwise_cons.mpr ⟨h1, h2⟩
      · rename_i h3 h4
        simp only [Memory.wf, List.map_cons, List.pairwise_cons]
        refine ⟨?_, ih h2⟩
        intro b hb
        obtain ⟨x, hx, rfl⟩ := List.mem_map.mp hb
        rcases Memory.mem_write m k v x hx with rfl | hx
        · simp only; omega
        · exact h1 _ (List.mem_map_of_mem hx)

theorem Memory.below_write (m : Memory) (n k : Nat) (v : CodeUnit) (hm : m.below n) (hk : k < n) :
    (m.write k v).below n := by
  intro e he
  rcases Memory.mem_write m k v e he with rfl | h
  · exact hk
  · exact hm e h

theorem Memory.filled_nil : Memory.filled [] 0 := rfl

theorem Memory.filled_below {m : Memory} {n : Nat} (h : m.filled n) : m.below n := by
  intro e he
  have : e.1 ∈ m.map Prod.fst := List.mem_map_of_mem he
  rw [h] at this
  exact List.mem_range.mp this

theorem Memory.filled_wf {m : Memory} {n : Nat} (h : m.filled n) : m.wf := by
  show List.Pairwise _ _
  rw [h]; exact List.pairwise_lt_range

/-- Writing above every listed index appends. -/
theorem Memory.write_append (m : Memory) (k : Nat) (v : CodeUnit) (h : m.below k) :
    m.write k v = m ++ [(k, v)] := by
  induction m with
  | nil => rfl
  | cons e m ih =>
    obtain ⟨a, u⟩ := e
    have ha : a < k := h (a, u) (by simp)
    simp only [Memory.write]
    rw [if_neg (by omega), if_neg (by omega), ih (fun e he => h e (by simp [he]))]
    rfl

theorem Memory.filled_write {m : Memory} {n : Nat} (h : m.filled n) (v : CodeUnit) :
    (m.write n v).filled (n + 1) := by
  rw [Memory.write_append m n v (Memory.filled_below h)]
  simp only [Memory.filled, List.map_append, List.map_cons, List.map_nil, List.range_succ]
  rw [h]

theorem Memory.read?_none (m : Memory) (k : Nat) (h : m.below k) : m.read? k = none := by
  induction m with
  | nil => rfl
  | cons e m ih =>
    obtain ⟨a, u⟩ := e
    have ha : a < k := h (a, u) (by simp)
    simp only [Memory.read?]
    rw [if_neg (by omega), ih (fun e he => h e (by simp [he]))]

/-- A listed index is read. -/
theorem Memory.read?_isSome (m : Memory) (k : Nat) (h : k ∈ m.map Prod.fst) : ∃ v, m.read? k = some v := by
  induction m with
  | nil => simp at h
  | cons e m ih =>
    obtain ⟨a, u⟩ := e
    simp only [Memory.read?]
    split
    · exact ⟨u, rfl⟩
    · rename_i hne
      simp only [List.map_cons, List.mem_cons] at h
      exact ih (h.resolve_left hne)

theorem Memory.read?_filled {m : Memory} {n k : Nat} (h : m.filled n) (hk : k < n) : ∃ v, m.read? k = some v :=
  Memory.read?_isSome m k (by rw [h]; exact List.mem_range.mpr hk)

end Sys2Proof.Machine
end

