-- ==== Sys2Proof/Laws/State.lean ====
section
/-! SUPPORT. One lemma per field of State for each named update, so that no later proof unfolds a record update. -/

namespace Sys2Proof.Machine

open Sys2Proof

variable (s : State)

@[simp] theorem setEnc_cfg (e : EncRegs) : (s.setEnc e).cfg = s.cfg := rfl
@[simp] theorem setEnc_ctrlOp (e : EncRegs) : (s.setEnc e).ctrlOp = s.ctrlOp := rfl
@[simp] theorem setEnc_ctrlAlph (e : EncRegs) : (s.setEnc e).ctrlAlph = s.ctrlAlph := rfl
@[simp] theorem setEnc_status (e : EncRegs) : (s.setEnc e).status = s.status := rfl
@[simp] theorem setEnc_err (e : EncRegs) : (s.setEnc e).err = s.err := rfl
@[simp] theorem setEnc_inLen (e : EncRegs) : (s.setEnc e).inLen = s.inLen := rfl
@[simp] theorem setEnc_outLen (e : EncRegs) : (s.setEnc e).outLen = s.outLen := rfl
@[simp] theorem setEnc_errInfo (e : EncRegs) : (s.setEnc e).errInfo = s.errInfo := rfl
@[simp] theorem setEnc_inBuf (e : EncRegs) : (s.setEnc e).inBuf = s.inBuf := rfl
@[simp] theorem setEnc_outBuf (e : EncRegs) : (s.setEnc e).outBuf = s.outBuf := rfl
@[simp] theorem setEnc_phase (e : EncRegs) : (s.setEnc e).phase = s.phase := rfl
@[simp] theorem setEnc_opl (e : EncRegs) : (s.setEnc e).opl = s.opl := rfl
@[simp] theorem setEnc_alphl (e : EncRegs) : (s.setEnc e).alphl = s.alphl := rfl
@[simp] theorem setEnc_snapLen (e : EncRegs) : (s.setEnc e).snapLen = s.snapLen := rfl
@[simp] theorem setEnc_snapIn (e : EncRegs) : (s.setEnc e).snapIn = s.snapIn := rfl
@[simp] theorem setEnc_enc (e : EncRegs) : (s.setEnc e).enc = e := rfl
@[simp] theorem setEnc_dec (e : EncRegs) : (s.setEnc e).dec = s.dec := rfl
@[simp] theorem setEnc_sink (e : EncRegs) : (s.setEnc e).sink = s.sink := rfl
@[simp] theorem setEnc_src (e : EncRegs) : (s.setEnc e).src = s.src := rfl
@[simp] theorem setEnc_stage (e : EncRegs) : (s.setEnc e).stage = s.stage := rfl
@[simp] theorem setEnc_resp (e : EncRegs) : (s.setEnc e).resp = s.resp := rfl
@[simp] theorem setEnc_events (e : EncRegs) : (s.setEnc e).events = s.events := rfl
@[simp] theorem setEnc_freeCtr (e : EncRegs) : (s.setEnc e).freeCtr = s.freeCtr := rfl
@[simp] theorem setEnc_resets (e : EncRegs) : (s.setEnc e).resets = s.resets := rfl

@[simp] theorem setDec_cfg (d : DecRegs) : (s.setDec d).cfg = s.cfg := rfl
@[simp] theorem setDec_ctrlOp (d : DecRegs) : (s.setDec d).ctrlOp = s.ctrlOp := rfl
@[simp] theorem setDec_ctrlAlph (d : DecRegs) : (s.setDec d).ctrlAlph = s.ctrlAlph := rfl
@[simp] theorem setDec_status (d : DecRegs) : (s.setDec d).status = s.status := rfl
@[simp] theorem setDec_err (d : DecRegs) : (s.setDec d).err = s.err := rfl
@[simp] theorem setDec_inLen (d : DecRegs) : (s.setDec d).inLen = s.inLen := rfl
@[simp] theorem setDec_outLen (d : DecRegs) : (s.setDec d).outLen = s.outLen := rfl
@[simp] theorem setDec_errInfo (d : DecRegs) : (s.setDec d).errInfo = s.errInfo := rfl
@[simp] theorem setDec_inBuf (d : DecRegs) : (s.setDec d).inBuf = s.inBuf := rfl
@[simp] theorem setDec_outBuf (d : DecRegs) : (s.setDec d).outBuf = s.outBuf := rfl
@[simp] theorem setDec_phase (d : DecRegs) : (s.setDec d).phase = s.phase := rfl
@[simp] theorem setDec_opl (d : DecRegs) : (s.setDec d).opl = s.opl := rfl
@[simp] theorem setDec_alphl (d : DecRegs) : (s.setDec d).alphl = s.alphl := rfl
@[simp] theorem setDec_snapLen (d : DecRegs) : (s.setDec d).snapLen = s.snapLen := rfl
@[simp] theorem setDec_snapIn (d : DecRegs) : (s.setDec d).snapIn = s.snapIn := rfl
@[simp] theorem setDec_enc (d : DecRegs) : (s.setDec d).enc = s.enc := rfl
@[simp] theorem setDec_dec (d : DecRegs) : (s.setDec d).dec = d := rfl
@[simp] theorem setDec_sink (d : DecRegs) : (s.setDec d).sink = s.sink := rfl
@[simp] theorem setDec_src (d : DecRegs) : (s.setDec d).src = s.src := rfl
@[simp] theorem setDec_stage (d : DecRegs) : (s.setDec d).stage = s.stage := rfl
@[simp] theorem setDec_resp (d : DecRegs) : (s.setDec d).resp = s.resp := rfl
@[simp] theorem setDec_events (d : DecRegs) : (s.setDec d).events = s.events := rfl
@[simp] theorem setDec_freeCtr (d : DecRegs) : (s.setDec d).freeCtr = s.freeCtr := rfl
@[simp] theorem setDec_resets (d : DecRegs) : (s.setDec d).resets = s.resets := rfl

@[simp] theorem setSink_cfg (k : SinkRegs) : (s.setSink k).cfg = s.cfg := rfl
@[simp] theorem setSink_ctrlOp (k : SinkRegs) : (s.setSink k).ctrlOp = s.ctrlOp := rfl
@[simp] theorem setSink_ctrlAlph (k : SinkRegs) : (s.setSink k).ctrlAlph = s.ctrlAlph := rfl
@[simp] theorem setSink_status (k : SinkRegs) : (s.setSink k).status = s.status := rfl
@[simp] theorem setSink_err (k : SinkRegs) : (s.setSink k).err = s.err := rfl
@[simp] theorem setSink_inLen (k : SinkRegs) : (s.setSink k).inLen = s.inLen := rfl
@[simp] theorem setSink_outLen (k : SinkRegs) : (s.setSink k).outLen = s.outLen := rfl
@[simp] theorem setSink_errInfo (k : SinkRegs) : (s.setSink k).errInfo = s.errInfo := rfl
@[simp] theorem setSink_inBuf (k : SinkRegs) : (s.setSink k).inBuf = s.inBuf := rfl
@[simp] theorem setSink_outBuf (k : SinkRegs) : (s.setSink k).outBuf = s.outBuf := rfl
@[simp] theorem setSink_phase (k : SinkRegs) : (s.setSink k).phase = s.phase := rfl
@[simp] theorem setSink_opl (k : SinkRegs) : (s.setSink k).opl = s.opl := rfl
@[simp] theorem setSink_alphl (k : SinkRegs) : (s.setSink k).alphl = s.alphl := rfl
@[simp] theorem setSink_snapLen (k : SinkRegs) : (s.setSink k).snapLen = s.snapLen := rfl
@[simp] theorem setSink_snapIn (k : SinkRegs) : (s.setSink k).snapIn = s.snapIn := rfl
@[simp] theorem setSink_enc (k : SinkRegs) : (s.setSink k).enc = s.enc := rfl
@[simp] theorem setSink_dec (k : SinkRegs) : (s.setSink k).dec = s.dec := rfl
@[simp] theorem setSink_sink (k : SinkRegs) : (s.setSink k).sink = k := rfl
@[simp] theorem setSink_src (k : SinkRegs) : (s.setSink k).src = s.src := rfl
@[simp] theorem setSink_stage (k : SinkRegs) : (s.setSink k).stage = s.stage := rfl
@[simp] theorem setSink_resp (k : SinkRegs) : (s.setSink k).resp = s.resp := rfl
@[simp] theorem setSink_events (k : SinkRegs) : (s.setSink k).events = s.events := rfl
@[simp] theorem setSink_freeCtr (k : SinkRegs) : (s.setSink k).freeCtr = s.freeCtr := rfl
@[simp] theorem setSink_resets (k : SinkRegs) : (s.setSink k).resets = s.resets := rfl

@[simp] theorem setSrc_cfg (r : SourceRegs) : (s.setSrc r).cfg = s.cfg := rfl
@[simp] theorem setSrc_ctrlOp (r : SourceRegs) : (s.setSrc r).ctrlOp = s.ctrlOp := rfl
@[simp] theorem setSrc_ctrlAlph (r : SourceRegs) : (s.setSrc r).ctrlAlph = s.ctrlAlph := rfl
@[simp] theorem setSrc_status (r : SourceRegs) : (s.setSrc r).status = s.status := rfl
@[simp] theorem setSrc_err (r : SourceRegs) : (s.setSrc r).err = s.err := rfl
@[simp] theorem setSrc_inLen (r : SourceRegs) : (s.setSrc r).inLen = s.inLen := rfl
@[simp] theorem setSrc_outLen (r : SourceRegs) : (s.setSrc r).outLen = s.outLen := rfl
@[simp] theorem setSrc_errInfo (r : SourceRegs) : (s.setSrc r).errInfo = s.errInfo := rfl
@[simp] theorem setSrc_inBuf (r : SourceRegs) : (s.setSrc r).inBuf = s.inBuf := rfl
@[simp] theorem setSrc_outBuf (r : SourceRegs) : (s.setSrc r).outBuf = s.outBuf := rfl
@[simp] theorem setSrc_phase (r : SourceRegs) : (s.setSrc r).phase = s.phase := rfl
@[simp] theorem setSrc_opl (r : SourceRegs) : (s.setSrc r).opl = s.opl := rfl
@[simp] theorem setSrc_alphl (r : SourceRegs) : (s.setSrc r).alphl = s.alphl := rfl
@[simp] theorem setSrc_snapLen (r : SourceRegs) : (s.setSrc r).snapLen = s.snapLen := rfl
@[simp] theorem setSrc_snapIn (r : SourceRegs) : (s.setSrc r).snapIn = s.snapIn := rfl
@[simp] theorem setSrc_enc (r : SourceRegs) : (s.setSrc r).enc = s.enc := rfl
@[simp] theorem setSrc_dec (r : SourceRegs) : (s.setSrc r).dec = s.dec := rfl
@[simp] theorem setSrc_sink (r : SourceRegs) : (s.setSrc r).sink = s.sink := rfl
@[simp] theorem setSrc_src (r : SourceRegs) : (s.setSrc r).src = r := rfl
@[simp] theorem setSrc_stage (r : SourceRegs) : (s.setSrc r).stage = s.stage := rfl
@[simp] theorem setSrc_resp (r : SourceRegs) : (s.setSrc r).resp = s.resp := rfl
@[simp] theorem setSrc_events (r : SourceRegs) : (s.setSrc r).events = s.events := rfl
@[simp] theorem setSrc_freeCtr (r : SourceRegs) : (s.setSrc r).freeCtr = s.freeCtr := rfl
@[simp] theorem setSrc_resets (r : SourceRegs) : (s.setSrc r).resets = s.resets := rfl

@[simp] theorem setStage_cfg (g : Stage) : (s.setStage g).cfg = s.cfg := rfl
@[simp] theorem setStage_ctrlOp (g : Stage) : (s.setStage g).ctrlOp = s.ctrlOp := rfl
@[simp] theorem setStage_ctrlAlph (g : Stage) : (s.setStage g).ctrlAlph = s.ctrlAlph := rfl
@[simp] theorem setStage_status (g : Stage) : (s.setStage g).status = s.status := rfl
@[simp] theorem setStage_err (g : Stage) : (s.setStage g).err = s.err := rfl
@[simp] theorem setStage_inLen (g : Stage) : (s.setStage g).inLen = s.inLen := rfl
@[simp] theorem setStage_outLen (g : Stage) : (s.setStage g).outLen = s.outLen := rfl
@[simp] theorem setStage_errInfo (g : Stage) : (s.setStage g).errInfo = s.errInfo := rfl
@[simp] theorem setStage_inBuf (g : Stage) : (s.setStage g).inBuf = s.inBuf := rfl
@[simp] theorem setStage_outBuf (g : Stage) : (s.setStage g).outBuf = s.outBuf := rfl
@[simp] theorem setStage_phase (g : Stage) : (s.setStage g).phase = s.phase := rfl
@[simp] theorem setStage_opl (g : Stage) : (s.setStage g).opl = s.opl := rfl
@[simp] theorem setStage_alphl (g : Stage) : (s.setStage g).alphl = s.alphl := rfl
@[simp] theorem setStage_snapLen (g : Stage) : (s.setStage g).snapLen = s.snapLen := rfl
@[simp] theorem setStage_snapIn (g : Stage) : (s.setStage g).snapIn = s.snapIn := rfl
@[simp] theorem setStage_enc (g : Stage) : (s.setStage g).enc = s.enc := rfl
@[simp] theorem setStage_dec (g : Stage) : (s.setStage g).dec = s.dec := rfl
@[simp] theorem setStage_sink (g : Stage) : (s.setStage g).sink = s.sink := rfl
@[simp] theorem setStage_src (g : Stage) : (s.setStage g).src = s.src := rfl
@[simp] theorem setStage_stage (g : Stage) : (s.setStage g).stage = g := rfl
@[simp] theorem setStage_resp (g : Stage) : (s.setStage g).resp = s.resp := rfl
@[simp] theorem setStage_events (g : Stage) : (s.setStage g).events = s.events := rfl
@[simp] theorem setStage_freeCtr (g : Stage) : (s.setStage g).freeCtr = s.freeCtr := rfl
@[simp] theorem setStage_resets (g : Stage) : (s.setStage g).resets = s.resets := rfl

@[simp] theorem setOut_cfg (m : Memory) : (s.setOut m).cfg = s.cfg := rfl
@[simp] theorem setOut_ctrlOp (m : Memory) : (s.setOut m).ctrlOp = s.ctrlOp := rfl
@[simp] theorem setOut_ctrlAlph (m : Memory) : (s.setOut m).ctrlAlph = s.ctrlAlph := rfl
@[simp] theorem setOut_status (m : Memory) : (s.setOut m).status = s.status := rfl
@[simp] theorem setOut_err (m : Memory) : (s.setOut m).err = s.err := rfl
@[simp] theorem setOut_inLen (m : Memory) : (s.setOut m).inLen = s.inLen := rfl
@[simp] theorem setOut_outLen (m : Memory) : (s.setOut m).outLen = s.outLen := rfl
@[simp] theorem setOut_errInfo (m : Memory) : (s.setOut m).errInfo = s.errInfo := rfl
@[simp] theorem setOut_inBuf (m : Memory) : (s.setOut m).inBuf = s.inBuf := rfl
@[simp] theorem setOut_outBuf (m : Memory) : (s.setOut m).outBuf = m := rfl
@[simp] theorem setOut_phase (m : Memory) : (s.setOut m).phase = s.phase := rfl
@[simp] theorem setOut_opl (m : Memory) : (s.setOut m).opl = s.opl := rfl
@[simp] theorem setOut_alphl (m : Memory) : (s.setOut m).alphl = s.alphl := rfl
@[simp] theorem setOut_snapLen (m : Memory) : (s.setOut m).snapLen = s.snapLen := rfl
@[simp] theorem setOut_snapIn (m : Memory) : (s.setOut m).snapIn = s.snapIn := rfl
@[simp] theorem setOut_enc (m : Memory) : (s.setOut m).enc = s.enc := rfl
@[simp] theorem setOut_dec (m : Memory) : (s.setOut m).dec = s.dec := rfl
@[simp] theorem setOut_sink (m : Memory) : (s.setOut m).sink = s.sink := rfl
@[simp] theorem setOut_src (m : Memory) : (s.setOut m).src = s.src := rfl
@[simp] theorem setOut_stage (m : Memory) : (s.setOut m).stage = s.stage := rfl
@[simp] theorem setOut_resp (m : Memory) : (s.setOut m).resp = s.resp := rfl
@[simp] theorem setOut_events (m : Memory) : (s.setOut m).events = s.events := rfl
@[simp] theorem setOut_freeCtr (m : Memory) : (s.setOut m).freeCtr = s.freeCtr := rfl
@[simp] theorem setOut_resets (m : Memory) : (s.setOut m).resets = s.resets := rfl

@[simp] theorem setIn_cfg (m : Memory) : (s.setIn m).cfg = s.cfg := rfl
@[simp] theorem setIn_ctrlOp (m : Memory) : (s.setIn m).ctrlOp = s.ctrlOp := rfl
@[simp] theorem setIn_ctrlAlph (m : Memory) : (s.setIn m).ctrlAlph = s.ctrlAlph := rfl
@[simp] theorem setIn_status (m : Memory) : (s.setIn m).status = s.status := rfl
@[simp] theorem setIn_err (m : Memory) : (s.setIn m).err = s.err := rfl
@[simp] theorem setIn_inLen (m : Memory) : (s.setIn m).inLen = s.inLen := rfl
@[simp] theorem setIn_outLen (m : Memory) : (s.setIn m).outLen = s.outLen := rfl
@[simp] theorem setIn_errInfo (m : Memory) : (s.setIn m).errInfo = s.errInfo := rfl
@[simp] theorem setIn_inBuf (m : Memory) : (s.setIn m).inBuf = m := rfl
@[simp] theorem setIn_outBuf (m : Memory) : (s.setIn m).outBuf = s.outBuf := rfl
@[simp] theorem setIn_phase (m : Memory) : (s.setIn m).phase = s.phase := rfl
@[simp] theorem setIn_opl (m : Memory) : (s.setIn m).opl = s.opl := rfl
@[simp] theorem setIn_alphl (m : Memory) : (s.setIn m).alphl = s.alphl := rfl
@[simp] theorem setIn_snapLen (m : Memory) : (s.setIn m).snapLen = s.snapLen := rfl
@[simp] theorem setIn_snapIn (m : Memory) : (s.setIn m).snapIn = s.snapIn := rfl
@[simp] theorem setIn_enc (m : Memory) : (s.setIn m).enc = s.enc := rfl
@[simp] theorem setIn_dec (m : Memory) : (s.setIn m).dec = s.dec := rfl
@[simp] theorem setIn_sink (m : Memory) : (s.setIn m).sink = s.sink := rfl
@[simp] theorem setIn_src (m : Memory) : (s.setIn m).src = s.src := rfl
@[simp] theorem setIn_stage (m : Memory) : (s.setIn m).stage = s.stage := rfl
@[simp] theorem setIn_resp (m : Memory) : (s.setIn m).resp = s.resp := rfl
@[simp] theorem setIn_events (m : Memory) : (s.setIn m).events = s.events := rfl
@[simp] theorem setIn_freeCtr (m : Memory) : (s.setIn m).freeCtr = s.freeCtr := rfl
@[simp] theorem setIn_resets (m : Memory) : (s.setIn m).resets = s.resets := rfl

@[simp] theorem setInLen_cfg (v : Word) : (s.setInLen v).cfg = s.cfg := rfl
@[simp] theorem setInLen_ctrlOp (v : Word) : (s.setInLen v).ctrlOp = s.ctrlOp := rfl
@[simp] theorem setInLen_ctrlAlph (v : Word) : (s.setInLen v).ctrlAlph = s.ctrlAlph := rfl
@[simp] theorem setInLen_status (v : Word) : (s.setInLen v).status = s.status := rfl
@[simp] theorem setInLen_err (v : Word) : (s.setInLen v).err = s.err := rfl
@[simp] theorem setInLen_inLen (v : Word) : (s.setInLen v).inLen = v := rfl
@[simp] theorem setInLen_outLen (v : Word) : (s.setInLen v).outLen = s.outLen := rfl
@[simp] theorem setInLen_errInfo (v : Word) : (s.setInLen v).errInfo = s.errInfo := rfl
@[simp] theorem setInLen_inBuf (v : Word) : (s.setInLen v).inBuf = s.inBuf := rfl
@[simp] theorem setInLen_outBuf (v : Word) : (s.setInLen v).outBuf = s.outBuf := rfl
@[simp] theorem setInLen_phase (v : Word) : (s.setInLen v).phase = s.phase := rfl
@[simp] theorem setInLen_opl (v : Word) : (s.setInLen v).opl = s.opl := rfl
@[simp] theorem setInLen_alphl (v : Word) : (s.setInLen v).alphl = s.alphl := rfl
@[simp] theorem setInLen_snapLen (v : Word) : (s.setInLen v).snapLen = s.snapLen := rfl
@[simp] theorem setInLen_snapIn (v : Word) : (s.setInLen v).snapIn = s.snapIn := rfl
@[simp] theorem setInLen_enc (v : Word) : (s.setInLen v).enc = s.enc := rfl
@[simp] theorem setInLen_dec (v : Word) : (s.setInLen v).dec = s.dec := rfl
@[simp] theorem setInLen_sink (v : Word) : (s.setInLen v).sink = s.sink := rfl
@[simp] theorem setInLen_src (v : Word) : (s.setInLen v).src = s.src := rfl
@[simp] theorem setInLen_stage (v : Word) : (s.setInLen v).stage = s.stage := rfl
@[simp] theorem setInLen_resp (v : Word) : (s.setInLen v).resp = s.resp := rfl
@[simp] theorem setInLen_events (v : Word) : (s.setInLen v).events = s.events := rfl
@[simp] theorem setInLen_freeCtr (v : Word) : (s.setInLen v).freeCtr = s.freeCtr := rfl
@[simp] theorem setInLen_resets (v : Word) : (s.setInLen v).resets = s.resets := rfl

@[simp] theorem setMode_cfg (o : Op) (a : Alphabet) : (s.setMode o a).cfg = s.cfg := rfl
@[simp] theorem setMode_ctrlOp (o : Op) (a : Alphabet) : (s.setMode o a).ctrlOp = o := rfl
@[simp] theorem setMode_ctrlAlph (o : Op) (a : Alphabet) : (s.setMode o a).ctrlAlph = a := rfl
@[simp] theorem setMode_status (o : Op) (a : Alphabet) : (s.setMode o a).status = s.status := rfl
@[simp] theorem setMode_err (o : Op) (a : Alphabet) : (s.setMode o a).err = s.err := rfl
@[simp] theorem setMode_inLen (o : Op) (a : Alphabet) : (s.setMode o a).inLen = s.inLen := rfl
@[simp] theorem setMode_outLen (o : Op) (a : Alphabet) : (s.setMode o a).outLen = s.outLen := rfl
@[simp] theorem setMode_errInfo (o : Op) (a : Alphabet) : (s.setMode o a).errInfo = s.errInfo := rfl
@[simp] theorem setMode_inBuf (o : Op) (a : Alphabet) : (s.setMode o a).inBuf = s.inBuf := rfl
@[simp] theorem setMode_outBuf (o : Op) (a : Alphabet) : (s.setMode o a).outBuf = s.outBuf := rfl
@[simp] theorem setMode_phase (o : Op) (a : Alphabet) : (s.setMode o a).phase = s.phase := rfl
@[simp] theorem setMode_opl (o : Op) (a : Alphabet) : (s.setMode o a).opl = s.opl := rfl
@[simp] theorem setMode_alphl (o : Op) (a : Alphabet) : (s.setMode o a).alphl = s.alphl := rfl
@[simp] theorem setMode_snapLen (o : Op) (a : Alphabet) : (s.setMode o a).snapLen = s.snapLen := rfl
@[simp] theorem setMode_snapIn (o : Op) (a : Alphabet) : (s.setMode o a).snapIn = s.snapIn := rfl
@[simp] theorem setMode_enc (o : Op) (a : Alphabet) : (s.setMode o a).enc = s.enc := rfl
@[simp] theorem setMode_dec (o : Op) (a : Alphabet) : (s.setMode o a).dec = s.dec := rfl
@[simp] theorem setMode_sink (o : Op) (a : Alphabet) : (s.setMode o a).sink = s.sink := rfl
@[simp] theorem setMode_src (o : Op) (a : Alphabet) : (s.setMode o a).src = s.src := rfl
@[simp] theorem setMode_stage (o : Op) (a : Alphabet) : (s.setMode o a).stage = s.stage := rfl
@[simp] theorem setMode_resp (o : Op) (a : Alphabet) : (s.setMode o a).resp = s.resp := rfl
@[simp] theorem setMode_events (o : Op) (a : Alphabet) : (s.setMode o a).events = s.events := rfl
@[simp] theorem setMode_freeCtr (o : Op) (a : Alphabet) : (s.setMode o a).freeCtr = s.freeCtr := rfl
@[simp] theorem setMode_resets (o : Op) (a : Alphabet) : (s.setMode o a).resets = s.resets := rfl

@[simp] theorem respond_cfg (r : Response) : (s.respond r).cfg = s.cfg := rfl
@[simp] theorem respond_ctrlOp (r : Response) : (s.respond r).ctrlOp = s.ctrlOp := rfl
@[simp] theorem respond_ctrlAlph (r : Response) : (s.respond r).ctrlAlph = s.ctrlAlph := rfl
@[simp] theorem respond_status (r : Response) : (s.respond r).status = s.status := rfl
@[simp] theorem respond_err (r : Response) : (s.respond r).err = s.err := rfl
@[simp] theorem respond_inLen (r : Response) : (s.respond r).inLen = s.inLen := rfl
@[simp] theorem respond_outLen (r : Response) : (s.respond r).outLen = s.outLen := rfl
@[simp] theorem respond_errInfo (r : Response) : (s.respond r).errInfo = s.errInfo := rfl
@[simp] theorem respond_inBuf (r : Response) : (s.respond r).inBuf = s.inBuf := rfl
@[simp] theorem respond_outBuf (r : Response) : (s.respond r).outBuf = s.outBuf := rfl
@[simp] theorem respond_phase (r : Response) : (s.respond r).phase = s.phase := rfl
@[simp] theorem respond_opl (r : Response) : (s.respond r).opl = s.opl := rfl
@[simp] theorem respond_alphl (r : Response) : (s.respond r).alphl = s.alphl := rfl
@[simp] theorem respond_snapLen (r : Response) : (s.respond r).snapLen = s.snapLen := rfl
@[simp] theorem respond_snapIn (r : Response) : (s.respond r).snapIn = s.snapIn := rfl
@[simp] theorem respond_enc (r : Response) : (s.respond r).enc = s.enc := rfl
@[simp] theorem respond_dec (r : Response) : (s.respond r).dec = s.dec := rfl
@[simp] theorem respond_sink (r : Response) : (s.respond r).sink = s.sink := rfl
@[simp] theorem respond_src (r : Response) : (s.respond r).src = s.src := rfl
@[simp] theorem respond_stage (r : Response) : (s.respond r).stage = s.stage := rfl
@[simp] theorem respond_resp (r : Response) : (s.respond r).resp = r := rfl
@[simp] theorem respond_events (r : Response) : (s.respond r).events = s.events := rfl
@[simp] theorem respond_freeCtr (r : Response) : (s.respond r).freeCtr = s.freeCtr := rfl
@[simp] theorem respond_resets (r : Response) : (s.respond r).resets = s.resets := rfl

@[simp] theorem returned_cfg (r : RunResult) : (s.returned r).cfg = s.cfg := rfl
@[simp] theorem returned_ctrlOp (r : RunResult) : (s.returned r).ctrlOp = s.ctrlOp := rfl
@[simp] theorem returned_ctrlAlph (r : RunResult) : (s.returned r).ctrlAlph = s.ctrlAlph := rfl
@[simp] theorem returned_status (r : RunResult) : (s.returned r).status = s.status := rfl
@[simp] theorem returned_err (r : RunResult) : (s.returned r).err = s.err := rfl
@[simp] theorem returned_inLen (r : RunResult) : (s.returned r).inLen = s.inLen := rfl
@[simp] theorem returned_outLen (r : RunResult) : (s.returned r).outLen = s.outLen := rfl
@[simp] theorem returned_errInfo (r : RunResult) : (s.returned r).errInfo = s.errInfo := rfl
@[simp] theorem returned_inBuf (r : RunResult) : (s.returned r).inBuf = s.inBuf := rfl
@[simp] theorem returned_outBuf (r : RunResult) : (s.returned r).outBuf = s.outBuf := rfl
@[simp] theorem returned_phase (r : RunResult) : (s.returned r).phase = s.phase := rfl
@[simp] theorem returned_opl (r : RunResult) : (s.returned r).opl = s.opl := rfl
@[simp] theorem returned_alphl (r : RunResult) : (s.returned r).alphl = s.alphl := rfl
@[simp] theorem returned_snapLen (r : RunResult) : (s.returned r).snapLen = s.snapLen := rfl
@[simp] theorem returned_snapIn (r : RunResult) : (s.returned r).snapIn = s.snapIn := rfl
@[simp] theorem returned_enc (r : RunResult) : (s.returned r).enc = s.enc := rfl
@[simp] theorem returned_dec (r : RunResult) : (s.returned r).dec = s.dec := rfl
@[simp] theorem returned_sink (r : RunResult) : (s.returned r).sink = s.sink := rfl
@[simp] theorem returned_src (r : RunResult) : (s.returned r).src = s.src := rfl
@[simp] theorem returned_stage (r : RunResult) : (s.returned r).stage = .complete r := rfl
@[simp] theorem returned_resp (r : RunResult) : (s.returned r).resp = s.resp := rfl
@[simp] theorem returned_events (r : RunResult) : (s.returned r).events = s.events := rfl
@[simp] theorem returned_freeCtr (r : RunResult) : (s.returned r).freeCtr = s.freeCtr := rfl
@[simp] theorem returned_resets (r : RunResult) : (s.returned r).resets = s.resets := rfl

@[simp] theorem memWrite_cfg (k : Nat) (v : CodeUnit) : (s.memWrite k v).cfg = s.cfg := rfl
@[simp] theorem memWrite_ctrlOp (k : Nat) (v : CodeUnit) : (s.memWrite k v).ctrlOp = s.ctrlOp := rfl
@[simp] theorem memWrite_ctrlAlph (k : Nat) (v : CodeUnit) : (s.memWrite k v).ctrlAlph = s.ctrlAlph := rfl
@[simp] theorem memWrite_status (k : Nat) (v : CodeUnit) : (s.memWrite k v).status = s.status := rfl
@[simp] theorem memWrite_err (k : Nat) (v : CodeUnit) : (s.memWrite k v).err = s.err := rfl
@[simp] theorem memWrite_inLen (k : Nat) (v : CodeUnit) : (s.memWrite k v).inLen = s.inLen := rfl
@[simp] theorem memWrite_outLen (k : Nat) (v : CodeUnit) : (s.memWrite k v).outLen = s.outLen := rfl
@[simp] theorem memWrite_errInfo (k : Nat) (v : CodeUnit) : (s.memWrite k v).errInfo = s.errInfo := rfl
@[simp] theorem memWrite_inBuf (k : Nat) (v : CodeUnit) : (s.memWrite k v).inBuf = s.inBuf := rfl
@[simp] theorem memWrite_outBuf (k : Nat) (v : CodeUnit) : (s.memWrite k v).outBuf = s.outBuf.write k v := rfl
@[simp] theorem memWrite_phase (k : Nat) (v : CodeUnit) : (s.memWrite k v).phase = s.phase := rfl
@[simp] theorem memWrite_opl (k : Nat) (v : CodeUnit) : (s.memWrite k v).opl = s.opl := rfl
@[simp] theorem memWrite_alphl (k : Nat) (v : CodeUnit) : (s.memWrite k v).alphl = s.alphl := rfl
@[simp] theorem memWrite_snapLen (k : Nat) (v : CodeUnit) : (s.memWrite k v).snapLen = s.snapLen := rfl
@[simp] theorem memWrite_snapIn (k : Nat) (v : CodeUnit) : (s.memWrite k v).snapIn = s.snapIn := rfl
@[simp] theorem memWrite_enc (k : Nat) (v : CodeUnit) : (s.memWrite k v).enc = s.enc := rfl
@[simp] theorem memWrite_dec (k : Nat) (v : CodeUnit) : (s.memWrite k v).dec = s.dec := rfl
@[simp] theorem memWrite_sink (k : Nat) (v : CodeUnit) : (s.memWrite k v).sink = s.sink := rfl
@[simp] theorem memWrite_src (k : Nat) (v : CodeUnit) : (s.memWrite k v).src = s.src := rfl
@[simp] theorem memWrite_stage (k : Nat) (v : CodeUnit) : (s.memWrite k v).stage = s.stage := rfl
@[simp] theorem memWrite_resp (k : Nat) (v : CodeUnit) : (s.memWrite k v).resp = s.resp := rfl
@[simp] theorem memWrite_events (k : Nat) (v : CodeUnit) : (s.memWrite k v).events = s.events := rfl
@[simp] theorem memWrite_freeCtr (k : Nat) (v : CodeUnit) : (s.memWrite k v).freeCtr = s.freeCtr := rfl
@[simp] theorem memWrite_resets (k : Nat) (v : CodeUnit) : (s.memWrite k v).resets = s.resets := rfl

@[simp] theorem enterError_cfg (c : ErrCode) (w : Word) : (s.enterError c w).cfg = s.cfg := rfl
@[simp] theorem enterError_ctrlOp (c : ErrCode) (w : Word) : (s.enterError c w).ctrlOp = s.ctrlOp := rfl
@[simp] theorem enterError_ctrlAlph (c : ErrCode) (w : Word) : (s.enterError c w).ctrlAlph = s.ctrlAlph := rfl
@[simp] theorem enterError_status (c : ErrCode) (w : Word) : (s.enterError c w).status = .error := rfl
@[simp] theorem enterError_err (c : ErrCode) (w : Word) : (s.enterError c w).err = c := rfl
@[simp] theorem enterError_inLen (c : ErrCode) (w : Word) : (s.enterError c w).inLen = s.inLen := rfl
@[simp] theorem enterError_outLen (c : ErrCode) (w : Word) : (s.enterError c w).outLen = 0 := rfl
@[simp] theorem enterError_errInfo (c : ErrCode) (w : Word) : (s.enterError c w).errInfo = w := rfl
@[simp] theorem enterError_inBuf (c : ErrCode) (w : Word) : (s.enterError c w).inBuf = s.inBuf := rfl
@[simp] theorem enterError_outBuf (c : ErrCode) (w : Word) : (s.enterError c w).outBuf = [] := rfl
@[simp] theorem enterError_phase (c : ErrCode) (w : Word) : (s.enterError c w).phase = s.phase := rfl
@[simp] theorem enterError_opl (c : ErrCode) (w : Word) : (s.enterError c w).opl = s.opl := rfl
@[simp] theorem enterError_alphl (c : ErrCode) (w : Word) : (s.enterError c w).alphl = s.alphl := rfl
@[simp] theorem enterError_snapLen (c : ErrCode) (w : Word) : (s.enterError c w).snapLen = s.snapLen := rfl
@[simp] theorem enterError_snapIn (c : ErrCode) (w : Word) : (s.enterError c w).snapIn = s.snapIn := rfl
@[simp] theorem enterError_enc (c : ErrCode) (w : Word) : (s.enterError c w).enc = s.enc := rfl
@[simp] theorem enterError_dec (c : ErrCode) (w : Word) : (s.enterError c w).dec = s.dec := rfl
@[simp] theorem enterError_sink (c : ErrCode) (w : Word) : (s.enterError c w).sink = s.sink := rfl
@[simp] theorem enterError_src (c : ErrCode) (w : Word) : (s.enterError c w).src = s.src := rfl
@[simp] theorem enterError_stage (c : ErrCode) (w : Word) : (s.enterError c w).stage = s.stage := rfl
@[simp] theorem enterError_resp (c : ErrCode) (w : Word) : (s.enterError c w).resp = s.resp := rfl
@[simp] theorem enterError_events (c : ErrCode) (w : Word) : (s.enterError c w).events = s.events := rfl
@[simp] theorem enterError_freeCtr (c : ErrCode) (w : Word) : (s.enterError c w).freeCtr = s.freeCtr := rfl
@[simp] theorem enterError_resets (c : ErrCode) (w : Word) : (s.enterError c w).resets = s.resets := rfl

@[simp] theorem startOp_cfg (o : Op) (a : Alphabet) : (s.startOp o a).cfg = s.cfg := rfl
@[simp] theorem startOp_ctrlOp (o : Op) (a : Alphabet) : (s.startOp o a).ctrlOp = o := rfl
@[simp] theorem startOp_ctrlAlph (o : Op) (a : Alphabet) : (s.startOp o a).ctrlAlph = a := rfl
@[simp] theorem startOp_status (o : Op) (a : Alphabet) : (s.startOp o a).status = .busy := rfl
@[simp] theorem startOp_err (o : Op) (a : Alphabet) : (s.startOp o a).err = .none := rfl
@[simp] theorem startOp_inLen (o : Op) (a : Alphabet) : (s.startOp o a).inLen = s.inLen := rfl
@[simp] theorem startOp_outLen (o : Op) (a : Alphabet) : (s.startOp o a).outLen = s.outLen := rfl
@[simp] theorem startOp_errInfo (o : Op) (a : Alphabet) : (s.startOp o a).errInfo = s.errInfo := rfl
@[simp] theorem startOp_inBuf (o : Op) (a : Alphabet) : (s.startOp o a).inBuf = s.inBuf := rfl
@[simp] theorem startOp_outBuf (o : Op) (a : Alphabet) : (s.startOp o a).outBuf = [] := rfl
@[simp] theorem startOp_phase (o : Op) (a : Alphabet) : (s.startOp o a).phase = .run := rfl
@[simp] theorem startOp_opl (o : Op) (a : Alphabet) : (s.startOp o a).opl = o := rfl
@[simp] theorem startOp_alphl (o : Op) (a : Alphabet) : (s.startOp o a).alphl = a := rfl
@[simp] theorem startOp_snapLen (o : Op) (a : Alphabet) : (s.startOp o a).snapLen = s.inLen := rfl
@[simp] theorem startOp_snapIn (o : Op) (a : Alphabet) : (s.startOp o a).snapIn = s.inBuf := rfl
@[simp] theorem startOp_enc (o : Op) (a : Alphabet) : (s.startOp o a).enc = s.enc := rfl
@[simp] theorem startOp_dec (o : Op) (a : Alphabet) : (s.startOp o a).dec = s.dec := rfl
@[simp] theorem startOp_sink (o : Op) (a : Alphabet) : (s.startOp o a).sink = s.sink := rfl
@[simp] theorem startOp_src (o : Op) (a : Alphabet) : (s.startOp o a).src = s.src := rfl
@[simp] theorem startOp_stage (o : Op) (a : Alphabet) : (s.startOp o a).stage = .start := rfl
@[simp] theorem startOp_resp (o : Op) (a : Alphabet) : (s.startOp o a).resp = s.resp := rfl
@[simp] theorem startOp_events (o : Op) (a : Alphabet) : (s.startOp o a).events = s.events := rfl
@[simp] theorem startOp_freeCtr (o : Op) (a : Alphabet) : (s.startOp o a).freeCtr = s.freeCtr := rfl
@[simp] theorem startOp_resets (o : Op) (a : Alphabet) : (s.startOp o a).resets = s.resets := rfl

@[simp] theorem take_cfg (e : Event) (l : List Event) : (s.take e l).cfg = s.cfg := rfl
@[simp] theorem take_ctrlOp (e : Event) (l : List Event) : (s.take e l).ctrlOp = s.ctrlOp := rfl
@[simp] theorem take_ctrlAlph (e : Event) (l : List Event) : (s.take e l).ctrlAlph = s.ctrlAlph := rfl
@[simp] theorem take_status (e : Event) (l : List Event) : (s.take e l).status = s.status := rfl
@[simp] theorem take_err (e : Event) (l : List Event) : (s.take e l).err = s.err := rfl
@[simp] theorem take_inLen (e : Event) (l : List Event) : (s.take e l).inLen = s.inLen := rfl
@[simp] theorem take_outLen (e : Event) (l : List Event) : (s.take e l).outLen = s.outLen := rfl
@[simp] theorem take_errInfo (e : Event) (l : List Event) : (s.take e l).errInfo = s.errInfo := rfl
@[simp] theorem take_inBuf (e : Event) (l : List Event) : (s.take e l).inBuf = s.inBuf := rfl
@[simp] theorem take_outBuf (e : Event) (l : List Event) : (s.take e l).outBuf = s.outBuf := rfl
@[simp] theorem take_phase (e : Event) (l : List Event) : (s.take e l).phase = s.phase := rfl
@[simp] theorem take_opl (e : Event) (l : List Event) : (s.take e l).opl = s.opl := rfl
@[simp] theorem take_alphl (e : Event) (l : List Event) : (s.take e l).alphl = s.alphl := rfl
@[simp] theorem take_snapLen (e : Event) (l : List Event) : (s.take e l).snapLen = s.snapLen := rfl
@[simp] theorem take_snapIn (e : Event) (l : List Event) : (s.take e l).snapIn = s.snapIn := rfl
@[simp] theorem take_enc (e : Event) (l : List Event) : (s.take e l).enc = s.enc := rfl
@[simp] theorem take_dec (e : Event) (l : List Event) : (s.take e l).dec = s.dec := rfl
@[simp] theorem take_sink (e : Event) (l : List Event) : (s.take e l).sink = s.sink := rfl
@[simp] theorem take_src (e : Event) (l : List Event) : (s.take e l).src = s.src := rfl
@[simp] theorem take_stage (e : Event) (l : List Event) : (s.take e l).stage = s.stage := rfl
@[simp] theorem take_resp (e : Event) (l : List Event) : (s.take e l).resp = s.resp := rfl
@[simp] theorem take_events (e : Event) (l : List Event) : (s.take e l).events = l := rfl
@[simp] theorem take_freeCtr (e : Event) (l : List Event) : (s.take e l).freeCtr = s.nextFree e := rfl
@[simp] theorem take_resets (e : Event) (l : List Event) : (s.take e l).resets = s.resets := rfl

@[simp] theorem countEvent_cfg : (s.countEvent).cfg = s.cfg := rfl
@[simp] theorem countEvent_ctrlOp : (s.countEvent).ctrlOp = s.ctrlOp := rfl
@[simp] theorem countEvent_ctrlAlph : (s.countEvent).ctrlAlph = s.ctrlAlph := rfl
@[simp] theorem countEvent_status : (s.countEvent).status = s.status := rfl
@[simp] theorem countEvent_err : (s.countEvent).err = s.err := rfl
@[simp] theorem countEvent_inLen : (s.countEvent).inLen = s.inLen := rfl
@[simp] theorem countEvent_outLen : (s.countEvent).outLen = s.outLen := rfl
@[simp] theorem countEvent_errInfo : (s.countEvent).errInfo = s.errInfo := rfl
@[simp] theorem countEvent_inBuf : (s.countEvent).inBuf = s.inBuf := rfl
@[simp] theorem countEvent_outBuf : (s.countEvent).outBuf = s.outBuf := rfl
@[simp] theorem countEvent_phase : (s.countEvent).phase = s.phase := rfl
@[simp] theorem countEvent_opl : (s.countEvent).opl = s.opl := rfl
@[simp] theorem countEvent_alphl : (s.countEvent).alphl = s.alphl := rfl
@[simp] theorem countEvent_snapLen : (s.countEvent).snapLen = s.snapLen := rfl
@[simp] theorem countEvent_snapIn : (s.countEvent).snapIn = s.snapIn := rfl
@[simp] theorem countEvent_enc : (s.countEvent).enc = s.enc := rfl
@[simp] theorem countEvent_dec : (s.countEvent).dec = s.dec := rfl
@[simp] theorem countEvent_sink : (s.countEvent).sink = s.sink := rfl
@[simp] theorem countEvent_src : (s.countEvent).src = s.src := rfl
@[simp] theorem countEvent_stage : (s.countEvent).stage = s.stage := rfl
@[simp] theorem countEvent_resp : (s.countEvent).resp = s.resp := rfl
@[simp] theorem countEvent_events : (s.countEvent).events = s.events := rfl
@[simp] theorem countEvent_freeCtr : (s.countEvent).freeCtr = s.freeCtr + 1 := rfl
@[simp] theorem countEvent_resets : (s.countEvent).resets = s.resets := rfl

@[simp] theorem setEvents_cfg (l : List Event) : (s.setEvents l).cfg = s.cfg := rfl
@[simp] theorem setEvents_ctrlOp (l : List Event) : (s.setEvents l).ctrlOp = s.ctrlOp := rfl
@[simp] theorem setEvents_ctrlAlph (l : List Event) : (s.setEvents l).ctrlAlph = s.ctrlAlph := rfl
@[simp] theorem setEvents_status (l : List Event) : (s.setEvents l).status = s.status := rfl
@[simp] theorem setEvents_err (l : List Event) : (s.setEvents l).err = s.err := rfl
@[simp] theorem setEvents_inLen (l : List Event) : (s.setEvents l).inLen = s.inLen := rfl
@[simp] theorem setEvents_outLen (l : List Event) : (s.setEvents l).outLen = s.outLen := rfl
@[simp] theorem setEvents_errInfo (l : List Event) : (s.setEvents l).errInfo = s.errInfo := rfl
@[simp] theorem setEvents_inBuf (l : List Event) : (s.setEvents l).inBuf = s.inBuf := rfl
@[simp] theorem setEvents_outBuf (l : List Event) : (s.setEvents l).outBuf = s.outBuf := rfl
@[simp] theorem setEvents_phase (l : List Event) : (s.setEvents l).phase = s.phase := rfl
@[simp] theorem setEvents_opl (l : List Event) : (s.setEvents l).opl = s.opl := rfl
@[simp] theorem setEvents_alphl (l : List Event) : (s.setEvents l).alphl = s.alphl := rfl
@[simp] theorem setEvents_snapLen (l : List Event) : (s.setEvents l).snapLen = s.snapLen := rfl
@[simp] theorem setEvents_snapIn (l : List Event) : (s.setEvents l).snapIn = s.snapIn := rfl
@[simp] theorem setEvents_enc (l : List Event) : (s.setEvents l).enc = s.enc := rfl
@[simp] theorem setEvents_dec (l : List Event) : (s.setEvents l).dec = s.dec := rfl
@[simp] theorem setEvents_sink (l : List Event) : (s.setEvents l).sink = s.sink := rfl
@[simp] theorem setEvents_src (l : List Event) : (s.setEvents l).src = s.src := rfl
@[simp] theorem setEvents_stage (l : List Event) : (s.setEvents l).stage = s.stage := rfl
@[simp] theorem setEvents_resp (l : List Event) : (s.setEvents l).resp = s.resp := rfl
@[simp] theorem setEvents_events (l : List Event) : (s.setEvents l).events = l := rfl
@[simp] theorem setEvents_freeCtr (l : List Event) : (s.setEvents l).freeCtr = s.freeCtr := rfl
@[simp] theorem setEvents_resets (l : List Event) : (s.setEvents l).resets = s.resets := rfl

@[simp] theorem setEnc_setEnc (x y : EncRegs) : (s.setEnc x).setEnc y = s.setEnc y := rfl
@[simp] theorem setEnc_self : s.setEnc s.enc = s := rfl
@[simp] theorem setDec_setDec (x y : DecRegs) : (s.setDec x).setDec y = s.setDec y := rfl
@[simp] theorem setDec_self : s.setDec s.dec = s := rfl
@[simp] theorem setSink_setSink (x y : SinkRegs) : (s.setSink x).setSink y = s.setSink y := rfl
@[simp] theorem setSink_self : s.setSink s.sink = s := rfl
@[simp] theorem setSrc_setSrc (x y : SourceRegs) : (s.setSrc x).setSrc y = s.setSrc y := rfl
@[simp] theorem setSrc_self : s.setSrc s.src = s := rfl
@[simp] theorem setStage_setStage (x y : Stage) : (s.setStage x).setStage y = s.setStage y := rfl
@[simp] theorem setStage_self : s.setStage s.stage = s := rfl
@[simp] theorem setOut_setOut (x y : Memory) : (s.setOut x).setOut y = s.setOut y := rfl
@[simp] theorem setOut_self : s.setOut s.outBuf = s := rfl
@[simp] theorem setIn_setIn (x y : Memory) : (s.setIn x).setIn y = s.setIn y := rfl
@[simp] theorem setIn_self : s.setIn s.inBuf = s := rfl

@[simp] theorem setEnc_busy (e : EncRegs) : (s.setEnc e).busy = s.busy := rfl
@[simp] theorem setDec_busy (d : DecRegs) : (s.setDec d).busy = s.busy := rfl
@[simp] theorem setSink_busy (k : SinkRegs) : (s.setSink k).busy = s.busy := rfl
@[simp] theorem setSrc_busy (r : SourceRegs) : (s.setSrc r).busy = s.busy := rfl
@[simp] theorem setStage_busy (g : Stage) : (s.setStage g).busy = s.busy := rfl
@[simp] theorem setOut_busy (m : Memory) : (s.setOut m).busy = s.busy := rfl
@[simp] theorem setIn_busy (m : Memory) : (s.setIn m).busy = s.busy := rfl
@[simp] theorem setInLen_busy (v : Word) : (s.setInLen v).busy = s.busy := rfl
@[simp] theorem setMode_busy (o : Op) (a : Alphabet) : (s.setMode o a).busy = s.busy := rfl
@[simp] theorem respond_busy (r : Response) : (s.respond r).busy = s.busy := rfl
@[simp] theorem countEvent_busy : s.countEvent.busy = s.busy := rfl
@[simp] theorem returned_busy (r : RunResult) : (s.returned r).busy = s.busy := rfl
@[simp] theorem memWrite_busy (k : Nat) (v : CodeUnit) : (s.memWrite k v).busy = s.busy := rfl
@[simp] theorem setEnc_memRead (e : EncRegs) (j : Nat) : (s.setEnc e).memRead j = s.memRead j := rfl
@[simp] theorem setDec_memRead (d : DecRegs) (j : Nat) : (s.setDec d).memRead j = s.memRead j := rfl
@[simp] theorem setSink_memRead (k : SinkRegs) (j : Nat) : (s.setSink k).memRead j = s.memRead j := rfl
@[simp] theorem setSrc_memRead (r : SourceRegs) (j : Nat) : (s.setSrc r).memRead j = s.memRead j := rfl
@[simp] theorem setStage_memRead (g : Stage) (j : Nat) : (s.setStage g).memRead j = s.memRead j := rfl
@[simp] theorem setOut_memRead (m : Memory) (j : Nat) : (s.setOut m).memRead j = s.memRead j := rfl
@[simp] theorem setIn_memRead (m : Memory) (j : Nat) : (s.setIn m).memRead j = s.memRead j := rfl
@[simp] theorem setInLen_memRead (v : Word) (j : Nat) : (s.setInLen v).memRead j = s.memRead j := rfl
@[simp] theorem setMode_memRead (o : Op) (a : Alphabet) (j : Nat) : (s.setMode o a).memRead j = s.memRead j := rfl
@[simp] theorem respond_memRead (r : Response) (j : Nat) : (s.respond r).memRead j = s.memRead j := rfl
@[simp] theorem returned_memRead (r : RunResult) (j : Nat) : (s.returned r).memRead j = s.memRead j := rfl
@[simp] theorem memWrite_memRead (k : Nat) (v : CodeUnit) (j : Nat) : (s.memWrite k v).memRead j = s.memRead j := rfl

theorem busy_iff : s.busy = true ↔ s.status = .busy := by simp [State.busy]

theorem not_busy_iff : s.busy = false ↔ s.status ≠ .busy := by simp [State.busy]

end Sys2Proof.Machine
end

