-- ==== Sys2Proof/Laws/Ops.lean ====
section
/-! SUPPORT. The laws of the shared operations: sequencing of engine operations, Tick and the width invariant. -/

namespace Sys2Proof.Machine

open Sys2Proof

@[simp] theorem Eng.bind_ok {α β : Type} (a : α) (s : State) (f : α → State → Eng β) :
    (Eng.ok a s).bind f = f a s := rfl

@[simp] theorem Eng.bind_raise {α β : Type} (e : OpError) (s : State) (f : α → State → Eng β) :
    (Eng.raise e s).bind f = .raise e s := rfl

@[simp] theorem Eng.bind_stop {α β : Type} (r : Fault) (f : α → State → Eng β) :
    (Eng.stop r : Eng α).bind f = .stop r := rfl

@[simp] theorem Eng.outcome_ok (a : Unit) (s : State) : (Eng.ok a s).outcome = .next s := rfl

@[simp] theorem Eng.outcome_raise (e : OpError) (s : State) :
    (Eng.raise e s : Eng Unit).outcome = .next (s.returned (.err e)) := rfl

@[simp] theorem Eng.outcome_stop (f : Fault) : (Eng.stop f : Eng Unit).outcome = .fault f := rfl

/-- Where a sequence goes on, both its parts did. -/
theorem Eng.bind_eq_ok {α β : Type} {x : Eng α} {f : α → State → Eng β} {b : β} {t : State} :
    x.bind f = .ok b t ↔ ∃ a s, x = .ok a s ∧ f a s = .ok b t := by
  cases x <;> simp

/-- Where a sequence raises, one of its parts did. -/
theorem Eng.bind_eq_raise {α β : Type} {x : Eng α} {f : α → State → Eng β} {e : OpError} {t : State} :
    x.bind f = .raise e t ↔ x = .raise e t ∨ ∃ a s, x = .ok a s ∧ f a s = .raise e t := by
  cases x <;> simp

/-- Where a sequence stops, one of its parts did. -/
theorem Eng.bind_eq_stop {α β : Type} {x : Eng α} {f : α → State → Eng β} {r : Fault} :
    x.bind f = .stop r ↔ x = .stop r ∨ ∃ a s, x = .ok a s ∧ f a s = .stop r := by
  cases x <;> simp

/-- An engine operation that gives a next state went on, or raised. -/
theorem Eng.outcome_eq_next {x : Eng Unit} {t : State} :
    x.outcome = .next t ↔ x = .ok () t ∨ ∃ e s, x = .raise e s ∧ t = s.returned (.err e) := by
  cases x with
  | ok a s => simp
  | raise e s => simp only [Eng.outcome_raise, Host.Outcome.next.injEq, reduceCtorEq, false_or, Eng.raise.injEq]
                 constructor
                 · rintro rfl; exact ⟨e, s, ⟨rfl, rfl⟩, rfl⟩
                 · rintro ⟨e', s', ⟨rfl, rfl⟩, rfl⟩; rfl
  | stop f => simp

/-- Tick counts one more code to represent (42_encoder.md R163, R171). -/
theorem Balanced.tick {w e v : Nat} (h : Balanced w e v) : Balanced (tick w e).1 (tick w e).2 (v + 1) := by
  obtain ⟨hw, h1, h2, h3⟩ := h
  unfold Machine.tick
  split
  · have : e = 1 := by omega
    subst this
    refine ⟨by simp only; omega, Nat.one_le_two_pow, by simp, ?_⟩
    simp only [pow_succ]; omega
  · exact ⟨hw, by simp only; omega, by simp only; omega, by simp only; omega⟩

theorem Balanced.pow_pred_le {w e v : Nat} (h : Balanced w e v) : 2 ^ (w - 1) ≤ v := by
  obtain ⟨hw, h1, h2, h3⟩ := h
  have : 2 ^ w = 2 * 2 ^ (w - 1) := by
    rw [← pow_succ']; congr 1; omega
  omega

theorem Balanced.lt_pow {w e v : Nat} (h : Balanced w e v) : v < 2 ^ w := by
  have := h.total; have := h.enl_pos; omega

/-- Up to 2^24 codes, the width is at most 25 (10_state.md R32, R33). -/
theorem Balanced.width_le {w e v : Nat} (h : Balanced w e v) (hv : v ≤ 2 ^ 24) : w ≤ 25 := by
  by_contra hc
  have h1 : 2 ^ 25 ≤ 2 ^ (w - 1) := Nat.pow_le_pow_right (by norm_num) (by omega)
  have h2 := h.pow_pred_le
  have : (2:Nat) ^ 25 ≤ 2 ^ 24 := by omega
  norm_num at this

/-- The code width is the bit length of V (42_encoder.md R171). -/
theorem Balanced.size_eq {w e v : Nat} (h : Balanced w e v) : Nat.size v = w := by
  refine le_antisymm (Nat.size_le.mpr h.lt_pow) ?_
  have h2 : w - 1 < Nat.size v := Nat.lt_size.mpr h.pow_pred_le
  omega

end Sys2Proof.Machine
end

