-- ==== Sys2Proof/Laws/Alphabet.lean ====
section
/-! SUPPORT. The laws of the alphabet adapter: the reverse table undoes the forward one, and what Validate
guarantees of the data characters. -/

namespace Sys2Proof.Machine

open Sys2Proof

/-- The reverse table gives back the group of a forward character (41_alphabet.md R140 to R144). -/
theorem unmap_map (al : Alphabet) (g : Group) : unmapChar al (mapGroup al g) = some g := by
  revert g; cases al <;> decide

/-- The pad character stands for no group. -/
theorem unmap_pad (al : Alphabet) : unmapChar al padChar = none := by cases al <;> decide

/-- No forward character is the pad (41_alphabet.md R142). -/
theorem map_ne_pad (al : Alphabet) (g : Group) : mapGroup al g ≠ padChar := by
  intro h
  have := unmap_map al g
  rw [h, unmap_pad] at this
  cases this

theorem padRun_le (chars : List CodeUnit) : padRun chars ≤ chars.length := by
  unfold padRun
  have := (List.takeWhile_sublist (· == padChar) (l := chars.reverse)).length_le
  simpa using this

theorem padRun_all {chars : List CodeUnit} (h : ∀ c ∈ chars, c = padChar) : padRun chars = chars.length := by
  unfold padRun
  rw [List.takeWhile_eq_self_iff.mpr (by intro c hc; simp [h c (List.mem_reverse.mp hc)])]
  simp

theorem padRun_cons_ne {c : CodeUnit} (h : c ≠ padChar) (chars : List CodeUnit) :
    padRun (c :: chars) = padRun chars := by
  unfold padRun
  rw [List.reverse_cons, List.takeWhile_append]
  split
  · rename_i hl
    simp only [List.length_append]
    have hb : (c == padChar) = false := by simpa using h
    have : List.takeWhile (fun x => x == padChar) [c] = [] := by simp [List.takeWhile, hb]
    rw [this, hl]; simp
  · rfl

/-- All that padRun says: the last `padRun chars` characters are `=`, and the one before them, if there is one, is not
(41_alphabet.md R148). -/
theorem padRun_spec (chars : List CodeUnit) :
    (∀ k, chars.length - padRun chars ≤ k → k < chars.length → chars[k]? = some padChar) ∧
      (chars.length - padRun chars = 0 ∨ chars[chars.length - padRun chars - 1]? ≠ some padChar) := by
  have hsplit : chars = (chars.reverse.dropWhile (· == padChar)).reverse ++
      (chars.reverse.takeWhile (· == padChar)).reverse := by
    rw [← List.reverse_append, List.takeWhile_append_dropWhile, List.reverse_reverse]
  have hpad : ∀ c ∈ chars.reverse.takeWhile (· == padChar), c = padChar := fun c hc => by
    simpa using List.mem_takeWhile_imp hc
  have hlen : chars.length - padRun chars = (chars.reverse.dropWhile (· == padChar)).reverse.length := by
    have := congrArg List.length hsplit
    rw [List.length_append, List.length_reverse (as := List.takeWhile _ _)] at this
    unfold padRun; omega
  have hc : ∀ c, (chars.reverse.dropWhile (· == padChar)).head? = some c → c ≠ padChar := fun c h he => by
    have := List.head?_dropWhile_not (p := (· == padChar)) (l := chars.reverse)
    simp [h, he] at this
  rw [hlen]
  generalize chars.reverse.dropWhile (· == padChar) = d at hsplit hc
  generalize chars.reverse.takeWhile (· == padChar) = p at hsplit hpad
  subst hsplit
  refine ⟨fun k h1 h2 => ?_, ?_⟩
  · rw [List.getElem?_append_right h1, List.getElem?_eq_getElem (by rw [List.length_append] at h2; omega)]
    exact congrArg some (hpad _ (List.mem_reverse.mp (List.getElem_mem _)))
  · cases d with
    | nil => exact .inl rfl
    | cons c cs =>
      right
      rw [List.getElem?_append_left (by simp)]
      simpa using hc c rfl

/-- NDATA of BASE64 input as positions (41_alphabet.md R148). -/
theorem dataLength_base64_spec (chars : List CodeUnit) :
    (∀ k, dataLength .base64 chars ≤ k → k < chars.length → chars[k]? = some padChar) ∧
      (dataLength .base64 chars = 0 ∨ chars[dataLength .base64 chars - 1]? ≠ some padChar) := padRun_spec chars

theorem dataLength_uri (chars : List CodeUnit) : dataLength .uri chars = chars.length := rfl

theorem dataLength_le (al : Alphabet) (chars : List CodeUnit) : dataLength al chars ≤ chars.length := by
  cases al
  · exact Nat.sub_le _ _
  · exact Nat.le_refl _

/-- After Validate every data character has a group (41_alphabet.md R147, R148; 40_bitpack.md R129). -/
theorem validate_none {al : Alphabet} {k : Nat} {chars : List CodeUnit} (h : validateFrom al k chars = none)
    {j : Nat} (hj : j < dataLength al chars) : ∃ c, chars[j]? = some c ∧ unmapChar al c ≠ none := by
  induction chars generalizing k j with
  | nil => cases al <;> simp [dataLength] at hj
  | cons ch rest ih =>
    simp only [validateFrom] at h
    split at h
    · rename_i hp
      obtain ⟨rfl, rfl⟩ := hp
      split at h
      · rename_i ht
        exfalso
        simp only [isTrailingPad, Bool.and_eq_true, List.all_eq_true, beq_iff_eq] at ht
        have := padRun_all ht.2
        simp only [dataLength, this] at hj
        omega
      · cases h
    · rename_i hnp
      split at h
      · cases h
      · rename_i hu
        cases j with
        | zero => exact ⟨ch, rfl, hu⟩
        | succ j =>
          simp only [List.getElem?_cons_succ]
          refine ih h ?_
          cases al with
          | base64 =>
            have hne : ch ≠ padChar := fun he => hnp ⟨rfl, he⟩
            simp only [dataLength, padRun_cons_ne hne, List.length_cons] at hj ⊢
            have := padRun_le rest
            omega
          | uri =>
            simp only [dataLength, List.length_cons] at hj ⊢
            omega

/-- Validate reports an index of the input (41_alphabet.md R147, 60_exceptions.md R252). -/
theorem validate_some {al : Alphabet} {k j : Nat} {chars : List CodeUnit} (h : validateFrom al k chars = some j) :
    k ≤ j ∧ j < k + chars.length := by
  induction chars generalizing k with
  | nil => simp [validateFrom] at h
  | cons ch rest ih =>
    simp only [validateFrom] at h
    simp only [List.length_cons]
    split at h
    · split at h
      · have := ih h; omega
      · cases h; omega
    · split at h
      · cases h; omega
      · have := ih h; omega

end Sys2Proof.Machine
end

