-- ==== Sys2Proof/Laws/BitPack.lean ====
section
/-! SUPPORT. What the bit sink and the bit source can do: one lemma per operation, and the invariants they keep. -/

namespace Sys2Proof.Machine

open Sys2Proof

/-! ### Frames -/

/-- `t` differs from `s` at most in the sink registers and OUT. -/
def SinkFrame (s t : State) : Prop := t = (s.setSink t.sink).setOut t.outBuf

/-- `t` differs from `s` at most in the bit source registers. -/
def SourceFrame (s t : State) : Prop := t = s.setSrc t.src

theorem SinkFrame.refl (s : State) : SinkFrame s s := rfl

theorem SinkFrame.trans {s t u : State} (h₁ : SinkFrame s t) (h₂ : SinkFrame t u) : SinkFrame s u := by
  unfold SinkFrame at *
  rw [h₂, h₁]; rfl

theorem SourceFrame.trans {s t u : State} (h₁ : SourceFrame s t) (h₂ : SourceFrame t u) : SourceFrame s u := by
  unfold SourceFrame at *
  rw [h₂, h₁]; rfl

/-- An update that keeps the sink registers and OUT keeps a sink frame. -/
theorem SinkFrame.intro {s : State} (k : SinkRegs) (m : Memory) : SinkFrame s ((s.setSink k).setOut m) := rfl

/-! ### Bit sink -/

/-- The state after one character is written. -/
def State.wrote (ch : CodeUnit) (s : State) : State := (s.setSink s.sink.count).setOut (s.outBuf.write s.sink.outN ch)

theorem putRaw_eq (ch : CodeUnit) (s : State) :
    putRaw ch s = if s.sink.outN = s.cfg.outCap then .raise (.resource .output) s else .ok () (s.wrote ch) := rfl

/-- The state after one bit that completes no character. -/
def State.shifted (b : Bool) (s : State) : State := s.setSink (s.sink.shift b)

/-- The state after one bit that completes a character. -/
def State.pushed (b : Bool) (s : State) : State :=
  (s.setSink s.sink.count.clear).setOut (s.outBuf.write s.sink.outN (mapGroup s.alphl (shiftIn s.sink.acc b)))

@[simp] theorem wrote_outN (ch : CodeUnit) (s : State) : (s.wrote ch).sink.outN = s.sink.outN + 1 := rfl
@[simp] theorem wrote_cfg (ch : CodeUnit) (s : State) : (s.wrote ch).cfg = s.cfg := rfl
@[simp] theorem shifted_outN (b : Bool) (s : State) : (s.shifted b).sink.outN = s.sink.outN := rfl
@[simp] theorem shifted_pos (b : Bool) (s : State) : (s.shifted b).sink.pos = s.sink.pos + 1 := rfl
@[simp] theorem shifted_acc (b : Bool) (s : State) : (s.shifted b).sink.acc = shiftIn s.sink.acc b := rfl
@[simp] theorem shifted_cfg (b : Bool) (s : State) : (s.shifted b).cfg = s.cfg := rfl
@[simp] theorem pushed_outN (b : Bool) (s : State) : (s.pushed b).sink.outN = s.sink.outN + 1 := rfl
@[simp] theorem pushed_pos (b : Bool) (s : State) : (s.pushed b).sink.pos = 0 := rfl
@[simp] theorem pushed_acc (b : Bool) (s : State) : (s.pushed b).sink.acc = 0 := rfl
@[simp] theorem pushed_cfg (b : Bool) (s : State) : (s.pushed b).cfg = s.cfg := rfl

/-- All that PushBit can do (40_bitpack.md R123, R125). -/
theorem pushBit_eq (b : Bool) (s : State) :
    pushBit b s =
      if s.sink.pos = 5 then
        if s.sink.outN = s.cfg.outCap then .raise (.resource .output) s else .ok () (s.pushed b)
      else .ok () (s.shifted b) := by
  simp only [pushBit, putChar, putRaw_eq, bpc]
  by_cases h5 : s.sink.pos = 5
  · by_cases hn : s.sink.outN = s.cfg.outCap
    · simp [h5, hn]
    · simp only [h5, hn, if_true, if_false, Eng.bind_ok]; rfl
  · simp only [h5, if_false]; rfl

theorem shiftIn_toNat (acc : Group) (b : Bool) : (shiftIn acc b).toNat = (2 * acc.toNat + b.toNat) % 64 := by
  revert acc b; decide

/-- All that pushing bits can do: it goes on, or raises RESOURCE(3) with OUT full; and it touches nothing but the
sink and OUT. -/
theorem pushBits_cases (bs : List Bool) (s : State) :
    (∃ t, pushBits bs s = .ok () t ∧ SinkFrame s t) ∨
      ∃ t, pushBits bs s = .raise (.resource .output) t ∧ SinkFrame s t := by
  induction bs generalizing s with
  | nil => exact .inl ⟨s, rfl, rfl⟩
  | cons b bs ih =>
    simp only [pushBits, pushBit_eq]
    split
    · split
      · exact .inr ⟨s, rfl, rfl⟩
      · rcases ih (s.pushed b) with ⟨t, h, f⟩ | ⟨t, h, f⟩
        · exact .inl ⟨t, h, SinkFrame.trans (t := s.pushed b) rfl f⟩
        · exact .inr ⟨t, h, SinkFrame.trans (t := s.pushed b) rfl f⟩
    · rcases ih (s.shifted b) with ⟨t, h, f⟩ | ⟨t, h, f⟩
      · exact .inl ⟨t, h, SinkFrame.trans (t := s.shifted b) rfl f⟩
      · exact .inr ⟨t, h, SinkFrame.trans (t := s.shifted b) rfl f⟩

theorem pushBits_append (as bs : List Bool) (s : State) :
    pushBits (as ++ bs) s = (pushBits as s).bind fun _ t => pushBits bs t := by
  induction as generalizing s with
  | nil => rfl
  | cons a as ih =>
    simp only [List.cons_append, pushBits]
    cases pushBit a s with
    | ok u t => simp [ih]
    | raise e t => rfl
    | stop f => rfl

/-- Where there is room for the characters they complete, pushing bits goes on, and the cursor advances by exactly
their number (40_bitpack.md R126). -/
theorem pushBits_ok (bs : List Bool) (s : State) (hp : s.sink.pos ≤ 5)
    (hroom : s.sink.outN + (s.sink.pos + bs.length) / 6 ≤ s.cfg.outCap) :
    ∃ t, pushBits bs s = .ok () t ∧ SinkFrame s t ∧
      t.sink.outN = s.sink.outN + (s.sink.pos + bs.length) / 6 ∧
      t.sink.pos = (s.sink.pos + bs.length) % 6 := by
  induction bs generalizing s with
  | nil => exact ⟨s, rfl, rfl, by simp only [List.length_nil]; omega, by simp only [List.length_nil]; omega⟩
  | cons b bs ih =>
    simp only [List.length_cons] at hroom
    simp only [pushBits, pushBit_eq, List.length_cons]
    split
    · rename_i h5
      rw [if_neg (by omega)]
      obtain ⟨t, h, f, hn, hq⟩ := ih (s.pushed b) (by simp)
        (by simp; omega)
      refine ⟨t, h, SinkFrame.trans (t := s.pushed b) rfl f, ?_, ?_⟩
      · rw [hn]; simp; omega
      · rw [hq]; simp; omega
    · obtain ⟨t, h, f, hn, hq⟩ := ih (s.shifted b) (by simp; omega)
        (by simp; omega)
      refine ⟨t, h, SinkFrame.trans (t := s.shifted b) rfl f, ?_, ?_⟩
      · rw [hn]; simp; omega
      · rw [hq]; simp; omega

theorem SinkInv.pushed {s : State} (h : SinkInv s) (b : Bool) (hr : s.sink.outN ≠ s.cfg.outCap) :
    SinkInv (s.pushed b) where
  pos := by simp
  acc := by simp
  outN := by have := h.outN; simp; omega
  filled := Memory.filled_write h.filled _

theorem SinkInv.shifted {s : State} (h : SinkInv s) (b : Bool) (hp : s.sink.pos ≠ 5) :
    SinkInv (s.shifted b) where
  pos := by have := h.pos; simp; omega
  acc := by
    have h1 := h.acc
    have h2 : b.toNat < 2 := Bool.toNat_lt b
    have h3 : s.sink.pos ≤ 4 := by have := h.pos; omega
    simp only [shifted_acc, shifted_pos, shiftIn_toNat]
    have h4 : 2 ^ (s.sink.pos + 1) = 2 * 2 ^ s.sink.pos := by rw [pow_succ]; ring
    have := Nat.mod_le (2 * s.sink.acc.toNat + b.toNat) 64
    omega
  outN := h.outN
  filled := h.filled

theorem SinkInv.wrote {s : State} (h : SinkInv s) (ch : CodeUnit) (hr : s.sink.outN ≠ s.cfg.outCap) :
    SinkInv (s.wrote ch) where
  pos := h.pos
  acc := h.acc
  outN := by have := h.outN; simp; omega
  filled := Memory.filled_write h.filled _

/-- Pushing bits keeps the sink's invariant. -/
theorem SinkInv.pushBits {bs : List Bool} {s t : State} (h : SinkInv s) (ht : pushBits bs s = .ok () t) :
    SinkInv t := by
  induction bs generalizing s with
  | nil => cases ht; exact h
  | cons b bs ih =>
    simp only [Machine.pushBits, pushBit_eq] at ht
    split at ht
    · split at ht
      · cases ht
      · exact ih (h.pushed b ‹_›) ht
    · exact ih (h.shifted b ‹_›) ht

/-- The sink's invariant holds where pushing bits raises, too. -/
theorem SinkInv.pushBits_raise {bs : List Bool} {s t : State} {e : OpError} (h : SinkInv s)
    (ht : Machine.pushBits bs s = .raise e t) : SinkInv t := by
  induction bs generalizing s with
  | nil => cases ht
  | cons b bs ih =>
    simp only [Machine.pushBits, pushBit_eq] at ht
    split at ht
    · split at ht
      · cases ht; exact h
      · exact ih (h.pushed b ‹_›) ht
    · exact ih (h.shifted b ‹_›) ht

/-- Emit of a value that fits its field is the pushing of its bits. -/
theorem emit_eq {v n : Nat} (h1 : 1 ≤ n) (h2 : n ≤ 25) (hv : v < 2 ^ n) (s : State) :
    emit v n s = pushBits (fieldBits s.cfg.order n v) s := if_pos ⟨h1, h2, hv⟩

@[simp] theorem fieldBits_length (o : TokenBitOrder) (n v : Nat) : (fieldBits o n v).length = n := by
  cases o <;> simp [fieldBits]

/-- All that Flush can do from a proper cursor (40_bitpack.md R124): one character is written, and the accumulator is
empty. -/
theorem flush_ok (s : State) (hp : s.sink.pos ≤ 5) (hroom : s.sink.outN < s.cfg.outCap) :
    ∃ t, flush s = .ok () t ∧ SinkFrame s t ∧ t.sink.outN = s.sink.outN + 1 ∧ t.sink.pos = 0 := by
  have hl : (List.replicate (bpc - s.sink.pos) false).length = 6 - s.sink.pos := by simp [bpc]
  obtain ⟨t, h, f, hn, hq⟩ := pushBits_ok (List.replicate (bpc - s.sink.pos) false) s hp (by rw [hl]; omega)
  exact ⟨t, h, f, by rw [hn, hl]; omega, by rw [hq, hl]; omega⟩

/-- All that writing pad characters can do. -/
theorem putPads_cases (n : Nat) (s : State) :
    (∃ t, putPads n s = .ok () t ∧ SinkFrame s t) ∨
      ∃ t, putPads n s = .raise (.resource .output) t ∧ SinkFrame s t := by
  induction n generalizing s with
  | zero => exact .inl ⟨s, rfl, rfl⟩
  | succ n ih =>
    simp only [putPads, putRaw_eq]
    split
    · exact .inr ⟨s, rfl, rfl⟩
    · rcases ih (s.wrote padChar) with ⟨t, h, f⟩ | ⟨t, h, f⟩
      · exact .inl ⟨t, h, SinkFrame.trans (t := s.wrote padChar) rfl f⟩
      · exact .inr ⟨t, h, SinkFrame.trans (t := s.wrote padChar) rfl f⟩

theorem putPads_ok (n : Nat) (s : State) (hroom : s.sink.outN + n ≤ s.cfg.outCap) :
    ∃ t, putPads n s = .ok () t ∧ SinkFrame s t ∧ t.sink.outN = s.sink.outN + n ∧
      t.sink.pos = s.sink.pos ∧ t.sink.acc = s.sink.acc := by
  induction n generalizing s with
  | zero => exact ⟨s, rfl, rfl, rfl, rfl, rfl⟩
  | succ n ih =>
    simp only [putPads, putRaw_eq]
    rw [if_neg (by omega)]
    obtain ⟨t, h, f, h1, h2, h3⟩ := ih (s.wrote padChar) (by simp; omega)
    exact ⟨t, h, SinkFrame.trans (t := s.wrote padChar) rfl f, by rw [h1]; simp; omega, h2, h3⟩

theorem SinkInv.putPads {n : Nat} {s t : State} (h : SinkInv s) (ht : putPads n s = .ok () t) : SinkInv t := by
  induction n generalizing s with
  | zero => cases ht; exact h
  | succ n ih =>
    simp only [Machine.putPads, putRaw_eq] at ht
    split at ht
    · cases ht
    · exact ih (h.wrote _ ‹_›) ht

theorem SinkInv.putPads_raise {n : Nat} {s t : State} {e : OpError} (h : SinkInv s)
    (ht : Machine.putPads n s = .raise e t) : SinkInv t := by
  induction n generalizing s with
  | zero => cases ht
  | succ n ih =>
    simp only [Machine.putPads, putRaw_eq] at ht
    split at ht
    · cases ht; exact h
    · exact ih (h.wrote _ ‹_›) ht

theorem padOut_cases (s : State) :
    (∃ t, padOut s = .ok () t ∧ SinkFrame s t) ∨
      ∃ t, padOut s = .raise (.resource .output) t ∧ SinkFrame s t := by
  unfold padOut
  split
  · exact putPads_cases _ s
  · exact .inl ⟨s, rfl, rfl⟩

theorem SinkInv.padOut {s t : State} (h : SinkInv s) (ht : padOut s = .ok () t) : SinkInv t := by
  unfold Machine.padOut at ht
  split at ht
  · exact h.putPads ht
  · cases ht; exact h

theorem SinkInv.padOut_raise {s t : State} {e : OpError} (h : SinkInv s)
    (ht : Machine.padOut s = .raise e t) : SinkInv t := by
  unfold Machine.padOut at ht
  split at ht
  · exact h.putPads_raise ht
  · cases ht

/-! ### Bit source -/

/-- All that ReadBit can do (40_bitpack.md R129). -/
theorem readBit_eq (s : State) :
    readBit s =
      if s.src.rem = 0 then
        if s.src.idx = s.src.ndata then .raise (.truncated s.src.bcnt) s
        else match unmapChar s.alphl (s.memRead s.src.idx) with
          | none => .stop .invalidCharacter
          | some g => .ok (s.src.fetch g).bit (s.setSrc (s.src.fetch g).take)
      else .ok s.src.bit (s.setSrc s.src.take) := rfl

theorem SourceInv.setSrc {s : State} (h : SourceInv s) (r : SourceRegs) (hn : r.ndata = s.src.ndata)
    (hi : r.idx ≤ r.ndata) (hr : r.rem ≤ 6) (hb : r.bcnt + r.rem = 6 * r.idx)
    (hc : 0 < r.rem → unmapChar s.alphl (s.memRead (r.idx - 1)) = some r.cur) : SourceInv (s.setSrc r) where
  ndata := by show r.ndata ≤ _; rw [hn]; exact h.ndata
  idx := hi
  rem := hr
  bcnt := hb
  chars := by
    intro k hk
    exact h.chars k (by rw [← hn]; exact hk)
  cur := hc

/-- ReadBit between tokens: it takes one bit, or raises TRUNCATED(6 * NDATA); it never stops. -/
theorem readBit_cases {s : State} (h : SourceInv s) :
    (∃ b t, readBit s = .ok b t ∧ SourceFrame s t ∧ SourceInv t ∧ t.src.ndata = s.src.ndata ∧
        t.src.bcnt = s.src.bcnt + 1) ∨
      readBit s = .raise (.truncated (6 * s.src.ndata)) s ∧ s.src.bcnt = 6 * s.src.ndata := by
  rw [readBit_eq]
  split
  · rename_i hrem
    split
    · rename_i hidx
      have : s.src.bcnt = 6 * s.src.ndata := by have := h.bcnt; omega
      exact .inr ⟨by rw [this], this⟩
    · rename_i hidx
      have hlt : s.src.idx < s.src.ndata := by have := h.idx; omega
      split
      · exact absurd ‹_› (h.chars _ hlt)
      · rename_i g hg
        refine .inl ⟨_, _, rfl, rfl, ?_, rfl, rfl⟩
        refine h.setSrc _ rfl ?_ ?_ ?_ ?_
        · simp only [SourceRegs.take, SourceRegs.fetch, bpc]; omega
        · simp only [SourceRegs.take, SourceRegs.fetch, bpc]; omega
        · have := h.bcnt; simp only [SourceRegs.take, SourceRegs.fetch, bpc]; omega
        · intro _; exact hg
  · rename_i hrem
    refine .inl ⟨_, _, rfl, rfl, ?_, rfl, rfl⟩
    have h1 := h.bcnt
    have h2 := h.rem
    refine h.setSrc _ rfl h.idx ?_ ?_ ?_
    · simp only [SourceRegs.take]; omega
    · simp only [SourceRegs.take]; omega
    · intro _; exact h.cur (Nat.pos_of_ne_zero hrem)

/-- Taking `n` bits: all of them, or TRUNCATED(6 * NDATA) (40_bitpack.md R130). -/
theorem readRaw_cases (n : Nat) {s : State} (h : SourceInv s) :
    (∃ bs t, readRaw n s = .ok bs t ∧ bs.length = n ∧ SourceFrame s t ∧ SourceInv t ∧
        t.src.ndata = s.src.ndata ∧ t.src.bcnt = s.src.bcnt + n) ∨
      ∃ t, readRaw n s = .raise (.truncated (6 * s.src.ndata)) t ∧ SourceFrame s t ∧
        t.src.ndata = s.src.ndata := by
  induction n generalizing s with
  | zero => exact .inl ⟨[], s, rfl, rfl, rfl, h, rfl, rfl⟩
  | succ n ih =>
    rcases readBit_cases h with ⟨b, t, hb, hf, ht, hn, hc⟩ | ⟨hb, _⟩
    · rcases ih ht with ⟨bs, u, hu, hl, hf', hi, hn', hc'⟩ | ⟨u, hu, hf', hn'⟩
      · refine .inl ⟨b :: bs, u, ?_, by simp [hl], hf.trans hf', hi, hn'.trans hn, by omega⟩
        simp [readRaw, hb, hu]
      · refine .inr ⟨u, ?_, hf.trans hf', hn'.trans hn⟩
        simp [readRaw, hb, hu, hn]
    · exact .inr ⟨s, by simp [readRaw, hb], rfl, rfl⟩

/-- The marker value of a token's bits. -/
def markerOf (o : TokenBitOrder) (w : Nat) (bits : List Bool) : Nat := fieldValue o (bits.take w)

/-- Reading a token takes exactly the bits of one (30_encoding.md R95), or raises TRUNCATED(6 * NDATA). -/
theorem readToken_cases (w : Nat) {s : State} (h : SourceInv s) :
    (∃ bits t, readToken w s = .ok bits t ∧ SourceFrame s t ∧ SourceInv t ∧ t.src.ndata = s.src.ndata ∧
        bits.length = w + payloadLength (markerOf s.cfg.order w bits) ∧
        t.src.bcnt = s.src.bcnt + bits.length) ∨
      ∃ t, readToken w s = .raise (.truncated (6 * s.src.ndata)) t ∧ SourceFrame s t ∧
        t.src.ndata = s.src.ndata := by
  unfold readToken
  rcases readRaw_cases w h with ⟨m, t, hm, hl, hf, hi, hn, hc⟩ | ⟨t, hm, hf, hn⟩
  · have hcfg : t.cfg = s.cfg := by rw [hf]; rfl
    rcases readRaw_cases (payloadLength (fieldValue t.cfg.order m)) hi with
      ⟨p, u, hp, hl', hf', hi', hn', hc'⟩ | ⟨u, hp, hf', hn'⟩
    · refine .inl ⟨m ++ p, u, by simp [hm, hp], hf.trans hf', hi', hn'.trans hn, ?_, ?_⟩
      · simp only [markerOf, List.length_append, List.take_append_of_le_length (Nat.le_of_eq hl.symm), hl, hl']
        rw [← hl, List.take_length, hcfg]
      · simp only [List.length_append]; omega
    · exact .inr ⟨u, by simp [hm, hp, hn], hf.trans hf', hn'.trans hn⟩
  · exact .inr ⟨t, by simp [hm], hf, hn⟩

end Sys2Proof.Machine
end

