-- ==== Sys2Proof/Laws/Decode.lean ====
section
/-! SUPPORT. The laws of the encodings: a field's bits give back its value, and what each kind of encoded word
decodes to. -/

namespace Sys2Proof

open Sys2Proof

/-- Assembling bits most significant first. -/
theorem foldl_bits (n v a : Nat) :
    ((List.range n).map fun j => v.testBit (n - 1 - j)).foldl (fun v b => 2 * v + b.toNat) a =
      2 ^ n * a + v % 2 ^ n := by
  induction n generalizing a with
  | zero => simp [Nat.mod_one]
  | succ n ih =>
    rw [List.range_succ_eq_map, List.map_cons, List.map_map, List.foldl_cons]
    have : ((List.range n).map ((fun j => v.testBit (n + 1 - 1 - j)) ∘ Nat.succ)) =
        (List.range n).map fun j => v.testBit (n - 1 - j) := by
      apply List.map_congr_left
      intro j hj
      simp only [Function.comp]; congr 1; omega
    rw [this, ih]
    have h2 : v % 2 ^ (n+1) = 2 ^ n * (v.testBit n).toNat + v % 2 ^ n := by
      rw [Nat.mod_pow_succ, Nat.toNat_testBit, Nat.add_comm]
    simp only [Nat.add_sub_cancel, Nat.sub_zero]
    rw [h2, pow_succ]; ring

/-- Assembling bits least significant first. -/
theorem foldr_bits (n v : Nat) :
    ((List.range n).map fun j => v.testBit j).foldr (fun b v => b.toNat + 2 * v) 0 = v % 2 ^ n := by
  induction n generalizing v with
  | zero => simp [Nat.mod_one]
  | succ n ih =>
    rw [List.range_succ_eq_map, List.map_cons, List.map_map, List.foldr_cons]
    have : ((List.range n).map ((fun j => v.testBit j) ∘ Nat.succ)) =
        (List.range n).map fun j => (v / 2).testBit j := by
      apply List.map_congr_left
      intro j hj
      simp only [Function.comp, Nat.succ_eq_add_one, Nat.testBit_succ]
    rw [this, ih, pow_succ']
    rw [Nat.mod_mul, Nat.testBit_zero]
    congr 1
    rcases Nat.mod_two_eq_zero_or_one v with h | h <;> simp [h]

/-- A field of `n` bits gives back its value (40_bitpack.md R130). -/
theorem fieldValue_fieldBits (o : TokenBitOrder) (n v : Nat) : fieldValue o (fieldBits o n v) = v % 2 ^ n := by
  cases o
  · simp only [fieldValue, fieldBits]
    rw [foldl_bits]; simp
  · exact foldr_bits n v

/-- A field of `n` bits has a value below 2^n. -/
theorem fieldValue_lt (o : TokenBitOrder) (bits : List Bool) : fieldValue o bits < 2 ^ bits.length := by
  cases o
  · have key : ∀ (l : List Bool) (a : Nat),
        l.foldl (fun v b => 2 * v + b.toNat) a < 2 ^ l.length * (a + 1) := by
      intro l
      induction l with
      | nil => intro a; simp
      | cons b l ih =>
        intro a
        have h1 := ih (2 * a + b.toNat)
        have h2 : b.toNat < 2 := Bool.toNat_lt b
        simp only [List.foldl_cons, List.length_cons, pow_succ]
        refine Nat.lt_of_lt_of_le h1 ?_
        rw [Nat.mul_assoc]
        exact Nat.mul_le_mul_left _ (by omega)
    simpa [fieldValue] using key bits 0
  · induction bits with
    | nil => simp [fieldValue]
    | cons b l ih =>
      simp only [fieldValue, List.foldr_cons, List.length_cons, pow_succ] at ih ⊢
      have h2 : b.toNat < 2 := Bool.toNat_lt b
      omega

/-- The command words (30_encoding.md R91). -/
theorem decodeCommand_word (st : Bool) (o : Op) (a : Alphabet) :
    commandInstr (commandWord st o a) (decodeCommand false (commandWord st o a)) =
      if st then
        match o, a with
        | .compress, .base64 => .compressB64
        | .compress, .uri => .compressUri
        | .decompress, .base64 => .decompressB64
        | .decompress, .uri => .decompressUri
      else .setmode a o := by
  cases st <;> cases o <;> cases a <;> rfl

/-- A value with a reserved bit set is an illegal command (30_encoding.md R91). -/
theorem decodeCommand_illegal {v : Word} (h : 8 ≤ v.toNat) : decodeCommand false v = .illegal := by
  unfold decodeCommand
  simp only [Bool.false_eq_true, if_false]
  repeat rw [if_neg (by omega)]

/-- The offset of an access is its address less BASE_ADDR (00_scope.md R12). -/
theorem decodeAccess_at (p : Params) (off : Nat) (a : AccessKind) :
    (accessAt p off a).addr - p.baseAddr = BitVec.ofNat 32 off := by
  unfold accessAt
  show p.baseAddr + BitVec.ofNat 32 off - p.baseAddr = _
  rw [BitVec.add_comm, BitVec.add_sub_cancel]

/-- The register page (10_state.md R20). -/
theorem decodeAccess_reg (p : Params) (i : Nat) (h : i < 1024) (a : AccessKind) :
    decodeAccess p (accessAt p (4 * i) a) = decodeRegister i a := by
  unfold decodeAccess
  rw [decodeAccess_at p]
  have : (BitVec.ofNat 32 (4 * i)).toNat = 4 * i := by rw [BitVec.toNat_ofNat]; omega
  simp only [accessAt, this]
  rw [if_pos ⟨trivial, by omega⟩, if_pos (by omega)]
  congr 1; omega

/-- The IN window (20_memory.md R61). -/
theorem decodeAccess_in (p : Params) (k : BitVec 18) (h : k.toNat < p.inCap) (a : AccessKind) :
    decodeAccess p (accessAt p (0x00100000 + 4 * k.toNat) a) = .rwIn k a := by
  have := k.isLt
  unfold decodeAccess
  rw [decodeAccess_at p]
  have h1 : (BitVec.ofNat 32 (0x00100000 + 4 * k.toNat)).toNat = 0x00100000 + 4 * k.toNat := by rw [BitVec.toNat_ofNat]; omega
  have h2 : (0x00100000 + 4 * k.toNat - 0x00100000) / 4 = k.toNat := by omega
  simp only [accessAt, h1, h2]
  rw [if_pos ⟨trivial, by omega⟩, if_neg (by omega), if_neg (by omega), if_pos (by omega), if_pos h]
  simp

/-- The OUT window (20_memory.md R61). -/
theorem decodeAccess_out (p : Params) (k : BitVec 18) (h : k.toNat < p.outCap) (a : AccessKind) :
    decodeAccess p (accessAt p (0x00200000 + 4 * k.toNat) a) = .rdOut k a := by
  have := k.isLt
  unfold decodeAccess
  rw [decodeAccess_at p]
  have h1 : (BitVec.ofNat 32 (0x00200000 + 4 * k.toNat)).toNat = 0x00200000 + 4 * k.toNat := by rw [BitVec.toNat_ofNat]; omega
  have h2 : (0x00200000 + 4 * k.toNat - 0x00200000) / 4 = k.toNat := by omega
  simp only [accessAt, h1, h2]
  rw [if_pos ⟨trivial, by omega⟩, if_neg (by omega), if_neg (by omega), if_neg (by omega), if_pos (by omega), if_pos h]
  simp

/-- What is not legal is decoded as illegal (20_memory.md R62). -/
theorem decodeAccess_ill (p : Params) (off : Word) (w : AccessWidth) (a : AccessKind)
    (h : accessLegal p off.toNat w = false) :
    decodeAccess p { addr := p.baseAddr + off, width := w, kind := a } = .busIllegal off w a := by
  unfold decodeAccess
  have h0 : p.baseAddr + off - p.baseAddr = off := by rw [BitVec.add_comm, BitVec.add_sub_cancel]
  simp only [h0]
  unfold accessLegal at h
  simp only [Bool.and_eq_false_iff, Bool.or_eq_false_iff, decide_eq_false_iff_not, beq_eq_false_iff_ne] at h
  split
  · rename_i hl
    obtain ⟨hw, hm⟩ := hl
    rcases h with (h | h) | h
    · exact absurd hw h
    · exact absurd hm h
    · rw [if_neg h.1.1]
      split
      · rfl
      · split
        · rw [if_neg]
          rcases h.1.2 with (h | h) | h <;> omega
        · split
          · rw [if_neg]
            rcases h.2 with (h | h) | h <;> omega
          · rfl
  · rfl

theorem take_tokenBits (o : TokenBitOrder) (w t p : Nat) : (tokenBits o w t p).take w = fieldBits o w t := by
  unfold tokenBits; rw [List.take_append_of_le_length (by simp)]
  exact List.take_of_length_le (by simp)

theorem drop_tokenBits (o : TokenBitOrder) (w t p : Nat) :
    (tokenBits o w t p).drop w = fieldBits o (payloadLength t) p := by
  unfold tokenBits
  exact List.drop_left' (by simp)

theorem length_tokenBits (o : TokenBitOrder) (w t p : Nat) : (tokenBits o w t p).length = w + payloadLength t := by
  simp [tokenBits]

/-- A token is decoded by the value of its marker (30_encoding.md R95). -/
theorem decode_token (c : DecodeCtx) (t p : Nat) (ht : t < 2 ^ c.tokenWidth) :
    decode c (.token (tokenBits c.cfg.order c.tokenWidth t p)) = match c.side with
    | .enc => decodeEncToken c.cfg.order t (fieldBits c.cfg.order (payloadLength t) p)
    | .first => decodeFirstToken c.cfg.order t (fieldBits c.cfg.order (payloadLength t) p)
    | .loop => decodeLoopToken c.cfg.order c.next t (fieldBits c.cfg.order (payloadLength t) p) := by
  show decodeToken _ _ = _
  unfold decodeToken
  rw [length_tokenBits, if_neg (by omega)]
  simp only [take_tokenBits, drop_tokenBits, fieldValue_fieldBits, Nat.mod_eq_of_lt ht] <;> rfl

end Sys2Proof
end

