-- ==== Sys2Proof/Laws/Decoder.lean ====
section
/-! SUPPORT. What the tokens of DECOMPRESS can do, and the dictionary and width invariants they keep. -/

namespace Sys2Proof.Machine

open Sys2Proof

/-- `t` differs from `s` at most in the decoder registers and OUT. -/
def DecFrame (s t : State) : Prop := t = (s.setDec t.dec).setOut t.outBuf

theorem DecFrame.refl (s : State) : DecFrame s s := rfl

theorem DecFrame.trans {s t u : State} (h₁ : DecFrame s t) (h₂ : DecFrame t u) : DecFrame s u := by
  unfold DecFrame at *
  rw [h₂, h₁]; rfl

theorem DecFrame.cfg {s t : State} (h : DecFrame s t) : t.cfg = s.cfg := by rw [h]; rfl

/-! ### D_DICT -/

theorem dictPhrase_isSome {d : List (Nat × Phrase)} {k : Nat} (h : k ∈ d.map Prod.fst) :
    ∃ p, dictPhrase d k = some p ∧ (k, p) ∈ d := by
  induction d with
  | nil => simp at h
  | cons e d ih =>
    obtain ⟨j, q⟩ := e
    simp only [dictPhrase]
    split
    · rename_i hj; subst hj; exact ⟨q, rfl, List.mem_cons_self⟩
    · rename_i hj
      simp only [List.map_cons, List.mem_cons] at h
      obtain ⟨p, h1, h2⟩ := ih (h.resolve_left (fun e => hj e.symm))
      exact ⟨p, h1, List.mem_cons_of_mem _ h2⟩

/-- Every index 3 .. D_NEXT-1 holds a non-empty phrase (10_state.md R38, 43_decoder.md R205). -/
theorem LoopInv.phrase {cap : Nat} {d : DecRegs} (h : LoopInv cap d) {k : Nat} (h3 : 3 ≤ k) (hk : k < d.next) :
    ∃ u p, dictPhrase d.dict k = some (u :: p) := by
  have hm : k ∈ d.dict.map Prod.fst := by
    rw [h.codes, List.mem_reverse, List.mem_range'_1]; omega
  obtain ⟨p, hp, hmem⟩ := dictPhrase_isSome hm
  cases p with
  | nil => exact absurd rfl (h.nonempty _ hmem)
  | cons u p => exact ⟨u, p, hp⟩

/-- The registers after an entry and its Tick keep the decoder invariant (43_decoder.md R205). -/
theorem LoopInv.entry {cap : Nat} {d : DecRegs} (h : LoopInv cap d) {p : Phrase} (hp : p ≠ [])
    (hcap : d.next ≠ cap) : LoopInv cap (d.insert p).tick where
  next_le := by have := h.next_le; show d.next + 1 ≤ cap; omega
  w := by have := h.w; show 3 ≤ d.w ∧ d.w < d.next + 1; omega
  codes := by
    have := h.w
    show d.next :: d.dict.map Prod.fst = (List.range' 3 (d.next + 1 - 3)).reverse
    rw [h.codes, show d.next + 1 - 3 = (d.next - 3) + 1 by omega, List.range'_concat, List.reverse_append]
    simp only [List.reverse_cons, List.reverse_nil, List.nil_append, List.singleton_append, List.cons.injEq, and_true]
    omega
  nonempty := by
    intro e he
    have he' : e ∈ (d.next, p) :: d.dict := he
    rcases List.mem_cons.mp he' with rfl | he'
    · exact hp
    · exact h.nonempty e he'
  width := h.width.tick

/-- The decoder invariant does not depend on RES_LEN. -/
theorem LoopInv.congr {cap : Nat} {d e : DecRegs} (h : LoopInv cap d) (hn : e.next = d.next) (hd : e.dict = d.dict)
    (hwd : e.width = d.width) (hen : e.enl = d.enl) (hw : 3 ≤ e.w ∧ e.w < e.next) : LoopInv cap e :=
  ⟨hn ▸ h.next_le, hw, by rw [hd, hn]; exact h.codes, hd ▸ h.nonempty, by rw [hwd, hen, hn]; exact h.width⟩

theorem decInsert_eq (p : Phrase) (s : State) :
    decInsert p s = if s.dec.next = s.cfg.dictCap then .raise (.resource .dictionary) s
      else .ok () (s.setDec (s.dec.insert p)) := rfl

/-! ### Append -/

/-- OUT holds what Append has written, within OUT_CAP. -/
structure ResultInv (s : State) : Prop where
  resLen : s.dec.resLen ≤ s.cfg.outCap
  filled : s.outBuf.filled s.dec.resLen

/-- The state after one unit is appended. -/
def State.appended (u : CodeUnit) (s : State) : State :=
  (s.setDec s.dec.count).setOut (s.outBuf.write s.dec.resLen u)

theorem appendUnit_eq (u : CodeUnit) (s : State) :
    appendUnit u s = if s.dec.resLen = s.cfg.outCap then .raise (.resource .output) s else .ok () (s.appended u) := rfl

theorem ResultInv.appended {s : State} (h : ResultInv s) (u : CodeUnit) (hr : s.dec.resLen ≠ s.cfg.outCap) :
    ResultInv (s.appended u) where
  resLen := by have := h.resLen; show s.dec.resLen + 1 ≤ s.cfg.outCap; omega
  filled := Memory.filled_write h.filled _

/-- RES_LEN advanced by `n`. -/
def DecRegs.countBy (d : DecRegs) (n : Nat) : DecRegs := { d with resLen := d.resLen + n }

theorem countBy_appended (s : State) (u : CodeUnit) (n : Nat) :
    (s.appended u).dec.countBy n = s.dec.countBy (n + 1) := by
  simp only [DecRegs.countBy, State.appended, DecRegs.count, setOut_dec, setDec_dec, DecRegs.mk.injEq, true_and,
    and_true]
  omega

/-- All that Append can do (43_decoder.md R207): it writes the phrase, or raises RESOURCE(3). -/
theorem append_cases (p : Phrase) {s : State} (h : ResultInv s) :
    (∃ t, append p s = .ok () t ∧ DecFrame s t ∧ ResultInv t ∧ t.dec = s.dec.countBy p.length) ∨
      ∃ t, append p s = .raise (.resource .output) t ∧ DecFrame s t ∧ ResultInv t := by
  induction p generalizing s with
  | nil => exact .inl ⟨s, rfl, rfl, h, rfl⟩
  | cons u p ih =>
    simp only [append, appendUnit_eq]
    split
    · exact .inr ⟨s, rfl, rfl, h⟩
    · rename_i hr
      rcases ih (h.appended u hr) with ⟨t, h1, h2, h3, h4⟩ | ⟨t, h1, h2, h3⟩
      · refine .inl ⟨t, h1, DecFrame.trans (t := s.appended u) rfl h2, h3, ?_⟩
        rw [h4, countBy_appended]; rfl
      · exact .inr ⟨t, h1, DecFrame.trans (t := s.appended u) rfl h2, h3⟩

/-- Append goes on exactly where the phrase fits (43_decoder.md R207). -/
theorem append_ok (p : Phrase) (s : State) (hroom : s.dec.resLen + p.length ≤ s.cfg.outCap) :
    ∃ t, append p s = .ok () t ∧ DecFrame s t ∧ t.dec = s.dec.countBy p.length := by
  induction p generalizing s with
  | nil => exact ⟨s, rfl, rfl, rfl⟩
  | cons u p ih =>
    simp only [List.length_cons] at hroom
    simp only [append, appendUnit_eq]
    rw [if_neg (by omega)]
    obtain ⟨t, h1, h2, h4⟩ := ih (s.appended u) (by show s.dec.resLen + 1 + _ ≤ s.cfg.outCap; omega)
    refine ⟨t, h1, DecFrame.trans (t := s.appended u) rfl h2, ?_⟩
    rw [h4, countBy_appended]; rfl

/-! ### Tail -/

/-- The entry of an operand of Tail is a non-empty phrase (43_decoder.md R204). -/
theorem LoopInv.tailEntry {cap : Nat} {d : DecRegs} (h : LoopInv cap d) {k : Nat} (h3 : 3 ≤ k) (hk : k ≤ d.next) :
    ∃ u p, Machine.tailEntry k d = .ok (u :: p) := by
  unfold Machine.tailEntry
  split
  · rename_i hlt
    obtain ⟨u, p, hp⟩ := h.phrase h3 hlt
    exact ⟨u, p, by rw [hp]⟩
  · rw [if_pos (by omega)]
    obtain ⟨u, p, hp⟩ := h.phrase h.w.1 h.w.2
    exact ⟨u, p ++ [u], by rw [hp]; rfl⟩

/-- All that Tail can do on its operands (43_decoder.md R204): it goes on and keeps the decoder invariant, or raises
RESOURCE; RESOURCE(3) comes before RESOURCE(2). -/
theorem tail_cases {s : State} (hr : ResultInv s) (hl : LoopInv s.cfg.dictCap s.dec) {k : Nat} (h3 : 3 ≤ k)
    (hk : k ≤ s.dec.next) :
    (∃ t, tail k s = .ok () t ∧ DecFrame s t ∧ ResultInv t ∧ LoopInv t.cfg.dictCap t.dec ∧ t.dec.w = k ∧
        t.dec.next = s.dec.next + 1) ∨
      ∃ r t, tail k s = .raise (.resource r) t ∧ DecFrame s t ∧ ResultInv t ∧ r ≠ .input := by
  obtain ⟨u, p, he⟩ := hl.tailEntry h3 hk
  obtain ⟨v, w, hw⟩ := hl.phrase hl.w.1 hl.w.2
  have htail : tail k s = (append (u :: p) s).bind fun _ t => (decInsert (v :: w ++ [u]) t).bind fun _ x =>
      .ok () (x.setDec (x.dec.tick.setW k)) := by
    unfold tail; rw [he, hw]
  rw [htail]
  rcases append_cases (u :: p) hr with ⟨t, ht, hf, hi, hd⟩ | ⟨t, ht, hf, hi⟩
  · rw [ht, Eng.bind_ok, decInsert_eq]
    have hnx : t.dec.next = s.dec.next := by rw [hd]; rfl
    split
    · exact .inr ⟨.dictionary, t, rfl, hf, hi, by decide⟩
    · rename_i hcap
      refine .inl ⟨_, rfl, ?_, ?_, ?_, rfl, ?_⟩
      · exact hf.trans rfl
      · exact ⟨hi.resLen, hi.filled⟩
      · have hlt : LoopInv t.cfg.dictCap t.dec := by
          rw [hf.cfg]
          exact hl.congr hnx (by rw [hd]; rfl) (by rw [hd]; rfl) (by rw [hd]; rfl) (by rw [hd]; exact hl.w)
        refine (hlt.entry (p := v :: w ++ [u]) (by simp) hcap).congr rfl rfl rfl rfl ?_
        show 3 ≤ k ∧ k < t.dec.next + 1
        omega
      · show t.dec.next + 1 = _; rw [hnx]
  · rw [ht]
    exact .inr ⟨.output, t, rfl, hf, hi, by decide⟩

/-- All that a literal token in the loop can do (43_decoder.md R198, R199). -/
theorem loopLiteral_cases (c : CodeUnit) {s : State} (hr : ResultInv s) (hl : LoopInv s.cfg.dictCap s.dec) :
    (∃ t, loopLiteral c s = .ok () t ∧ DecFrame s t ∧ ResultInv t ∧ LoopInv t.cfg.dictCap t.dec) ∨
      ∃ r t, loopLiteral c s = .raise (.resource r) t ∧ DecFrame s t ∧ ResultInv t ∧ r ≠ .input := by
  unfold loopLiteral
  rw [decInsert_eq]
  split
  · exact .inr ⟨.dictionary, s, rfl, rfl, hr, by decide⟩
  · rename_i hcap
    rw [Eng.bind_ok]
    have hl' : LoopInv s.cfg.dictCap (s.dec.insert [c]).tick := hl.entry (by simp) hcap
    have hw := hl.w
    rcases tail_cases (s := s.setDec (s.dec.insert [c]).tick) (k := s.dec.next) ⟨hr.resLen, hr.filled⟩ hl'
      (by omega) (by show s.dec.next ≤ s.dec.next + 1; omega) with ⟨t, h1, h2, h3, h4, -⟩ | ⟨r, t, h1, h2, h3⟩
    · exact .inl ⟨t, h1, DecFrame.trans (t := s.setDec (s.dec.insert [c]).tick) rfl h2, h3, h4⟩
    · exact .inr ⟨r, t, h1, DecFrame.trans (t := s.setDec (s.dec.insert [c]).tick) rfl h2, h3⟩

/-- All that the first literal can do (43_decoder.md R197): with the capacities of 00_scope.md R9 it goes on. -/
theorem seed_ok (c : CodeUnit) {s : State} (hcfg : s.cfg.wf) (hn : s.dec.next = 3) (hwd : s.dec.width = 2)
    (hen : s.dec.enl = 1) (hd : s.dec.dict = []) (hres : s.dec.resLen = 0) (ho : s.outBuf.filled 0) :
    ∃ t, seed c s = .ok () t ∧ DecFrame s t ∧ ResultInv t ∧ LoopInv t.cfg.dictCap t.dec := by
  have h1 : s.dec.next ≠ s.cfg.dictCap := by have := hcfg.2.2.1; omega
  unfold seed
  rw [decInsert_eq, if_neg h1, Eng.bind_ok]
  have hr : ResultInv (s.setDec ((s.dec.insert [c]).tick.setW 3)) :=
    ⟨by show s.dec.resLen ≤ _; rw [hres]; exact Nat.zero_le _, by show s.outBuf.filled s.dec.resLen; rw [hres]; exact ho⟩
  obtain ⟨t, ht, hf, hdec⟩ := append_ok [c] (s.setDec ((s.dec.insert [c]).tick.setW 3)) (by
    show s.dec.resLen + 1 ≤ s.cfg.outCap; have := hcfg.2.1.1; omega)
  have hi : ResultInv t := by
    rcases append_cases [c] hr with ⟨t', ht', -, hi, -⟩ | ⟨t', ht', -⟩
    · rw [ht] at ht'; cases ht'; exact hi
    · rw [ht] at ht'; cases ht'
  refine ⟨t, ht, DecFrame.trans (t := s.setDec ((s.dec.insert [c]).tick.setW 3)) rfl hf, hi, ?_⟩
  have hcfg' : t.cfg = s.cfg := by rw [hf.cfg]; rfl
  rw [hdec, hcfg']
  refine ⟨?_, ?_, ?_, ?_, ?_⟩
  · show s.dec.next + 1 ≤ _; have := hcfg.2.2.1; omega
  · show 3 ≤ 3 ∧ 3 < s.dec.next + 1; omega
  · show s.dec.next :: s.dec.dict.map Prod.fst = (List.range' 3 (s.dec.next + 1 - 3)).reverse
    rw [hn, hd]; rfl
  · intro e he
    have he' : e ∈ (s.dec.next, [c]) :: s.dec.dict := he
    rw [hd, List.mem_singleton] at he'
    rw [he']; simp
  · show Balanced (tick s.dec.width s.dec.enl).1 (tick s.dec.width s.dec.enl).2 (s.dec.next + 1)
    rw [hwd, hen, hn]
    exact ⟨by decide, by decide, by decide, by decide⟩

end Sys2Proof.Machine
end

