-- ==== Sys2Proof/Laws/Encoder.lean ====
section
/-! SUPPORT. What the blocks of COMPRESS can do, and the dictionary, pending and width invariants they keep. -/

namespace Sys2Proof.Machine

open Sys2Proof

/-! ### E_DICT -/

theorem dictCode_eq_none {d : List (Phrase × Nat)} {p : Phrase} : dictCode d p = none ↔ p ∉ d.map Prod.fst := by
  induction d with
  | nil => simp [dictCode]
  | cons e d ih =>
    obtain ⟨q, k⟩ := e
    simp only [dictCode, List.map_cons, List.mem_cons, not_or]
    split
    · rename_i h; simp [h]
    · rename_i h; rw [ih]; constructor
      · exact fun h' => ⟨fun e => h e.symm, h'⟩
      · exact And.right

theorem dictCode_mem {d : List (Phrase × Nat)} {p : Phrase} {k : Nat} (h : dictCode d p = some k) : (p, k) ∈ d := by
  induction d with
  | nil => simp [dictCode] at h
  | cons e d ih =>
    obtain ⟨q, j⟩ := e
    simp only [dictCode] at h
    split at h
    · rename_i hq; cases h; subst hq; exact List.mem_cons_self
    · exact List.mem_cons_of_mem _ (ih h)

theorem dictCode_some {e : EncRegs} {p : Phrase} (h : p ∈ e.keys) : ∃ k, dictCode e.dict p = some k := by
  cases hc : dictCode e.dict p with
  | none => exact absurd h (dictCode_eq_none.mp hc)
  | some k => exact ⟨k, rfl⟩

/-- The code of a key is 3 .. E_NEXT-1 (42_encoder.md R173). -/
theorem EncDictInv.code_range {cap : Nat} {e : EncRegs} (h : EncDictInv cap e) {p : Phrase} {k : Nat}
    (hk : dictCode e.dict p = some k) : 3 ≤ k ∧ k < e.next := by
  have : k ∈ e.dict.map Prod.snd := List.mem_map_of_mem (f := Prod.snd) (dictCode_mem hk)
  rw [h.codes, List.mem_reverse, List.mem_range'_1] at this
  have := h.next_ge
  omega

@[simp] theorem keys_insert (e : EncRegs) (p : Phrase) : (e.insert p).keys = p :: e.keys := rfl
@[simp] theorem keys_tick (e : EncRegs) : e.tick.keys = e.keys := rfl
@[simp] theorem keys_advance (e : EncRegs) : e.advance.keys = e.keys := rfl
@[simp] theorem keys_setW (e : EncRegs) (p : Phrase) : (e.setW p).keys = e.keys := rfl
@[simp] theorem keys_pendAdd (e : EncRegs) (p : Phrase) : (e.pendAdd p).keys = e.keys := rfl
@[simp] theorem keys_pendRemove (e : EncRegs) (p : Phrase) : (e.pendRemove p).keys = e.keys := rfl

/-- A one-unit phrase extends only the empty one. -/
theorem singleton_eq_append {c d : CodeUnit} {q : Phrase} (h : [c] = q ++ [d]) : q = [] ∧ d = c := by
  have hl := congrArg List.length h
  simp only [List.length_singleton, List.length_append] at hl
  have hq : q = [] := List.length_eq_zero_iff.mp (by omega)
  subst hq
  simp only [List.nil_append, List.cons.injEq, and_true] at h
  exact ⟨rfl, h.symm⟩

/-- Insert keeps the dictionary invariant (42_encoder.md R173, R174). -/
theorem EncDictInv.insert {cap : Nat} {e : EncRegs} (h : EncDictInv cap e) {p : Phrase} (hp : p ∉ e.keys)
    (hne : p ≠ []) (hext : ∀ q c, q ≠ [] → p = q ++ [c] → q ∈ e.keys)
    (hunit : ∀ q c, p = q ++ [c] → [c] ∈ e.keys ∨ [c] = p) (hpend : ∀ q ∈ e.pend, ∀ c, q ++ [c] ≠ p)
    (hcap : e.next ≠ cap) : EncDictInv cap (e.insert p) where
  next_ge := by have := h.next_ge; simp only [EncRegs.insert]; omega
  next_le := by have := h.next_le; simp only [EncRegs.insert]; omega
  codes := by
    have hge := h.next_ge
    simp only [EncRegs.insert, List.map_cons, h.codes]
    rw [show e.next + 1 - 3 = (e.next - 3) + 1 by omega, List.range'_concat, List.reverse_append]
    simp only [List.reverse_cons, List.reverse_nil, List.nil_append, List.singleton_append, List.cons.injEq, and_true]
    omega
  keys := by rw [keys_insert, List.nodup_cons]; exact ⟨hp, h.keys⟩
  nonempty := by
    rw [keys_insert, List.mem_cons, not_or]
    exact ⟨fun e => hne e.symm, h.nonempty⟩
  extends_ := by
    intro q c hq hm
    rw [keys_insert, List.mem_cons] at hm ⊢
    rcases hm with hm | hm
    · exact .inr (hext q c hq hm.symm)
    · exact .inr (h.extends_ q c hq hm)
  units := by
    intro q c hm
    rw [keys_insert, List.mem_cons] at hm ⊢
    rcases hm with hm | hm
    · exact (hunit q c hm.symm).symm
    · exact .inr (h.units q c hm)
  pending := by
    intro q hq
    simp only [keys_insert, List.mem_cons, not_or]
    obtain ⟨h1, h2⟩ := h.pending q hq
    exact ⟨.inr h1, fun c => ⟨hpend q hq c, h2 c⟩⟩

/-- The dictionary invariant does not depend on E_W, the widths or E_I, and pending phrases may be dropped. -/
theorem EncDictInv.congr {cap : Nat} {e f : EncRegs} (h : EncDictInv cap e) (hd : f.dict = e.dict)
    (hn : f.next = e.next) (hp : ∀ p ∈ f.pend, p ∈ e.pend) : EncDictInv cap f := by
  have hk : f.keys = e.keys := by simp [EncRegs.keys, hd]
  exact ⟨hn ▸ h.next_ge, hn ▸ h.next_le, by rw [hd, hn]; exact h.codes, hk ▸ h.keys, hk ▸ h.nonempty,
    hk ▸ h.extends_, hk ▸ h.units, fun q hq => hk ▸ h.pending q (hp q hq)⟩

/-- The registers after first-sight registration of `c` (42_encoder.md R164). -/
def EncRegs.register (e : EncRegs) (c : CodeUnit) : EncRegs := (e.insert [c]).pendAdd [c]

@[simp] theorem keys_register (e : EncRegs) (c : CodeUnit) : (e.register c).keys = [c] :: e.keys := rfl
@[simp] theorem next_register (e : EncRegs) (c : CodeUnit) : (e.register c).next = e.next + 1 := rfl
@[simp] theorem w_register (e : EncRegs) (c : CodeUnit) : (e.register c).w = e.w := rfl
@[simp] theorem width_register (e : EncRegs) (c : CodeUnit) : (e.register c).width = e.width := rfl
@[simp] theorem enl_register (e : EncRegs) (c : CodeUnit) : (e.register c).enl = e.enl := rfl

/-- A new unit is not pending. -/
theorem EncDictInv.pend_register {cap : Nat} {e : EncRegs} (h : EncDictInv cap e) {c : CodeUnit}
    (hc : [c] ∉ e.keys) : (e.register c).pend = [c] :: e.pend := by
  have : [c] ∉ e.pend := fun hp => hc (h.pending _ hp).1
  simp [EncRegs.register, EncRegs.pendAdd, EncRegs.insert, this]

theorem EncDictInv.register {cap : Nat} {e : EncRegs} (h : EncDictInv cap e) {c : CodeUnit}
    (hc : [c] ∉ e.keys) (hcap : e.next ≠ cap) : EncDictInv cap (e.register c) := by
  have h1 : EncDictInv cap (e.insert [c]) := by
    refine h.insert hc (by simp) ?_ ?_ ?_ hcap
    · intro q d hq he; exact absurd (singleton_eq_append he).1 hq
    · intro q d he; right; rw [(singleton_eq_append he).2]
    · intro q hq d he
      have := (singleton_eq_append he.symm).1
      subst this
      exact h.nonempty (h.pending [] hq).1
  refine ⟨h1.next_ge, h1.next_le, h1.codes, h1.keys, h1.nonempty, h1.extends_, h1.units, ?_⟩
  intro q hq
  rw [h.pend_register hc, List.mem_cons] at hq
  simp only [keys_register, List.mem_cons, not_or]
  rcases hq with rfl | hq
  · refine ⟨.inl rfl, fun d => ⟨by simp, fun hd => hc (h.extends_ [c] d (by simp) hd)⟩⟩
  · have := h1.pending q hq
    simp only [keys_insert, List.mem_cons, not_or] at this
    exact this

/-! ### EncStep -/

theorem encInsert_eq (p : Phrase) (s : State) :
    encInsert p s = if s.enc.next = s.cfg.dictCap then .raise (.resource .dictionary) s
      else .ok () (s.setEnc (s.enc.insert p)) := rfl

/-- First-sight registration: nothing for a unit that is a key, otherwise an entry and a pending phrase. -/
theorem encRegister_eq (c : CodeUnit) (s : State) :
    encRegister c s =
      if [c] ∈ s.enc.keys then .ok () s
      else if s.enc.next = s.cfg.dictCap then .raise (.resource .dictionary) s
      else .ok () (s.setEnc (s.enc.register c)) := by
  unfold encRegister
  by_cases hk : [c] ∈ s.enc.keys
  · rw [if_neg (by rw [dictCode_eq_none]; exact not_not.mpr hk), if_pos hk]
  · rw [if_pos (dictCode_eq_none.mpr hk), if_neg hk, encInsert_eq]
    split <;> rfl

theorem encExtend_eq (c : CodeUnit) (s : State) :
    encExtend c s = if s.enc.w ++ [c] ∈ s.enc.keys then s.setEnc (s.enc.setW (s.enc.w ++ [c]))
      else s.setStage (.encBreak c) := by
  unfold encExtend
  by_cases hk : s.enc.w ++ [c] ∈ s.enc.keys
  · rw [if_neg (by rw [dictCode_eq_none]; exact not_not.mpr hk), if_pos hk]
  · rw [if_pos (dictCode_eq_none.mpr hk), if_neg hk]

/-- All that EncStep can do before its token (42_encoder.md R164 to R166). -/
theorem encStep_eq (s : State) :
    encStep s =
      if [s.memRead s.enc.i] ∈ s.enc.keys then
        .ok () (encExtend (s.memRead s.enc.i) (s.setEnc s.enc.advance))
      else if s.enc.next = s.cfg.dictCap then .raise (.resource .dictionary) (s.setEnc s.enc.advance)
      else .ok () (encExtend (s.memRead s.enc.i) (s.setEnc (s.enc.advance.register (s.memRead s.enc.i)))) := by
  unfold encStep
  rw [encRegister_eq]
  simp only [setEnc_enc, keys_advance, setEnc_cfg, setEnc_setEnc, show s.enc.advance.next = s.enc.next from rfl]
  by_cases hk : [s.memRead s.enc.i] ∈ s.enc.keys
  · simp only [hk, if_true, Eng.bind_ok]
  · by_cases hn : s.enc.next = s.cfg.dictCap
    · simp only [hk, hn, if_true, if_false, Eng.bind_raise]
    · simp only [hk, hn, if_false, Eng.bind_ok]

/-- The invariant of a phrase does not depend on E_I. -/
theorem PhraseInv.advance {e : EncRegs} (h : PhraseInv e) : PhraseInv e.advance := ⟨h.w, h.pend, h.width⟩

/-- Between steps, a code that E_W can be emitted as is at most V (42_encoder.md R171). -/
theorem PhraseInv.code {cap : Nat} {e : EncRegs} (h : PhraseInv e) (hd : EncDictInv cap e) (hw : e.w ∉ e.pend)
    {k : Nat} (hk : dictCode e.dict e.w = some k) : e.pend = [] ∧ k < e.next := by
  refine ⟨?_, (hd.code_range hk).2⟩
  rcases h.pend with hp | ⟨hp, -⟩
  · exact hp
  · rw [hp] at hw; simp at hw

/-- Once its unit is a key, a step that extends E_W keeps the phrase invariant. -/
theorem PhraseInv.extend {cap : Nat} {e : EncRegs} (h : PhraseInv e) (hd : EncDictInv cap e) {c : CodeUnit}
    (hk : e.w ++ [c] ∈ e.keys) : PhraseInv (e.setW (e.w ++ [c])) := by
  have hp : e.pend = [] := by
    rcases h.pend with hp | ⟨hp, -⟩
    · exact hp
    · exact absurd hk ((hd.pending e.w (by rw [hp]; exact List.mem_singleton_self _)).2 c)
  refine ⟨hk, .inl hp, ?_⟩
  exact h.width

/-- A break right after a unit that was a key (42_encoder.md R166). -/
theorem PhraseInv.breakKnown {cap : Nat} {e : EncRegs} (h : PhraseInv e) (hd : EncDictInv cap e) {c : CodeUnit}
    (hc : [c] ∈ e.keys) (hk : e.w ++ [c] ∉ e.keys) : BreakInv c e where
  w := h.w
  unit := hc
  fresh := hk
  pend := by
    rcases h.pend with hp | ⟨hp, hl⟩
    · rw [hp]; simp
    · rw [hp]; refine ⟨List.nodup_singleton _, fun p hp' => ?_⟩
      rw [List.mem_singleton.mp hp']
      exact ⟨hl, .inl rfl⟩
  code := by
    intro hw k hk'
    obtain ⟨hp, hlt⟩ := h.code hd hw hk'
    rw [hp]; simpa using hlt
  width := h.width

/-- A break right after a unit that is new (42_encoder.md R164, R166). -/
theorem PhraseInv.breakNew {cap : Nat} {e : EncRegs} (h : PhraseInv e) (hd : EncDictInv cap e) {c : CodeUnit}
    (hc : [c] ∉ e.keys) (hcap : e.next ≠ cap) : BreakInv c (e.register c) := by
  have hd' := hd.register hc hcap
  have hpend := hd.pend_register hc
  have hwc : e.w ≠ [c] := fun heq => hc (heq ▸ h.w)
  refine ⟨?_, ?_, ?_, ?_, ?_, ?_⟩
  · simp [h.w]
  · simp
  · intro hm
    rw [w_register, keys_register, List.mem_cons] at hm
    rcases hm with hm | hm
    · have := (singleton_eq_append hm.symm).1
      exact hd.nonempty (this ▸ h.w)
    · exact hc (hd.units _ _ hm)
  · rw [hpend, w_register]
    rcases h.pend with hp | ⟨hp, hl⟩
    · rw [hp]
      refine ⟨List.nodup_singleton _, fun p hp' => ?_⟩
      rw [List.mem_singleton.mp hp']
      exact ⟨rfl, .inr rfl⟩
    · rw [hp]
      refine ⟨by simpa using hwc.symm, fun p hp' => ?_⟩
      simp only [List.mem_cons, List.not_mem_nil, or_false] at hp'
      rcases hp' with rfl | rfl
      · exact ⟨rfl, .inr rfl⟩
      · exact ⟨hl, .inl rfl⟩
  · intro hw k hk
    rw [w_register, hpend] at hw
    have hw' : e.w ∉ e.pend := fun h' => hw (List.mem_cons_of_mem _ h')
    have hk' : dictCode e.dict e.w = some k := by
      have : dictCode (e.register c).dict e.w = dictCode e.dict e.w := by
        simp only [EncRegs.register, EncRegs.pendAdd, EncRegs.insert, dictCode]
        rw [if_neg (fun h => hwc h.symm)]
      rw [← this]; exact hk
    obtain ⟨hp, hlt⟩ := h.code hd hw' hk'
    rw [hpend, hp, next_register]
    simp only [List.length_singleton]; omega
  · rw [hpend, width_register, enl_register, next_register]
    have hn := hd.next_ge
    have : e.next + 1 - 1 - ([c] :: e.pend).length = e.next - 1 - e.pend.length := by
      simp only [List.length_cons]; omega
    rw [this]; exact h.width

/-- The first step: it registers its unit and extends the empty phrase (42_encoder.md R165). -/
theorem phraseInv_first {e : EncRegs} (hn : e.next = 3) (hp : e.pend = [])
    (hb : Balanced e.width e.enl 2) (c : CodeUnit) : PhraseInv ((e.register c).setW [c]) := by
  have hpend : (e.register c).pend = [[c]] := by
    simp [EncRegs.register, EncRegs.pendAdd, EncRegs.insert, hp]
  refine ⟨by show [c] ∈ (e.register c).keys; simp, .inr ⟨?_, rfl⟩, ?_⟩
  · show (e.register c).pend = _; rw [hpend]; rfl
  · show Balanced (e.register c).width (e.register c).enl ((e.register c).next - 1 - (e.register c).pend.length)
    rw [hpend, width_register, enl_register, next_register, hn]
    exact hb

/-! ### EmitPhrase -/

/-- E_W is emitted: the phrase is not pending any more, and V is one ahead of the entries (42_encoder.md R167, R168). -/
theorem BreakInv.literal {c u : CodeUnit} {e : EncRegs} (h : BreakInv c e) (hw : e.w = [u])
    (hm : e.w ∈ e.pend) (hlen : e.pend.length + 1 ≤ e.next) : InsertInv c (((e.tick).pendRemove [u]).tick) := by
  have hfl : e.pend.length = (e.pend.filter (· ≠ [u])).length + 1 := by
    rw [← hw]
    have h1 := List.Nodup.erase_eq_filter h.pend.1 e.w
    have h2 := List.length_erase_of_mem hm
    have h3 : e.pend.filter (fun x => decide (x ≠ e.w)) = e.pend.filter (fun x => x != e.w) := by
      apply List.filter_congr; intro x _; by_cases hx : x = e.w <;> simp [hx]
    rw [h3, ← h1, h2]
    have := List.length_pos_of_mem hm; omega
  have hsub : ∀ p ∈ e.pend.filter (· ≠ [u]), p = [c] := by
    intro p hp
    rw [List.mem_filter] at hp
    rcases (h.pend.2 p hp.1).2 with h1 | h1
    · rw [h1, hw] at hp; simp at hp
    · exact h1
  refine ⟨h.w, h.unit, h.fresh, ?_, ?_⟩
  · show e.pend.filter (· ≠ [u]) = [] ∨ e.pend.filter (· ≠ [u]) = [[c]] ∧ e.w ≠ [c]
    have hnd : (e.pend.filter (· ≠ [u])).Nodup := h.pend.1.filter _
    match hf : e.pend.filter (· ≠ [u]) with
    | [] => exact .inl rfl
    | [p] =>
      right
      have hp := hsub p (by rw [hf]; exact List.mem_singleton_self _)
      have hpm : p ∈ e.pend.filter (· ≠ [u]) := by rw [hf]; exact List.mem_singleton_self _
      refine ⟨by rw [hp], fun heq => ?_⟩
      rw [List.mem_filter] at hpm
      rw [hp, ← heq, hw] at hpm; simp at hpm
    | p :: q :: r =>
      rw [hf] at hnd hsub
      have h1 := hsub p (by simp)
      have h2 := hsub q (by simp)
      rw [h1, h2] at hnd; simp at hnd
  · have := h.width.tick.tick
    have he : e.next - (e.pend.filter (· ≠ [u])).length = e.next - 1 - e.pend.length + 1 + 1 := by omega
    show Balanced _ _ (e.next - (e.pend.filter (· ≠ [u])).length)
    rw [he]; exact this

/-- E_W is emitted as a code (42_encoder.md R169). -/
theorem BreakInv.coded {c : CodeUnit} {e : EncRegs} (h : BreakInv c e) (hm : e.w ∉ e.pend)
    (hlen : e.pend.length + 1 ≤ e.next) : InsertInv c e.tick := by
  have hsub : ∀ p ∈ e.pend, p = [c] := by
    intro p hp
    rcases (h.pend.2 p hp).2 with h1 | h1
    · exact absurd (h1 ▸ hp) hm
    · exact h1
  refine ⟨h.w, h.unit, h.fresh, ?_, ?_⟩
  · show e.pend = [] ∨ e.pend = [[c]] ∧ e.w ≠ [c]
    have hnd := h.pend.1
    match hf : e.pend with
    | [] => exact .inl rfl
    | [p] =>
      right
      have hp := hsub p (by rw [hf]; exact List.mem_singleton_self _)
      refine ⟨by rw [hp], fun heq => hm ?_⟩
      rw [hf, hp, heq]; exact List.mem_singleton_self _
    | p :: q :: r =>
      rw [hf] at hnd hsub
      have h1 := hsub p (by simp)
      have h2 := hsub q (by simp)
      rw [h1, h2] at hnd; simp at hnd
  · have := h.width.tick
    have he : e.next - e.pend.length = e.next - 1 - e.pend.length + 1 := by omega
    show Balanced _ _ (e.next - e.pend.length)
    rw [he]; exact this

/-- After the break's entry, E_W = [c] (42_encoder.md R166). -/
theorem InsertInv.next {cap : Nat} {c : CodeUnit} {e : EncRegs} (h : InsertInv c e) (hd : EncDictInv cap e)
    (hcap : e.next ≠ cap) :
    EncDictInv cap ((e.insert (e.w ++ [c])).setW [c]) ∧ PhraseInv ((e.insert (e.w ++ [c])).setW [c]) := by
  constructor
  · refine (hd.insert h.fresh (by simp) ?_ ?_ ?_ hcap).congr rfl rfl (fun p hp => hp)
    · intro q d _ he
      have := List.append_inj he (by have := congrArg List.length he; simpa using this)
      rw [← this.1]; exact h.w
    · intro q d he
      have := List.append_inj he (by have := congrArg List.length he; simpa using this)
      left
      have hcd : c = d := by simpa using this.2
      rw [← hcd]; exact h.unit
    · intro q hq d he
      rcases h.pend with hp | ⟨hp, hne⟩
      · rw [hp] at hq; simp at hq
      · rw [hp, List.mem_singleton] at hq
        have := List.append_inj he (by have := congrArg List.length he; simpa using this)
        exact hne (by rw [← this.1, hq])
  · refine ⟨?_, ?_, ?_⟩
    · show [c] ∈ (e.insert (e.w ++ [c])).keys
      rw [keys_insert]
      exact List.mem_cons_of_mem _ h.unit
    · show e.pend = [] ∨ e.pend = [[c]] ∧ [c].length = 1
      rcases h.pend with hp | ⟨hp, -⟩
      · exact .inl hp
      · exact .inr ⟨hp, rfl⟩
    · show Balanced e.width e.enl (e.next + 1 - 1 - e.pend.length)
      simpa using h.width

end Sys2Proof.Machine
end

