-- ==== Sys2Proof/Laws/Engine.lean ====
section
/-! SUPPORT. What one turn of the engine can do, stage by stage. -/

namespace Sys2Proof.Machine

open Sys2Proof

/-- `t` differs from `s` at most in what the engine works on: the engine registers, OUT and the stage. -/
structure EngFrame (s t : State) : Prop where
  cfg : t.cfg = s.cfg
  status : t.status = s.status
  err : t.err = s.err
  phase : t.phase = s.phase
  ctrlOp : t.ctrlOp = s.ctrlOp
  ctrlAlph : t.ctrlAlph = s.ctrlAlph
  inLen : t.inLen = s.inLen
  outLen : t.outLen = s.outLen
  errInfo : t.errInfo = s.errInfo
  inBuf : t.inBuf = s.inBuf
  opl : t.opl = s.opl
  alphl : t.alphl = s.alphl
  snapLen : t.snapLen = s.snapLen
  snapIn : t.snapIn = s.snapIn
  resets : t.resets = s.resets
  events : t.events = s.events
  freeCtr : t.freeCtr = s.freeCtr
  resp : t.resp = s.resp

theorem EngFrame.refl (s : State) : EngFrame s s :=
  ⟨rfl, rfl, rfl, rfl, rfl, rfl, rfl, rfl, rfl, rfl, rfl, rfl, rfl, rfl, rfl, rfl, rfl, rfl⟩

theorem EngFrame.trans {s t u : State} (h₁ : EngFrame s t) (h₂ : EngFrame t u) : EngFrame s u where
  cfg := h₂.cfg.trans h₁.cfg
  status := h₂.status.trans h₁.status
  err := h₂.err.trans h₁.err
  phase := h₂.phase.trans h₁.phase
  ctrlOp := h₂.ctrlOp.trans h₁.ctrlOp
  ctrlAlph := h₂.ctrlAlph.trans h₁.ctrlAlph
  inLen := h₂.inLen.trans h₁.inLen
  outLen := h₂.outLen.trans h₁.outLen
  errInfo := h₂.errInfo.trans h₁.errInfo
  inBuf := h₂.inBuf.trans h₁.inBuf
  opl := h₂.opl.trans h₁.opl
  alphl := h₂.alphl.trans h₁.alphl
  snapLen := h₂.snapLen.trans h₁.snapLen
  snapIn := h₂.snapIn.trans h₁.snapIn
  resets := h₂.resets.trans h₁.resets
  events := h₂.events.trans h₁.events
  freeCtr := h₂.freeCtr.trans h₁.freeCtr
  resp := h₂.resp.trans h₁.resp

theorem EngFrame.setEnc (s : State) (e : EncRegs) : EngFrame s (s.setEnc e) :=
  ⟨rfl, rfl, rfl, rfl, rfl, rfl, rfl, rfl, rfl, rfl, rfl, rfl, rfl, rfl, rfl, rfl, rfl, rfl⟩

theorem EngFrame.setDec (s : State) (d : DecRegs) : EngFrame s (s.setDec d) :=
  ⟨rfl, rfl, rfl, rfl, rfl, rfl, rfl, rfl, rfl, rfl, rfl, rfl, rfl, rfl, rfl, rfl, rfl, rfl⟩

theorem EngFrame.setSink (s : State) (k : SinkRegs) : EngFrame s (s.setSink k) :=
  ⟨rfl, rfl, rfl, rfl, rfl, rfl, rfl, rfl, rfl, rfl, rfl, rfl, rfl, rfl, rfl, rfl, rfl, rfl⟩

theorem EngFrame.setSrc (s : State) (r : SourceRegs) : EngFrame s (s.setSrc r) :=
  ⟨rfl, rfl, rfl, rfl, rfl, rfl, rfl, rfl, rfl, rfl, rfl, rfl, rfl, rfl, rfl, rfl, rfl, rfl⟩

theorem EngFrame.setOut (s : State) (m : Memory) : EngFrame s (s.setOut m) :=
  ⟨rfl, rfl, rfl, rfl, rfl, rfl, rfl, rfl, rfl, rfl, rfl, rfl, rfl, rfl, rfl, rfl, rfl, rfl⟩

theorem EngFrame.setStage (s : State) (g : Stage) : EngFrame s (s.setStage g) :=
  ⟨rfl, rfl, rfl, rfl, rfl, rfl, rfl, rfl, rfl, rfl, rfl, rfl, rfl, rfl, rfl, rfl, rfl, rfl⟩

theorem EngFrame.returned (s : State) (r : RunResult) : EngFrame s (s.returned r) := EngFrame.setStage s _

theorem SinkFrame.eng {s t : State} (h : SinkFrame s t) : EngFrame s t := by
  rw [h]; exact (EngFrame.setSink s _).trans (EngFrame.setOut _ _)

theorem SourceFrame.eng {s t : State} (h : SourceFrame s t) : EngFrame s t := by
  rw [h]; exact EngFrame.setSrc s _

theorem DecFrame.eng {s t : State} (h : DecFrame s t) : EngFrame s t := by
  rw [h]; exact (EngFrame.setDec s _).trans (EngFrame.setOut _ _)

theorem EngFrame.busy {s t : State} (h : EngFrame s t) : t.busy = s.busy := by
  unfold State.busy; rw [h.status]

theorem EngFrame.memRead {s t : State} (h : EngFrame s t) (k : Nat) : t.memRead k = s.memRead k := by
  unfold State.memRead; rw [h.snapIn, h.resets]

/-- The engine's work while BUSY keeps the host-visible part, as long as it stays somewhere in Run and OUT holds a
beginning of the result. -/
theorem HostInv.eng {s t : State} (h : HostInv s) (hb : s.status = .busy) (f : EngFrame s t) (hst : t.stage ≠ .idle)
    {n : Nat} (ho : t.outBuf.filled n) (hn : n ≤ t.cfg.outCap) : HostInv t where
  cfg := f.cfg ▸ h.cfg
  phase := by rw [f.phase, f.status]; exact h.phase
  stage := by rw [f.status]; simp [hst, hb]
  err := by rw [f.err, f.status]; exact h.err
  idle := by rw [f.status, hb]; intro hc; cases hc
  error := by rw [f.status, hb]; intro hc; cases hc
  done := by rw [f.status, hb]; intro hc; cases hc
  inWf := by rw [f.inBuf]; exact h.inWf
  inBelow := by rw [f.inBuf, f.cfg]; exact h.inBelow
  outWf := Memory.filled_wf ho
  outBelow := fun e he => Nat.lt_of_lt_of_le (Memory.filled_below ho e he) hn
  snapshot := by rw [f.snapLen, f.snapIn, f.inLen, f.inBuf, f.status]; exact h.snapshot
  latches := by rw [f.opl, f.alphl, f.ctrlOp, f.ctrlAlph, f.status]; exact h.latches

/-- A turn that ends with the stage `t.stage` not idle and OUT filled keeps the whole invariant. -/
theorem Inv.eng {s t : State} (h : Inv s) (hb : s.status = .busy) (f : EngFrame s t) (hst : t.stage ≠ .idle)
    {n : Nat} (ho : t.outBuf.filled n) (hn : n ≤ t.cfg.outCap) (hr : StageInv t t.stage) : Inv t :=
  ⟨h.host.eng hb f hst ho hn, hr⟩

/-! ### Moving invariants along frames -/

theorem SinkInv.setEnc {s : State} (h : SinkInv s) (e : EncRegs) : SinkInv (s.setEnc e) := ⟨h.pos, h.acc, h.outN, h.filled⟩

theorem SinkInv.setStage {s : State} (h : SinkInv s) (g : Stage) : SinkInv (s.setStage g) :=
  ⟨h.pos, h.acc, h.outN, h.filled⟩

theorem EncInv.setStage {s : State} (h : EncInv s) (g : Stage) : EncInv (s.setStage g) :=
  ⟨h.op, h.some_, h.fits, h.dict, h.sink.setStage g, h.i⟩

theorem EncInv.setEnc {s : State} (h : EncInv s) {e : EncRegs} (hd : EncDictInv s.cfg.dictCap e)
    (hi : e.i ≤ s.snapLen.toNat) : EncInv (s.setEnc e) :=
  ⟨h.op, h.some_, h.fits, hd, h.sink.setEnc e, hi⟩

/-- COMPRESS's invariant after the sink has moved. -/
theorem EncInv.sinkFrame {s t : State} (h : EncInv s) (f : SinkFrame s t) (hk : SinkInv t) : EncInv t := by
  refine ⟨?_, ?_, ?_, ?_, hk, ?_⟩
  · rw [f]; exact h.op
  · rw [f]; exact h.some_
  · rw [f]; exact h.fits
  · rw [f]; exact h.dict
  · rw [f]; exact h.i

theorem SourceInv.setStage {s : State} (h : SourceInv s) (g : Stage) : SourceInv (s.setStage g) :=
  ⟨h.ndata, h.idx, h.rem, h.bcnt, h.chars, h.cur⟩

theorem DecInv.setStage {s : State} (h : DecInv s) (g : Stage) : DecInv (s.setStage g) :=
  ⟨h.op, h.some_, h.fits, h.src.setStage g, h.resLen, h.filled⟩

theorem DecInv.result {s : State} (h : DecInv s) : ResultInv s := ⟨h.resLen, h.filled⟩

/-- DECOMPRESS's invariant after the source has moved. -/
theorem DecInv.sourceFrame {s t : State} (h : DecInv s) (f : SourceFrame s t) (hs : SourceInv t) : DecInv t := by
  refine ⟨?_, ?_, ?_, hs, ?_, ?_⟩
  · rw [f]; exact h.op
  · rw [f]; exact h.some_
  · rw [f]; exact h.fits
  · rw [f]; exact h.resLen
  · rw [f]; exact h.filled

/-- DECOMPRESS's invariant after a token has run. -/
theorem DecInv.decFrame {s t : State} (h : DecInv s) (f : DecFrame s t) (hr : ResultInv t) : DecInv t := by
  refine ⟨?_, ?_, ?_, ⟨?_, ?_, ?_, ?_, ?_, ?_⟩, hr.resLen, hr.filled⟩
  · rw [f]; exact h.op
  · rw [f]; exact h.some_
  · rw [f]; exact h.fits
  · rw [f]; exact h.src.ndata
  · rw [f]; exact h.src.idx
  · rw [f]; exact h.src.rem
  · rw [f]; exact h.src.bcnt
  · rw [f]; exact h.src.chars
  · rw [f]; exact h.src.cur

/-! ### Tokens of the encoder -/

/-- The code width between tokens fits the sink's fields (40_bitpack.md R122, R127). -/
theorem EncDictInv.width_le {cap : Nat} {e : EncRegs} (h : EncDictInv cap e) (hc : cap ≤ 2 ^ 24) {v : Nat}
    (hb : Balanced e.width e.enl v) (hv : v ≤ e.next) : e.width ≤ 25 :=
  hb.width_le (Nat.le_trans hv (Nat.le_trans h.next_le hc))

/-- What Emit can do with a value that fits: it pushes the bits, or raises RESOURCE(3). -/
theorem emit_cases {v n : Nat} (h1 : 1 ≤ n) (h2 : n ≤ 25) (hv : v < 2 ^ n) {s : State} (hk : SinkInv s) :
    (∃ t, emit v n s = .ok () t ∧ SinkFrame s t ∧ SinkInv t) ∨
      ∃ t, emit v n s = .raise (.resource .output) t ∧ SinkFrame s t ∧ SinkInv t := by
  rw [emit_eq h1 h2 hv]
  rcases pushBits_cases (fieldBits s.cfg.order n v) s with ⟨t, ht, hf⟩ | ⟨t, ht, hf⟩
  · exact .inl ⟨t, ht, hf, hk.pushBits ht⟩
  · exact .inr ⟨t, ht, hf, hk.pushBits_raise ht⟩

/-- All that a literal token can do (42_encoder.md R167, R168). -/
theorem emitLiteral_cases {t n : Nat} {u : CodeUnit} {s : State} (hk : SinkInv s) (hw2 : 2 ≤ s.enc.width)
    (hw : s.enc.width ≤ 25) (ht : t < 4) (hn1 : 1 ≤ n) (hn : n ≤ 25) (hu : u.toNat < 2 ^ n) :
    (∃ k, emitLiteral t n u s = .ok () (k.setEnc ((s.enc.tick.pendRemove [u]).tick)) ∧ SinkFrame s k ∧ SinkInv k) ∨
      ∃ k, emitLiteral t n u s = .raise (.resource .output) k ∧ SinkFrame s k ∧ SinkInv k := by
  have hpow : 2 ^ 2 ≤ 2 ^ s.enc.width := Nat.pow_le_pow_right (by norm_num) hw2
  unfold emitLiteral
  rcases emit_cases (v := t) (n := s.enc.width) (by omega) hw (by omega) hk with ⟨a, ha, hfa, hka⟩ | ⟨a, ha, hfa, hka⟩
  · rw [ha, Eng.bind_ok]
    rcases emit_cases (v := u.toNat) (n := n) hn1 hn hu hka with ⟨b, hb, hfb, hkb⟩ | ⟨b, hb, hfb, hkb⟩
    · rw [hb, Eng.bind_ok]
      have he : b.enc = s.enc := by rw [hfb, hfa]; rfl
      exact .inl ⟨b, by rw [he], hfa.trans hfb, hkb⟩
    · rw [hb]; exact .inr ⟨b, rfl, hfa.trans hfb, hkb⟩
  · rw [ha]; exact .inr ⟨a, rfl, hfa, hka⟩

/-- The end of COMPRESS (42_encoder.md R170): the result, or RESOURCE(3). -/
theorem execEncEos_cases {s : State} (hk : SinkInv s) (hw2 : 2 ≤ s.enc.width) (hw : s.enc.width ≤ 25) :
    ∃ k, SinkFrame s k ∧ SinkInv k ∧
      (execEncEos s = .next (k.returned (.ok k.sink.outN)) ∨
        execEncEos s = .next (k.returned (.err (.resource .output)))) := by
  have hpow : 2 ^ 2 ≤ 2 ^ s.enc.width := Nat.pow_le_pow_right (by norm_num) hw2
  unfold execEncEos
  rcases emit_cases (v := 2) (n := s.enc.width) (by omega) hw (by omega) hk with ⟨a, ha, hfa, hka⟩ | ⟨a, ha, hfa, hka⟩
  · rw [ha, Eng.bind_ok]
    unfold flush
    rcases pushBits_cases (List.replicate (bpc - a.sink.pos) false) a with ⟨b, hb, hfb⟩ | ⟨b, hb, hfb⟩
    · rw [hb, Eng.bind_ok]
      have hkb := hka.pushBits hb
      rcases padOut_cases b with ⟨c, hc, hfc⟩ | ⟨c, hc, hfc⟩
      · rw [hc, Eng.bind_ok]
        exact ⟨c, (hfa.trans hfb).trans hfc, hkb.padOut hc, .inl rfl⟩
      · rw [hc]; exact ⟨c, (hfa.trans hfb).trans hfc, hkb.padOut_raise hc, .inr rfl⟩
    · rw [hb]; exact ⟨b, hfa.trans hfb, hka.pushBits_raise hb, .inr rfl⟩
  · rw [ha]; exact ⟨a, hfa, hka, .inr rfl⟩

end Sys2Proof.Machine
end

