-- ==== Sys2Proof/Laws/Turn.lean ====
section
/-! SUPPORT. One turn of the engine, place by place in the pseudocode of Run: it goes on, keeps the invariant, and
comes closer to the end of the operation. -/

namespace Sys2Proof.Machine

open Sys2Proof

/-- A number of turns that is enough to complete the operation. -/
def State.turnsLeft (s : State) : Nat :=
  match s.stage with
  | .idle => 0
  | .complete _ => 1
  | .encEos => 2
  | .encLast => 3
  | .encLoop => 4 + 3 * (s.snapLen.toNat - s.enc.i)
  | .encInsert _ => 5 + 3 * (s.snapLen.toNat - s.enc.i)
  | .encBreak _ => 6 + 3 * (s.snapLen.toNat - s.enc.i)
  | .decFirst => 2 + (6 * s.src.ndata - s.src.bcnt) / 2
  | .decLoop => 2 + (6 * s.src.ndata - s.src.bcnt) / 2
  | .start => 5 + 3 * s.snapLen.toNat

theorem turnsLeft_encLoop {s : State} (h : s.stage = .encLoop) :
    s.turnsLeft = 4 + 3 * (s.snapLen.toNat - s.enc.i) := by unfold State.turnsLeft; rw [h]

theorem turnsLeft_decFirst {s : State} (h : s.stage = .decFirst) :
    s.turnsLeft = 2 + (6 * s.src.ndata - s.src.bcnt) / 2 := by unfold State.turnsLeft; rw [h]

theorem turnsLeft_decLoop {s : State} (h : s.stage = .decLoop) :
    s.turnsLeft = 2 + (6 * s.src.ndata - s.src.bcnt) / 2 := by unfold State.turnsLeft; rw [h]

/-- What a turn in which the operation goes on leaves: the invariant, the host's side as it was, and fewer turns to
come. -/
structure Advance (s t : State) : Prop where
  inv   : Inv t
  frame : EngFrame s t
  less  : t.turnsLeft < s.turnsLeft

/-- Run returns an error. -/
theorem Advance.raised {s t : State} {e : OpError} (h : Inv s) (hb : s.status = .busy) (f : EngFrame s t) {n : Nat}
    (ho : t.outBuf.filled n) (hn : n ≤ t.cfg.outCap) (he : ErrorFits t e) (hl : 1 < s.turnsLeft) :
    Advance s (t.returned (.err e)) := by
  refine ⟨h.eng hb (f.trans (EngFrame.returned t _)) (by simp [State.returned]) (n := n) ho hn ?_,
    f.trans (EngFrame.returned t _), hl⟩
  show ErrorFits _ e
  cases e with
  | resource r => cases r <;> exact he
  | _ => exact he

/-- Run returns a result. -/
theorem Advance.finished {s t : State} {m : Nat} (h : Inv s) (hb : s.status = .busy) (f : EngFrame s t)
    (ho : t.outBuf.filled m) (hn : m ≤ t.cfg.outCap) (hl : 1 < s.turnsLeft) :
    Advance s (t.returned (.ok m)) :=
  ⟨h.eng hb (f.trans (EngFrame.returned t _)) (by simp [State.returned]) (n := m) ho hn ⟨ho, hn⟩,
    f.trans (EngFrame.returned t _), hl⟩

/-! ### The beginning of Run -/

theorem inputUnits_length (s : State) : s.inputUnits.length = s.snapLen.toNat := by simp [State.inputUnits]

theorem inputUnits_get (s : State) {k : Nat} {c : CodeUnit} (h : s.inputUnits[k]? = some c) : s.memRead k = c := by
  simp only [State.inputUnits, List.getElem?_map] at h
  rcases lt_or_ge k s.snapLen.toNat with hk | hk
  · simpa [hk] using h
  · simp [List.getElem?_eq_none (show (List.range s.snapLen.toNat).length ≤ k by simpa using hk)] at h

/-- An input unit below IN_LEN is what the engine reads there (20_memory.md R64). -/
theorem inputUnits_get? (s : State) {k : Nat} (h : k < s.snapLen.toNat) : s.inputUnits[k]? = some (s.memRead k) := by
  simp [State.inputUnits, h]

theorem turn_start {s : State} (h : Inv s) (hb : s.status = .busy) (hs : s.stage = .start) :
    ∃ t, (startRun s).outcome = .next t ∧ Advance s t := by
  have hr := h.run
  rw [hs] at hr
  have ho : s.outBuf.filled 0 := by rw [show s.outBuf = [] from hr]; rfl
  have hl : s.turnsLeft = 5 + 3 * s.snapLen.toNat := by simp [State.turnsLeft, hs]
  have hbal : Balanced 2 2 2 := ⟨by decide, by decide, by decide, by decide⟩
  unfold startRun
  split
  · rename_i hcap
    exact ⟨_, rfl, Advance.raised h hb (EngFrame.refl s) ho (Nat.zero_le _) hcap (by omega)⟩
  · rename_i hcap
    split
    · rename_i hop
      unfold startCompress
      split
      · exact ⟨_, rfl, Advance.finished h hb (EngFrame.refl s) ho (Nat.zero_le _) (by omega)⟩
      · rename_i hz
        have f : EngFrame s ((sinkInit (encInit s)).setStage .encLoop) :=
          ((EngFrame.setEnc s _).trans (EngFrame.setSink _ _)).trans (EngFrame.setStage _ _)
        refine ⟨_, rfl, h.eng hb f (by simp) (n := 0) ho (Nat.zero_le _) ?_, f, ?_⟩
        · refine ⟨⟨hop, Nat.pos_of_ne_zero hz, Nat.le_of_not_lt hcap, ?_, ?_, Nat.zero_le _⟩, .inr ⟨rfl, rfl, rfl, rfl, hbal⟩⟩
          · have := h.host.cfg.2.2.1
            exact ⟨Nat.le_refl _, by show 3 ≤ s.cfg.dictCap; omega, rfl, List.nodup_nil, List.not_mem_nil,
              fun p c _ hm => absurd hm List.not_mem_nil, fun p c hm => absurd hm List.not_mem_nil,
              fun p hm => absurd hm List.not_mem_nil⟩
          · exact ⟨Nat.zero_le _, Nat.zero_lt_one, Nat.zero_le _, ho⟩
        · rw [hl]; show 4 + 3 * (s.snapLen.toNat - 0) < _; omega
    · rename_i hop
      unfold startDecompress
      split
      · rename_i k hk
        have hv := validate_some hk
        rw [inputUnits_length] at hv
        exact ⟨_, rfl, Advance.raised h hb (EngFrame.refl s) ho (Nat.zero_le _) ⟨hop, by omega⟩ (by omega)⟩
      · rename_i hv
        split
        · exact ⟨_, rfl, Advance.finished h hb (EngFrame.refl s) ho (Nat.zero_le _) (by omega)⟩
        · rename_i hz
          have f : EngFrame s ((decInit (dataLength s.alphl s.inputUnits) s).setStage .decFirst) :=
            ((EngFrame.setSrc s _).trans (EngFrame.setDec _ _)).trans (EngFrame.setStage _ _)
          have hd := dataLength_le s.alphl s.inputUnits
          rw [inputUnits_length] at hd
          refine ⟨_, rfl, h.eng hb f (by simp) (n := 0) ho (Nat.zero_le _) ?_, f, ?_⟩
          · refine ⟨⟨hop, Nat.pos_of_ne_zero hz, Nat.le_of_not_lt hcap,
              ⟨hd, Nat.zero_le _, Nat.zero_le _, rfl, ?_, fun h0 => absurd h0 (Nat.lt_irrefl 0)⟩, Nat.zero_le _, ho⟩,
              rfl, rfl, rfl, rfl, rfl⟩
            intro k hk
            obtain ⟨c, hc, hu⟩ := validate_none hv hk
            show unmapChar s.alphl (s.memRead k) ≠ none
            rw [inputUnits_get s hc]; exact hu
          · rw [hl]
            show 2 + (6 * dataLength s.alphl s.inputUnits - 0) / 2 < _
            omega

/-! ### COMPRESS -/

theorem turn_encHead {s : State} (h : Inv s) (hb : s.status = .busy) (hs : s.stage = .encLoop) :
    ∃ t, (encHead s).outcome = .next t ∧ Advance s t := by
  have hr := h.run
  rw [hs] at hr
  obtain ⟨he, hp⟩ := hr
  have hl : s.turnsLeft = 4 + 3 * (s.snapLen.toNat - s.enc.i) := by simp [State.turnsLeft, hs]
  have hn : s.sink.outN ≤ s.cfg.outCap := he.sink.outN
  unfold encHead
  split
  · rename_i hi
    generalize hc : s.memRead s.enc.i = c
    rw [encStep_eq, hc]
    have hdadv : EncDictInv s.cfg.dictCap s.enc.advance := he.dict.congr rfl rfl fun _ h => h
    split
    · rename_i hk
      rcases hp with hp | ⟨_, _, hd, _, _⟩
      · have f1 : EngFrame s (s.setEnc s.enc.advance) := EngFrame.setEnc _ _
        rw [encExtend_eq]
        split
        · rename_i hx
          have f : EngFrame s ((s.setEnc s.enc.advance).setEnc (s.enc.advance.setW (s.enc.w ++ [c]))) :=
            f1.trans (EngFrame.setEnc _ _)
          refine ⟨_, rfl, h.eng hb f (by show s.stage ≠ _; rw [hs]; simp) (n := s.sink.outN) he.sink.filled hn ?_, f, ?_⟩
          · show StageInv _ s.stage
            rw [hs]
            exact ⟨he.setEnc (hdadv.congr rfl rfl fun _ h => h) (by show s.enc.i + 1 ≤ _; omega),
              .inl (hp.advance.extend hdadv hx)⟩
          · rw [hl]; refine Nat.lt_of_le_of_lt (Nat.le_of_eq (turnsLeft_encLoop (by exact hs))) ?_
            show 4 + 3 * (s.snapLen.toNat - (s.enc.i + 1)) < _; omega
        · rename_i hx
          have f : EngFrame s ((s.setEnc s.enc.advance).setStage (.encBreak c)) := f1.trans (EngFrame.setStage _ _)
          refine ⟨_, rfl, h.eng hb f (by simp) (n := s.sink.outN) he.sink.filled hn ?_, f, ?_⟩
          · exact ⟨(he.setEnc hdadv (by show s.enc.i + 1 ≤ _; omega)).setStage _, hp.advance.breakKnown hdadv hk hx⟩
          · rw [hl]; show 6 + 3 * (s.snapLen.toNat - (s.enc.i + 1)) < _; omega
      · simp [EncRegs.keys, hd] at hk
    · rename_i hk
      split
      · exact ⟨_, rfl, Advance.raised (e := .resource .dictionary) h hb (EngFrame.setEnc s _) he.sink.filled hn trivial
          (by omega)⟩
      · rename_i hcap
        have hcap' : s.enc.advance.next ≠ s.cfg.dictCap := hcap
        have hk' : [c] ∉ s.enc.advance.keys := hk
        have hdreg := hdadv.register hk' hcap'
        have f1 : EngFrame s (s.setEnc (s.enc.advance.register c)) := EngFrame.setEnc _ _
        have hi' : (s.enc.advance.register c).i ≤ s.snapLen.toNat := by show s.enc.i + 1 ≤ _; omega
        rw [encExtend_eq]
        rcases hp with hp | ⟨hw, hi0, hd, hpe, hbal⟩
        · have hbk := hp.advance.breakNew hdadv hk' hcap'
          rw [setEnc_enc, if_neg hbk.fresh]
          have f : EngFrame s ((s.setEnc (s.enc.advance.register c)).setStage (.encBreak c)) :=
            f1.trans (EngFrame.setStage _ _)
          refine ⟨_, rfl, h.eng hb f (by simp) (n := s.sink.outN) he.sink.filled hn ?_, f, ?_⟩
          · exact ⟨(he.setEnc hdreg hi').setStage _, hbk⟩
          · rw [hl]; show 6 + 3 * (s.snapLen.toNat - (s.enc.i + 1)) < _; omega
        · have hw' : s.enc.w ++ [c] = [c] := by rw [hw]; rfl
          have hmem : (s.setEnc (s.enc.advance.register c)).enc.w ++ [c] ∈
              (s.setEnc (s.enc.advance.register c)).enc.keys := by
            show s.enc.w ++ [c] ∈ [c] :: s.enc.keys
            rw [hw']; exact List.mem_cons_self
          rw [if_pos hmem]
          have hn3 : s.enc.advance.next = 3 := by
            have h1 := he.dict.codes
            have h2 := he.dict.next_ge
            rw [hd] at h1
            have h3 := congrArg List.length h1
            simp only [List.map_nil, List.length_nil, List.length_reverse, List.length_range'] at h3
            show s.enc.next = 3; omega
          have hph := phraseInv_first (e := s.enc.advance) hn3 hpe hbal c
          have hset : (s.setEnc (s.enc.advance.register c)).setEnc
              ((s.setEnc (s.enc.advance.register c)).enc.setW ((s.setEnc (s.enc.advance.register c)).enc.w ++ [c])) =
              s.setEnc ((s.enc.advance.register c).setW [c]) := by
            show s.setEnc ((s.enc.advance.register c).setW (s.enc.w ++ [c])) = _
            rw [hw']
          rw [hset]
          have f : EngFrame s (s.setEnc ((s.enc.advance.register c).setW [c])) := EngFrame.setEnc _ _
          refine ⟨_, rfl, h.eng hb f (by show s.stage ≠ _; rw [hs]; simp) (n := s.sink.outN) he.sink.filled hn ?_, f, ?_⟩
          · show StageInv _ s.stage
            rw [hs]
            exact ⟨he.setEnc (hdreg.congr rfl rfl fun _ h => h) hi', .inl hph⟩
          · rw [hl]; refine Nat.lt_of_le_of_lt (Nat.le_of_eq (turnsLeft_encLoop (by exact hs))) ?_
            show 4 + 3 * (s.snapLen.toNat - (s.enc.i + 1)) < _; omega
  · rename_i hi
    have f : EngFrame s (s.setStage .encLast) := EngFrame.setStage _ _
    have hi' : s.enc.i = s.snapLen.toNat := by have := he.i; omega
    refine ⟨_, rfl, h.eng hb f (by simp) (n := s.sink.outN) he.sink.filled hn ?_, f, ?_⟩
    · rcases hp with hp | ⟨_, hi0, _⟩
      · exact ⟨he.setStage _, hp, hi'⟩
      · exact absurd he.some_ (by omega)
    · rw [hl]; show 3 < _; omega

/-- The token EmitPhrase chooses between two steps of COMPRESS (42_encoder.md R167 to R169): it goes on with the
registers `e`, or raises RESOURCE(3). -/
theorem emitPhrase_cases {s : State} (g : Stage) (hk : SinkInv s) (hw2 : 2 ≤ s.enc.width) (hw : s.enc.width ≤ 25)
    (hp : ∀ p ∈ s.enc.pend, p.length = 1) (hm : s.enc.w ∈ s.enc.keys)
    (hcode : s.enc.w ∉ s.enc.pend → ∀ k, dictCode s.enc.dict s.enc.w = some k → k < 2 ^ s.enc.width) :
    ∃ k, SinkFrame (s.setStage g) k ∧ SinkInv k ∧
      (emitPhrase g s = .next (k.returned (.err (.resource .output))) ∨
        (∃ u, s.enc.w = [u] ∧ s.enc.w ∈ s.enc.pend ∧
          emitPhrase g s = .next (k.setEnc ((s.enc.tick.pendRemove [u]).tick))) ∨
        s.enc.w ∉ s.enc.pend ∧ emitPhrase g s = .next (k.setEnc s.enc.tick)) := by
  have hk' : SinkInv (s.setStage g) := hk.setStage g
  unfold emitPhrase chooseToken
  by_cases hmem : s.enc.w ∈ s.enc.pend
  · rw [if_pos hmem]
    have hlen := hp _ hmem
    match hw' : s.enc.w, hlen with
    | [u], _ =>
      simp only
      by_cases hu : u.toNat < 256
      · rw [if_pos hu]
        have hu2 : (u.setWidth 8).setWidth 16 = u := by
          apply BitVec.eq_of_toNat_eq
          simp only [BitVec.toNat_setWidth]; omega
        rcases emitLiteral_cases (t := 0) (n := 8) (u := u) hk' hw2 hw (by omega) (by omega) (by omega) (by omega) with
          ⟨k, h1, h2, h3⟩ | ⟨k, h1, h2, h3⟩
        · refine ⟨k, h2, h3, .inr (.inl ⟨u, rfl, hw' ▸ hmem, ?_⟩)⟩
          show execEncLit8 _ _ = _
          rw [execEncLit8, hu2, h1]; rfl
        · refine ⟨k, h2, h3, .inl ?_⟩
          show execEncLit8 _ _ = _
          rw [execEncLit8, hu2, h1]; rfl
      · rw [if_neg hu]
        have hu16 : u.toNat < 2 ^ 16 := u.isLt
        rcases emitLiteral_cases (t := 1) (n := 16) (u := u) hk' hw2 hw (by omega) (by omega) (by omega) hu16 with
          ⟨k, h1, h2, h3⟩ | ⟨k, h1, h2, h3⟩
        · refine ⟨k, h2, h3, .inr (.inl ⟨u, rfl, hw' ▸ hmem, ?_⟩)⟩
          show execEncLit16 _ _ = _
          rw [execEncLit16, h1]; rfl
        · refine ⟨k, h2, h3, .inl ?_⟩
          show execEncLit16 _ _ = _
          rw [execEncLit16, h1]; rfl
  · rw [if_neg hmem]
    obtain ⟨c, hc⟩ := dictCode_some hm
    rw [hc, Option.map_some]
    have hlt := hcode hmem c hc
    rcases emit_cases (v := c) (n := s.enc.width) (by omega) hw hlt hk' with ⟨k, h1, h2, h3⟩ | ⟨k, h1, h2, h3⟩
    · refine ⟨k, h2, h3, .inr (.inr ⟨hmem, ?_⟩)⟩
      show execEncCode _ _ = _
      rw [execEncCode, setStage_enc, h1, Eng.bind_ok, Eng.outcome_ok]
      have : k.enc = s.enc := by rw [h2]; rfl
      rw [this]
    · refine ⟨k, h2, h3, .inl ?_⟩
      show execEncCode _ _ = _
      rw [execEncCode, setStage_enc, h1]; rfl

theorem turn_encBreak {s : State} (h : Inv s) (hb : s.status = .busy) {c : CodeUnit} (hs : s.stage = .encBreak c) :
    ∃ t, emitPhrase (.encInsert c) s = .next t ∧ Advance s t := by
  have hr := h.run
  rw [hs] at hr
  obtain ⟨he, hp⟩ := hr
  have hl : s.turnsLeft = 6 + 3 * (s.snapLen.toNat - s.enc.i) := by simp [State.turnsLeft, hs]
  have hpl : ∀ p ∈ s.enc.pend, p = s.enc.w ∨ p = [c] := fun p hp' => (hp.pend.2 p hp').2
  have hlen : s.enc.pend.length + 1 ≤ s.enc.next := by
    have h1 : s.enc.pend.length ≤ [s.enc.w, [c]].length := by
      refine (hp.pend.1.subperm ?_).length_le
      intro p hp'; have := hpl p hp'; simp only [List.mem_cons, List.not_mem_nil, or_false]; exact this
    have := he.dict.next_ge
    simp only [List.length_cons, List.length_nil] at h1; omega
  have hw25 := he.dict.width_le h.host.cfg.2.2.2 hp.width (by omega)
  obtain ⟨k, hf, hk, hcase⟩ := emitPhrase_cases (.encInsert c) he.sink hp.width.width_ge hw25
    (fun p hp' => (hp.pend.2 p hp').1) hp.w (fun hm k hk => by
      have := hp.code hm k hk; have := hp.width.lt_pow; omega)
  have f : EngFrame s k := (EngFrame.setStage s _).trans hf.eng
  have henc : EncInv k := (he.setStage (.encInsert c)).sinkFrame hf hk
  have hki : k.enc.i = s.enc.i := by rw [hf]; rfl
  have hkd : EncDictInv k.cfg.dictCap s.enc := by rw [f.cfg]; exact he.dict
  have hks : k.stage = .encInsert c := by rw [hf]; rfl
  have hsl : k.snapLen = s.snapLen := f.snapLen
  have advance : ∀ e : EncRegs, EncDictInv k.cfg.dictCap e → InsertInv c e → e.i = s.enc.i →
      Advance s (k.setEnc e) := by
    intro e hd hi hei
    have f' : EngFrame s (k.setEnc e) := f.trans (EngFrame.setEnc _ _)
    refine ⟨h.eng hb f' (by rw [setEnc_stage, hks]; simp) (n := k.sink.outN) hk.filled hk.outN ?_, f', ?_⟩
    · rw [setEnc_stage, hks]
      exact ⟨henc.setEnc hd (by rw [hei, hsl]; exact he.i), hi⟩
    · rw [hl]; unfold State.turnsLeft; rw [setEnc_stage, hks]
      show 5 + 3 * (k.snapLen.toNat - e.i) < _
      rw [hsl, hei]; omega
  rcases hcase with hx | ⟨u, hu, hm, hx⟩ | ⟨hm, hx⟩
  · exact ⟨_, hx, Advance.raised h hb f hk.filled hk.outN trivial (by omega)⟩
  · refine ⟨_, hx, advance _ (hkd.congr rfl rfl fun p hp' => ?_) (hp.literal hu hm hlen) rfl⟩
    exact (List.mem_filter.mp hp').1
  · exact ⟨_, hx, advance _ (hkd.congr rfl rfl fun p hp' => hp') (hp.coded hm hlen) rfl⟩

theorem turn_encInsert {s : State} (h : Inv s) (hb : s.status = .busy) {c : CodeUnit} (hs : s.stage = .encInsert c) :
    ∃ t, (encAfterBreak c (s.setStage .encLoop)).outcome = .next t ∧ Advance s t := by
  have hr := h.run
  rw [hs] at hr
  obtain ⟨he, hp⟩ := hr
  have hl : s.turnsLeft = 5 + 3 * (s.snapLen.toNat - s.enc.i) := by simp [State.turnsLeft, hs]
  have f : EngFrame s (s.setStage .encLoop) := EngFrame.setStage _ _
  unfold encAfterBreak
  rw [encInsert_eq]
  split
  · exact ⟨_, rfl, Advance.raised (e := .resource .dictionary) h hb f he.sink.filled he.sink.outN trivial (by omega)⟩
  · rename_i hcap
    obtain ⟨hd, hph⟩ := hp.next he.dict hcap
    have f' : EngFrame s ((s.setStage .encLoop).setEnc ((s.enc.insert (s.enc.w ++ [c])).setW [c])) :=
      f.trans (EngFrame.setEnc _ _)
    refine ⟨(s.setStage .encLoop).setEnc ((s.enc.insert (s.enc.w ++ [c])).setW [c]), rfl,
      h.eng hb f' (by simp) (n := s.sink.outN) he.sink.filled he.sink.outN ?_, f', ?_⟩
    · exact ⟨(he.setStage _).setEnc hd he.i, .inl hph⟩
    · rw [hl]; show 4 + 3 * (s.snapLen.toNat - s.enc.i) < _; omega

theorem turn_encLast {s : State} (h : Inv s) (hb : s.status = .busy) (hs : s.stage = .encLast) :
    ∃ t, emitPhrase .encEos s = .next t ∧ Advance s t := by
  have hr := h.run
  rw [hs] at hr
  obtain ⟨he, hp, hi⟩ := hr
  have hl : s.turnsLeft = 3 := by simp [State.turnsLeft, hs]
  have hw25 := he.dict.width_le h.host.cfg.2.2.2 hp.width (by omega)
  obtain ⟨k, hf, hk, hcase⟩ := emitPhrase_cases .encEos he.sink hp.width.width_ge hw25
    (fun p hp' => by
      rcases hp.pend with h0 | ⟨h1, h2⟩
      · rw [h0] at hp'; simp at hp'
      · rw [h1, List.mem_singleton] at hp'; rw [hp']; exact h2) hp.w
    (fun hm k hk => by
      obtain ⟨h0, h1⟩ := hp.code he.dict hm hk
      have := hp.width.lt_pow
      rw [h0] at this; simp only [List.length_nil] at this; omega)
  have f : EngFrame s k := (EngFrame.setStage s _).trans hf.eng
  have henc : EncInv k := (he.setStage .encEos).sinkFrame hf hk
  have hkd : EncDictInv k.cfg.dictCap s.enc := by rw [f.cfg]; exact he.dict
  have hks : k.stage = .encEos := by rw [hf]; rfl
  have hsl : k.snapLen = s.snapLen := f.snapLen
  have hge := he.dict.next_ge
  have advance : ∀ e : EncRegs, EncDictInv k.cfg.dictCap e → e.pend = [] → Balanced e.width e.enl e.next →
      e.i = s.enc.i → Advance s (k.setEnc e) := by
    intro e hd hpe hbal hei
    have f' : EngFrame s (k.setEnc e) := f.trans (EngFrame.setEnc _ _)
    refine ⟨h.eng hb f' (by rw [setEnc_stage, hks]; simp) (n := k.sink.outN) hk.filled hk.outN ?_, f', ?_⟩
    · rw [setEnc_stage, hks]
      exact ⟨henc.setEnc hd (by rw [hei, hsl]; exact he.i), hpe, hbal⟩
    · rw [hl]; unfold State.turnsLeft; rw [setEnc_stage, hks]; exact Nat.lt_succ_self 2
  rcases hcase with hx | ⟨u, hu, hm, hx⟩ | ⟨hm, hx⟩
  · exact ⟨_, hx, Advance.raised h hb f hk.filled hk.outN trivial (by omega)⟩
  · have hpe : s.enc.pend = [s.enc.w] := by
      rcases hp.pend with h0 | ⟨h1, -⟩
      · rw [h0] at hm; simp at hm
      · exact h1
    refine ⟨_, hx, advance _ (hkd.congr rfl rfl fun p hp' => (List.mem_filter.mp hp').1) ?_ ?_ rfl⟩
    · show s.enc.pend.filter (· ≠ [u]) = []
      rw [hpe, hu]; simp
    · have hbal := hp.width.tick.tick
      rw [hpe] at hbal
      have hn : s.enc.next - 1 - [s.enc.w].length + 1 + 1 = s.enc.next := by
        simp only [List.length_singleton]; omega
      rw [hn] at hbal
      exact hbal
  · have hpe : s.enc.pend = [] := by
      rcases hp.pend with h0 | ⟨h1, -⟩
      · exact h0
      · rw [h1] at hm; simp at hm
    refine ⟨_, hx, advance _ (hkd.congr rfl rfl fun p hp' => hp') hpe ?_ rfl⟩
    have hbal := hp.width.tick
    rw [hpe] at hbal
    have hn : s.enc.next - 1 - ([] : List Phrase).length + 1 = s.enc.next := by
      simp only [List.length_nil]; omega
    rw [hn] at hbal
    exact hbal

theorem turn_encEos {s : State} (h : Inv s) (hb : s.status = .busy) (hs : s.stage = .encEos) :
    ∃ t, exec .encEos s = .next t ∧ Advance s t := by
  have hr := h.run
  rw [hs] at hr
  obtain ⟨he, hpe, hbal⟩ := hr
  have hl : s.turnsLeft = 2 := by simp [State.turnsLeft, hs]
  have hw25 := he.dict.width_le h.host.cfg.2.2.2 hbal (Nat.le_refl _)
  obtain ⟨k, hf, hk, hx | hx⟩ := execEncEos_cases he.sink hbal.width_ge hw25
  · exact ⟨_, hx, Advance.finished h hb hf.eng hk.filled hk.outN (by omega)⟩
  · exact ⟨_, hx, Advance.raised h hb hf.eng hk.filled hk.outN trivial (by omega)⟩

/-! ### DECOMPRESS -/

/-- A first token with its marker present is decoded by the value of the marker (30_encoding.md R95). -/
theorem decode_token_first {c : DecodeCtx} {bits : List Bool} (hs : c.side = .first) (hl : 2 ≤ bits.length) :
    decode c (.token bits) =
      decodeFirstToken c.cfg.order (fieldValue c.cfg.order (bits.take 2)) (bits.drop 2) := by
  obtain ⟨cfg, busy, side, width, next⟩ := c
  cases hs
  exact if_neg (Nat.not_lt.mpr hl)

/-- A token of the loop with its marker present is decoded by the value of the marker (30_encoding.md R95). -/
theorem decode_token_loop {c : DecodeCtx} {bits : List Bool} (hs : c.side = .loop) (hl : c.width ≤ bits.length) :
    decode c (.token bits) =
      decodeLoopToken c.cfg.order c.next (fieldValue c.cfg.order (bits.take c.width)) (bits.drop c.width) := by
  obtain ⟨cfg, busy, side, width, next⟩ := c
  cases hs
  exact if_neg (Nat.not_lt.mpr hl)

/-- What running a token read by DECOMPRESS leaves: the loop goes on, or Run returns. -/
theorem decAdvance {s t u : State} (h : Inv s) (hb : s.status = .busy) (hd : DecInv s) (ht : DecInv t)
    (ft : EngFrame s t) (hl : 1 < s.turnsLeft) (hless : 2 + (6 * t.src.ndata - t.src.bcnt) / 2 < s.turnsLeft)
    (fu : DecFrame (t.setStage .decLoop) u) (hr : ResultInv u) (hi : LoopInv u.cfg.dictCap u.dec) : Advance s u := by
  have _ := hd; have _ := hl
  have f : EngFrame s u := (ft.trans (EngFrame.setStage t _)).trans fu.eng
  have hst : u.stage = .decLoop := by rw [fu]; rfl
  refine ⟨h.eng hb f (by rw [hst]; simp) (n := u.dec.resLen) hr.filled hr.resLen ?_, f, ?_⟩
  · rw [hst]; exact ⟨(ht.setStage .decLoop).decFrame fu hr, hi⟩
  · rw [turnsLeft_decLoop hst]
    have : u.src = t.src := by rw [fu]; rfl
    rw [this]; exact hless

/-- DECOMPRESS's token reads: every outcome but the token's own. -/
theorem runToken_read {s : State} {w : Nat} (h : Inv s) (hb : s.status = .busy) (hd : DecInv s)
    (hl : s.turnsLeft = 2 + (6 * s.src.ndata - s.src.bcnt) / 2) (hw : 2 ≤ w) :
    (∃ t, runToken w s = .next t ∧ Advance s t) ∨
      ∃ bits t, SourceFrame s t ∧ DecInv t ∧ EngFrame s t ∧
        2 + (6 * t.src.ndata - t.src.bcnt) / 2 < s.turnsLeft ∧ t.dec = s.dec ∧ t.src.ndata = s.src.ndata ∧
        bits.length = w + payloadLength (markerOf s.cfg.order w bits) ∧
        runToken w s = match decode s.decodeCtx (.token bits) with
          | .ok i => exec i (t.setStage .decLoop)
          | .error _ => .fault .undecodable := by
  unfold runToken
  rcases readToken_cases w hd.src with ⟨bits, t, hx, hf, hi, hn, hlen, hc⟩ | ⟨t, hx, hf, hn⟩
  · right
    refine ⟨bits, t, hf, hd.sourceFrame hf hi, hf.eng, ?_, by rw [hf]; rfl, hn, hlen, by simp only [hx] <;> rfl⟩
    rw [hl, hn]
    have h1 := hi.bcnt
    have h2 := hi.idx
    rw [hn] at h2
    omega
  · left
    have ht : DecInv s := hd
    have h1 : t.outBuf = s.outBuf := by rw [hf]; rfl
    have h2 : t.cfg = s.cfg := by rw [hf]; rfl
    refine ⟨_, by simp only [hx], Advance.raised (e := .truncated (6 * s.src.ndata)) h hb hf.eng (n := s.dec.resLen)
      (by rw [h1]; exact hd.filled) (by rw [h2]; exact hd.resLen) ⟨by rw [hf]; exact hd.op, by rw [hn], ?_⟩ (by omega)⟩
    have h3 := h.host.cfg.1.2
    have h4 := hd.fits
    have h5 := hd.src.ndata
    omega

theorem turn_decFirst {s : State} (h : Inv s) (hb : s.status = .busy) (hs : s.stage = .decFirst) :
    ∃ t, runToken 2 s = .next t ∧ Advance s t := by
  have hr := h.run
  rw [hs] at hr
  obtain ⟨hd, hn, hwd, hen, hdict, hres⟩ := hr
  have hl := turnsLeft_decFirst hs
  rcases runToken_read h hb hd hl (Nat.le_refl 2) with hx | ⟨bits, t, hf, ht, ft, hless, hdec, hnd, hlen, hx⟩
  · exact hx
  · rw [hx]
    have ho : t.outBuf.filled 0 := by have := ht.filled; rw [hdec, hres] at this; exact this
    have hcfg : t.cfg = s.cfg := ft.cfg
    have hctx : s.decodeCtx = { cfg := s.cfg, busy := s.busy, side := .first, width := 2, next := s.dec.next } := by
      unfold State.decodeCtx; rw [hs]
    rw [hctx]
    rw [decode_token_first rfl (by omega)]
    dsimp only
    unfold decodeFirstToken
    have hpay : (bits.drop 2).length = payloadLength (fieldValue s.cfg.order (bits.take 2)) := by
      rw [List.length_drop]; unfold markerOf at hlen; omega
    rw [if_neg (by rw [hpay]; simp)]
    have hseed : ∀ c : CodeUnit, ∃ u, (seed c (t.setStage .decLoop)).outcome = .next u ∧ Advance s u := by
      intro c
      obtain ⟨u, h1, h2, h3, h4⟩ := seed_ok c (s := t.setStage .decLoop) (by rw [setStage_cfg, hcfg]; exact h.host.cfg)
        (by rw [setStage_dec, hdec]; exact hn) (by rw [setStage_dec, hdec]; exact hwd)
        (by rw [setStage_dec, hdec]; exact hen) (by rw [setStage_dec, hdec]; exact hdict)
        (by rw [setStage_dec, hdec]; exact hres) ho
      exact ⟨u, by rw [h1]; rfl, decAdvance h hb hd ht ft (by omega) hless h2 h3 h4⟩
    generalize fieldValue s.cfg.order (bits.take 2) = v
    by_cases h0 : v = 0
    · rw [if_pos h0]; exact hseed _
    · by_cases h1 : v = 1
      · rw [if_neg h0, if_pos h1]; exact hseed _
      · by_cases h2 : v = 2
        · rw [if_neg h0, if_neg h1, if_pos h2]
          exact ⟨_, rfl, Advance.finished h hb (ft.trans (EngFrame.setStage t _))
            (by show t.outBuf.filled 0; exact ho) (Nat.zero_le _) (by omega)⟩
        · rw [if_neg h0, if_neg h1, if_neg h2]
          exact ⟨_, rfl, Advance.raised (e := .dictCorrupt 3) h hb (ft.trans (EngFrame.setStage t .decLoop))
            (by show t.outBuf.filled 0; exact ho) (Nat.zero_le _) ⟨ht.op, by decide, by decide⟩ (by omega)⟩

theorem turn_decLoop {s : State} (h : Inv s) (hb : s.status = .busy) (hs : s.stage = .decLoop) :
    ∃ t, runToken s.dec.width s = .next t ∧ Advance s t := by
  have hr := h.run
  rw [hs] at hr
  obtain ⟨hd, hi⟩ := hr
  have hl := turnsLeft_decLoop hs
  rcases runToken_read h hb hd hl hi.width.width_ge with hx | ⟨bits, t, hf, ht, ft, hless, hdec, hnd, hlen, hx⟩
  · exact hx
  · rw [hx]
    have hcfg : t.cfg = s.cfg := ft.cfg
    have hctx : s.decodeCtx = { cfg := s.cfg, busy := s.busy, side := .loop, width := s.dec.width, next := s.dec.next } := by
      unfold State.decodeCtx; rw [hs]
    rw [hctx]
    rw [decode_token_loop rfl (by show s.dec.width ≤ _; omega)]
    dsimp only
    unfold decodeLoopToken
    have hpay : (bits.drop s.dec.width).length = payloadLength (fieldValue s.cfg.order (bits.take s.dec.width)) := by
      rw [List.length_drop]; unfold markerOf at hlen; omega
    rw [if_neg (by rw [hpay]; simp)]
    have hvlt : fieldValue s.cfg.order (bits.take s.dec.width) < 2 ^ 25 := by
      have h1 := fieldValue_lt s.cfg.order (bits.take s.dec.width)
      rw [List.length_take, Nat.min_eq_left (by omega)] at h1
      have h2 := hi.width.width_le (Nat.le_trans hi.next_le h.host.cfg.2.2.2)
      exact Nat.lt_of_lt_of_le h1 (Nat.pow_le_pow_right (by norm_num) h2)
    generalize fieldValue s.cfg.order (bits.take s.dec.width) = v at hvlt
    have hloop : LoopInv (t.setStage .decLoop).cfg.dictCap (t.setStage .decLoop).dec := by
      rw [setStage_cfg, setStage_dec, hcfg, hdec]; exact hi
    have hres : ResultInv (t.setStage .decLoop) := (ht.setStage _).result
    have fstage := ft.trans (EngFrame.setStage t .decLoop)
    have hlit : ∀ c : CodeUnit, ∃ u, (loopLiteral c (t.setStage .decLoop)).outcome = .next u ∧ Advance s u := by
      intro c
      rcases loopLiteral_cases c hres hloop with ⟨u, h1, h2, h3, h4⟩ | ⟨r, u, h1, h2, h3, h4⟩
      · exact ⟨u, by rw [h1]; rfl, decAdvance h hb hd ht ft (by omega) hless h2 h3 h4⟩
      · refine ⟨_, by rw [h1]; rfl, Advance.raised h hb (fstage.trans h2.eng) h3.filled h3.resLen ?_ (by omega)⟩
        cases r <;> trivial
    have htail : ∀ k, 3 ≤ k → k ≤ s.dec.next → ∃ u, (tail k (t.setStage .decLoop)).outcome = .next u ∧ Advance s u := by
      intro k h3 hk
      rcases tail_cases hres hloop h3 (by rw [setStage_dec, hdec]; exact hk) with
        ⟨u, h1, h2, h3, h4, -⟩ | ⟨r, u, h1, h2, h3, h4⟩
      · exact ⟨u, by rw [h1]; rfl, decAdvance h hb hd ht ft (by omega) hless h2 h3 h4⟩
      · refine ⟨_, by rw [h1]; rfl, Advance.raised h hb (fstage.trans h2.eng) h3.filled h3.resLen ?_ (by omega)⟩
        cases r <;> trivial
    by_cases h0 : v = 0
    · rw [if_pos h0]; exact hlit _
    · by_cases h1 : v = 1
      · rw [if_neg h0, if_pos h1]; exact hlit _
      · by_cases h2 : v = 2
        · rw [if_neg h0, if_neg h1, if_pos h2]
          exact ⟨_, rfl, Advance.finished h hb fstage hres.filled hres.resLen (by omega)⟩
        · by_cases h3 : v < s.dec.next
          · rw [if_neg h0, if_neg h1, if_neg h2, if_pos h3]
            exact htail _ (by omega) (by omega)
          · by_cases h4 : v = s.dec.next
            · rw [if_neg h0, if_neg h1, if_neg h2, if_neg h3, if_pos h4]
              exact htail _ (by omega) (by omega)
            · rw [if_neg h0, if_neg h1, if_neg h2, if_neg h3, if_neg h4]
              exact ⟨_, rfl, Advance.raised (e := .dictCorrupt v) h hb fstage hres.filled hres.resLen
                ⟨ht.op, by omega, hvlt⟩ (by omega)⟩

/-! ### The completion step -/

theorem turn_complete {s : State} (h : Inv s) {r : RunResult} (hs : s.stage = .complete r) :
    Inv (s.completion r) ∧ (s.completion r).status ≠ .busy := by
  have hr := h.run
  rw [hs] at hr
  obtain ⟨hcfg, _, _, _, _, _, _, h1, h2, _, _, _, _⟩ := h.host
  cases r with
  | ok m =>
    obtain ⟨ho, hm⟩ := hr
    have hcap := hcfg.2.1.2
    have hm' : (BitVec.ofNat 32 m).toNat = m := by
      rw [BitVec.toNat_ofNat]; apply Nat.mod_eq_of_lt
      have : (2:Nat) ^ 18 < 2 ^ 32 := by norm_num
      omega
    refine ⟨⟨⟨hcfg, ?_, ?_, ?_, ?_, ?_, ?_, h1, h2, ?_, ?_, ?_, ?_⟩, trivial⟩, by simp [State.completion]⟩
    · simp [State.completion]
    · simp [State.completion]
    · simp [State.completion]
    · simp [State.completion]
    · simp [State.completion]
    · intro _
      refine ⟨rfl, ?_, ?_⟩
      · show s.outBuf.filled (BitVec.ofNat 32 m).toNat; rw [hm']; exact ho
      · show (BitVec.ofNat 32 m).toNat ≤ s.cfg.outCap; rw [hm']; exact hm
    · exact Memory.filled_wf ho
    · exact fun e he => Nat.lt_of_lt_of_le (Memory.filled_below ho e he) hm
    · simp [State.completion]
    · simp [State.completion]
  | err e =>
    refine ⟨⟨⟨hcfg, ?_, ?_, ?_, ?_, ?_, ?_, h1, h2, ?_, ?_, ?_, ?_⟩, trivial⟩, by simp [State.completion, State.enterError]⟩
    · simp [State.completion, State.enterError]
    · simp [State.completion, State.enterError]
    · cases e <;> simp [State.completion, State.enterError, OpError.code]
    · simp [State.completion, State.enterError]
    · simp [State.completion, State.enterError]
    · simp [State.completion, State.enterError]
    · exact List.Pairwise.nil
    · exact fun e he => absurd he List.not_mem_nil
    · simp [State.completion, State.enterError]
    · simp [State.completion, State.enterError]

end Sys2Proof.Machine
end

