-- ==== Sys2Proof/Laws/HostSide.lean ====
section
/-! SUPPORT. What a bus access can do to the block, said once; the invariant along each of its effects, along reset
and along the bookkeeping of a step. -/

namespace Sys2Proof.Machine

open Sys2Proof

/-- Everything a bus access can do (44_host_interface.md sections 2 and 3, 20_memory.md R63, R66): answer; and while
STATE is not BUSY write the latches, start an operation, report ILLEGAL_CMD, write IN_LEN or write one element of IN. -/
inductive HostEffect (s : State) : State → Prop
  | answer (r : Response) : HostEffect s (s.respond r)
  | mode (hb : s.busy = false) (op : Op) (al : Alphabet) : HostEffect s ((s.setMode op al).respond .ack)
  | start (hb : s.busy = false) (op : Op) (al : Alphabet) : HostEffect s ((s.startOp op al).respond .ack)
  | illegal (hb : s.busy = false) (v : Word) : HostEffect s ((s.enterError .illegalCmd v).respond .ack)
  | inLen (hb : s.busy = false) (v : Word) : HostEffect s ((s.setInLen v).respond .ack)
  | inElem (hb : s.busy = false) (k : Nat) (hk : k < s.cfg.inCap) (u : CodeUnit) :
      HostEffect s ((s.setIn (s.inBuf.write k u)).respond .ack)

/-- A read-only register answers and nothing else. -/
theorem readOnly_eq (v : Word) (a : AccessKind) (s : State) : ∃ r, s.readOnly v a = s.respond r := by
  cases a
  · exact ⟨_, rfl⟩
  · exact ⟨_, rfl⟩

theorem writeUnlessBusy_busy {s : State} (hb : s.busy = true) (f : State → State) :
    s.writeUnlessBusy f = s.respond .ack := by unfold State.writeUnlessBusy; rw [if_pos hb]

theorem writeUnlessBusy_free {s : State} (hb : s.busy = false) (f : State → State) :
    s.writeUnlessBusy f = (f s).respond .ack := by unfold State.writeUnlessBusy; rw [hb]; rfl

/-- A write that BUSY turns away does its effect otherwise. -/
theorem HostEffect.unlessBusy {s : State} {f : State → State}
    (h : s.busy = false → HostEffect s ((f s).respond .ack)) : HostEffect s (s.writeUnlessBusy f) := by
  cases hb : s.busy
  · rw [writeUnlessBusy_free hb]; exact h hb
  · rw [writeUnlessBusy_busy hb]; exact .answer .ack

theorem HostEffect.readOnly (v : Word) (a : AccessKind) (s : State) : HostEffect s (s.readOnly v a) := by
  obtain ⟨r, hr⟩ := readOnly_eq v a s
  rw [hr]; exact .answer r

/-- A write of CTRL (44_host_interface.md section 2). -/
theorem writeCtrl_effect (v : Word) (s : State) : ∃ t, writeCtrl v s = .next t ∧ HostEffect s t := by
  unfold writeCtrl
  split
  · exact ⟨_, rfl, .answer _⟩
  · exact ⟨_, rfl, .unlessBusy fun h => .mode h _ _⟩
  · exact ⟨_, rfl, .unlessBusy fun h => .start h _ _⟩
  · exact ⟨_, rfl, .unlessBusy fun h => .start h _ _⟩
  · exact ⟨_, rfl, .unlessBusy fun h => .start h _ _⟩
  · exact ⟨_, rfl, .unlessBusy fun h => .start h _ _⟩
  · exact ⟨_, rfl, .unlessBusy fun h => .illegal h _⟩

/-- A register access. -/
theorem decodeRegister_effect (i : Nat) (a : AccessKind) (s : State) :
    ∃ t, exec (decodeRegister i a) s = .next t ∧ HostEffect s t := by
  unfold decodeRegister
  split
  · exact ⟨_, rfl, .answer _⟩
  · exact writeCtrl_effect _ s
  · exact ⟨_, rfl, .readOnly _ _ s⟩
  · cases a
    · exact ⟨_, rfl, .answer _⟩
    · exact ⟨_, rfl, .unlessBusy fun h => .inLen h _⟩
  · exact ⟨_, rfl, .readOnly _ _ s⟩
  · exact ⟨_, rfl, .readOnly _ _ s⟩
  · exact ⟨_, rfl, .readOnly _ _ s⟩
  · exact ⟨_, rfl, .readOnly _ _ s⟩
  · exact ⟨_, rfl, .readOnly _ _ s⟩
  · exact ⟨_, rfl, .readOnly _ _ s⟩
  · exact ⟨_, rfl, .readOnly _ _ s⟩

/-- Every bus access completes (20_memory.md R66), with one of the effects above. -/
theorem access_effect (b : BusAccess) (s : State) :
    ∃ t, exec (decodeAccess s.cfg b) s = .next t ∧ HostEffect s t := by
  have hill : ∀ off w a, ∃ t, exec (.busIllegal off w a) s = .next t ∧ HostEffect s t :=
    fun _ _ _ => ⟨_, rfl, .answer _⟩
  unfold decodeAccess
  dsimp only
  split
  · split
    · exact decodeRegister_effect _ _ s
    · split
      · exact hill _ _ _
      · split
        · split
          · show ∃ t, execRwIn _ _ s = .next t ∧ _
            unfold execRwIn
            split
            · split
              · exact ⟨_, rfl, .answer _⟩
              · exact ⟨_, rfl, .unlessBusy fun h => .inElem h _ ‹_› _⟩
            · exact ⟨_, rfl, .answer _⟩
          · exact hill _ _ _
        · split
          · split
            · show ∃ t, execRdOut _ _ s = .next t ∧ _
              unfold execRdOut
              split
              · exact ⟨_, rfl, .readOnly _ _ s⟩
              · exact ⟨_, rfl, .answer _⟩
            · exact hill _ _ _
          · exact hill _ _ _
  · exact hill _ _ _

/-- All that a read can see of a state (44_host_interface.md R229 to R233, R240). -/
structure SameReads (s t : State) : Prop where
  cfg      : t.cfg = s.cfg
  ctrlOp   : t.ctrlOp = s.ctrlOp
  ctrlAlph : t.ctrlAlph = s.ctrlAlph
  status   : t.status = s.status
  err      : t.err = s.err
  inLen    : t.inLen = s.inLen
  inBuf    : t.inBuf = s.inBuf
  resets   : t.resets = s.resets
  freeCtr  : t.freeCtr = s.freeCtr
  /-- the result, unless it is still to come (20_memory.md R71) -/
  result   : s.status ≠ .busy → t.outLen = s.outLen ∧ t.errInfo = s.errInfo ∧ t.outBuf = s.outBuf

theorem SameReads.refl (s : State) : SameReads s s :=
  ⟨rfl, rfl, rfl, rfl, rfl, rfl, rfl, rfl, rfl, fun _ => ⟨rfl, rfl, rfl⟩⟩

theorem SameReads.trans {s t u : State} (h₁ : SameReads s t) (h₂ : SameReads t u) : SameReads s u where
  cfg := h₂.cfg.trans h₁.cfg
  ctrlOp := h₂.ctrlOp.trans h₁.ctrlOp
  ctrlAlph := h₂.ctrlAlph.trans h₁.ctrlAlph
  status := h₂.status.trans h₁.status
  err := h₂.err.trans h₁.err
  inLen := h₂.inLen.trans h₁.inLen
  inBuf := h₂.inBuf.trans h₁.inBuf
  resets := h₂.resets.trans h₁.resets
  freeCtr := h₂.freeCtr.trans h₁.freeCtr
  result := fun h =>
    have a := h₁.result h
    have b := h₂.result (h₁.status ▸ h)
    ⟨b.1.trans a.1, b.2.1.trans a.2.1, b.2.2.trans a.2.2⟩

/-- A read changes nothing but the response port (20_memory.md R70), and two states that look the same answer it
alike. -/
theorem read_same {s t : State} (h : SameReads s t) {b : BusAccess} (hb : b.kind = .read) :
    ∃ r, exec (decodeAccess s.cfg b) s = .next (s.respond r) ∧
      exec (decodeAccess s.cfg b) t = .next (t.respond r) := by
  obtain ⟨h1, h2, h3, h4, h5, h6, h7, h8, h9, h10⟩ := h
  have hbusy : t.busy = s.busy := by unfold State.busy; rw [h4]
  have hlen : t.outLenValue = s.outLenValue := by
    unfold State.outLenValue
    rw [hbusy, h9]
    cases hs : s.busy
    · rw [(h10 ((not_busy_iff s).mp hs)).1]
    · rfl
  have hinfo : t.errInfoValue = s.errInfoValue := by
    unfold State.errInfoValue
    rw [hbusy, h9]
    cases hs : s.busy
    · rw [(h10 ((not_busy_iff s).mp hs)).2.1]
    · rfl
  have hin : ∀ k, t.inElem k = s.inElem k := fun k => by unfold State.inElem; rw [h7, h8]
  have hout : ∀ k, t.outElem k = s.outElem k := fun k => by
    unfold State.outElem
    rw [h4, h9]
    by_cases hs : s.status = .busy
    · rw [if_neg (by simp [hs]), if_neg (by simp [hs])]
    · rw [(h10 hs).1, (h10 hs).2.2]
  have hreg : ∀ i, ∃ r, exec (decodeRegister i .read) s = .next (s.respond r) ∧
      exec (decodeRegister i .read) t = .next (t.respond r) := by
    intro i
    unfold decodeRegister
    split
    · exact ⟨.data s.ctrlWord, rfl, by simp only [State.ctrlWord, ← h2, ← h3]; rfl⟩
    · rename_i hc; cases hc
    · exact ⟨.data s.statusWord, rfl, by simp only [State.statusWord, ← h4, ← h5]; rfl⟩
    · exact ⟨.data s.inLen, rfl, by rw [← h6]; rfl⟩
    · exact ⟨.data s.outLenValue, rfl, by rw [← hlen]; rfl⟩
    · exact ⟨.data s.errInfoValue, rfl, by rw [← hinfo]; rfl⟩
    · exact ⟨.data s.configWord, rfl, by simp only [State.configWord, ← h1]; rfl⟩
    · exact ⟨.data (BitVec.ofNat 32 s.cfg.inCap), rfl, by rw [← h1]; rfl⟩
    · exact ⟨.data (BitVec.ofNat 32 s.cfg.outCap), rfl, by rw [← h1]; rfl⟩
    · exact ⟨.data (BitVec.ofNat 32 s.cfg.dictCap), rfl, by rw [← h1]; rfl⟩
    · exact ⟨.data 0, rfl, rfl⟩
  have hill : ∀ off w a, ∃ r, exec (.busIllegal off w a) s = .next (s.respond r) ∧
      exec (.busIllegal off w a) t = .next (t.respond r) := fun _ _ _ => ⟨.busError, rfl, rfl⟩
  have helem : ∀ k, (∃ r, exec (.rwIn k .read) s = .next (s.respond r) ∧ exec (.rwIn k .read) t = .next (t.respond r)) ∧
      ∃ r, exec (.rdOut k .read) s = .next (s.respond r) ∧ exec (.rdOut k .read) t = .next (t.respond r) := by
    intro k
    refine ⟨?_, ?_⟩
    · show ∃ r, execRwIn k .read s = _ ∧ execRwIn k .read t = _
      unfold execRwIn
      rw [h1, hin]
      split
      · exact ⟨_, rfl, rfl⟩
      · exact ⟨_, rfl, rfl⟩
    · show ∃ r, execRdOut k .read s = _ ∧ execRdOut k .read t = _
      unfold execRdOut
      rw [h1, hout]
      split
      · exact ⟨_, rfl, rfl⟩
      · exact ⟨_, rfl, rfl⟩
  unfold decodeAccess
  rw [hb]
  dsimp only
  split
  · split
    · exact hreg _
    · split
      · exact hill _ _ _
      · split
        · split
          · exact (helem _).1
          · exact hill _ _ _
        · split
          · split
            · exact (helem _).2
            · exact hill _ _ _
          · exact hill _ _ _
  · exact hill _ _ _

/-- An access that decodes to the illegal one is illegal in the sense of 20_memory.md R62. -/
theorem accessLegal_of_illegal {p : Params} {b : BusAccess} {off : Word} {w : AccessWidth} {a : AccessKind}
    (h : decodeAccess p b = .busIllegal off w a) : accessLegal p (b.addr - p.baseAddr).toNat b.width = false := by
  have hreg : ∀ i k, decodeRegister i k ≠ .busIllegal off w a := by
    intro i k; unfold decodeRegister; split <;> simp
  unfold decodeAccess at h
  dsimp only at h
  generalize (b.addr - p.baseAddr).toNat = n at h ⊢
  by_contra hl
  simp only [Bool.not_eq_false, accessLegal, Bool.and_eq_true, Bool.or_eq_true, beq_iff_eq, decide_eq_true_eq] at hl
  obtain ⟨⟨hw, hm⟩, hr⟩ := hl
  rw [if_pos ⟨hw, hm⟩] at h
  rcases hr with (hr | hr) | hr
  · rw [if_pos hr] at h; exact hreg _ _ h
  · rw [if_neg (by omega), if_neg (by omega), if_pos (by omega), if_pos (by omega)] at h; cases h
  · rw [if_neg (by omega), if_neg (by omega), if_neg (by omega), if_pos (by omega), if_pos (by omega)] at h; cases h

/-! ### The counter of the free values -/

/-- While the engine is not busy, an event that writes nothing leaves the unspecified values as they are
(20_memory.md R70). -/
theorem nextFree_quiet {s : State} {e : Event} (hb : s.busy = false) (he : s.writesNothing e = true) :
    s.nextFree e = s.freeCtr := by unfold State.nextFree; rw [if_pos ⟨hb, he⟩]

/-- While the engine is busy, every event gives new unspecified values. -/
theorem nextFree_busy {s : State} (hb : s.busy = true) (e : Event) : s.nextFree e = s.freeCtr + 1 := by
  unfold State.nextFree; rw [if_neg (by simp [hb])]

@[simp] theorem writesNothing_engine (s : State) : s.writesNothing .engine = true := rfl

@[simp] theorem writesNothing_reset (s : State) : s.writesNothing .reset = false := rfl

theorem writesNothing_read {a : BusAccess} (h : a.kind = .read) (s : State) : s.writesNothing (.access a) = true := by
  simp [State.writesNothing, h]

theorem writesNothing_illegal {s : State} {a : BusAccess} {off : Word} {w : AccessWidth} {k : AccessKind}
    (h : decodeAccess s.cfg a = .busIllegal off w k) : s.writesNothing (.access a) = true := by
  show (a.kind == .read || !accessLegal _ _ _) = true
  rw [accessLegal_of_illegal h]; exact Bool.or_true _

/-! ### The invariant along the host's side -/

/-- The invariant does not depend on the response port, the waiting inputs or the event counter. -/
theorem Inv.respond {s : State} (h : Inv s) (r : Response) : Inv (s.respond r) := by
  obtain ⟨⟨h1, h2, h3, h4, h5, h6, h7, h8, h9, h10, h11, h12, h13⟩, hr⟩ := h
  refine ⟨⟨h1, h2, h3, h4, h5, h6, h7, h8, h9, h10, h11, h12, h13⟩, ?_⟩
  revert hr
  show StageInv s s.stage → StageInv (s.respond r) s.stage
  cases s.stage with
  | idle => exact id
  | start => exact id
  | encLoop => exact fun ⟨⟨a, b, c, d, ⟨k1, k2, k3, k4⟩, f⟩, g⟩ => ⟨⟨a, b, c, d, ⟨k1, k2, k3, k4⟩, f⟩, g⟩
  | encBreak _ => exact fun ⟨⟨a, b, c, d, ⟨k1, k2, k3, k4⟩, f⟩, g⟩ => ⟨⟨a, b, c, d, ⟨k1, k2, k3, k4⟩, f⟩, g⟩
  | encInsert _ => exact fun ⟨⟨a, b, c, d, ⟨k1, k2, k3, k4⟩, f⟩, g⟩ => ⟨⟨a, b, c, d, ⟨k1, k2, k3, k4⟩, f⟩, g⟩
  | encLast => exact fun ⟨⟨a, b, c, d, ⟨k1, k2, k3, k4⟩, f⟩, g⟩ => ⟨⟨a, b, c, d, ⟨k1, k2, k3, k4⟩, f⟩, g⟩
  | encEos => exact fun ⟨⟨a, b, c, d, ⟨k1, k2, k3, k4⟩, f⟩, g⟩ => ⟨⟨a, b, c, d, ⟨k1, k2, k3, k4⟩, f⟩, g⟩
  | decFirst => exact fun ⟨⟨a, b, c, ⟨k1, k2, k3, k4, k5, k6⟩, e, f⟩, g⟩ => ⟨⟨a, b, c, ⟨k1, k2, k3, k4, k5, k6⟩, e, f⟩, g⟩
  | decLoop => exact fun ⟨⟨a, b, c, ⟨k1, k2, k3, k4, k5, k6⟩, e, f⟩, g⟩ => ⟨⟨a, b, c, ⟨k1, k2, k3, k4, k5, k6⟩, e, f⟩, g⟩
  | complete r =>
    cases r with
    | ok m => exact id
    | err e => cases e with
      | resource r => cases r <;> exact id
      | _ => exact id

/-- The waiting inputs and the event counter of a step. -/
theorem Inv.inputs {s : State} (h : Inv s) (l : List Event) (n : Nat) :
    Inv { s with events := l, freeCtr := n } := by
  obtain ⟨⟨h1, h2, h3, h4, h5, h6, h7, h8, h9, h10, h11, h12, h13⟩, hr⟩ := h
  refine ⟨⟨h1, h2, h3, h4, h5, h6, h7, h8, h9, h10, h11, h12, h13⟩, ?_⟩
  revert hr
  show StageInv s s.stage → StageInv { s with events := l, freeCtr := n } s.stage
  cases s.stage with
  | idle => exact id
  | start => exact id
  | encLoop => exact fun ⟨⟨a, b, c, d, ⟨k1, k2, k3, k4⟩, f⟩, g⟩ => ⟨⟨a, b, c, d, ⟨k1, k2, k3, k4⟩, f⟩, g⟩
  | encBreak _ => exact fun ⟨⟨a, b, c, d, ⟨k1, k2, k3, k4⟩, f⟩, g⟩ => ⟨⟨a, b, c, d, ⟨k1, k2, k3, k4⟩, f⟩, g⟩
  | encInsert _ => exact fun ⟨⟨a, b, c, d, ⟨k1, k2, k3, k4⟩, f⟩, g⟩ => ⟨⟨a, b, c, d, ⟨k1, k2, k3, k4⟩, f⟩, g⟩
  | encLast => exact fun ⟨⟨a, b, c, d, ⟨k1, k2, k3, k4⟩, f⟩, g⟩ => ⟨⟨a, b, c, d, ⟨k1, k2, k3, k4⟩, f⟩, g⟩
  | encEos => exact fun ⟨⟨a, b, c, d, ⟨k1, k2, k3, k4⟩, f⟩, g⟩ => ⟨⟨a, b, c, d, ⟨k1, k2, k3, k4⟩, f⟩, g⟩
  | decFirst => exact fun ⟨⟨a, b, c, ⟨k1, k2, k3, k4, k5, k6⟩, e, f⟩, g⟩ => ⟨⟨a, b, c, ⟨k1, k2, k3, k4, k5, k6⟩, e, f⟩, g⟩
  | decLoop => exact fun ⟨⟨a, b, c, ⟨k1, k2, k3, k4, k5, k6⟩, e, f⟩, g⟩ => ⟨⟨a, b, c, ⟨k1, k2, k3, k4, k5, k6⟩, e, f⟩, g⟩
  | complete r =>
    cases r with
    | ok m => exact id
    | err e => cases e with
      | resource r => cases r <;> exact id
      | _ => exact id

/-- While STATE is not BUSY the engine stands nowhere, so only the host-visible part matters. -/
theorem Inv.ofHost {s : State} (h : HostInv s) (hs : s.status ≠ .busy) : Inv s := by
  refine ⟨h, ?_⟩
  rw [h.stage.mpr hs]; trivial

theorem Inv.setMode {s : State} (h : Inv s) (hb : s.busy = false) (op : Op) (al : Alphabet) : Inv (s.setMode op al) := by
  rw [not_busy_iff] at hb
  obtain ⟨⟨h1, h2, h3, h4, h5, h6, h7, h8, h9, h10, h11, h12, h13⟩, hr⟩ := h
  exact Inv.ofHost ⟨h1, h2, h3, h4, h5, h6, h7, h8, h9, h10, h11, fun hc => absurd hc hb, fun hc => absurd hc hb⟩ hb

theorem Inv.setInLen {s : State} (h : Inv s) (hb : s.busy = false) (v : Word) : Inv (s.setInLen v) := by
  rw [not_busy_iff] at hb
  obtain ⟨⟨h1, h2, h3, h4, h5, h6, h7, h8, h9, h10, h11, h12, h13⟩, hr⟩ := h
  exact Inv.ofHost ⟨h1, h2, h3, h4, h5, h6, h7, h8, h9, h10, h11, fun hc => absurd hc hb, fun hc => absurd hc hb⟩ hb

theorem Inv.setIn {s : State} (h : Inv s) (hb : s.busy = false) {k : Nat} (hk : k < s.cfg.inCap) (u : CodeUnit) :
    Inv (s.setIn (s.inBuf.write k u)) := by
  rw [not_busy_iff] at hb
  obtain ⟨⟨h1, h2, h3, h4, h5, h6, h7, h8, h9, h10, h11, h12, h13⟩, hr⟩ := h
  exact Inv.ofHost ⟨h1, h2, h3, h4, h5, h6, h7, Memory.wf_write _ h8 _ _, Memory.below_write _ _ _ _ h9 hk, h10, h11,
    fun hc => absurd hc hb, fun hc => absurd hc hb⟩ hb

theorem Inv.enterError {s : State} (h : Inv s) (hb : s.busy = false) {c : ErrCode} (hc : c ≠ .none) (w : Word) :
    Inv (s.enterError c w) := by
  rw [not_busy_iff] at hb
  obtain ⟨⟨h1, h2, h3, h4, h5, h6, h7, h8, h9, h10, h11, h12, h13⟩, hr⟩ := h
  have hp : s.phase ≠ .run := fun h => hb (h2.mp h)
  have hst : s.stage = .idle := h3.mpr hb
  refine Inv.ofHost ⟨h1, ?_, ?_, ?_, ?_, ?_, ?_, h8, h9, ?_, ?_, ?_, ?_⟩ (by simp)
  · simp [hp]
  · simp [hst]
  · simp [hc]
  · simp
  · simp
  · simp
  · exact List.Pairwise.nil
  · exact fun e he => absurd he List.not_mem_nil
  · simp
  · simp

theorem Inv.startOp {s : State} (h : Inv s) (op : Op) (al : Alphabet) : Inv (s.startOp op al) := by
  obtain ⟨⟨h1, h2, h3, h4, h5, h6, h7, h8, h9, h10, h11, h12, h13⟩, hr⟩ := h
  refine ⟨⟨h1, ?_, ?_, ?_, ?_, ?_, ?_, h8, h9, ?_, ?_, ?_, ?_⟩, ?_⟩
  · simp
  · simp
  · simp
  · simp
  · simp
  · simp
  · exact List.Pairwise.nil
  · exact fun e he => absurd he List.not_mem_nil
  · simp
  · simp
  · show StageInv _ .start; rfl

/-- A reset state meets the invariant whatever its parameters, counters and waiting inputs (70_reset_and_hazards.md
R280). -/
theorem Inv.resetWith {p : Params} (hp : p.wf) (n c : Nat) (l : List Event) : Inv (State.resetWith p n c l) := by
  refine Inv.ofHost ⟨hp, ?_, ?_, ?_, ?_, ?_, ?_, ?_, ?_, ?_, ?_, ?_, ?_⟩ (by simp [State.resetWith])
  · simp [State.resetWith]
  · simp [State.resetWith]
  · simp [State.resetWith]
  · simp [State.resetWith]
  · simp [State.resetWith]
  · simp [State.resetWith]
  · exact List.Pairwise.nil
  · exact fun e he => absurd he List.not_mem_nil
  · exact List.Pairwise.nil
  · exact fun e he => absurd he List.not_mem_nil
  · simp [State.resetWith]
  · simp [State.resetWith]

/-- Every effect of a bus access keeps the invariant. -/
theorem Inv.hostEffect {s t : State} (h : Inv s) (he : HostEffect s t) : Inv t := by
  cases he with
  | answer r => exact h.respond r
  | mode hb op al => exact (h.setMode hb op al).respond _
  | start hb op al => exact (h.startOp op al).respond _
  | illegal hb v => exact (h.enterError hb (by simp) v).respond _
  | inLen hb v => exact (h.setInLen hb v).respond _
  | inElem hb k hk u => exact (h.setIn hb hk u).respond _

/-! ### One turn and one step -/

/-- While STATE is not BUSY the engine has nothing to do (60_exceptions.md R269). -/
theorem engineTurn_free {s : State} (hb : s.busy = false) : engineTurn s = .next s := by
  unfold engineTurn; rw [hb]; rfl

/-- Everything a step can do: an access, a reset, a turn of the engine, or nothing. -/
theorem step_eq (s : State) :
    step s = match s.events with
      | .access a :: rest => exec (decodeAccess s.cfg a) (s.take (.access a) rest)
      | .reset :: rest => .next (s.take .reset rest).resetEvent
      | .engine :: rest => engineTurn (s.take .engine rest)
      | [] => if s.busy then engineTurn s.countEvent else .next s := by
  unfold step
  cases s.events with
  | nil => rfl
  | cons e rest => cases e <;> rfl

/-- All that a turn of a busy engine can do: the operation goes on, or it completes. -/
theorem engineTurn_busy {s : State} (h : Inv s) (hb : s.status = .busy) :
    ∃ t, engineTurn s = .next t ∧
      (Advance s t ∨ ∃ r, s.stage = .complete r ∧ t = s.completion r ∧ Inv t ∧ t.status ≠ .busy) := by
  have hb' : s.busy = true := (busy_iff s).mpr hb
  have lift : ∀ {x : Host.Outcome State Fault Refusal}, (∃ t, x = .next t ∧ Advance s t) →
      engineTurn s = x → ∃ t, engineTurn s = .next t ∧
        (Advance s t ∨ ∃ r, s.stage = .complete r ∧ t = s.completion r ∧ Inv t ∧ t.status ≠ .busy) := by
    rintro x ⟨t, h1, h2⟩ h3
    exact ⟨t, h3.trans h1, .inl h2⟩
  have heq : ∀ {g : Stage}, s.stage = g → engineTurn s = (match g with
      | .idle => .fault .noOperation
      | .start => (startRun s).outcome
      | .encLoop => (encHead s).outcome
      | .encBreak c => emitPhrase (.encInsert c) s
      | .encInsert c => (encAfterBreak c (s.setStage .encLoop)).outcome
      | .encLast => emitPhrase .encEos s
      | .encEos => exec .encEos s
      | .decFirst => runToken 2 s
      | .decLoop => runToken s.dec.width s
      | .complete r => .next (s.completion r)) := by
    intro g hg
    subst hg
    unfold engineTurn
    rw [if_pos hb'] <;> cases s.stage <;> rfl
  cases hs : s.stage with
  | idle => exact absurd hb (h.host.stage.mp hs)
  | start => exact hs ▸ lift (turn_start h hb hs) (heq hs)
  | encLoop => exact hs ▸ lift (turn_encHead h hb hs) (heq hs)
  | encBreak c => exact hs ▸ lift (turn_encBreak h hb hs) (heq hs)
  | encInsert c => exact hs ▸ lift (turn_encInsert h hb hs) (heq hs)
  | encLast => exact hs ▸ lift (turn_encLast h hb hs) (heq hs)
  | encEos => exact hs ▸ lift (turn_encEos h hb hs) (heq hs)
  | decFirst => exact hs ▸ lift (turn_decFirst h hb hs) (heq hs)
  | decLoop => exact hs ▸ lift (turn_decLoop h hb hs) (heq hs)
  | complete r =>
    obtain ⟨h1, h2⟩ := turn_complete h hs
    exact ⟨_, heq hs, .inr ⟨r, rfl, rfl, h1, h2⟩⟩

end Sys2Proof.Machine
end

