-- ==== Sys2Proof/Laws/PerInstr.lean ====
section
/-! SUPPORT. The form of every instruction's encoding: a command word, a bus access, or a token of the length
30_encoding.md R92 gives its kind. -/

namespace Sys2Proof.Laws.EncodingForm

open Sys2Proof

/-- The format of a row of spec/opcode_table.json; a token's with the length of its payload. -/
inductive Form where
  | ctrl
  | token (payload : Nat)
  | bus
deriving DecidableEq, Repr

/-- The format of an instruction's row. -/
def form : Instr → Form
  | .ctrlWriteBusy _ | .setmode _ _ | .compressB64 | .decompressB64 | .compressUri | .decompressUri
  | .ctrlIllegal _ => .ctrl
  | .encLit8 _ | .decFirstLit8 _ | .decLit8 _ => .token 8
  | .encLit16 _ | .decFirstLit16 _ | .decLit16 _ => .token 16
  | .encCode _ | .encEos | .decFirstEos | .decFirstCorrupt | .decEos | .decCodeKnown _ | .decCodeSelf _
  | .decCodeCorrupt _ => .token 0
  | .rdCtrl | .wrCtrl _ | .rwStatus _ | .rwInLen _ | .rdOutLen _ | .rdErrInfo _ | .rdConfig _ | .rdInCapR _
  | .rdOutCapR _ | .rdDictCapR _ | .rwReservedReg _ _ | .rwIn _ _ | .rdOut _ _ | .busIllegal _ _ _ => .bus

/-- An encoded instruction has a format. -/
def Fits (c : DecodeCtx) : Form → Encoded → Prop
  | .ctrl, e => ∃ v, e = .command v
  | .token p, e => ∃ bits, e = .token bits ∧ bits.length = c.tokenWidth + p
  | .bus, e => ∃ a, e = .access a

/-- A well-formed instruction is encoded in the format of its row. -/
def Statement (i : Instr) : Prop := ∀ c : DecodeCtx, i.wf c = true → Fits c (form i) (encode c i)

/-- A token at the width of its context. -/
theorem fits_token (c : DecodeCtx) (w t p n : Nat) (hw : c.tokenWidth = w) (hn : payloadLength t = n) :
    Fits c (.token n) (.token (tokenBits c.cfg.order w t p)) :=
  ⟨_, rfl, by rw [length_tokenBits, hw, hn]⟩

/-- The width of a token of the encoder or of the loop. -/
theorem tokenWidth_eq {c : DecodeCtx} (h : c.side = .enc ∨ c.side = .loop) : c.tokenWidth = c.width := by
  unfold DecodeCtx.tokenWidth
  rcases h with h | h <;> rw [h]

/-- The width of a first token. -/
theorem tokenWidth_first {c : DecodeCtx} (h : c.side = .first) : c.tokenWidth = 2 := by
  unfold DecodeCtx.tokenWidth; rw [h]

/-- A code of 3 or more has no payload (30_encoding.md R92). -/
theorem payloadLength_code {k : Nat} (h : 3 ≤ k) : payloadLength k = 0 := by
  unfold payloadLength; rw [if_neg (by omega), if_neg (by omega)]

theorem ctrlWriteBusy (v : Word) : Statement (.ctrlWriteBusy v) := fun _ _ => ⟨_, rfl⟩
theorem setmode (a : Alphabet) (o : Op) : Statement (.setmode a o) := fun _ _ => ⟨_, rfl⟩
theorem compressB64 : Statement .compressB64 := fun _ _ => ⟨_, rfl⟩
theorem decompressB64 : Statement .decompressB64 := fun _ _ => ⟨_, rfl⟩
theorem compressUri : Statement .compressUri := fun _ _ => ⟨_, rfl⟩
theorem decompressUri : Statement .decompressUri := fun _ _ => ⟨_, rfl⟩
theorem ctrlIllegal (v : Word) : Statement (.ctrlIllegal v) := fun _ _ => ⟨_, rfl⟩

theorem encLit8 (u : BitVec 8) : Statement (.encLit8 u) := fun c h => by
  simp only [Instr.wf, Bool.and_eq_true, beq_iff_eq] at h
  exact fits_token c _ _ _ _ (tokenWidth_eq (.inl h.1)) rfl

theorem encLit16 (u : BitVec 16) : Statement (.encLit16 u) := fun c h => by
  simp only [Instr.wf, Bool.and_eq_true, beq_iff_eq] at h
  exact fits_token c _ _ _ _ (tokenWidth_eq (.inl h.1.1)) rfl

theorem encCode (k : Nat) : Statement (.encCode k) := fun c h => by
  simp only [Instr.wf, Bool.and_eq_true, beq_iff_eq, decide_eq_true_eq] at h
  exact fits_token c _ _ _ _ (tokenWidth_eq (.inl h.1.1.1)) (payloadLength_code h.1.2)

theorem encEos : Statement .encEos := fun c h => by
  simp only [Instr.wf, Bool.and_eq_true, beq_iff_eq] at h
  exact fits_token c _ _ _ _ (tokenWidth_eq (.inl h.1)) rfl

theorem decFirstLit8 (u : BitVec 8) : Statement (.decFirstLit8 u) := fun c h => by
  simp only [Instr.wf, beq_iff_eq] at h
  exact fits_token c _ _ _ _ (tokenWidth_first h) rfl

theorem decFirstLit16 (u : BitVec 16) : Statement (.decFirstLit16 u) := fun c h => by
  simp only [Instr.wf, beq_iff_eq] at h
  exact fits_token c _ _ _ _ (tokenWidth_first h) rfl

theorem decFirstEos : Statement .decFirstEos := fun c h => by
  simp only [Instr.wf, beq_iff_eq] at h
  exact fits_token c _ _ _ _ (tokenWidth_first h) rfl

theorem decFirstCorrupt : Statement .decFirstCorrupt := fun c h => by
  simp only [Instr.wf, beq_iff_eq] at h
  exact fits_token c _ _ _ _ (tokenWidth_first h) rfl

theorem decLit8 (u : BitVec 8) : Statement (.decLit8 u) := fun c h => by
  simp only [Instr.wf, Bool.and_eq_true, beq_iff_eq] at h
  exact fits_token c _ _ _ _ (tokenWidth_eq (.inr h.1)) rfl

theorem decLit16 (u : BitVec 16) : Statement (.decLit16 u) := fun c h => by
  simp only [Instr.wf, Bool.and_eq_true, beq_iff_eq] at h
  exact fits_token c _ _ _ _ (tokenWidth_eq (.inr h.1)) rfl

theorem decEos : Statement .decEos := fun c h => by
  simp only [Instr.wf, Bool.and_eq_true, beq_iff_eq] at h
  exact fits_token c _ _ _ _ (tokenWidth_eq (.inr h.1)) rfl

theorem decCodeKnown (k : Nat) : Statement (.decCodeKnown k) := fun c h => by
  simp only [Instr.wf, Bool.and_eq_true, beq_iff_eq, decide_eq_true_eq] at h
  exact fits_token c _ _ _ _ (tokenWidth_eq (.inr h.1.1.1.1)) (payloadLength_code h.1.1.2)

theorem decCodeSelf (k : Nat) : Statement (.decCodeSelf k) := fun c h => by
  simp only [Instr.wf, Bool.and_eq_true, beq_iff_eq, decide_eq_true_eq] at h
  exact fits_token c _ _ _ _ (tokenWidth_eq (.inr h.1.1.1.1)) (payloadLength_code h.1.1.2)

theorem decCodeCorrupt (k : Nat) : Statement (.decCodeCorrupt k) := fun c h => by
  simp only [Instr.wf, Bool.and_eq_true, beq_iff_eq, decide_eq_true_eq] at h
  exact fits_token c _ _ _ _ (tokenWidth_eq (.inr h.1.1.1.1)) (payloadLength_code h.1.1.2)

theorem rdCtrl : Statement .rdCtrl := fun _ _ => ⟨_, rfl⟩
theorem wrCtrl (v : Word) : Statement (.wrCtrl v) := fun _ _ => ⟨_, rfl⟩
theorem rwStatus (a : AccessKind) : Statement (.rwStatus a) := fun _ _ => ⟨_, rfl⟩
theorem rwInLen (a : AccessKind) : Statement (.rwInLen a) := fun _ _ => ⟨_, rfl⟩
theorem rdOutLen (a : AccessKind) : Statement (.rdOutLen a) := fun _ _ => ⟨_, rfl⟩
theorem rdErrInfo (a : AccessKind) : Statement (.rdErrInfo a) := fun _ _ => ⟨_, rfl⟩
theorem rdConfig (a : AccessKind) : Statement (.rdConfig a) := fun _ _ => ⟨_, rfl⟩
theorem rdInCapR (a : AccessKind) : Statement (.rdInCapR a) := fun _ _ => ⟨_, rfl⟩
theorem rdOutCapR (a : AccessKind) : Statement (.rdOutCapR a) := fun _ _ => ⟨_, rfl⟩
theorem rdDictCapR (a : AccessKind) : Statement (.rdDictCapR a) := fun _ _ => ⟨_, rfl⟩
theorem rwReservedReg (i : BitVec 10) (a : AccessKind) : Statement (.rwReservedReg i a) := fun _ _ => ⟨_, rfl⟩
theorem rwIn (k : BitVec 18) (a : AccessKind) : Statement (.rwIn k a) := fun _ _ => ⟨_, rfl⟩
theorem rdOut (k : BitVec 18) (a : AccessKind) : Statement (.rdOut k a) := fun _ _ => ⟨_, rfl⟩
theorem busIllegal (o : Word) (w : AccessWidth) (a : AccessKind) : Statement (.busIllegal o w a) :=
  fun _ _ => ⟨_, rfl⟩

end Sys2Proof.Laws.EncodingForm
end

