-- ==== Sys2Proof/Laws/Stream.lean ====
section
/-! SUPPORT. The bitstream as a whole: what the sink has written and what the source still holds, as lists of bits. -/

namespace Sys2Proof.Machine

open Sys2Proof

/-! ### Bits of one group -/

/-- One more bit at the end of a field sent most significant bit first. -/
theorem fieldBits_msb_snoc (n v : Nat) (b : Bool) :
    fieldBits .msbFirst (n + 1) (2 * v + b.toNat) = fieldBits .msbFirst n v ++ [b] := by
  simp only [fieldBits, List.range_succ, List.map_append, List.map_cons, List.map_nil]
  congr 1
  · apply List.map_congr_left
    intro j hj
    have hj' : j < n := List.mem_range.mp hj
    rw [show n + 1 - 1 - j = (n - 1 - j) + 1 by omega, Nat.testBit_succ]
    congr 1
    cases b <;> simp only [Bool.toNat_true, Bool.toNat_false] <;> omega
  · rw [show n + 1 - 1 - n = 0 by omega, Nat.testBit_zero]
    cases b <;> simp

@[simp] theorem fieldBits_zero (o : TokenBitOrder) (v : Nat) : fieldBits o 0 v = [] := by cases o <;> rfl

@[simp] theorem pending_length (k : SinkRegs) : k.pending.length = k.pos := fieldBits_length _ _ _

/-! ### The sink -/

theorem Pushed.refl {s : State} (hp : s.sink.pos ≤ 5) : Pushed [] s s where
  outN := by simp only [List.length_nil]; omega
  pos := by simp only [List.length_nil]; omega
  pending := by
    simp only [List.length_nil, List.append_nil]
    rw [show 6 * ((s.sink.pos + 0) / 6) = 0 by omega]; rfl
  chars := fun j hj => absurd hj (by omega)
  rest := fun _ _ => rfl

/-- Pushing on. -/
theorem Pushed.trans {as bs : List Bool} {s t u : State} (h₁ : Pushed as s t) (h₂ : Pushed bs t u)
    (ha : t.alphl = s.alphl) : Pushed (as ++ bs) s u := by
  have hlen : (s.sink.pending ++ as).length = s.sink.pos + as.length := by simp
  have hn := h₁.outN
  have hp := h₁.pos
  have hu := h₂.outN
  have hq := h₂.pos
  have hdiv : (s.sink.pos + (as ++ bs).length) / 6 =
      (s.sink.pos + as.length) / 6 + (t.sink.pos + bs.length) / 6 := by
    rw [List.length_append, hp]; omega
  have hdrop : ∀ n, (s.sink.pending ++ (as ++ bs)).drop (6 * ((s.sink.pos + as.length) / 6 + n)) =
      (t.sink.pending ++ bs).drop (6 * n) := by
    intro n
    rw [h₁.pending, Nat.mul_add, ← List.drop_drop, ← List.append_assoc,
      List.drop_append_of_le_length (by rw [hlen]; omega)]
  refine ⟨?_, ?_, ?_, ?_, ?_⟩
  · rw [hu, hn, hdiv]; omega
  · rw [hq, hp, List.length_append]; omega
  · rw [h₂.pending, hdiv, hdrop]
  · intro j hj
    rcases lt_or_ge j ((s.sink.pos + as.length) / 6) with hlt | hge
    · rw [h₂.rest _ (.inl (by omega)), h₁.chars j (by omega)]
      rw [show s.sink.pending ++ (as ++ bs) = (s.sink.pending ++ as) ++ bs from (List.append_assoc _ _ _).symm,
        List.drop_append_of_le_length (l₁ := s.sink.pending ++ as) (by rw [hlen]; omega),
        List.take_append_of_le_length (by rw [List.length_drop, hlen]; omega)]
    · obtain ⟨i, rfl⟩ := Nat.exists_eq_add_of_le hge
      rw [hdrop, ← ha, ← h₂.chars i (by omega)]
      congr 1; omega
  · intro k hk
    rw [h₂.rest k (by omega), h₁.rest k (by omega)]

/-- One bit that completes no character. -/
theorem Pushed.shifted {s : State} (h : SinkInv s) (b : Bool) (hp : s.sink.pos ≠ 5) : Pushed [b] s (s.shifted b) where
  outN := by have := h.pos; simp only [shifted_outN, List.length_singleton]; omega
  pos := by have := h.pos; simp only [shifted_pos, List.length_singleton]; omega
  pending := by
    have h1 := h.pos
    have h2 := h.acc
    rw [List.length_singleton, show 6 * ((s.sink.pos + 1) / 6) = 0 by omega, List.drop_zero]
    have h3 : 2 ^ s.sink.pos ≤ 2 ^ 4 := Nat.pow_le_pow_right (by norm_num) (by omega)
    have h4 : b.toNat < 2 := Bool.toNat_lt b
    unfold SinkRegs.pending
    rw [shifted_pos, shifted_acc, shiftIn_toNat, Nat.mod_eq_of_lt (by omega), fieldBits_msb_snoc]
  chars := fun j hj => absurd hj (by simp only [shifted_outN]; omega)
  rest := fun _ _ => rfl

/-- One bit that completes a character. -/
theorem Pushed.pushed {s : State} (h : SinkInv s) (b : Bool) (hp : s.sink.pos = 5) : Pushed [b] s (s.pushed b) where
  outN := by simp only [pushed_outN, List.length_singleton]; omega
  pos := by simp only [pushed_pos, List.length_singleton]; omega
  pending := by
    rw [List.length_singleton, hp]
    unfold SinkRegs.pending
    rw [pushed_pos, fieldBits_zero, List.drop_eq_nil_of_le]
    simp [hp]
  chars := by
    intro j hj
    have hj0 : j = 0 := by simp only [pushed_outN] at hj; omega
    subst hj0
    have hwf : s.outBuf.wf := Memory.filled_wf h.filled
    have h2 := h.acc
    rw [hp] at h2
    show (s.outBuf.write s.sink.outN _).read? (s.sink.outN + 0) = _
    rw [Memory.read?_write _ hwf, Nat.add_zero, if_pos rfl, Nat.mul_zero, List.drop_zero]
    congr 2
    have hl : (s.sink.pending ++ [b]).length = 6 := by simp [hp]
    rw [List.take_of_length_le (by omega)]
    unfold SinkRegs.pending groupOf
    rw [hp, ← fieldBits_msb_snoc, fieldValue_fieldBits]
    apply BitVec.eq_of_toNat_eq
    rw [shiftIn_toNat, BitVec.toNat_ofNat]
    omega
  rest := by
    intro k hk
    have hwf : s.outBuf.wf := Memory.filled_wf h.filled
    show (s.outBuf.write s.sink.outN _).read? k = _
    rw [Memory.read?_write _ hwf, if_neg (by simp only [pushed_outN] at hk; omega)]

/-- All that pushing bits does where there is room (40_bitpack.md R121, R123, R125). -/
theorem pushBits_pushed (bs : List Bool) {s : State} (h : SinkInv s) (hr : s.sink.room bs.length s.cfg.outCap) :
    ∃ t, pushBits bs s = .ok () t ∧ SinkFrame s t ∧ SinkInv t ∧ Pushed bs s t := by
  unfold SinkRegs.room at hr
  induction bs generalizing s with
  | nil => exact ⟨s, rfl, rfl, h, Pushed.refl h.pos⟩
  | cons b bs ih =>
    simp only [List.length_cons] at hr
    have hpos := h.pos
    simp only [pushBits, pushBit_eq]
    split
    · rename_i h5
      rw [if_neg (by omega)]
      have hne : s.sink.outN ≠ s.cfg.outCap := by omega
      obtain ⟨t, h1, h2, h3, h4⟩ := ih (h.pushed b hne) (by
        simp only [pushed_outN, pushed_pos, pushed_cfg]; omega)
      exact ⟨t, h1, SinkFrame.trans (t := s.pushed b) rfl h2, h3, (Pushed.pushed h b h5).trans h4 rfl⟩
    · rename_i h5
      obtain ⟨t, h1, h2, h3, h4⟩ := ih (h.shifted b h5) (by
        simp only [shifted_outN, shifted_pos, shifted_cfg]; omega)
      exact ⟨t, h1, SinkFrame.trans (t := s.shifted b) rfl h2, h3, (Pushed.shifted h b h5).trans h4 rfl⟩

/-- Where there is no room, pushing bits raises RESOURCE(3) with OUT full (40_bitpack.md R125). -/
theorem pushBits_full (bs : List Bool) {s : State} (h : SinkInv s) (hr : ¬ s.sink.room bs.length s.cfg.outCap) :
    ∃ t, pushBits bs s = .raise (.resource .output) t ∧ SinkFrame s t ∧ t.sink.outN = t.cfg.outCap := by
  unfold SinkRegs.room at hr
  induction bs generalizing s with
  | nil =>
    have h1 := h.pos
    have h2 := h.outN
    simp only [List.length_nil] at hr
    omega
  | cons b bs ih =>
    simp only [List.length_cons] at hr
    have hpos := h.pos
    simp only [pushBits, pushBit_eq]
    split
    · rename_i h5
      split
      · rename_i hn; exact ⟨s, rfl, rfl, hn⟩
      · rename_i hn
        obtain ⟨t, h1, h2, h3⟩ := ih (h.pushed b hn) (by
          simp only [pushed_outN, pushed_pos, pushed_cfg]; omega)
        exact ⟨t, h1, SinkFrame.trans (t := s.pushed b) rfl h2, h3⟩
    · rename_i h5
      obtain ⟨t, h1, h2, h3⟩ := ih (h.shifted b h5) (by
        simp only [shifted_outN, shifted_pos, shifted_cfg]; omega)
      exact ⟨t, h1, SinkFrame.trans (t := s.shifted b) rfl h2, h3⟩

/-- Padding writes `n` times `=` from OUT_N on (41_alphabet.md R145). -/
theorem putPads_read (n : Nat) {s : State} (h : SinkInv s) (hr : s.sink.outN + n ≤ s.cfg.outCap) :
    ∃ t, putPads n s = .ok () t ∧ SinkFrame s t ∧ SinkInv t ∧ t.sink = { s.sink with outN := s.sink.outN + n } ∧
      ∀ k, t.outBuf.read? k =
        if s.sink.outN ≤ k ∧ k < s.sink.outN + n then some padChar else s.outBuf.read? k := by
  induction n generalizing s with
  | zero => exact ⟨s, rfl, rfl, h, rfl, fun k => by rw [if_neg (by omega)]⟩
  | succ n ih =>
    simp only [putPads, putRaw_eq]
    rw [if_neg (by omega)]
    obtain ⟨t, h1, h2, h3, h4, h5⟩ := ih (h.wrote padChar (by omega)) (by simp; omega)
    refine ⟨t, h1, SinkFrame.trans (t := s.wrote padChar) rfl h2, h3, ?_, ?_⟩
    · rw [h4]
      show SinkRegs.mk _ _ _ = SinkRegs.mk _ _ _
      simp only [State.wrote, setOut_sink, setSink_sink, SinkRegs.count, SinkRegs.mk.injEq, true_and]
      omega
    · intro k
      have hwf : s.outBuf.wf := Memory.filled_wf h.filled
      have hread : (s.wrote padChar).outBuf.read? k = if k = s.sink.outN then some padChar else s.outBuf.read? k :=
        Memory.read?_write _ hwf _ _ _
      rw [h5 k, hread, wrote_outN]
      by_cases hk : k = s.sink.outN
      · subst hk; rw [if_neg (by omega), if_pos rfl, if_pos (by omega)]
      · rw [if_neg hk]
        by_cases hc : s.sink.outN + 1 ≤ k ∧ k < s.sink.outN + 1 + n
        · rw [if_pos hc, if_pos (by omega)]
        · rw [if_neg hc, if_neg (by omega)]

/-! ### The source -/

/-- The bits of data character `k`. -/
def State.charBits (s : State) (k : Nat) : List Bool :=
  match unmapChar s.alphl (s.memRead k) with
  | some g => fieldBits .msbFirst 6 g.toNat
  | none => []

theorem streamBits_eq (s : State) : s.streamBits = (List.range s.src.ndata).flatMap s.charBits := rfl

theorem charBits_length {s : State} (h : SourceInv s) {k : Nat} (hk : k < s.src.ndata) : (s.charBits k).length = 6 := by
  unfold State.charBits
  split
  · simp
  · exact absurd ‹_› (h.chars k hk)

/-- A list of equal blocks. -/
theorem flatMap_range_length (f : Nat → List Bool) (n : Nat) (hf : ∀ k < n, (f k).length = 6) :
    ((List.range n).flatMap f).length = 6 * n := by
  induction n with
  | zero => rfl
  | succ n ih =>
    rw [List.range_succ, List.flatMap_append, List.length_append, ih fun k hk => hf k (by omega)]
    simp only [List.flatMap_cons, List.flatMap_nil, List.append_nil]
    rw [hf n (by omega)]; omega

/-- What follows the first `k` blocks begins with block `k`. -/
theorem flatMap_range_drop (f : Nat → List Bool) (n k : Nat) (hf : ∀ k < n, (f k).length = 6) (hk : k < n) :
    ∃ r, ((List.range n).flatMap f).drop (6 * k) = f k ++ r := by
  induction n with
  | zero => omega
  | succ n ih =>
    rw [List.range_succ, List.flatMap_append]
    have hl := flatMap_range_length f n fun k hk => hf k (by omega)
    rcases Nat.lt_succ_iff_lt_or_eq.mp hk with h | rfl
    · obtain ⟨r, hr⟩ := ih (fun k hk => hf k (by omega)) h
      exact ⟨_, by rw [List.drop_append_of_le_length (by omega), hr, List.append_assoc]⟩
    · refine ⟨[], ?_⟩
      rw [List.drop_append, hl, List.drop_eq_nil_of_le (by omega)]
      simp

theorem streamBits_length {s : State} (h : SourceInv s) : s.streamBits.length = 6 * s.src.ndata :=
  flatMap_range_length _ _ fun _ hk => charBits_length h hk

/-- How many bits are left. -/
theorem bitsLeft_length {s : State} (h : SourceInv s) : s.bitsLeft.length = 6 * s.src.ndata - s.src.bcnt := by
  unfold State.bitsLeft
  rw [List.length_drop, streamBits_length h]

/-- Moving the source does not change the stream. -/
theorem streamBits_frame {s t : State} (h : SourceFrame s t) (hn : t.src.ndata = s.src.ndata) :
    t.streamBits = s.streamBits := by
  unfold State.streamBits
  rw [hn, h]; rfl

/-- The bit of a group that is next where `r` of its bits are left. -/
theorem fieldBits_group (g : Group) (r : Nat) (h1 : 1 ≤ r) (h6 : r ≤ 6) :
    ((fieldBits .msbFirst 6 g.toNat).drop (6 - r)).head? = some (g.getLsbD (r - 1)) := by
  rw [List.head?_drop]
  simp only [fieldBits, List.getElem?_map]
  rw [List.getElem?_range (by omega)]
  simp only [Option.map_some]
  congr 1
  rw [show 6 - 1 - (6 - r) = r - 1 by omega]
  rfl

/-- ReadBit takes the first of the bits left (40_bitpack.md R129). -/
theorem readBit_left {s : State} (h : SourceInv s) {b : Bool} {r : List Bool} (hl : s.bitsLeft = b :: r) :
    ∃ t, readBit s = .ok b t ∧ SourceFrame s t ∧ SourceInv t ∧ t.src.ndata = s.src.ndata ∧
      t.src.bcnt = s.src.bcnt + 1 ∧ t.bitsLeft = r := by
  have hlen := bitsLeft_length h
  rw [hl, List.length_cons] at hlen
  rcases readBit_cases h with ⟨c, t, h1, h2, h3, h4, h5⟩ | ⟨_, h1⟩
  · have hrest : t.bitsLeft = r := by
      unfold State.bitsLeft
      rw [streamBits_frame h2 h4, h5, ← List.drop_drop]
      show (s.bitsLeft).drop 1 = r
      rw [hl]; rfl
    refine ⟨t, ?_, h2, h3, h4, h5, hrest⟩
    rw [h1]
    congr 1
    -- which bit it is
    have hhead : s.bitsLeft.head? = some b := by rw [hl]; rfl
    rw [readBit_eq] at h1
    have hb := h.bcnt
    split at h1
    · rename_i hrem
      split at h1
      · cases h1
      · rename_i hidx
        have hlt : s.src.idx < s.src.ndata := by have := h.idx; omega
        split at h1
        · cases h1
        · rename_i g hg
          cases h1
          obtain ⟨r', hr'⟩ := flatMap_range_drop s.charBits s.src.ndata s.src.idx
            (fun _ hk => charBits_length h hk) hlt
          have : s.bitsLeft = s.charBits s.src.idx ++ r' := by
            unfold State.bitsLeft; rw [streamBits_eq, show s.src.bcnt = 6 * s.src.idx by omega, hr']
          have hcb : s.charBits s.src.idx = fieldBits .msbFirst 6 g.toNat := by
            unfold State.charBits; rw [hg]
          rw [this, hcb, List.head?_append] at hhead
          have hg6 := fieldBits_group g 6 (by omega) (by omega)
          rw [show 6 - 6 = 0 by rfl, List.drop_zero] at hg6
          rw [hg6] at hhead
          exact Option.some.inj hhead
    · rename_i hrem
      cases h1
      have hr6 := h.rem
      have hidx := h.idx
      have hpos : 0 < s.src.idx := by omega
      obtain ⟨r', hr'⟩ := flatMap_range_drop s.charBits s.src.ndata (s.src.idx - 1)
        (fun _ hk => charBits_length h hk) (by omega)
      have hcb : s.charBits (s.src.idx - 1) = fieldBits .msbFirst 6 s.src.cur.toNat := by
        unfold State.charBits; rw [h.cur (Nat.pos_of_ne_zero hrem)]
      have : s.bitsLeft = (fieldBits .msbFirst 6 s.src.cur.toNat).drop (6 - s.src.rem) ++ r' := by
        unfold State.bitsLeft
        rw [streamBits_eq, show s.src.bcnt = 6 * (s.src.idx - 1) + (6 - s.src.rem) by omega, ← List.drop_drop, hr', hcb,
          List.drop_append_of_le_length (by simp)]
      rw [this, List.head?_append, fieldBits_group _ _ (Nat.pos_of_ne_zero hrem) hr6] at hhead
      exact Option.some.inj hhead
  · omega

/-- Taking `n` bits takes the first `n` of the bits left (40_bitpack.md R129, R130). -/
theorem readRaw_left (n : Nat) {s : State} (h : SourceInv s) (hn : n ≤ s.bitsLeft.length) :
    ∃ t, readRaw n s = .ok (s.bitsLeft.take n) t ∧ SourceFrame s t ∧ SourceInv t ∧ t.src.ndata = s.src.ndata ∧
      t.src.bcnt = s.src.bcnt + n ∧ t.bitsLeft = s.bitsLeft.drop n := by
  induction n generalizing s with
  | zero => exact ⟨s, rfl, rfl, h, rfl, rfl, rfl⟩
  | succ n ih =>
    match hl : s.bitsLeft with
    | [] => rw [hl, List.length_nil] at hn; omega
    | b :: r =>
      obtain ⟨t, h1, h2, h3, h4, h5, h6⟩ := readBit_left h hl
      rw [hl, List.length_cons] at hn
      obtain ⟨u, g1, g2, g3, g4, g5, g6⟩ := ih h3 (by rw [h6]; omega)
      refine ⟨u, ?_, h2.trans g2, g3, g4.trans h4, by omega, ?_⟩
      · simp only [readRaw, h1, Eng.bind_ok, g1, h6, List.take_succ_cons]
      · rw [g6, h6]; rfl

/-- With fewer than `n` bits left TRUNCATED is raised, all bits consumed (40_bitpack.md R129, R130). -/
theorem readRaw_short (n : Nat) {s : State} (h : SourceInv s) (hn : s.bitsLeft.length < n) :
    ∃ t, readRaw n s = .raise (.truncated (6 * s.src.ndata)) t ∧ SourceFrame s t ∧ t.src.ndata = s.src.ndata ∧
      t.src.bcnt = 6 * s.src.ndata := by
  induction n generalizing s with
  | zero => omega
  | succ n ih =>
    match hl : s.bitsLeft with
    | [] =>
      have hlen := bitsLeft_length h
      rw [hl, List.length_nil] at hlen
      rcases readBit_cases h with ⟨c, t, h1, h2, h3, h4, h5⟩ | ⟨h1, h2⟩
      · have := h3.bcnt; have := h3.idx; omega
      · exact ⟨s, by simp [readRaw, h1], rfl, rfl, h2⟩
    | b :: r =>
      obtain ⟨t, h1, h2, h3, h4, h5, h6⟩ := readBit_left h hl
      rw [hl, List.length_cons] at hn
      obtain ⟨u, g1, g2, g3, g4⟩ := ih h3 (by rw [h6]; omega)
      exact ⟨u, by simp [readRaw, h1, g1, h4], h2.trans g2, g3.trans h4, g4.trans (by rw [h4])⟩

end Sys2Proof.Machine
end

