-- ==== Sys2Proof/Tests/Slice0.lean ====
section
/-! SUPPORT. Tests of the model against the spec's own vectors (95_test_vectors.md) and encodings, the smoke tests of
WellFormed, and for every statement with hypotheses a concrete state that meets them. -/

namespace Sys2Proof.Tests

open Sys2Proof Sys2Proof.Machine

/-! ### Small states -/

/-- A small block: IN_CAP = 4, OUT_CAP = 8, DICT_CAP = 16, MSB_FIRST. -/
def small : Params := { inCap := 4, outCap := 8, dictCap := 16, order := .msbFirst, baseAddr := 0x40000000 }

/-- The small block after reset. -/
def idle : State := State.resetWith small 0 0 []

/-- A block with parameters `p` after the host has loaded `xs`. -/
def loadedAt (p : Params) (xs : List CodeUnit) : State :=
  { State.resetWith p 0 0 [] with inLen := BitVec.ofNat 32 xs.length, inBuf := Memory.ofList 0 xs }

/-- The small block after the host has loaded `xs`. -/
abbrev loaded (xs : List CodeUnit) : State := loadedAt small xs

/-- The small block with an operation on `xs` just started. -/
def started (op : Op) (al : Alphabet) (xs : List CodeUnit) : State := (loaded xs).startOp op al

/-- `n` turns of the engine later. -/
def after (n : Nat) (s : State) : State :=
  match engineRun n s with
  | .next t => t
  | .fault _ => s
  | .refused _ => s

/-- The state a step answers, to look at its fields. -/
def result (o : Host.Outcome State Fault Refusal) : Option State :=
  match o with
  | .next t => some t
  | .fault _ => none
  | .refused _ => none

theorem loaded_inv {p : Params} {xs : List CodeUnit} (hp : p.wf) (hw : (Memory.ofList 0 xs).wf)
    (hb : (Memory.ofList 0 xs).below p.inCap) : Inv (loadedAt p xs) :=
  Inv.ofHost { (Inv.resetWith hp 0 0 []).host with
    inWf := hw, inBelow := hb, snapshot := (by intro h; cases h), latches := (by intro h; cases h) } (by intro h; cases h)

theorem started_inv {xs : List CodeUnit} (op : Op) (al : Alphabet) (hw : (Memory.ofList 0 xs).wf)
    (hb : (Memory.ofList 0 xs).below 4) : Inv (started op al xs) := (loaded_inv (by decide) hw hb).startOp op al

theorem engineRun_inv (n : Nat) {s : State} (h : Inv s) : ∃ t, engineRun n s = .next t ∧ Inv t := by
  induction n generalizing s with
  | zero => exact ⟨s, rfl, h⟩
  | succ n ih =>
    unfold engineRun
    cases hb : s.busy with
    | false => exact ⟨s, rfl, h⟩
    | true =>
      obtain ⟨t, h1, h2 | ⟨_, _, _, h2, _⟩⟩ := engineTurn_busy h ((busy_iff s).mp hb)
      · simp only [if_true, h1]; exact ih h2.inv
      · simp only [if_true, h1]; exact ih h2

theorem after_inv (n : Nat) {s : State} (h : Inv s) : Inv (after n s) := by
  obtain ⟨t, h1, h2⟩ := engineRun_inv n h
  unfold after; rw [h1]; exact h2

theorem engineRun_after (n : Nat) {s : State} (h : Inv s) : engineRun n s = .next (after n s) := by
  obtain ⟨t, h1, _⟩ := engineRun_inv n h
  unfold after; rw [h1]

/-! ### Well-formed instructions: an ill-formed term for each check -/

theorem test_wf_commands :
    (Instr.ctrlWriteBusy 1).wf tableCtx = false ∧
      (Instr.setmode .uri .compress).wf { tableCtx with busy := true } = false ∧
      Instr.compressB64.wf { tableCtx with busy := true } = false ∧
      Instr.decompressB64.wf { tableCtx with busy := true } = false ∧
      Instr.compressUri.wf { tableCtx with busy := true } = false ∧
      Instr.decompressUri.wf { tableCtx with busy := true } = false ∧
      (Instr.ctrlIllegal 7).wf tableCtx = false ∧ (Instr.ctrlIllegal 8).wf tableCtx = true ∧
      (Instr.ctrlIllegal 8).wf { tableCtx with busy := true } = false := by decide

/-- A context for the tokens the encoder writes, at width `w`. -/
def encCtx (w : Nat) : DecodeCtx := { tableCtx with side := .enc, width := w }

/-- A context for the tokens of the decoder's loop, at width `w` with D_NEXT = `n`. -/
def loopCtx (w n : Nat) : DecodeCtx := { tableCtx with side := .loop, width := w, next := n }

theorem test_wf_encoder_tokens :
    (Instr.encLit8 1).wf (encCtx 1) = false ∧ (Instr.encLit8 1).wf (loopCtx 3 4) = false ∧
      (Instr.encLit16 255).wf (encCtx 3) = false ∧ (Instr.encLit16 256).wf (encCtx 26) = false ∧
      (Instr.encCode 2).wf (encCtx 3) = false ∧ (Instr.encCode 8).wf (encCtx 3) = false ∧
      (Instr.encCode 3).wf (encCtx 2) = true ∧ Instr.encEos.wf (encCtx 0) = false := by decide

theorem test_wf_decoder_tokens :
    (Instr.decFirstLit8 1).wf (loopCtx 3 4) = false ∧ (Instr.decFirstLit16 1).wf (loopCtx 3 4) = false ∧
      Instr.decFirstEos.wf (encCtx 3) = false ∧ Instr.decFirstCorrupt.wf (encCtx 3) = false ∧
      (Instr.decLit8 1).wf tableCtx = false ∧ (Instr.decLit16 1).wf (loopCtx 26 4) = false ∧
      Instr.decEos.wf tableCtx = false ∧
      (Instr.decCodeKnown 4).wf (loopCtx 3 4) = false ∧ (Instr.decCodeKnown 2).wf (loopCtx 3 4) = false ∧
      (Instr.decCodeSelf 5).wf (loopCtx 3 4) = false ∧ (Instr.decCodeSelf 8).wf (loopCtx 3 8) = false ∧
      (Instr.decCodeCorrupt 4).wf (loopCtx 3 4) = false ∧ (Instr.decCodeCorrupt 8).wf (loopCtx 3 4) = false := by
  decide

theorem test_wf_accesses :
    (Instr.rwReservedReg 8 .read).wf tableCtx = false ∧ (Instr.rwReservedReg 9 .read).wf tableCtx = true ∧
      (Instr.rwIn 4 .read).wf { tableCtx with cfg := small } = false ∧
      (Instr.rdOut 8 .read).wf { tableCtx with cfg := small } = false ∧
      (Instr.busIllegal 0x4 .w32 .read).wf tableCtx = false ∧ (Instr.busIllegal 0x4 .w8 .read).wf tableCtx = true := by
  decide

/-! ### Words written out from the spec's encodings -/

/-- 30_encoding.md R90, R91: bit 0 START, bit 1 OP, bit 2 ALPH. -/
theorem test_decode_commands :
    decode tableCtx (.command 0b000) = .ok (.setmode .base64 .compress) ∧
      decode tableCtx (.command 0b001) = .ok .compressB64 ∧
      decode tableCtx (.command 0b010) = .ok (.setmode .base64 .decompress) ∧
      decode tableCtx (.command 0b011) = .ok .decompressB64 ∧
      decode tableCtx (.command 0b100) = .ok (.setmode .uri .compress) ∧
      decode tableCtx (.command 0b101) = .ok .compressUri ∧
      decode tableCtx (.command 0b110) = .ok (.setmode .uri .decompress) ∧
      decode tableCtx (.command 0b111) = .ok .decompressUri ∧
      decode tableCtx (.command 0b1000) = .ok (.ctrlIllegal 8) ∧
      decode tableCtx (.command 0xFFFFFFFF) = .ok (.ctrlIllegal 0xFFFFFFFF) ∧
      decode { tableCtx with busy := true } (.command 0x9) = .ok (.ctrlWriteBusy 0x9) := by decide

/-- 30_encoding.md R92, R93 with the listings VE2, VE4, VE8 and VE9: `000 01000010`, `001 0000000100000000`, `101`,
`010` at width 3. -/
theorem test_decode_encoder_tokens :
    decode (encCtx 3) (.token [false, false, false, false, true, false, false, false, false, true, false]) =
        .ok (.encLit8 0x42) ∧
      decode (encCtx 3) (.token ([false, false, true] ++
          [false, false, false, false, false, false, false, true] ++ List.replicate 8 false)) =
        .ok (.encLit16 0x100) ∧
      decode (encCtx 3) (.token [true, false, true]) = .ok (.encCode 5) ∧
      decode (encCtx 3) (.token [false, true, false]) = .ok .encEos ∧
      decode (encCtx 3) (.token ([false, false, true] ++ List.replicate 16 false)) =
        .error .nonCanonicalLit16 := by decide

/-- 30_encoding.md R92, R97 with VD2, VD7, VD9 and VD22: `00 01000001`, `01 0010000010101100`, `10`, `11`. -/
theorem test_decode_first_tokens :
    decode tableCtx (.token [false, false, false, true, false, false, false, false, false, true]) =
        .ok (.decFirstLit8 0x41) ∧
      decode tableCtx (.token ([false, true] ++ [false, false, true, false, false, false, false, false] ++
          [true, false, true, false, true, true, false, false])) = .ok (.decFirstLit16 0x20AC) ∧
      decode tableCtx (.token [true, false]) = .ok .decFirstEos ∧
      decode tableCtx (.token [true, true]) = .ok .decFirstCorrupt ∧
      decode tableCtx (.token [true]) = .error .shortMarker ∧
      decode tableCtx (.token [true, false, false]) = .error .payloadLength := by decide

/-- 30_encoding.md R92, R96 with VD2, VD6, VD8 and VD23. -/
theorem test_decode_loop_tokens :
    decode (loopCtx 3 4) (.token [false, false, false, false, true, false, false, false, false, true, false]) =
        .ok (.decLit8 0x42) ∧
      decode (loopCtx 3 4) (.token ([false, false, true] ++
          [false, false, false, false, false, false, false, true] ++ List.replicate 8 false)) =
        .ok (.decLit16 0x100) ∧
      decode (loopCtx 3 7) (.token [false, true, false]) = .ok .decEos ∧
      decode (loopCtx 3 6) (.token [true, false, true]) = .ok (.decCodeKnown 5) ∧
      decode (loopCtx 3 7) (.token [true, true, true]) = .ok (.decCodeSelf 7) ∧
      decode (loopCtx 3 4) (.token [true, true, false]) = .ok (.decCodeCorrupt 6) := by decide

/-- 40_bitpack.md R122, R130 with VB3, VB4 and VB15: LSB_FIRST. -/
theorem test_decode_lsb_first :
    fieldBits .lsbFirst 8 0x41 = [true, false, false, false, false, false, true, false] ∧
      fieldBits .lsbFirst 3 4 = [false, false, true] ∧ fieldValue .lsbFirst [true, false, false] = 1 ∧
      fieldValue .msbFirst [true, false, false] = 4 := by decide

/-- A 32-bit access to the small block at an offset. -/
def at_ (off : Word) (a : AccessKind) : Instr := decodeAccess small { addr := 0x40000000 + off, width := .w32, kind := a }

/-- 10_state.md R20: the offsets of the nine registers, and the reserved ones of 20_memory.md R63. -/
theorem test_decode_registers :
    at_ 0x000 .read = .rdCtrl ∧ at_ 0x000 (.write 5) = .wrCtrl 5 ∧ at_ 0x004 .read = .rwStatus .read ∧
      at_ 0x008 (.write 4) = .rwInLen (.write 4) ∧ at_ 0x00C .read = .rdOutLen .read ∧
      at_ 0x010 .read = .rdErrInfo .read ∧ at_ 0x014 .read = .rdConfig .read ∧ at_ 0x018 .read = .rdInCapR .read ∧
      at_ 0x01C .read = .rdOutCapR .read ∧ at_ 0x020 .read = .rdDictCapR .read ∧
      at_ 0x024 .read = .rwReservedReg 9 .read ∧ at_ 0xFFC (.write 1) = .rwReservedReg 1023 (.write 1) := by decide

/-- 20_memory.md R61, R62, R66: the windows, their ends, alignment and width. -/
theorem test_decode_windows :
    at_ 0x00100000 (.write 7) = .rwIn 0 (.write 7) ∧ at_ 0x0010000C .read = .rwIn 3 .read ∧
      at_ 0x00100010 .read = .busIllegal 0x00100010 .w32 .read ∧
      at_ 0x00200000 .read = .rdOut 0 .read ∧ at_ 0x0020001C .read = .rdOut 7 .read ∧
      at_ 0x00200020 .read = .busIllegal 0x00200020 .w32 .read ∧
      at_ 0x00001000 .read = .busIllegal 0x00001000 .w32 .read ∧ at_ 0x002 .read = .busIllegal 0x2 .w32 .read ∧
      decodeAccess small { addr := 0x40000004, width := .w8, kind := .read } = .busIllegal 0x4 .w8 .read ∧
      decodeAccess small { addr := 0x3FFFFFFC, width := .w32, kind := .read } =
        .busIllegal 0xFFFFFFFC .w32 .read := by decide +kernel

/-- The opcode table's own words: a command, a bus offset, a first token. -/
theorem test_table_words :
    decodeTableWord 32 0x1 = some .compressB64 ∧ decodeTableWord 32 0x4 = some (.rwStatus .read) ∧
      decodeTableWord 32 0x00100000 = some (.rwIn 0 .read) ∧ decodeTableWord 16 0x2 = some .decFirstEos ∧
      decodeTableWord 16 0x104 = some (.decFirstLit8 0x41) := by decide +kernel

/-! ### Command words (vectors VH4 to VH9) -/

/-- The block in DONE with the one-character result `E`. -/
def done : State := { idle with status := .done, outLen := 1, outBuf := [(0, 0x45)] }

/-- VH9. -/
theorem test_ctrlWriteBusy : (result (exec (.ctrlWriteBusy 0x9) (started .compress .uri []))).map
    (fun t => (t.status, t.ctrlOp, t.ctrlAlph, t.stage)) = some (.busy, .compress, .uri, .start) := by decide

/-- VH4, VH18. -/
theorem test_setmode : (result (exec (.setmode .uri .decompress) done)).map
    (fun t => ((t.ctrlOp, t.ctrlAlph), t.status, t.outLen, t.outBuf)) =
      some ((.decompress, .uri), .done, 1, [(0, 0x45)]) := by decide

/-- VH5: what STATUS and CTRL read after a START. -/
theorem test_compressB64 : (result (exec .compressB64 done)).map (fun t => (t.statusWord, t.ctrlWord)) =
    some (0x1, 0x0) := by decide

/-- VH5. -/
theorem test_compressUri : (result (exec .compressUri done)).map (fun t => (t.statusWord, t.ctrlWord)) =
    some (0x1, 0x4) := by decide

/-- VH5. -/
theorem test_decompressB64 : (result (exec .decompressB64 done)).map (fun t => (t.statusWord, t.ctrlWord)) =
    some (0x1, 0x2) := by decide

/-- VH5. -/
theorem test_decompressUri : (result (exec .decompressUri done)).map (fun t => (t.statusWord, t.ctrlWord)) =
    some (0x1, 0x6) := by decide

/-- VH7. -/
theorem test_ctrlIllegal : (result (exec (.ctrlIllegal 0x9) done)).map
    (fun t => (t.statusWord, t.errInfo, t.outLen, t.ctrlWord)) = some (0x53, 0x9, 0, 0) := by decide

/-! ### Tokens COMPRESS emits (42_encoder.md R178) -/

/-- COMPRESS at a given place of its registers and sink. -/
def encAt (al : Alphabet) (e : EncRegs) (k : SinkRegs) (out : Memory) : State :=
  { started .compress al [] with enc := e, sink := k, outBuf := out, stage := .encEos }

/-- R178, step 2: LIT8 w=2 0x41, bits 00 01000001. -/
theorem test_encLit8 : (result (exec (.encLit8 0x41)
    (encAt .base64 { EncRegs.init with w := [0x41], next := 5, pend := [[0x42], [0x41]] } .init []))).map
      (fun t => (t.outBuf, t.sink, (t.enc.width, t.enc.enl), t.enc.pend)) =
    some ([(0, 0x45)], { acc := 0b0001, pos := 4, outN := 1 }, (3, 4), [[0x42]]) := by decide

/-- VB6: LIT16 w=2 0x20AC gives `S`, `C`, `s`. -/
theorem test_encLit16 : (result (exec (.encLit16 0x20AC)
    (encAt .uri { EncRegs.init with w := [0x20AC], next := 4, pend := [[0x20AC]] } .init []))).map
      (fun t => (t.outBuf, t.sink, (t.enc.width, t.enc.enl), t.enc.pend)) =
    some ([(0, 0x53), (1, 0x43), (2, 0x73)], { acc := 0, pos := 0, outN := 3 }, (3, 4), []) := by decide

/-- R178, finish: CODE w=3 5 after the 21 bits of two literals. -/
theorem test_encCode : (result (exec (.encCode 5)
    (encAt .base64 { EncRegs.init with next := 7, width := 3, enl := 2 } { acc := 0b010, pos := 3, outN := 3 }
      [(0, 0x45), (1, 0x45), (2, 0x49)]))).map (fun t => (t.outBuf.read? 3, t.sink, t.enc.width, t.enc.enl)) =
    some (some 0x56, { acc := 0, pos := 0, outN := 4 }, 3, 1) := by decide

/-- R178, finish: EOS w=3, PAD 000, then `===` for BASE64 and nothing for URI. -/
theorem test_encEos : (result (exec .encEos
    (encAt .base64 { EncRegs.init with width := 3 } { acc := 0, pos := 0, outN := 4 }
      [(0, 0x45), (1, 0x45), (2, 0x49), (3, 0x56)]))).map (fun t => (t.stage, t.outBuf)) =
    some (.complete (.ok 8), [(0, 0x45), (1, 0x45), (2, 0x49), (3, 0x56), (4, 0x51), (5, 0x3D), (6, 0x3D), (7, 0x3D)])
    := by decide

/-- VE19: PadOut with OUT_CAP = 7. -/
theorem test_encEos_full : (result (exec .encEos
    { encAt .base64 { EncRegs.init with width := 3 } { acc := 0, pos := 0, outN := 4 }
        [(0, 0x45), (1, 0x45), (2, 0x49), (3, 0x56)] with cfg := { small with outCap := 7 } })).map (fun t => t.stage) =
    some (.complete (.err (.resource .output))) := by decide

/-! ### Tokens DECOMPRESS reads (43_decoder.md R211, VD6, VD8) -/

/-- DECOMPRESS at a given place of its registers. -/
def decAt (d : DecRegs) (out : Memory) : State :=
  { started .decompress .base64 [] with dec := d, outBuf := out, stage := .decLoop }

/-- The decoder after `LIT8 w=2 0x41`. -/
def dec1 : DecRegs := { w := 3, next := 4, width := 3, enl := 4, resLen := 1, dict := [(3, [0x41])] }

/-- The decoder after `LIT8 w=3 0x42`. -/
def dec2 : DecRegs :=
  { w := 4, next := 6, width := 3, enl := 2, resLen := 2, dict := [(5, [0x41, 0x42]), (4, [0x42]), (3, [0x41])] }

/-- The decoder after `CODE w=3 5`. -/
def dec3 : DecRegs := { dec2 with w := 5, next := 7, enl := 1, resLen := 4, dict := (6, [0x42, 0x41]) :: dec2.dict }

/-- R211: `LIT8 w=2 0x41`. -/
theorem test_decFirstLit8 : (result (exec (.decFirstLit8 0x41) (decAt (DecRegs.init .reset) []))).map
    (fun t => (t.dec, t.outBuf)) = some (dec1, [(0, 0x41)]) := by decide

/-- VD7. -/
theorem test_decFirstLit16 : (result (exec (.decFirstLit16 0x20AC) (decAt (DecRegs.init .reset) []))).map
    (fun t => (t.dec, t.outBuf)) = some ({ dec1 with dict := [(3, [0x20AC])] }, [(0, 0x20AC)]) := by decide

/-- VD9. -/
theorem test_decFirstEos : (result (exec .decFirstEos (decAt (DecRegs.init .reset) []))).map (fun t => t.stage) =
    some (.complete (.ok 0)) := by decide

/-- VD22. -/
theorem test_decFirstCorrupt : (result (exec .decFirstCorrupt (decAt (DecRegs.init .reset) []))).map
    (fun t => t.stage) = some (.complete (.err (.dictCorrupt 3))) := by decide

/-- R211: `LIT8 w=3 0x42`. -/
theorem test_decLit8 : (result (exec (.decLit8 0x42) (decAt dec1 [(0, 0x41)]))).map
    (fun t => (t.dec, t.outBuf)) = some (dec2, [(0, 0x41), (1, 0x42)]) := by decide

/-- VD8: `LIT16 w=3 0x0100`. -/
theorem test_decLit16 : (result (exec (.decLit16 0x100) (decAt dec1 [(0, 0x41)]))).map
    (fun t => (t.dec, t.outBuf)) =
    some ({ dec2 with dict := [(5, [0x41, 0x100]), (4, [0x100]), (3, [0x41])] }, [(0, 0x41), (1, 0x100)]) := by decide

/-- R211: `EOS w=3`. -/
theorem test_decEos : (result (exec .decEos (decAt dec3 []))).map (fun t => (t.stage, t.dec)) =
    some (.complete (.ok 4), dec3) := by decide

/-- R211: `CODE w=3 5`. -/
theorem test_decCodeKnown : (result (exec (.decCodeKnown 5) (decAt dec2 [(0, 0x41), (1, 0x42)]))).map
    (fun t => (t.dec, t.outBuf)) = some (dec3, [(0, 0x41), (1, 0x42), (2, 0x41), (3, 0x42)]) := by decide

/-- VD30: the same with DICT_CAP = 6. -/
theorem test_decCodeKnown_full : (result (exec (.decCodeKnown 5)
    { decAt dec2 [(0, 0x41), (1, 0x42)] with cfg := { small with dictCap := 6 } })).map (fun t => t.stage) =
    some (.complete (.err (.resource .dictionary))) := by decide

/-- VD6: `CODE w=3 7`, a self-reference. -/
theorem test_decCodeSelf : (result (exec (.decCodeSelf 7)
    (decAt dec3 [(0, 0x41), (1, 0x42), (2, 0x41), (3, 0x42)]))).map
    (fun t => ((t.dec.w, t.dec.next), (t.dec.width, t.dec.enl), t.dec.resLen, dictPhrase t.dec.dict 7)) =
    some ((7, 8), (4, 8), 7, some [0x41, 0x42, 0x41]) := by decide

/-- VD23. -/
theorem test_decCodeCorrupt : (result (exec (.decCodeCorrupt 6) (decAt dec1 []))).map (fun t => t.stage) =
    some (.complete (.err (.dictCorrupt 6))) := by decide

/-! ### Bus accesses (vectors VH1 to VH18) -/

/-- What an instruction answers the host. -/
def answer (i : Instr) (s : State) : Option Response := (result (exec i s)).map (fun t => t.resp)

/-- VH5. -/
theorem test_rdCtrl : answer .rdCtrl (started .decompress .uri []) = some (.data 0x6) := by decide

/-- VH6, VH8 through the register. -/
theorem test_wrCtrl : (result (exec (.wrCtrl 0xFFFFFFFF) done)).map (fun t => (t.statusWord, t.errInfo)) =
    some (0x53, 0xFFFFFFFF) := by decide

/-- VH1, VX7. -/
theorem test_rwStatus : answer (.rwStatus .read) idle = some (.data 0) ∧
    answer (.rwStatus .read) (idle.enterError .illegalCmd 0x9) = some (.data 0x53) := by decide

/-- VH10. -/
theorem test_rwInLen : (result (exec (.rwInLen (.write 5)) done)).map (fun t => t.inLen) = some 5 ∧
    (result (exec (.rwInLen (.write 5)) (started .compress .base64 [0x41]))).map (fun t => t.inLen) = some 1 := by
  decide

/-- VH17. -/
theorem test_rdOutLen : answer (.rdOutLen .read) done = some (.data 1) ∧
    answer (.rdOutLen .read) (done.enterError .truncated 6) = some (.data 0) := by decide

/-- VX3. -/
theorem test_rdErrInfo : answer (.rdErrInfo .read) (done.enterError .truncated 24) = some (.data 24) := by decide

/-- VH2. -/
theorem test_rdConfig : answer (.rdConfig .read) idle = some (.data 0x160) ∧
    answer (.rdConfig .read) { idle with cfg := { small with order := .lsbFirst } } = some (.data 0x161) := by decide

/-- VH3. -/
theorem test_rdInCapR : answer (.rdInCapR .read) idle = some (.data 4) := by decide

/-- VH3. -/
theorem test_rdOutCapR : answer (.rdOutCapR .read) idle = some (.data 8) := by decide

/-- VH3. -/
theorem test_rdDictCapR : answer (.rdDictCapR .read) idle = some (.data 16) := by decide

/-- VH12. -/
theorem test_rwReservedReg : answer (.rwReservedReg 9 .read) idle = some (.data 0) ∧
    (result (exec (.rwReservedReg 1023 (.write 7)) idle)).map (fun t => t.respond .none) = some idle := by decide

/-- VH15. -/
theorem test_rwIn : (result (exec (.rwIn 3 (.write 0x1234ABCD)) idle)).map (fun t => t.inBuf) = some [(3, 0xABCD)] ∧
    answer (.rwIn 3 .read) { idle with inBuf := [(3, 0xABCD)] } = some (.data 0x0000ABCD) := by decide

/-- VH16, VH11. -/
theorem test_rdOut : answer (.rdOut 0 .read) done = some (.data 0x45) ∧
    (result (exec (.rdOut 0 (.write 7)) done)).map (fun t => t.outBuf) = some [(0, 0x45)] := by decide

/-- VX11. -/
theorem test_busIllegal : (result (exec (.busIllegal 2 .w32 .read) (started .compress .base64 [0x41]))).map
    (fun t => (t.resp, t.respond .none)) = some (.busError, started .compress .base64 [0x41]) := by decide

/-! ### The engine and the table words as the first instruction -/

/-- VD24, VD25, VX9: Validate names the lowest invalid index. -/
theorem test_validate : validateFrom .base64 0 [0x45, 0x3D, 0x41] = some 1 ∧
    validateFrom .base64 0 [0x45, 0x3D, 0x3D, 0x3D] = none ∧ validateFrom .uri 0 [0x24, 0x2F] = some 1 ∧
    validateFrom .base64 0 [0x3D, 0x3D, 0x3D, 0x3D] = some 0 := by decide

/-- VE2 "A" and its way back, VD10. -/
theorem test_runs :
    (after 6 (started .compress .base64 [0x41])).outBuf = [(0, 0x45), (1, 0x46), (2, 0x41), (3, 0x3D)] ∧
      (after 4 (started .decompress .base64 [0x45, 0x46, 0x41])).outBuf = [(0, 0x41)] := by decide

/-- A command, a bus access and a first token, each run as the first instruction after reset. -/
theorem test_withFetchWord :
    (result (step (State.reset.withFetchWord 32 0x3))).map (fun t => (t.status, t.opl)) = some (.busy, .decompress) ∧
      (result (step (State.reset.withFetchWord 32 0x020))).map (fun t => t.resp) = some (.data 0x01000000) ∧
      (result (step (State.reset.withFetchWord 16 0x104))).map (fun t => (t.stage, t.outBuf)) =
        some (.decLoop, [(0, 0x41)]) := by decide +kernel

/-! ### Witnesses: for every statement with hypotheses, states and operands that meet them -/

/-- A COMPRESS of "A" just started. -/
def c0 : State := started .compress .base64 [0x41]

/-- A COMPRESS of "AB" just started. -/
def c2 : State := started .compress .base64 [0x41, 0x42]

/-- A DECOMPRESS of "EFA" just started. -/
def d0 : State := started .decompress .base64 [0x45, 0x46, 0x41]

/-- A DECOMPRESS of `xs` just started. -/
abbrev dec (xs : List CodeUnit) : State := started .decompress .base64 xs

theorem c0_inv : Inv c0 := started_inv _ _ (by decide) (by decide)
theorem c2_inv : Inv c2 := started_inv _ _ (by decide) (by decide)
theorem d0_inv : Inv d0 := started_inv _ _ (by decide) (by decide)

/-- `s` with the inputs `l` waiting. -/
def waiting (l : List Event) (s : State) : State := { s with events := l, freeCtr := s.freeCtr }

theorem waiting_inv {s : State} (h : Inv s) (l : List Event) : Inv (waiting l s) := h.inputs l s.freeCtr

theorem witness_ResetSetsTheHostRegisters : (waiting [.reset, .engine] c0).events = .reset :: [.engine] := rfl

theorem witness_StepKeepsTheInvariant : Inv c0 ∧ ∃ t, step c0 = .next t := ⟨c0_inv, _, rfl⟩

theorem witness_StepNeverStops : Inv (after 3 c2) ∧ (after 3 c2).stage = .encBreak 0x42 :=
  ⟨after_inv 3 c2_inv, by decide⟩

theorem witness_EveryOperationCompletes : Inv d0 ∧ d0.status = .busy ∧ d0.events = [] := ⟨d0_inv, rfl, rfl⟩

/-- "A" goes into `EFA=`, four characters, which IN_CAP = 4 holds exactly. -/
theorem witness_DecompressUndoesCompress : Inv (loaded [0x41]) ∧ (loaded [0x41]).status ≠ .busy ∧
    ∃ t, engineRun ((loaded [0x41]).startOp .compress .base64).turnBound
        ((loaded [0x41]).startOp .compress .base64) = .next t ∧ t.status = .done ∧
      t.outLen.toNat ≤ (loaded [0x41]).cfg.inCap ∧ (loaded [0x41]).inLen.toNat ≤ (loaded [0x41]).cfg.outCap :=
  ⟨loaded_inv (by decide) (by decide) (by decide), by decide, _, engineRun_after _ c0_inv, by decide, by decide, by decide⟩

/-- Two blocks with the same operation on "A", one with other latches of the host side: they differ in IN beyond
IN_LEN and in what the port last answered. -/
theorem witness_ResultDependsOnlyOnTheSnapshot : ∃ s t t', Inv c0 ∧ Inv s ∧ c0.stage = .start ∧ s.stage = .start ∧
    s.cfg = c0.cfg ∧ s.opl = c0.opl ∧ s.alphl = c0.alphl ∧ s.snapLen = c0.snapLen ∧
    (∀ k < c0.snapLen.toNat, s.memRead k = c0.memRead k) ∧ s ≠ c0 ∧
    engineRun 6 c0 = .next t ∧ engineRun 6 s = .next t' ∧ t.status = .done := by
  have h : Inv (((loaded [0x41, 0x42]).setInLen 1).startOp .compress .base64) :=
    ((loaded_inv (by decide) (by decide) (by decide)).setInLen (by decide) 1).startOp _ _
  exact ⟨_, _, _, c0_inv, h, rfl, rfl, rfl, rfl, rfl, rfl, by decide, by decide, engineRun_after 6 c0_inv,
    engineRun_after 6 h, by decide⟩

theorem witness_HostCannotDisturbTheEngine : c0.status = .busy ∧ ∃ t, engineRun 6 c0 = .next t :=
  ⟨rfl, _, engineRun_after 6 c0_inv⟩

theorem witness_ResultsAppearOnlyAtCompletion :
    Inv c0 ∧ c0.status = .busy ∧ (∃ t, step c0 = .next t ∧ t.status = .busy) ∧
      (accessAt small 0x00200000 .read).kind = .read := ⟨c0_inv, rfl, ⟨_, rfl, by decide⟩, rfl⟩

/-- By reset, by the completion of a result, by the completion of an error (VD14). -/
theorem witness_BusyEndsOnlyByCompletionOrReset :
    (∃ s t, Inv s ∧ s.status = .busy ∧ step s = .next t ∧ t.status = .idle) ∧
      (∃ s t, Inv s ∧ s.status = .busy ∧ step s = .next t ∧ t.status = .done) ∧
      ∃ s t, Inv s ∧ s.status = .busy ∧ step s = .next t ∧ t.status = .error := by
  have hd : Inv (dec [0x3D]) := started_inv _ _ (by decide) (by decide)
  exact ⟨⟨_, _, waiting_inv c0_inv [.reset], rfl, rfl, by decide⟩,
    ⟨_, _, waiting_inv (after_inv 5 c0_inv) [.engine], by decide, rfl, by decide⟩,
    ⟨_, _, after_inv 2 hd, by decide, rfl, by decide⟩⟩

theorem witness_EngineLeavesTheHostsRegisters : Inv c0 ∧ ∃ t, engineTurn c0 = .next t := ⟨c0_inv, _, rfl⟩

/-- In success, and in RESOURCE(1), RESOURCE(2) and RESOURCE(3). -/
theorem witness_CompressEndsInSuccessOrResource :
    (∃ n t, Inv c0 ∧ c0.status = .busy ∧ c0.opl = .compress ∧ engineRun n c0 = .next t ∧ t.status = .done) ∧
      ∀ x : Word, x = 1 ∨ x = 2 ∨ x = 3 → ∃ s n t, Inv s ∧ s.status = .busy ∧ s.opl = .compress ∧
        engineRun n s = .next t ∧ t.status = .error ∧ t.errInfo = x := by
  refine ⟨⟨6, _, c0_inv, rfl, rfl, engineRun_after 6 c0_inv, by decide⟩, ?_⟩
  rintro x (rfl | rfl | rfl)
  · have h : Inv (((loaded []).setInLen 5).startOp .compress .base64) :=
      ((loaded_inv (by decide) (by decide) (by decide)).setInLen (by decide) 5).startOp _ _
    exact ⟨_, 2, _, h, rfl, rfl, engineRun_after 2 h, by decide, by decide⟩
  · have h : Inv ((loadedAt { small with dictCap := 4 } [0x41, 0x42]).startOp .compress .uri) :=
      (loaded_inv (by decide) (by decide) (by decide)).startOp _ _
    exact ⟨_, 4, _, h, rfl, rfl, engineRun_after 4 h, by decide, by decide⟩
  · have h : Inv ((loadedAt { small with outCap := 1 } [0x41]).startOp .compress .uri) :=
      (loaded_inv (by decide) (by decide) (by decide)).startOp _ _
    exact ⟨_, 6, _, h, rfl, rfl, engineRun_after 6 h, by decide, by decide⟩

/-- VD24, VD22, VD14, and RESOURCE(1). -/
theorem witness_DecompressErrorInformation :
    ∀ x : ErrCode × Word, x = (.alphabet, 0) ∨ x = (.dictCorrupt, 3) ∨ x = (.truncated, 0) ∨ x = (.resource, 1) →
      ∃ s n t, Inv s ∧ s.status = .busy ∧ s.opl = .decompress ∧ engineRun n s = .next t ∧ t.status = .error ∧
        (t.err, t.errInfo) = x := by
  have key : ∀ xs, (Memory.ofList 0 xs).wf → (Memory.ofList 0 xs).below 4 → Inv (dec xs) :=
    fun xs h1 h2 => started_inv _ _ h1 h2
  rintro x (rfl | rfl | rfl | rfl)
  · have h := key [0x21, 0x41] (by decide) (by decide)
    exact ⟨_, 2, _, h, rfl, rfl, engineRun_after 2 h, by decide, by decide⟩
  · have h := key [0x77] (by decide) (by decide)
    exact ⟨_, 3, _, h, rfl, rfl, engineRun_after 3 h, by decide, by decide⟩
  · have h := key [0x3D] (by decide) (by decide)
    exact ⟨_, 3, _, h, rfl, rfl, engineRun_after 3 h, by decide, by decide⟩
  · have h : Inv (((loaded []).setInLen 5).startOp .decompress .base64) :=
      ((loaded_inv (by decide) (by decide) (by decide)).setInLen (by decide) 5).startOp _ _
    exact ⟨_, 2, _, h, rfl, rfl, engineRun_after 2 h, by decide, by decide⟩

/-- The block in ERROR, after an illegal command. -/
def failed : State := idle.enterError .illegalCmd 0x8

theorem witness_ErrorIsLeftOnlyByStartOrReset : ∀ l, l = [.engine] ∨ l = [.reset] ∨
      l = [.access (accessAt small 0 (.write 1))] ∨ l = [.access (accessAt small 0 (.write 7))] →
    ∃ t, (waiting l failed).status = .error ∧ step (waiting l failed) = .next t := by
  rintro l (rfl | rfl | rfl | rfl) <;> exact ⟨_, rfl, rfl⟩

theorem witness_IdleBlockKeepsItsState : failed.status ≠ .busy ∧ failed.events = [] ∧
    (waiting [.engine] failed).status ≠ .busy ∧ (waiting [.engine] failed).events = .engine :: [] := by decide

/-! Encodings, at the ends of the ranges. -/

theorem witness_DecodeUndoesEncode : (Instr.encCode (2 ^ 25 - 1)).wf (encCtx 25) = true ∧
    (Instr.decCodeKnown 3).wf (loopCtx 3 4) = true ∧ (Instr.decCodeSelf 4).wf (loopCtx 3 4) = true ∧
    (Instr.decCodeCorrupt 7).wf (loopCtx 3 4) = true ∧ (Instr.encLit16 256).wf (encCtx 2) = true ∧
    (Instr.rwIn 3 .read).wf { tableCtx with cfg := small } = true := by decide

theorem witness_EncodeUndoesDecode : decode (loopCtx 3 7) (.token [true, true, true]) = .ok (.decCodeSelf 7) ∧
    decode tableCtx (.command 7) = .ok .decompressUri ∧
    decode { tableCtx with cfg := small } (.access { addr := 0x40100000, width := .w32, kind := .read }) =
      .ok (.rwIn 0 .read) := by decide +kernel

theorem witness_DecodedInstructionsAreWellFormed : widthOk (loopCtx 2 4).width = true ∧
    decode (loopCtx 2 4) (.token [true, true]) = .ok (.decCodeKnown 3) ∧ widthOk (encCtx 25).width = true ∧
    decode (encCtx 25) (.token (List.replicate 25 true)) = .ok (.encCode 33554431) := by decide +kernel

/-- t at both ends, and t = D_NEXT. -/
theorem witness_LoopCodeClassification : (loopCtx 3 4).side = .loop ∧ (3 ≤ 3 ∧ 3 < 2 ^ (loopCtx 3 4).width) ∧
    (3 ≤ 4 ∧ 4 < 2 ^ (loopCtx 3 4).width) ∧ 3 ≤ 7 ∧ 7 < 2 ^ (loopCtx 3 4).width := by decide

theorem witness_LegalAccesses : small.wf ∧ Params.default.wf := by decide +kernel

theorem witness_LegalAccesses_illegal : small.wf ∧
    ¬ ((BusAccess.mk 2 .w32 .read).width = .w32 ∧ ((BusAccess.mk 2 .w32 .read).addr - small.baseAddr).toNat % 4 = 0 ∧
      Mapped small ((BusAccess.mk 2 .w32 .read).addr - small.baseAddr).toNat) :=
  ⟨by decide +kernel, fun h => absurd h.2.1 (by decide)⟩

/-! A step runs the decoded instruction: one witness for each clause. -/

theorem witness_StepRunsTheDecodedInstruction_access :
    (waiting [.access (accessAt small 4 .read)] idle).events = .access (accessAt small 4 .read) :: [] ∧
      decode (waiting [.access (accessAt small 4 .read)] idle).decodeCtx (.access (accessAt small 4 .read)) =
        .ok (.rwStatus .read) := by decide

theorem witness_StepRunsTheDecodedInstruction_command :
    (waiting [.access (accessAt idle.cfg 0 (.write 9))] idle).events = .access (accessAt idle.cfg 0 (.write 9)) :: [] ∧
      decode (waiting [.access (accessAt idle.cfg 0 (.write 9))] idle).decodeCtx (.command 9) =
        .ok (.ctrlIllegal 9) := by decide

/-- The first token and one of the loop. -/
theorem witness_StepRunsTheDecodedInstruction_token :
    (∃ t, (after 1 d0).status = .busy ∧ (after 1 d0).stage = .decFirst ∧
      readToken 2 (after 1 d0) =
        .ok [false, false, false, true, false, false, false, false, false, true] t ∧
      decode (after 1 d0).decodeCtx (.token [false, false, false, true, false, false, false, false, false, true]) =
        .ok (.decFirstLit8 0x41)) ∧
    ∃ t, (after 2 d0).status = .busy ∧ (after 2 d0).stage = .decLoop ∧
      readToken (after 2 d0).dec.width (after 2 d0) = .ok [false, true, false] t ∧
      decode (after 2 d0).decodeCtx (.token [false, true, false]) = .ok .decEos :=
  ⟨⟨_, by decide, by decide, rfl, by decide⟩, _, by decide, by decide, rfl, by decide⟩

theorem witness_StepRunsTheDecodedInstruction_emit :
    ((after 3 c2).status = .busy ∧ (after 3 c2).stage = .encBreak 0x42 ∧
      chooseToken (after 3 c2).enc = some (.encLit8 0x41)) ∧
    ((after 3 c0).status = .busy ∧ (after 3 c0).stage = .encLast ∧
      chooseToken (after 3 c0).enc = some (.encLit8 0x41)) ∧
    (after 4 c0).status = .busy ∧ (after 4 c0).stage = .encEos := by decide

theorem witness_StepRunsTheDecodedInstruction_turn : (waiting [.engine] c0).events = .engine :: [] ∧
    c0.events = [] ∧ c0.status = .busy := by decide

/-- The first token of "EFA" takes ten bits of eighteen, EOS three of the eight left. -/
theorem witness_DecoderReadsTheStream :
    (Inv (after 1 d0) ∧ (after 1 d0).status = .busy ∧ (after 1 d0).stage = .decFirst ∧
      2 + payloadLength (fieldValue .msbFirst ((after 1 d0).bitsLeft.take 2)) ≤ (after 1 d0).bitsLeft.length) ∧
    Inv (after 2 d0) ∧ (after 2 d0).status = .busy ∧ (after 2 d0).stage = .decLoop ∧
      3 + payloadLength (fieldValue .msbFirst ((after 2 d0).bitsLeft.take 3)) ≤ (after 2 d0).bitsLeft.length :=
  ⟨⟨after_inv 1 d0_inv, by decide, by decide, by decide⟩, after_inv 2 d0_inv, by decide, by decide, by decide⟩

/-- No marker bit (VD14), a payload cut short (VD15), a marker of the loop cut short (VD16). -/
theorem witness_TruncatedReportsTheBitCount :
    (Inv (after 1 (dec [0x3D])) ∧ (after 1 (dec [0x3D])).stage = .decFirst ∧
      (after 1 (dec [0x3D])).bitsLeft.length < 2) ∧
    (Inv (after 1 (dec [0x45])) ∧ (after 1 (dec [0x45])).stage = .decFirst ∧ (after 1 (dec [0x45])).bitsLeft.length <
      2 + payloadLength (fieldValue .msbFirst ((after 1 (dec [0x45])).bitsLeft.take 2))) ∧
    Inv (after 2 (dec [0x45, 0x46])) ∧ (after 2 (dec [0x45, 0x46])).status = .busy ∧
      (after 2 (dec [0x45, 0x46])).stage = .decLoop ∧
      (after 2 (dec [0x45, 0x46])).bitsLeft.length < (after 2 (dec [0x45, 0x46])).dec.width := by
  refine ⟨⟨after_inv 1 (started_inv _ _ (by decide) (by decide)), by decide, by decide⟩,
    ⟨after_inv 1 (started_inv _ _ (by decide) (by decide)), by decide, by decide⟩,
    after_inv 2 (started_inv _ _ (by decide) (by decide)), by decide, by decide, by decide⟩

theorem witness_TokenReadsAreBounded : Inv (after 1 d0) ∧ (after 1 d0).status = .busy ∧
    (after 1 d0).stage = .decFirst := ⟨after_inv 1 d0_inv, by decide, by decide⟩

/-! Command words and accesses: a busy block, one that is not, and the ends of the ranges. -/

theorem witness_busy_and_free : c0.status = .busy ∧ idle.status ≠ .busy ∧ failed.status ≠ .busy ∧
    done.status ≠ .busy := by decide

theorem witness_IllegalCommandIsReported : idle.status ≠ .busy ∧ 8 ≤ (8 : Word).toNat ∧
    8 ≤ (0xFFFFFFFF : Word).toNat := by decide

theorem witness_ReservedRegisters : (9 ≤ 9 ∧ 9 < 1024) ∧ 9 ≤ 1023 ∧ 1023 < 1024 := by decide

theorem witness_InElementAccess : idle.inBuf.wf ∧ (0 : BitVec 18).toNat < idle.cfg.inCap ∧
    (3 : BitVec 18).toNat < idle.cfg.inCap ∧ idle.cfg.inCap ≤ (4 : BitVec 18).toNat ∧ c0.inBuf.wf ∧
    c0.status = .busy := by decide

theorem witness_OutElementAccess : (7 : BitVec 18).toNat < done.cfg.outCap ∧ done.status = .done ∧
    (0 : BitVec 18).toNat < done.outLen.toNat ∧ done.outBuf.read? 0 = some 0x45 ∧
    done.cfg.outCap ≤ (8 : BitVec 18).toNat := by decide

/-- A read of OUT twice, with a turn of the idle engine, a read and an illegal write between. -/
theorem witness_ReadsHaveNoSideEffect :
    idle.status ≠ .busy ∧ (accessAt small 0x00200000 .read).kind = .read ∧
      (∀ e ∈ [Event.engine, rd small 0x004, wr small 0x00300000 7], e = .engine ∨ ∃ a, e = .access a ∧
        (a.kind = .read ∨ ∃ off w k, decodeAccess idle.cfg a = .busIllegal off w k)) ∧
      (waiting [rd small 0x00200000, .engine, rd small 0x004, wr small 0x00300000 7, rd small 0x00200000] idle).events =
        rd small 0x00200000 :: ([.engine, rd small 0x004, wr small 0x00300000 7] ++ rd small 0x00200000 :: []) := by
  refine ⟨by decide, rfl, ?_, rfl⟩
  intro e he
  simp only [List.mem_cons, List.not_mem_nil, or_false] at he
  rcases he with rfl | rfl | rfl
  · exact .inl rfl
  · exact .inr ⟨_, rfl, .inl rfl⟩
  · exact .inr ⟨_, rfl, .inr ⟨0x00300000, .w32, .write 7, by decide⟩⟩

/-- 20_memory.md R70, 60_exceptions.md R269: a turn of the idle engine leaves the unspecified OUT[0] as it reads. -/
theorem test_idle_turn_keeps_out :
    (result (stepRun 3 (waiting [rd small 0x00200000, .engine, rd small 0x00200000] idle))).map (fun t => t.resp) =
      (result (step (waiting [rd small 0x00200000] idle))).map (fun t => t.resp) := rfl

/-- The empty input, and one that fills IN. -/
theorem witness_LoadWritesTheInput : ∀ xs, xs = [] ∨ xs = [1, 2, 3, 4] → idle.cfg.wf ∧ idle.inBuf.wf ∧
    idle.status ≠ .busy ∧ xs.length ≤ idle.cfg.inCap ∧
    (waiting (load idle.cfg xs ++ []) idle).events = load idle.cfg xs ++ [] := by
  rintro xs (rfl | rfl) <;> exact ⟨by decide, by decide, by decide, by decide, rfl⟩

/-! The engine. -/

theorem witness_TickCountsDown : (1 : Nat) ≤ 1 ∧ (1 : Nat) ≤ 2 := by decide

theorem witness_CompletionStep : ((after 5 c0).status = .busy ∧ (after 5 c0).stage = .complete (.ok 4)) ∧
    (after 2 (dec [0x3D])).status = .busy ∧ (after 2 (dec [0x3D])).stage = .complete (.err (.truncated 0)) := by
  decide

/-- IN_LEN one above IN_CAP; IN_LEN = 0; an invalid character at index 1, after a valid one. -/
theorem witness_RunBeginsWithItsChecks :
    (∃ s : State, s.status = .busy ∧ s.stage = .start ∧ s.snapLen.toNat = s.cfg.inCap + 1) ∧
    (∃ s : State, s.status = .busy ∧ s.stage = .start ∧ s.snapLen.toNat = 0) ∧
    ∃ s : State, s.status = .busy ∧ s.stage = .start ∧ s.snapLen.toNat ≤ s.cfg.inCap ∧ s.opl = .decompress ∧
      InvalidAt s.alphl s.inputUnits 1 ∧ ∀ j < 1, ¬ InvalidAt s.alphl s.inputUnits j := by
  refine ⟨⟨((loaded []).setInLen 5).startOp .compress .base64, by decide⟩,
    ⟨started .decompress .uri [], by decide⟩,
    dec [0x41, 0x21], by decide, by decide, by decide, by decide, ⟨0x21, by decide, by decide⟩, ?_⟩
  rintro j hj ⟨ch, h1, h2⟩
  obtain rfl : j = 0 := by omega
  have h3 : some (0x41 : CodeUnit) = some ch := h1
  cases h3
  revert h2; decide

theorem witness_StartInitialisesTheEngine :
    (c0.status = .busy ∧ c0.stage = .start ∧ 0 < c0.snapLen.toNat ∧ c0.snapLen.toNat ≤ c0.cfg.inCap ∧
      c0.opl = .compress) ∧
    (dec [0x41]).opl = .decompress ∧ 0 < (dec [0x41]).snapLen.toNat ∧
      ∀ k, ¬ InvalidAt (dec [0x41]).alphl (dec [0x41]).inputUnits k := by
  refine ⟨by decide, by decide, by decide, ?_⟩
  rintro k ⟨ch, h1, h2⟩
  have h3 : ([0x41] : List CodeUnit)[k]? = some ch := h1
  cases k with
  | zero => cases h3; revert h2; decide
  | succ k => cases h3

/-- NDATA, with the hypothesis of each case met: "A=" in BASE64 (N = 2, NDATA = 1), "A" in URI. -/
theorem witness_StartInitialisesTheEngine_ndata :
    ((dec [0x41, 0x3D]).alphl = .base64 ∧ ∀ k, ¬ InvalidAt (dec [0x41, 0x3D]).alphl (dec [0x41, 0x3D]).inputUnits k) ∧
      (started .decompress .uri [0x41]).alphl = .uri ∧
      ∀ k, ¬ InvalidAt .uri (started .decompress .uri [0x41]).inputUnits k := by
  have hb : (dec [0x41, 0x3D]).inputUnits = [0x41, 0x3D] := by decide
  have hu : (started .decompress .uri [0x41]).inputUnits = [0x41] := by decide
  rw [hb, hu, show (dec [0x41, 0x3D]).alphl = .base64 from rfl]
  refine ⟨⟨rfl, ?_⟩, rfl, ?_⟩
  · rintro (_ | _ | k) ⟨ch, h1, h2⟩
    · cases h1; revert h2; decide
    · cases h1; rw [if_pos ⟨rfl, rfl⟩] at h2; exact h2 ⟨by decide, by simp [padChar]⟩
    · cases h1
  · rintro (_ | k) ⟨ch, h1, h2⟩
    · cases h1; revert h2; decide
    · cases h1

/-- 41_alphabet.md R148: "EEIVQ===" has NDATA = 5. -/
theorem test_ndata : dataLength .base64 [0x45, 0x45, 0x49, 0x56, 0x51, 0x3D, 0x3D, 0x3D] = 5 := by decide

/-- A first sight that extends (turn 2 of "AB"), one that breaks (turn 3), a unit seen before (turn 3 of "AA"), a full
dictionary, the Insert after the token, and the end of the loop. -/
theorem witness_EncoderStep :
    ((after 1 c2).stage = .encLoop ∧ (after 1 c2).enc.i < (after 1 c2).snapLen.toNat ∧
      [(after 1 c2).memRead 0] ∉ (after 1 c2).enc.keys ∧ (after 1 c2).enc.next ≠ (after 1 c2).cfg.dictCap) ∧
    ((after 2 c2).stage = .encLoop ∧ [(after 2 c2).memRead 1] ∉ (after 2 c2).enc.keys ∧
      [(after 2 c2).memRead 1] ∉ (after 2 c2).enc.pend) ∧
    (∃ s : State, s.stage = .encLoop ∧ s.enc.i < s.snapLen.toNat ∧ [s.memRead s.enc.i] ∈ s.enc.keys) ∧
    (∃ s : State, s.stage = .encLoop ∧ s.enc.i < s.snapLen.toNat ∧ [s.memRead s.enc.i] ∉ s.enc.keys ∧
      s.enc.next = s.cfg.dictCap) ∧
    ((after 4 c2).stage = .encInsert 0x42 ∧ (after 4 c2).enc.next ≠ (after 4 c2).cfg.dictCap) ∧
    (∃ s : State, s.status = .busy ∧ s.stage = .encInsert 0x42 ∧ s.enc.next = s.cfg.dictCap) ∧
    (after 2 c0).stage = .encLoop ∧ (after 2 c0).snapLen.toNat ≤ (after 2 c0).enc.i := by
  refine ⟨by decide, by decide, ⟨after 2 (started .compress .uri [0x41, 0x41]), by decide⟩,
    ⟨after 2 ((loadedAt { small with dictCap := 4 } [0x41, 0x42]).startOp .compress .uri), by decide⟩, by decide,
    ⟨after 4 ((loadedAt { small with dictCap := 5 } [0x41, 0x42]).startOp .compress .uri), by decide⟩, by decide⟩

/-- The units 255 and 256, and a phrase that is not pending. -/
theorem witness_EmitPhraseChoosesItsToken :
    (∃ e : EncRegs, e.w = [255] ∧ e.w ∈ e.pend ∧ (255 : CodeUnit).toNat < 256) ∧
    (∃ e : EncRegs, e.w = [256] ∧ e.w ∈ e.pend ∧ 256 ≤ (256 : CodeUnit).toNat) ∧
    ∃ e : EncRegs, e.w ∉ e.pend ∧ dictCode e.dict e.w = some 3 :=
  ⟨⟨{ EncRegs.init with w := [255], pend := [[255]] }, by decide⟩,
    ⟨{ EncRegs.init with w := [256], pend := [[256]] }, by decide⟩,
    { EncRegs.init with w := [0x41], dict := [([0x41], 3)] }, by decide⟩

/-- The sink of `encAt` at the beginning of its output. -/
theorem sink_inv (al : Alphabet) (e : EncRegs) : SinkInv (encAt al e .init []) :=
  ⟨Nat.zero_le _, Nat.zero_lt_one, Nat.zero_le _, rfl⟩

/-- Widths 2 and 25; a literal of 25 + 16 bits and a code of 25 bits both fit into eight characters. -/
theorem witness_EncTokens : ∀ w, w = 2 ∨ w = 25 →
    SinkInv (encAt .uri { EncRegs.init with width := w } .init []) ∧ 2 ≤ w ∧ w ≤ 25 ∧
      SinkRegs.init.room (w + 8) 8 ∧ SinkRegs.init.room (w + 16) 8 ∧ SinkRegs.init.room w 8 ∧ 3 < 2 ^ w := by
  unfold SinkRegs.room
  rintro w (rfl | rfl) <;> exact ⟨sink_inv _ _, by decide⟩

/-- EOS at width 3 in an empty sink: one character, padded to four for BASE64. -/
theorem witness_EncEosToken : SinkInv (encAt .base64 { EncRegs.init with width := 3 } .init []) ∧
    (1 = SinkRegs.init.outN + (SinkRegs.init.pos + 3) / 6 + 1) ∧ 4 * ((1 + 3) / 4) ≤ small.outCap :=
  ⟨sink_inv _ _, by decide⟩

/-- One character of room: too little for a literal, for a code of 12 bits, for EOS at width 12, and for the `===` after
EOS at width 3. -/
theorem witness_OutputFullRaisesResource : SinkInv { encAt .base64 .init .init [] with cfg := { small with outCap := 1 } } ∧
    ¬ SinkRegs.init.room (2 + 8 + 8) 1 ∧ ¬ SinkRegs.init.room (2 + 16) 1 ∧ ¬ SinkRegs.init.room 12 1 ∧
      1 < SinkRegs.init.outN + (SinkRegs.init.pos + 12) / 6 + 1 ∧ 1 < 4 * ((1 + 3) / 4) := by
  unfold SinkRegs.room
  exact ⟨⟨Nat.zero_le _, by decide, Nat.zero_le _, rfl⟩, by decide⟩

theorem witness_FieldTooNarrowIsAFault : 2 ^ (encAt .uri .init .init []).enc.width ≤ 4 := by decide

theorem witness_Base64LengthIsAMultipleOfFour : Inv c0 ∧ c0.stage = .start ∧ c0.opl = .compress ∧
    c0.alphl = .base64 ∧ ∃ t, engineRun 6 c0 = .next t ∧ t.status = .done :=
  ⟨c0_inv, rfl, rfl, rfl, _, engineRun_after 6 c0_inv, by decide⟩

theorem witness_CodeWidthGrowsByOne : Inv (after 3 c2) ∧ (after 3 c2).status = .busy ∧ (after 3 c2).stage ≠ .start ∧
    ∃ t, engineTurn (after 3 c2) = .next t ∧ t.enc.width = (after 3 c2).enc.width + 1 :=
  ⟨after_inv 3 c2_inv, by decide, by decide, _, rfl, by decide⟩

theorem witness_DecFirstLiterals : (decAt (DecRegs.init .reset) []).dec.next ≠ small.dictCap ∧
    (decAt (DecRegs.init .reset) []).dec.resLen ≠ small.outCap := by decide

/-- The decoder's registers of R211 meet its invariant. -/
theorem loop_inv : LoopInv 16 dec2 ∧ LoopInv 7 dec3 :=
  ⟨⟨by decide, by decide, by decide, by decide, ⟨by decide, by decide, by decide, by decide⟩⟩,
    ⟨by decide, by decide, by decide, by decide, ⟨by decide, by decide, by decide, by decide⟩⟩⟩

theorem witness_DecLiteralTokens : LoopInv 16 dec2 ∧ dictPhrase dec2.dict dec2.w = some [0x42] ∧
    dec2.next + 2 ≤ 16 ∧ dec2.resLen < 8 := ⟨loop_inv.1, by decide⟩

/-- A known code at both ends of its range, and the self-reference. -/
theorem witness_DecCodeTokens : LoopInv 16 dec2 ∧ Memory.wf [(0, 0x41), (1, 0x42)] ∧
    dictPhrase dec2.dict dec2.w = some [0x42] ∧ dec2.next < 16 ∧
    (dictPhrase dec2.dict 3 = some [0x41] ∧ dec2.resLen + 1 ≤ 8) ∧
    (dictPhrase dec2.dict 5 = some [0x41, 0x42] ∧ 5 < dec2.next) ∧
    6 = dec2.next ∧ dec2.resLen + ([0x42] ++ ([0x42] : Phrase).take 1).length ≤ 8 := ⟨loop_inv.1, by decide⟩

/-- DICT_CAP = D_NEXT = 7 with OUT full or not; D_NEXT one below DICT_CAP; OUT one unit too small. -/
theorem witness_DecCapacityErrors : LoopInv 7 dec3 ∧ dec3.next = 7 ∧ dec3.resLen ≤ 4 ∧
    (LoopInv 8 dec3 ∧ dec3.next + 1 = 8 ∧ dec3.resLen < 5) ∧
    (dictPhrase dec3.dict 6 = some [0x42, 0x41] ∧ 5 < dec3.resLen + 2 ∧ dec3.resLen + 2 ≤ 6) ∧
    7 = dec3.next ∧ dictPhrase dec3.dict dec3.w = some [0x41, 0x42] :=
  ⟨loop_inv.2, by decide, by decide,
    ⟨{ loop_inv.2 with next_le := by decide }, by decide, by decide⟩, by decide⟩

end Sys2Proof.Tests
end

section
/-! The family `10_state.md`: every step keeps the invariant, and how STATE leaves BUSY. Both follow from one inversion
of `step` (an access, a reset, or a turn of the engine) and what is known of each of the three. -/

namespace Sys2Proof.Machine

open Sys2Proof

/-- The engine is given the next turn: its event comes first, or no input waits (log entry 8). -/
def State.engineNext (s : State) : Prop := s.events = [] ∨ ∃ rest, s.events = .engine :: rest

/-- Everything a step that goes on can have been, with the waiting inputs and the event counter it leaves: a bus access
and its effect, a reset, or a turn of the engine. A free block with no input waiting counts as the turn of a free
engine, which does nothing (60_exceptions.md R269). -/
theorem step_next_cases {s t : State} (h : step s = .next t) :
    (∃ a rest, s.events = .access a :: rest ∧ ∃ n, HostEffect { s with events := rest, freeCtr := n } t) ∨
      (∃ rest, s.events = .reset :: rest ∧ ∃ n, t = State.resetWith s.cfg (s.resets + 1) n rest) ∨
      s.engineNext ∧ ∃ l n, engineTurn { s with events := l, freeCtr := n } = .next t := by
  rw [step_eq] at h
  split at h
  next a rest hev =>
    obtain ⟨u, hu, heff⟩ := access_effect a (s.take (.access a) rest)
    cases hu.symm.trans h
    exact .inl ⟨a, rest, hev, _, heff⟩
  next rest hev =>
    cases h
    exact .inr (.inl ⟨rest, hev, _, rfl⟩)
  next rest hev => exact .inr (.inr ⟨.inr ⟨rest, hev⟩, _, _, h⟩)
  next hev =>
    refine .inr (.inr ⟨.inl hev, ?_⟩)
    cases hb : s.busy with
    | true =>
      rw [hb] at h
      exact ⟨_, _, h⟩
    | false =>
      rw [hb] at h
      exact ⟨s.events, s.freeCtr, (engineTurn_free hb).trans h⟩

/-- A turn of the engine, busy or not, keeps the invariant. -/
theorem Inv.engineTurn {s t : State} (h : Inv s) (ht : engineTurn s = .next t) : Inv t := by
  cases hb : s.busy with
  | true =>
    obtain ⟨u, hu, hcase⟩ := engineTurn_busy h ((busy_iff s).mp hb)
    cases hu.symm.trans ht
    rcases hcase with hadv | ⟨_, _, _, hinv, _⟩
    · exact hadv.inv
    · exact hinv
  | false =>
    cases (engineTurn_free hb).symm.trans ht
    exact h

/-- An access while BUSY is only answered (44_host_interface.md R221, 20_memory.md R72). -/
theorem HostEffect.busy {s t : State} (h : HostEffect s t) (hb : s.status = .busy) : ∃ r, t = s.respond r := by
  have himp : s.busy ≠ false := by rw [(busy_iff s).mpr hb]; simp
  cases h with
  | answer r => exact ⟨r, rfl⟩
  | mode hf | start hf | illegal hf | inLen hf | inElem hf => exact absurd hf himp

/-- The completion step reports a result in DONE and an error in ERROR (44_host_interface.md R234, R235). -/
theorem completion_status (r : RunResult) (s : State) :
    (∃ m, r = .ok m ∧ (s.completion r).status = .done) ∨ ∃ e, r = .err e ∧ (s.completion r).status = .error := by
  cases r with
  | ok m => exact .inl ⟨m, rfl, rfl⟩
  | err e => exact .inr ⟨e, rfl, rfl⟩

/-- A turn of the engine after which STATE is no longer BUSY is the completion step (10_state.md R23). -/
theorem engineTurn_leaves_busy {s t : State} (h : Inv s) (hb : s.status = .busy) (ht : engineTurn s = .next t)
    (hn : t.status ≠ .busy) : ∃ r, s.stage = .complete r ∧ t = s.completion r := by
  obtain ⟨u, hu, hcase⟩ := engineTurn_busy h hb
  cases hu.symm.trans ht
  rcases hcase with hadv | ⟨r, hstage, heq, _, _⟩
  · exact absurd (hadv.frame.status.trans hb) hn
  · exact ⟨r, hstage, heq⟩

/-- Settles O3, by what each kind of step can do: an effect of an access, a reset, a turn of the engine. -/
theorem stepKeepsTheInvariant : Obligations.StepKeepsTheInvariant := by
  intro s t h hstep
  rcases step_next_cases hstep with ⟨_, rest, _, n, heff⟩ | ⟨rest, _, n, rfl⟩ | ⟨_, l, n, hturn⟩
  · exact (h.inputs rest n).hostEffect heff
  · exact Inv.resetWith h.host.cfg _ _ _
  · exact (h.inputs l n).engineTurn hturn

/-- Settles O10: an access while BUSY is only answered, and the one turn of the engine that ends BUSY is the completion
step. -/
theorem busyEndsOnlyByCompletionOrReset : Obligations.BusyEndsOnlyByCompletionOrReset := by
  intro s t h hb hstep hn
  rcases step_next_cases hstep with ⟨_, rest, _, n, heff⟩ | ⟨rest, hev, n, rfl⟩ | ⟨hnext, l, n, hturn⟩
  · obtain ⟨r, rfl⟩ := heff.busy hb
    exact absurd hb hn
  · exact .inl ⟨rest, hev, rfl⟩
  · obtain ⟨r, hstage, rfl⟩ := engineTurn_leaves_busy (h.inputs l n) hb hturn hn
    refine .inr ⟨hnext, ?_⟩
    rcases completion_status r { s with events := l, freeCtr := n } with ⟨m, rfl, hdone⟩ | ⟨e, rfl, herr⟩
    · exact .inl ⟨m, hstage, hdone⟩
    · exact .inr ⟨e, hstage, herr⟩

end Sys2Proof.Machine
end

section
/-! The family `20_memory.md`, bus accesses: which of them are legal, what they answer, and that no read has a side
effect. -/

namespace Sys2Proof.Machine

open Sys2Proof

/-! ### Legal and illegal accesses -/

/-- Settles O38: the row of an illegal access is the bus error response alone. -/
theorem illegalAccessGetsBusError : Obligations.IllegalAccessGetsBusError :=
  fun _ _ _ _ => rfl

/-- A word index beyond those of 10_state.md R20 is a reserved one. -/
theorem decodeRegister_reserved {i : Nat} (h : 9 ≤ i) (a : AccessKind) :
    decodeRegister i a = .rwReservedReg (BitVec.ofNat 10 i) a := by
  obtain ⟨j, rfl⟩ := Nat.exists_eq_add_of_le' h
  rfl

/-- Settles O35, by the register page of the decoder. -/
theorem reservedRegisters : Obligations.ReservedRegisters := by
  intro s i v h9 hi
  refine ⟨fun a => ?_, rfl, .ack, by simp, rfl⟩
  rw [decodeAccess_reg s.cfg i hi, decodeRegister_reserved h9]

/-- An element `k` of a window at `base` is the offset `base + 4 * k`. -/
theorem window_iff {n base cap : Nat} (hn : n % 4 = 0) (hbase : base % 4 = 0) :
    (∃ k < cap, n = base + 4 * k) ↔ base ≤ n ∧ n < base + 4 * cap := by
  constructor
  · rintro ⟨k, hk, rfl⟩; omega
  · rintro ⟨h1, h2⟩; exact ⟨(n - base) / 4, by omega, by omega⟩

/-- The decoder's test is legality in the sense of 20_memory.md R62 with the map of R61. -/
theorem accessLegal_iff {p : Params} (hp : p.wf) (n : Nat) (w : AccessWidth) :
    accessLegal p n w = true ↔ w = .w32 ∧ n % 4 = 0 ∧ Mapped p n := by
  obtain ⟨⟨_, hin⟩, ⟨_, hout⟩, _⟩ := hp
  simp only [accessLegal, Bool.and_eq_true, Bool.or_eq_true, beq_iff_eq, decide_eq_true_eq, and_assoc]
  refine and_congr_right fun _ => and_congr_right fun hn => ?_
  unfold Mapped
  rw [window_iff hn (by norm_num), window_iff hn (by norm_num)]
  omega

/-- An access decodes to the illegal row exactly where the test of its legality fails (20_memory.md R62, R66). -/
theorem decodeAccess_illegal_iff (p : Params) (b : BusAccess) :
    (∃ off w a, decodeAccess p b = .busIllegal off w a) ↔
      accessLegal p (b.addr - p.baseAddr).toNat b.width = false := by
  constructor
  · rintro ⟨off, w, a, h⟩; exact accessLegal_of_illegal h
  · intro h
    have haddr : p.baseAddr + (b.addr - p.baseAddr) = b.addr := by
      rw [BitVec.add_comm, BitVec.sub_add_cancel]
    exact ⟨_, _, _, haddr ▸ decodeAccess_ill p (b.addr - p.baseAddr) b.width b.kind h⟩

/-- Settles O20, by what the decoder's test of legality says. -/
theorem legalAccesses : Obligations.LegalAccesses := by
  intro p b hp
  have hiff := decodeAccess_illegal_iff p b
  rw [← Bool.not_eq_true, accessLegal_iff hp] at hiff
  refine ⟨hiff, fun s hnot => ?_⟩
  obtain ⟨off, w, a, h⟩ := hiff.mpr hnot
  rw [h]
  exact illegalAccessGetsBusError s off w a

/-! ### What a read can see -/

theorem SameReads.respond (s : State) (r : Response) : SameReads s (s.respond r) :=
  ⟨rfl, rfl, rfl, rfl, rfl, rfl, rfl, rfl, rfl, fun _ => ⟨rfl, rfl, rfl⟩⟩

/-- Taking an input changes nothing that a read can see, where the event counter stays. -/
theorem SameReads.take {s : State} {e : Event} (h : s.nextFree e = s.freeCtr) (rest : List Event) :
    SameReads s (s.take e rest) :=
  ⟨rfl, rfl, rfl, rfl, rfl, rfl, rfl, rfl, h, fun _ => ⟨rfl, rfl, rfl⟩⟩

/-- States that answer every read alike give the host the same view. -/
theorem SameReads.view {s t : State} (h : SameReads s t) : t.view = s.view := by
  obtain ⟨hcfg, hop, halph, hstatus, herr, hinLen, hinBuf, _, _, hresult⟩ := h
  unfold State.view State.ctrlWord State.statusWord State.busy
  rw [hcfg, hop, halph, hstatus, herr, hinLen, hinBuf]
  by_cases hb : s.status = .busy
  · simp [hb]
  · obtain ⟨houtLen, herrInfo, houtBuf⟩ := hresult hb
    rw [houtLen, herrInfo, houtBuf]

/-! ### Events that write nothing -/

/-- The event is a turn of the engine, a read, or an illegal access. -/
def Quiet (p : Params) (e : Event) : Prop :=
  e = .engine ∨ ∃ a, e = .access a ∧ (a.kind = .read ∨ ∃ off w k, decodeAccess p a = .busIllegal off w k)

theorem Quiet.nextFree {s : State} {e : Event} (h : Quiet s.cfg e) (hs : s.status ≠ .busy) :
    s.nextFree e = s.freeCtr := by
  refine nextFree_quiet ((not_busy_iff s).mpr hs) ?_
  rcases h with rfl | ⟨a, rfl, hread | ⟨off, w, k, hill⟩⟩
  · exact writesNothing_engine s
  · exact writesNothing_read hread s
  · exact writesNothing_illegal hill

/-- Taking an event that writes nothing, while STATE is not BUSY, changes nothing that a read can see. -/
theorem Quiet.take {s : State} {e : Event} (h : Quiet s.cfg e) (hs : s.status ≠ .busy) (rest : List Event) :
    SameReads s (s.take e rest) := .take (h.nextFree hs) rest

/-- A step that takes an event that writes nothing, while STATE is not BUSY, changes nothing that a read can see
(20_memory.md R66, R70, 60_exceptions.md R269). -/
theorem Quiet.step {s : State} {e : Event} {rest : List Event} (h : Quiet s.cfg e) (hs : s.status ≠ .busy)
    (hev : s.events = e :: rest) : ∃ t, step s = .next t ∧ SameReads s t ∧ t.events = rest := by
  have htake := h.take hs rest
  have answered : ∀ r, SameReads s ((s.take e rest).respond r) := fun r => htake.trans (.respond _ r)
  rw [step_eq, hev]
  rcases h with rfl | ⟨a, rfl, hread | ⟨off, w, k, hill⟩⟩
  · exact ⟨_, engineTurn_free ((not_busy_iff _).mpr hs), htake, rfl⟩
  · obtain ⟨r, hr, _⟩ := read_same (SameReads.refl (s.take (.access a) rest)) hread
    exact ⟨_, hr, answered r, rfl⟩
  · exact ⟨_, congrArg (exec · (s.take (.access a) rest)) hill, answered _, rfl⟩

/-- Any number of such steps changes nothing that a read can see. -/
theorem stepRun_quiet {s : State} {mid rest : List Event} (hmid : ∀ e ∈ mid, Quiet s.cfg e) (hs : s.status ≠ .busy)
    (hev : s.events = mid ++ rest) :
    ∃ t, stepRun mid.length s = .next t ∧ SameReads s t ∧ t.events = rest := by
  induction mid generalizing s with
  | nil => exact ⟨s, rfl, .refl s, hev⟩
  | cons e mid ih =>
    obtain ⟨t, ht, hst, htev⟩ := (hmid e List.mem_cons_self).step hs hev
    obtain ⟨u, hu, htu, huev⟩ := ih (fun e he => hst.cfg ▸ hmid e (List.mem_cons_of_mem _ he)) (hst.status ▸ hs) htev
    exact ⟨u, by simp only [List.length_cons, stepRun, ht, hu], hst.trans htu, huev⟩

/-- A read that two states with the same things to see take next, while STATE is not BUSY, is answered alike. -/
theorem step_read_same {s u : State} (h : SameReads s u) {b : BusAccess} {rest rest' : List Event}
    (hs : s.status ≠ .busy) (hb : b.kind = .read) (hev : s.events = .access b :: rest)
    (hev' : u.events = .access b :: rest') : ∃ t v, step s = .next t ∧ step u = .next v ∧ v.resp = t.resp := by
  have hq : ∀ p, Quiet p (.access b) := fun _ => .inr ⟨b, rfl, .inl hb⟩
  obtain ⟨r, hr, ht⟩ := read_same ((hq s.cfg).take hs rest) hb
  obtain ⟨r', hr', hv⟩ := read_same (h.trans ((hq u.cfg).take (h.status ▸ hs) rest')) hb
  have hrr : r' = r := by
    have hnext := hr'.symm.trans hr
    rw [Host.Outcome.next.injEq] at hnext
    exact congrArg State.resp hnext
  refine ⟨(s.take (.access b) rest).respond r, (u.take (.access b) rest').respond r', ?_, ?_, hrr⟩
  · rw [step_eq, hev]; exact ht
  · rw [step_eq, hev']; exact h.cfg ▸ hv

/-- Settles O39: a read is only answered, by what it sees of the state; and reads, illegal accesses and turns of the
idle engine change nothing of that. -/
theorem readsHaveNoSideEffect : Obligations.ReadsHaveNoSideEffect := by
  constructor
  · intro s b hb
    obtain ⟨r, hr, _⟩ := read_same (SameReads.refl s) hb
    exact ⟨r, hr⟩
  · intro s b mid rest hs hb hmid hev
    obtain ⟨t, ht, hst, htev⟩ := Quiet.step (.inr ⟨b, rfl, .inl hb⟩) hs hev
    obtain ⟨u, hu, htu, huev⟩ := stepRun_quiet (fun e he => hst.cfg ▸ hmid e he) (hst.status ▸ hs) htev
    obtain ⟨t', v, ht', hv, hresp⟩ := step_read_same (hst.trans htu) hs hb hev huev
    cases ht.symm.trans ht'
    exact ⟨t, u, v, ht, hu, hv, hresp⟩

/-! ### The engine's work before the completion step -/

/-- A step that leaves STATE at BUSY changes nothing that a read can see, but for the event counter. -/
theorem step_busy_sameReads {s t : State} (h : Inv s) (hs : s.status = .busy) (ht : t.status = .busy)
    (hstep : step s = .next t) : SameReads s { t with freeCtr := s.freeCtr } := by
  rcases step_next_cases hstep with ⟨_, rest, _, n, heff⟩ | ⟨rest, _, n, rfl⟩ | ⟨_, l, n, hturn⟩
  · obtain ⟨r, rfl⟩ := heff.busy hs
    exact ⟨rfl, rfl, rfl, rfl, rfl, rfl, rfl, rfl, rfl, fun hc => absurd hs hc⟩
  · cases ht
  · obtain ⟨u, hu, hcase⟩ := engineTurn_busy (h.inputs l n) hs
    cases hu.symm.trans hturn
    rcases hcase with hadv | ⟨_, _, _, _, hfree⟩
    · have f := hadv.frame
      exact ⟨f.cfg, f.ctrlOp, f.ctrlAlph, f.status, f.err, f.inLen, f.inBuf, f.resets, rfl, fun hc => absurd hs hc⟩
    · exact absurd ht hfree

/-- Settles O9: what such a step leaves as it was is all that the view and every read access depend on. -/
theorem resultsAppearOnlyAtCompletion : Obligations.ResultsAppearOnlyAtCompletion := by
  intro s t h hs ht hstep
  have hsame := step_busy_sameReads h hs ht hstep
  refine ⟨hsame.view, fun b hb => ?_⟩
  obtain ⟨r, hr, hr'⟩ := read_same hsame hb
  have hcfg : t.cfg = s.cfg := hsame.cfg
  exact ⟨r, hr, hcfg ▸ hr'⟩

end Sys2Proof.Machine
end

section
/-! The family `20_memory.md`, two runs side by side. A relation of states that agrees on all the engine reads, and that
the engine's writes keep, is kept by every block of its pseudocode. The two noninterference statements are two such
relations. -/

namespace Sys2Proof.Machine

open Sys2Proof

/-! ### Related results -/

/-- Two engine operations went on alike to states related by `R`, raised the same error in states related by `Q`, or
stopped alike. -/
inductive Eng.Rel {α : Type} (R Q : State → State → Prop) : Eng α → Eng α → Prop
  | ok {s s' : State} (a : α) (h : R s s') : Eng.Rel R Q (.ok a s) (.ok a s')
  | raise {s s' : State} (e : OpError) (h : Q s s') : Eng.Rel R Q (.raise e s) (.raise e s')
  | stop (f : Fault) : Eng.Rel R Q (.stop f) (.stop f)

/-- Two steps went on to states related by `T`, or stopped alike. -/
inductive OutcomeRel (T : State → State → Prop) :
    Host.Outcome State Fault Refusal → Host.Outcome State Fault Refusal → Prop
  | next {s s' : State} (h : T s s') : OutcomeRel T (.next s) (.next s')
  | fault (f : Fault) : OutcomeRel T (.fault f) (.fault f)
  | refused (r : Refusal) : OutcomeRel T (.refused r) (.refused r)

theorem Eng.Rel.bind {α β : Type} {R R' Q : State → State → Prop} {x x' : Eng α} {f f' : α → State → Eng β}
    (hx : Eng.Rel R Q x x') (hf : ∀ a s s', R s s' → Eng.Rel R' Q (f a s) (f' a s')) :
    Eng.Rel R' Q (x.bind f) (x'.bind f') := by
  cases hx with
  | ok a h => exact hf a _ _ h
  | raise e h => exact .raise e h
  | stop f => exact .stop f

theorem Eng.Rel.outcome {R Q T : State → State → Prop} {x x' : Eng Unit} (hx : Eng.Rel R Q x x')
    (hR : ∀ {s s'}, R s s' → T s s') (hQ : ∀ {s s'}, Q s s' → ∀ r, T (s.returned r) (s'.returned r)) :
    OutcomeRel T x.outcome x'.outcome := by
  cases hx with
  | ok a h => exact .next (hR h)
  | raise e h => exact .next (hQ h _)
  | stop f => exact .fault f

theorem OutcomeRel.mono {R T : State → State → Prop} {x x' : Host.Outcome State Fault Refusal}
    (hx : OutcomeRel R x x') (hT : ∀ {s s'}, R s s' → T s s') : OutcomeRel T x x' := by
  cases hx with
  | next h => exact .next (hT h)
  | fault f => exact .fault f
  | refused r => exact .refused r

/-- Where the first step goes on, so does the second. -/
theorem OutcomeRel.of_next {T : State → State → Prop} {t : State} {x : Host.Outcome State Fault Refusal}
    (h : OutcomeRel T (.next t) x) : ∃ t', x = .next t' ∧ T t t' := by
  cases h with
  | next h => exact ⟨_, rfl, h⟩

/-- A relation that every turn keeps is kept by any number of turns. -/
theorem OutcomeRel.engineRun {T : State → State → Prop} (hbusy : ∀ {s s'}, T s s' → s'.busy = s.busy)
    (hturn : ∀ {s s'}, T s s' → OutcomeRel T (engineTurn s) (engineTurn s')) (n : Nat) {s s' : State} (h : T s s') :
    OutcomeRel T (engineRun n s) (engineRun n s') := by
  induction n generalizing s s' with
  | zero => exact .next h
  | succ n ih =>
    unfold Machine.engineRun
    rw [hbusy h]
    split
    · have ht := hturn h
      revert ht
      generalize engineTurn s = x, engineTurn s' = x'
      rintro (h | f | r)
      · exact ih h
      · exact .fault f
      · exact .refused r
    · exact .next h

/-! ### Relations of two runs -/

/-- The two operations have the same input: the parameters, OPL, ALPHL, and the snapshot below its length. -/
structure SameInput (s s' : State) : Prop where
  cfg     : s'.cfg = s.cfg
  opl     : s'.opl = s.opl
  alphl   : s'.alphl = s.alphl
  snapLen : s'.snapLen = s.snapLen
  memRead : ∀ k < s.snapLen.toNat, s'.memRead k = s.memRead k

/-- `R` relates states with the same input, STATE, OUT and place in Run, and is kept where Run returns or completes, and
where OUT is written. -/
structure EngRel (R : State → State → Prop) : Prop where
  input      : ∀ {s s'}, R s s' → SameInput s s'
  status     : ∀ {s s'}, R s s' → s'.status = s.status
  stage      : ∀ {s s'}, R s s' → s'.stage = s.stage
  outBuf     : ∀ {s s'}, R s s' → s'.outBuf = s.outBuf
  setOut     : ∀ {s s'}, R s s' → ∀ m, R (s.setOut m) (s'.setOut m)
  returned   : ∀ {s s'}, R s s' → ∀ r, R (s.returned r) (s'.returned r)
  completion : ∀ {s s'}, R s s' → ∀ r, R (s.completion r) (s'.completion r)

/-- The places in Run outside which COMPRESS never goes once it has begun. -/
def Stage.encodes : Stage → Bool
  | .start => false
  | .decFirst => false
  | .decLoop => false
  | _ => true

/-- The places in Run outside which DECOMPRESS never goes after its first token. -/
def Stage.decodes : Stage → Bool
  | .decLoop => true
  | .complete _ => true
  | .idle => true
  | _ => false

/-- `R` relates two runs of COMPRESS. -/
structure EncRel (R : State → State → Prop) : Prop extends EngRel R where
  enc      : ∀ {s s'}, R s s' → s'.enc = s.enc
  sink     : ∀ {s s'}, R s s' → s'.sink = s.sink
  setEnc   : ∀ {s s'}, R s s' → ∀ e, R (s.setEnc e) (s'.setEnc e)
  setSink  : ∀ {s s'}, R s s' → ∀ k, R (s.setSink k) (s'.setSink k)
  setStage : ∀ {s s'}, R s s' → ∀ g, g.encodes = true → R (s.setStage g) (s'.setStage g)

/-- `R` relates two runs of DECOMPRESS as far as the bit source goes. -/
structure SourceRel (R : State → State → Prop) : Prop where
  input   : ∀ {s s'}, R s s' → SameInput s s'
  src     : ∀ {s s'}, R s s' → s'.src = s.src
  memRead : ∀ {s s'}, R s s' → s.src.idx ≠ s.src.ndata → s'.memRead s.src.idx = s.memRead s.src.idx
  fetch   : ∀ {s s'}, R s s' → s.src.idx ≠ s.src.ndata →
    ∀ g, R (s.setSrc (s.src.fetch g).take) (s'.setSrc (s.src.fetch g).take)
  take    : ∀ {s s'}, R s s' → R (s.setSrc s.src.take) (s'.setSrc s.src.take)

/-- `R` relates two runs of DECOMPRESS. -/
structure DecRel (R : State → State → Prop) : Prop extends EngRel R, SourceRel R where
  dec      : ∀ {s s'}, R s s' → s'.dec = s.dec
  setDec   : ∀ {s s'}, R s s' → ∀ d, R (s.setDec d) (s'.setDec d)
  setStage : ∀ {s s'}, R s s' → ∀ g, g.decodes = true → R (s.setStage g) (s'.setStage g)

variable {R : State → State → Prop} {s s' : State}

theorem EngRel.busy (hR : EngRel R) (h : R s s') : s'.busy = s.busy := by
  unfold State.busy; rw [hR.status h]

theorem EngRel.outcome (hR : EngRel R) {x x' : Eng Unit} (hx : Eng.Rel R R x x') :
    OutcomeRel R x.outcome x'.outcome := hx.outcome id hR.returned

/-! ### Turns at one place of Run -/

theorem engineTurn_idle (hb : s.busy = true) (hs : s.stage = .idle) : engineTurn s = .fault .noOperation := by
  unfold engineTurn; rw [hb, hs]; rfl

theorem engineTurn_start (hb : s.busy = true) (hs : s.stage = .start) : engineTurn s = (startRun s).outcome := by
  unfold engineTurn; rw [hb, hs]; rfl

theorem engineTurn_decFirst (hb : s.busy = true) (hs : s.stage = .decFirst) : engineTurn s = runToken 2 s := by
  unfold engineTurn; rw [hb, hs]; rfl

theorem engineTurn_complete (hb : s.busy = true) {r : RunResult} (hs : s.stage = .complete r) :
    engineTurn s = .next (s.completion r) := by
  unfold engineTurn; rw [hb, hs]; rfl

/-! ### The beginning of Run -/

theorem SameInput.inputUnits (h : SameInput s s') : s'.inputUnits = s.inputUnits := by
  unfold State.inputUnits
  rw [h.snapLen]
  exact List.map_congr_left fun k hk => h.memRead k (List.mem_range.mp hk)

/-- Two operations with the same input begin alike. -/
theorem SameInput.startRun {T : State → State → Prop} (h : SameInput s s')
    (hret : ∀ r, T (s.returned r) (s'.returned r))
    (henc : T ((sinkInit (encInit s)).setStage .encLoop) ((sinkInit (encInit s')).setStage .encLoop))
    (hdec : ∀ n ≤ s.snapLen.toNat,
      T ((decInit n s).setStage .decFirst) ((decInit n s').setStage .decFirst)) :
    OutcomeRel T (startRun s).outcome (startRun s').outcome := by
  unfold Machine.startRun startCompress startDecompress
  rw [h.cfg, h.opl, h.alphl, h.snapLen, h.inputUnits]
  split
  · exact .next (hret _)
  · split
    · split
      · exact .next (hret _)
      · exact .next henc
    · split
      · exact .next (hret _)
      · split
        · exact .next (hret _)
        · exact .next (hdec _ (inputUnits_length s ▸ dataLength_le _ _))

/-! ### The bit sink -/

theorem EncRel.pushed (hR : EncRel R) (h : R s s') (b : Bool) : R (s.pushed b) (s'.pushed b) := by
  unfold State.pushed
  rw [hR.sink h, hR.outBuf h, (hR.input h).alphl]
  exact hR.setOut (hR.setSink h _) _

theorem EncRel.shifted (hR : EncRel R) (h : R s s') (b : Bool) : R (s.shifted b) (s'.shifted b) := by
  unfold State.shifted
  rw [hR.sink h]
  exact hR.setSink h _

theorem EncRel.wrote (hR : EncRel R) (h : R s s') (ch : CodeUnit) : R (s.wrote ch) (s'.wrote ch) := by
  unfold State.wrote
  rw [hR.sink h, hR.outBuf h]
  exact hR.setOut (hR.setSink h _) _

theorem EncRel.pushBit (hR : EncRel R) (h : R s s') (b : Bool) : Eng.Rel R R (pushBit b s) (pushBit b s') := by
  rw [pushBit_eq, pushBit_eq, hR.sink h, (hR.input h).cfg]
  split
  · split
    · exact .raise _ h
    · exact .ok _ (hR.pushed h b)
  · exact .ok _ (hR.shifted h b)

theorem EncRel.pushBits (hR : EncRel R) (bs : List Bool) (h : R s s') :
    Eng.Rel R R (pushBits bs s) (pushBits bs s') := by
  induction bs generalizing s s' with
  | nil => exact .ok _ h
  | cons b bs ih => exact (hR.pushBit h b).bind fun _ _ _ ht => ih ht

theorem EncRel.emit (hR : EncRel R) (h : R s s') (v n : Nat) : Eng.Rel R R (emit v n s) (emit v n s') := by
  unfold Machine.emit
  rw [(hR.input h).cfg]
  split
  · exact hR.pushBits _ h
  · exact .stop _

theorem EncRel.flush (hR : EncRel R) (h : R s s') : Eng.Rel R R (flush s) (flush s') := by
  unfold Machine.flush
  rw [hR.sink h]
  exact hR.pushBits _ h

theorem EncRel.putPads (hR : EncRel R) (n : Nat) (h : R s s') : Eng.Rel R R (putPads n s) (putPads n s') := by
  induction n generalizing s s' with
  | zero => exact .ok _ h
  | succ n ih =>
    unfold Machine.putPads
    rw [putRaw_eq, putRaw_eq, hR.sink h, (hR.input h).cfg]
    split
    · exact .raise _ h
    · exact ih (hR.wrote h padChar)

theorem EncRel.padOut (hR : EncRel R) (h : R s s') : Eng.Rel R R (padOut s) (padOut s') := by
  unfold Machine.padOut
  rw [(hR.input h).alphl, hR.sink h]
  split
  · exact hR.putPads _ h
  · exact .ok _ h

/-! ### COMPRESS -/

theorem EncRel.encInsert (hR : EncRel R) (h : R s s') (p : Phrase) :
    Eng.Rel R R (encInsert p s) (encInsert p s') := by
  rw [encInsert_eq, encInsert_eq, hR.enc h, (hR.input h).cfg]
  split
  · exact .raise _ h
  · exact .ok _ (hR.setEnc h _)

theorem EncRel.encExtend (hR : EncRel R) (h : R s s') (c : CodeUnit) : R (encExtend c s) (encExtend c s') := by
  rw [encExtend_eq, encExtend_eq, hR.enc h]
  split
  · exact hR.setEnc h _
  · exact hR.setStage h _ rfl

/-- EncStep reads the unit at E_I. -/
theorem EncRel.encStep (hR : EncRel R) (h : R s s') (hi : s.enc.i < s.snapLen.toNat) :
    Eng.Rel R R (encStep s) (encStep s') := by
  rw [encStep_eq, encStep_eq, hR.enc h, (hR.input h).memRead _ hi, (hR.input h).cfg]
  split
  · exact .ok _ (hR.encExtend (hR.setEnc h _) _)
  · split
    · exact .raise _ (hR.setEnc h _)
    · exact .ok _ (hR.encExtend (hR.setEnc h _) _)

theorem EncRel.encHead (hR : EncRel R) (h : R s s') : Eng.Rel R R (encHead s) (encHead s') := by
  unfold Machine.encHead
  rw [hR.enc h, (hR.input h).snapLen]
  split
  · exact hR.encStep h ‹_›
  · exact .ok _ (hR.setStage h _ rfl)

theorem EncRel.encAfterBreak (hR : EncRel R) (h : R s s') (c : CodeUnit) :
    Eng.Rel R R (encAfterBreak c s) (encAfterBreak c s') := by
  unfold Machine.encAfterBreak
  rw [hR.enc h]
  refine (hR.encInsert h _).bind fun _ t t' ht => ?_
  rw [hR.enc ht]
  exact .ok _ (hR.setEnc ht _)

theorem EncRel.emitLiteral (hR : EncRel R) (h : R s s') (t n : Nat) (u : CodeUnit) :
    Eng.Rel R R (emitLiteral t n u s) (emitLiteral t n u s') := by
  unfold Machine.emitLiteral
  rw [hR.enc h]
  refine (hR.emit h _ _).bind fun _ _ _ h₁ => (hR.emit h₁ _ _).bind fun _ _ _ h₂ => ?_
  rw [hR.enc h₂]
  exact .ok _ (hR.setEnc h₂ _)

theorem EncRel.encCode (hR : EncRel R) (h : R s s') (k : Nat) :
    OutcomeRel R (exec (.encCode k) s) (exec (.encCode k) s') := by
  show OutcomeRel R (execEncCode k s) (execEncCode k s')
  unfold execEncCode
  rw [hR.enc h]
  refine hR.outcome ((hR.emit h _ _).bind fun _ _ _ ht => ?_)
  rw [hR.enc ht]
  exact .ok _ (hR.setEnc ht _)

theorem EncRel.encEos (hR : EncRel R) (h : R s s') : OutcomeRel R (exec .encEos s) (exec .encEos s') := by
  show OutcomeRel R (execEncEos s) (execEncEos s')
  unfold execEncEos
  rw [hR.enc h]
  refine hR.outcome ((hR.emit h _ _).bind fun _ _ _ h₁ => (hR.flush h₁).bind fun _ _ _ h₂ =>
    (hR.padOut h₂).bind fun _ _ _ h₃ => ?_)
  rw [hR.sink h₃]
  exact .ok _ (hR.returned h₃ _)

/-- EmitPhrase chooses a literal or a code. -/
theorem chooseToken_cases {e : EncRegs} {i : Instr} (h : chooseToken e = some i) :
    (∃ c, i = .encLit8 c) ∨ (∃ c, i = .encLit16 c) ∨ ∃ k, i = .encCode k := by
  unfold chooseToken at h
  split at h
  · split at h
    · cases h
    · split at h
      · cases h; exact .inl ⟨_, rfl⟩
      · cases h; exact .inr (.inl ⟨_, rfl⟩)
  · obtain ⟨k, _, rfl⟩ := Option.map_eq_some_iff.mp h
    exact .inr (.inr ⟨k, rfl⟩)

theorem EncRel.emitPhrase (hR : EncRel R) (h : R s s') {after : Stage} (ha : after.encodes = true) :
    OutcomeRel R (emitPhrase after s) (emitPhrase after s') := by
  have hafter := hR.setStage h after ha
  unfold Machine.emitPhrase
  rw [hR.enc h]
  split
  · rename_i i hi
    rcases chooseToken_cases hi with ⟨c, rfl⟩ | ⟨c, rfl⟩ | ⟨k, rfl⟩
    · exact hR.outcome (hR.emitLiteral hafter 0 8 _)
    · exact hR.outcome (hR.emitLiteral hafter 1 16 _)
    · exact hR.encCode hafter k
  · exact .fault _

/-- A turn of COMPRESS keeps the relation. -/
theorem EncRel.engineTurn (hR : EncRel R) (h : R s s') (hg : s.stage.encodes = true) :
    OutcomeRel R (engineTurn s) (engineTurn s') := by
  unfold Machine.engineTurn
  rw [hR.busy h, hR.stage h]
  split
  · cases hs : s.stage with
    | start | decFirst | decLoop => rw [hs] at hg; cases hg
    | idle => exact .fault _
    | encLoop => exact hR.outcome (hR.encHead h)
    | encBreak c => exact hR.emitPhrase h rfl
    | encInsert c => exact hR.outcome (hR.encAfterBreak (hR.setStage h _ rfl) c)
    | encLast => exact hR.emitPhrase h rfl
    | encEos => exact hR.encEos h
    | complete r => exact .next (hR.completion h r)
  · exact .next h

/-! ### The bit source -/

theorem SourceRel.readBit (hR : SourceRel R) (h : R s s') : Eng.Rel R R (readBit s) (readBit s') := by
  rw [readBit_eq, readBit_eq, hR.src h, (hR.input h).alphl]
  split
  · split
    · exact .raise _ h
    · rename_i hidx
      rw [hR.memRead h hidx]
      split
      · exact .stop _
      · exact .ok _ (hR.fetch h hidx _)
  · exact .ok _ (hR.take h)

theorem SourceRel.readRaw (hR : SourceRel R) (n : Nat) (h : R s s') : Eng.Rel R R (readRaw n s) (readRaw n s') := by
  induction n generalizing s s' with
  | zero => exact .ok _ h
  | succ n ih => exact (hR.readBit h).bind fun _ _ _ ht => (ih ht).bind fun _ _ _ hu => .ok _ hu

theorem SourceRel.readToken (hR : SourceRel R) (h : R s s') (w : Nat) :
    Eng.Rel R R (readToken w s) (readToken w s') := by
  refine (hR.readRaw w h).bind fun m t t' ht => ?_
  rw [(hR.input ht).cfg]
  exact (hR.readRaw _ ht).bind fun _ _ _ hu => .ok _ hu

/-- Two runs that read alike and then run the token alike. -/
theorem SourceRel.runToken (hR : SourceRel R) (h : R s s') (w : Nat) {T : State → State → Prop}
    (hctx : s'.decodeCtx = s.decodeCtx) (hret : ∀ {t t'}, R t t' → ∀ r, T (t.returned r) (t'.returned r))
    (hexec : ∀ {t t' bits i}, R t t' → decode s.decodeCtx (.token bits) = .ok i →
      OutcomeRel T (exec i (t.setStage .decLoop)) (exec i (t'.setStage .decLoop))) :
    OutcomeRel T (runToken w s) (runToken w s') := by
  have hread := hR.readToken h w
  unfold Machine.runToken
  rw [hctx]
  revert hread
  generalize Machine.readToken w s = x, Machine.readToken w s' = x'
  rintro (⟨bits, ht⟩ | ⟨e, ht⟩ | f)
  · dsimp only
    split
    · exact hexec ht ‹_›
    · exact .fault _
  · exact .next (hret ht _)
  · exact .fault _

/-! ### DECOMPRESS -/

theorem DecRel.decInsert (hR : DecRel R) (h : R s s') (p : Phrase) :
    Eng.Rel R R (decInsert p s) (decInsert p s') := by
  rw [decInsert_eq, decInsert_eq, hR.dec h, (hR.toEngRel.input h).cfg]
  split
  · exact .raise _ h
  · exact .ok _ (hR.setDec h _)

theorem DecRel.appended (hR : DecRel R) (h : R s s') (u : CodeUnit) : R (s.appended u) (s'.appended u) := by
  unfold State.appended
  rw [hR.dec h, hR.outBuf h]
  exact hR.setOut (hR.setDec h _) _

theorem DecRel.append (hR : DecRel R) (p : Phrase) (h : R s s') : Eng.Rel R R (append p s) (append p s') := by
  induction p generalizing s s' with
  | nil => exact .ok _ h
  | cons u p ih =>
    unfold Machine.append
    rw [appendUnit_eq, appendUnit_eq, hR.dec h, (hR.toEngRel.input h).cfg]
    split
    · exact .raise _ h
    · exact ih (hR.appended h u)

theorem DecRel.tail (hR : DecRel R) (h : R s s') (k : Nat) : Eng.Rel R R (tail k s) (tail k s') := by
  unfold Machine.tail
  rw [hR.dec h]
  split
  · refine (hR.append _ h).bind fun _ _ _ ht => (hR.decInsert ht _).bind fun _ _ _ hv => ?_
    rw [hR.dec hv]
    exact .ok _ (hR.setDec hv _)
  · exact .stop _
  · exact .stop _
  · exact .stop _

theorem DecRel.loopLiteral (hR : DecRel R) (h : R s s') (c : CodeUnit) :
    Eng.Rel R R (loopLiteral c s) (loopLiteral c s') := by
  refine (hR.decInsert h _).bind fun _ t t' ht => ?_
  rw [hR.dec ht]
  exact hR.tail (hR.setDec ht _) _

/-- A token of the loop is a literal, EOS or a code (30_encoding.md R96). -/
theorem decode_loop_cases {c : DecodeCtx} {bits : List Bool} {i : Instr} (hc : c.side = .loop)
    (h : decode c (.token bits) = .ok i) :
    (∃ u, i = .decLit8 u) ∨ (∃ u, i = .decLit16 u) ∨ i = .decEos ∨ (∃ k, i = .decCodeKnown k) ∨
      (∃ k, i = .decCodeSelf k) ∨ ∃ k, i = .decCodeCorrupt k := by
  unfold decode decodeToken decodeLoopToken at h
  rw [hc] at h
  dsimp only at h
  split_ifs at h <;> cases h <;> simp

/-- A first token is a literal, EOS or a corrupt code (43_decoder.md R193 to R196). -/
theorem decode_first_cases {c : DecodeCtx} {bits : List Bool} {i : Instr} (hc : c.side = .first)
    (h : decode c (.token bits) = .ok i) :
    (∃ u, i = .decFirstLit8 u) ∨ (∃ u, i = .decFirstLit16 u) ∨ i = .decFirstEos ∨ i = .decFirstCorrupt := by
  unfold decode decodeToken decodeFirstToken at h
  rw [hc] at h
  dsimp only at h
  split_ifs at h <;> cases h <;> simp

theorem decodeCtx_decLoop (h : s.stage = .decLoop) :
    s.decodeCtx = { cfg := s.cfg, busy := s.busy, side := .loop, width := s.dec.width, next := s.dec.next } := by
  unfold State.decodeCtx; rw [h]

theorem decodeCtx_decFirst (h : s.stage = .decFirst) :
    s.decodeCtx = { cfg := s.cfg, busy := s.busy, side := .first, width := 2, next := s.dec.next } := by
  unfold State.decodeCtx; rw [h]

/-- A token of the loop keeps the relation. -/
theorem DecRel.execLoop (hR : DecRel R) (h : R s s') {c : DecodeCtx} {bits : List Bool} {i : Instr}
    (hc : c.side = .loop) (hi : decode c (.token bits) = .ok i) : OutcomeRel R (exec i s) (exec i s') := by
  rcases decode_loop_cases hc hi with ⟨u, rfl⟩ | ⟨u, rfl⟩ | rfl | ⟨k, rfl⟩ | ⟨k, rfl⟩ | ⟨k, rfl⟩
  · exact hR.outcome (hR.loopLiteral h _)
  · exact hR.outcome (hR.loopLiteral h _)
  · show OutcomeRel R (.next (s.returned (.ok s.dec.resLen))) (.next (s'.returned (.ok s'.dec.resLen)))
    rw [hR.dec h]
    exact .next (hR.returned h _)
  · exact hR.outcome (hR.tail h k)
  · exact hR.outcome (hR.tail h k)
  · exact .next (hR.returned h _)

/-- A turn of DECOMPRESS after its first token keeps the relation. -/
theorem DecRel.engineTurn (hR : DecRel R) (h : R s s') (hg : s.stage.decodes = true) :
    OutcomeRel R (engineTurn s) (engineTurn s') := by
  have hctx : s.stage = .decLoop → s'.decodeCtx = s.decodeCtx := fun hs => by
    rw [decodeCtx_decLoop hs, decodeCtx_decLoop ((hR.stage h).trans hs), (hR.toEngRel.input h).cfg, hR.busy h, hR.dec h]
  unfold Machine.engineTurn
  rw [hR.busy h, hR.stage h]
  split
  · cases hs : s.stage with
    | idle => exact .fault _
    | decLoop =>
      dsimp only
      rw [hR.dec h]
      refine hR.toSourceRel.runToken h _ (hctx hs) hR.returned fun ht hi => ?_
      exact hR.execLoop (hR.setStage ht _ rfl) (by rw [decodeCtx_decLoop hs]) hi
    | complete r => exact .next (hR.completion h r)
    | start | encLoop | encBreak | encInsert | encLast | encEos | decFirst => rw [hs] at hg; cases hg
  · exact .next h

/-- What it takes for the first token to lead from `P`, where D_W may still differ, to `R`: Seed reads no D_W
(43_decoder.md R197), and where Run returns only `T` is asked for. -/
structure FirstRel (P R T : State → State → Prop) : Prop where
  source   : SourceRel P
  loop     : DecRel R
  regs     : ∀ {s s'}, P s s' → s'.dec.setW 3 = s.dec.setW 3
  enter    : ∀ {s s'}, P s s' → ∀ d, R ((s.setStage .decLoop).setDec d) ((s'.setStage .decLoop).setDec d)
  imp      : ∀ {s s'}, R s s' → T s s'
  returned : ∀ {s s'}, P s s' → ∀ r, T (s.returned r) (s'.returned r)

variable {P T : State → State → Prop}

theorem FirstRel.next (hF : FirstRel P R T) (h : P s s') : s'.dec.next = s.dec.next := by
  have hnext : (s'.dec.setW 3).next = (s.dec.setW 3).next := congrArg DecRegs.next (hF.regs h)
  exact hnext

/-- All that Seed can do (43_decoder.md R197). -/
theorem seed_eq (c : CodeUnit) (s : State) :
    seed c s = if s.dec.next = s.cfg.dictCap then .raise (.resource .dictionary) s
      else append [c] (s.setDec ((s.dec.setW 3).insert [c]).tick) := by
  unfold seed
  rw [decInsert_eq]
  split <;> rfl

/-- Seed writes D_W without reading it, so it makes the decoder registers alike. -/
theorem FirstRel.seed (hF : FirstRel P R T) (h : P s s') (c : CodeUnit) :
    OutcomeRel T (seed c (s.setStage .decLoop)).outcome (seed c (s'.setStage .decLoop)).outcome := by
  rw [seed_eq, seed_eq, setStage_dec, setStage_dec, setStage_cfg, setStage_cfg, hF.next h, hF.regs h,
    (hF.source.input h).cfg]
  split
  · exact .next (hF.returned h _)
  · exact (hF.loop.append [c] (hF.enter h _)).outcome hF.imp fun ht r => hF.imp (hF.loop.returned ht r)

/-- The first token leads from `P` to `R`. -/
theorem FirstRel.runToken (hF : FirstRel P R T) (h : P s s') (hs : s.stage = .decFirst) (hs' : s'.stage = .decFirst)
    (hb : s'.busy = s.busy) : OutcomeRel T (runToken 2 s) (runToken 2 s') := by
  have hctx : s'.decodeCtx = s.decodeCtx := by
    rw [decodeCtx_decFirst hs, decodeCtx_decFirst hs', (hF.source.input h).cfg, hb, hF.next h]
  refine hF.source.runToken h 2 hctx hF.returned fun ht hi => ?_
  rcases decode_first_cases (by rw [decodeCtx_decFirst hs]) hi with ⟨u, rfl⟩ | ⟨u, rfl⟩ | rfl | rfl
  · exact hF.seed ht _
  · exact hF.seed ht _
  · exact .next (hF.returned ht _)
  · exact .next (hF.returned ht _)

end Sys2Proof.Machine
end

section
/-! The family `20_memory.md`, noninterference: an access while BUSY leaves the engine's run as it is, and two
operations with the same input end alike. -/

namespace Sys2Proof.Machine

open Sys2Proof

/-! ### A state and the same state with an answer given -/

/-- The second state is the first with only the response port changed, to `r`. -/
def Answered (r : Response) (s s' : State) : Prop := s' = s.respond r

variable {r : Response} {s s' : State}

theorem Answered.input (h : Answered r s s') : SameInput s s' := by
  subst h; exact ⟨rfl, rfl, rfl, rfl, fun _ _ => rfl⟩

theorem completion_respond (r : Response) (x : RunResult) (s : State) :
    (s.respond r).completion x = (s.completion x).respond r := by
  cases x <;> rfl

theorem answered_engRel : EngRel (Answered r) where
  input h := h.input
  status := by rintro _ _ rfl; rfl
  stage := by rintro _ _ rfl; rfl
  outBuf := by rintro _ _ rfl; rfl
  setOut := by rintro _ _ rfl _; rfl
  returned := by rintro _ _ rfl _; rfl
  completion := by rintro _ _ rfl x; exact completion_respond _ x _

theorem answered_encRel : EncRel (Answered r) where
  toEngRel := answered_engRel
  enc := by rintro _ _ rfl; rfl
  sink := by rintro _ _ rfl; rfl
  setEnc := by rintro _ _ rfl _; rfl
  setSink := by rintro _ _ rfl _; rfl
  setStage := by rintro _ _ rfl _ _; rfl

theorem answered_sourceRel : SourceRel (Answered r) where
  input h := h.input
  src := by rintro _ _ rfl; rfl
  memRead := by rintro _ _ rfl _; rfl
  fetch := by rintro _ _ rfl _ _; rfl
  take := by rintro _ _ rfl; rfl

theorem answered_decRel : DecRel (Answered r) where
  __ := answered_engRel
  __ := answered_sourceRel
  dec := by rintro _ _ rfl; rfl
  setDec := by rintro _ _ rfl _; rfl
  setStage := by rintro _ _ rfl _ _; rfl

theorem answered_firstRel : FirstRel (Answered r) (Answered r) (Answered r) where
  source := answered_sourceRel
  loop := answered_decRel
  regs := by rintro _ _ rfl; rfl
  enter := by rintro _ _ rfl _; rfl
  imp := id
  returned := answered_engRel.returned

/-- A turn of the engine is the same whatever the port has answered. -/
theorem Answered.engineTurn (h : Answered r s s') : OutcomeRel (Answered r) (engineTurn s) (engineTurn s') := by
  have hbusy := answered_engRel.busy h
  cases hb : s.busy with
  | false =>
    rw [engineTurn_free hb, engineTurn_free (hbusy.trans hb)]
    exact .next h
  | true =>
    have hb' := hbusy.trans hb
    cases hs : s.stage with
    | start =>
      rw [engineTurn_start hb hs, engineTurn_start hb' ((answered_engRel.stage h).trans hs)]
      refine h.input.startRun (answered_engRel.returned h) ?_ fun n _ => ?_
      · cases h; rfl
      · cases h; rfl
    | decFirst =>
      rw [engineTurn_decFirst hb hs, engineTurn_decFirst hb' ((answered_engRel.stage h).trans hs)]
      exact answered_firstRel.runToken h hs ((answered_engRel.stage h).trans hs) hbusy
    | decLoop => exact answered_decRel.engineTurn h (by rw [hs]; rfl)
    | idle | encLoop | encBreak | encInsert | encLast | encEos | complete =>
      exact answered_encRel.engineTurn h (by rw [hs]; rfl)

/-- Settles O8: an access while BUSY is only answered, and no turn of the engine looks at the answer. -/
theorem hostCannotDisturbTheEngine : Obligations.HostCannotDisturbTheEngine := by
  intro s t b n hs hrun
  obtain ⟨u, hu, heff⟩ := access_effect b s
  obtain ⟨r, rfl⟩ := heff.busy hs
  have hrel := OutcomeRel.engineRun answered_engRel.busy Answered.engineTurn n (rfl : Answered r s (s.respond r))
  rw [hrun] at hrel
  obtain ⟨t', ht', hanswered⟩ := hrel.of_next
  exact ⟨r, hu, ht'.trans (congrArg _ hanswered)⟩

/-! ### Two operations with the same input -/

/-- The two operations have the same input, stand at the same place in Run, and have written the same to OUT; and where
they have ended, with the same result. -/
structure Alike (s s' : State) : Prop extends SameInput s s' where
  status : s'.status = s.status
  stage  : s'.stage = s.stage
  outBuf : s'.outBuf = s.outBuf
  result : s.status ≠ .busy → s'.err = s.err ∧ s'.outLen = s.outLen ∧ s'.errInfo = s.errInfo

/-- The bit sources have the same registers, within the input. -/
structure SameSource (s s' : State) : Prop where
  src   : s'.src = s.src
  idx   : s.src.idx ≤ s.src.ndata
  ndata : s.src.ndata ≤ s.snapLen.toNat

/-- The registers the engine reads at a place of Run are the same. Those it has yet to write may differ: all of them
before the operation's initialisation, D_W before Seed. -/
def SameRegs (s s' : State) : Stage → Prop
  | .idle | .start | .complete _ => True
  | .encLoop | .encBreak _ | .encInsert _ | .encLast | .encEos => s'.enc = s.enc ∧ s'.sink = s.sink
  | .decFirst => SameSource s s' ∧ s'.dec.setW 3 = s.dec.setW 3
  | .decLoop => SameSource s s' ∧ s'.dec = s.dec

/-- Two operations with the same input at the same place of Run. -/
def Twin (s s' : State) : Prop := Alike s s' ∧ SameRegs s s' s.stage

/-- Two runs of COMPRESS that has begun. -/
structure EncTwin (s s' : State) : Prop extends Alike s s' where
  enc     : s'.enc = s.enc
  sink    : s'.sink = s.sink
  encodes : s.stage.encodes = true

/-- Two runs of DECOMPRESS at the first token. -/
structure FirstTwin (s s' : State) : Prop extends Alike s s', SameSource s s' where
  regs : s'.dec.setW 3 = s.dec.setW 3

/-- Two runs of DECOMPRESS after the first token. -/
structure DecTwin (s s' : State) : Prop extends Alike s s', SameSource s s' where
  dec     : s'.dec = s.dec
  decodes : s.stage.decodes = true

/-- The engine's work on both sides that leaves the same OUT and place in Run. -/
theorem Alike.frame {t t' : State} (h : Alike s s') (f : EngFrame s t) (f' : EngFrame s' t')
    (hstage : t'.stage = t.stage) (hout : t'.outBuf = t.outBuf) : Alike t t' where
  cfg := by rw [f.cfg, f'.cfg, h.cfg]
  opl := by rw [f.opl, f'.opl, h.opl]
  alphl := by rw [f.alphl, f'.alphl, h.alphl]
  snapLen := by rw [f.snapLen, f'.snapLen, h.snapLen]
  memRead k hk := by
    rw [f.snapLen] at hk
    rw [f.memRead, f'.memRead, h.memRead k hk]
  status := by rw [f.status, f'.status, h.status]
  stage := hstage
  outBuf := hout
  result := by
    rw [f.status, f.err, f'.err, f.outLen, f'.outLen, f.errInfo, f'.errInfo]
    exact h.result

theorem Alike.setOut (h : Alike s s') (m : Memory) : Alike (s.setOut m) (s'.setOut m) :=
  h.frame (.setOut _ _) (.setOut _ _) h.stage rfl

theorem Alike.setStage (h : Alike s s') (g : Stage) : Alike (s.setStage g) (s'.setStage g) :=
  h.frame (.setStage _ _) (.setStage _ _) rfl h.outBuf

theorem Alike.setEnc (h : Alike s s') (e e' : EncRegs) : Alike (s.setEnc e) (s'.setEnc e') :=
  h.frame (.setEnc _ _) (.setEnc _ _) h.stage h.outBuf

theorem Alike.setDec (h : Alike s s') (d d' : DecRegs) : Alike (s.setDec d) (s'.setDec d') :=
  h.frame (.setDec _ _) (.setDec _ _) h.stage h.outBuf

theorem Alike.setSink (h : Alike s s') (k k' : SinkRegs) : Alike (s.setSink k) (s'.setSink k') :=
  h.frame (.setSink _ _) (.setSink _ _) h.stage h.outBuf

theorem Alike.setSrc (h : Alike s s') (x x' : SourceRegs) : Alike (s.setSrc x) (s'.setSrc x') :=
  h.frame (.setSrc _ _) (.setSrc _ _) h.stage h.outBuf

theorem Alike.completion (h : Alike s s') (x : RunResult) :
    Alike (s.completion x) (s'.completion x) := by
  cases x with
  | ok m => exact ⟨⟨h.cfg, h.opl, h.alphl, h.snapLen, h.memRead⟩, rfl, rfl, h.outBuf, fun _ => ⟨rfl, rfl, rfl⟩⟩
  | err e => exact ⟨⟨h.cfg, h.opl, h.alphl, h.snapLen, h.memRead⟩, rfl, rfl, rfl, fun _ => ⟨rfl, rfl, rfl⟩⟩

theorem completion_stage (x : RunResult) (s : State) : (s.completion x).stage = .idle := by
  cases x <;> rfl

theorem encTwin_rel : EncRel EncTwin where
  input h := h.toSameInput
  status h := h.status
  stage h := h.stage
  outBuf h := h.outBuf
  setOut h m := ⟨h.toAlike.setOut m, h.enc, h.sink, h.encodes⟩
  returned h x := ⟨h.toAlike.setStage _, h.enc, h.sink, rfl⟩
  completion h x := by
    cases x <;> exact ⟨h.toAlike.completion _, h.enc, h.sink, rfl⟩
  enc h := h.enc
  sink h := h.sink
  setEnc h e := ⟨h.toAlike.setEnc e e, rfl, h.sink, h.encodes⟩
  setSink h k := ⟨h.toAlike.setSink k k, h.enc, rfl, h.encodes⟩
  setStage h g hg := ⟨h.toAlike.setStage g, h.enc, h.sink, hg⟩

theorem SameSource.memRead (h : SameSource s s') (hin : SameInput s s')
    (hidx : s.src.idx ≠ s.src.ndata) : s'.memRead s.src.idx = s.memRead s.src.idx := by
  have := h.idx
  have := h.ndata
  exact hin.memRead _ (by omega)

theorem SameSource.fetch (h : SameSource s s') (hidx : s.src.idx ≠ s.src.ndata) (g : Group) :
    SameSource (s.setSrc (s.src.fetch g).take) (s'.setSrc (s.src.fetch g).take) :=
  ⟨rfl, Nat.lt_of_le_of_ne h.idx hidx, h.ndata⟩

theorem SameSource.take (h : SameSource s s') :
    SameSource (s.setSrc s.src.take) (s'.setSrc s.src.take) := ⟨rfl, h.idx, h.ndata⟩

theorem firstTwin_rel : SourceRel FirstTwin where
  input h := h.toSameInput
  src h := h.src
  memRead h hidx := h.toSameSource.memRead h.toSameInput hidx
  fetch h hidx g := ⟨h.toAlike.setSrc _ _, h.toSameSource.fetch hidx g, h.regs⟩
  take h := ⟨h.toAlike.setSrc _ _, h.toSameSource.take, h.regs⟩

theorem decTwin_rel : DecRel DecTwin where
  input h := h.toSameInput
  status h := h.status
  stage h := h.stage
  outBuf h := h.outBuf
  setOut h m := ⟨h.toAlike.setOut m, ⟨h.src, h.idx, h.ndata⟩, h.dec, h.decodes⟩
  returned h x := ⟨h.toAlike.setStage _, ⟨h.src, h.idx, h.ndata⟩, h.dec, rfl⟩
  completion h x := by
    cases x <;> exact ⟨h.toAlike.completion _, ⟨h.src, h.idx, h.ndata⟩, h.dec, rfl⟩
  src h := h.src
  memRead h hidx := h.toSameSource.memRead h.toSameInput hidx
  fetch h hidx g := ⟨h.toAlike.setSrc _ _, h.toSameSource.fetch hidx g, h.dec, h.decodes⟩
  take h := ⟨h.toAlike.setSrc _ _, h.toSameSource.take, h.dec, h.decodes⟩
  dec h := h.dec
  setDec h d := ⟨h.toAlike.setDec d d, ⟨h.src, h.idx, h.ndata⟩, rfl, h.decodes⟩
  setStage h g hg := ⟨h.toAlike.setStage g, ⟨h.src, h.idx, h.ndata⟩, h.dec, hg⟩

theorem EncTwin.twin (h : EncTwin s s') : Twin s s' := by
  refine ⟨h.toAlike, ?_⟩
  have hg := h.encodes
  cases hs : s.stage with
  | start | decFirst | decLoop => rw [hs] at hg; cases hg
  | idle | complete => trivial
  | encLoop | encBreak | encInsert | encLast | encEos => exact ⟨h.enc, h.sink⟩

theorem DecTwin.twin (h : DecTwin s s') : Twin s s' := by
  refine ⟨h.toAlike, ?_⟩
  have hg := h.decodes
  cases hs : s.stage with
  | start | decFirst | encLoop | encBreak | encInsert | encLast | encEos => rw [hs] at hg; cases hg
  | idle | complete => trivial
  | decLoop => exact ⟨h.toSameSource, h.dec⟩

/-- Where Run has returned, no register matters any more. -/
theorem Alike.returned (h : Alike s s') (x : RunResult) : Twin (s.returned x) (s'.returned x) :=
  ⟨h.setStage _, trivial⟩

theorem firstTwin_firstRel : FirstRel FirstTwin DecTwin Twin where
  source := firstTwin_rel
  loop := decTwin_rel
  regs h := h.regs
  enter h d := ⟨(h.toAlike.setStage _).setDec d d, ⟨h.src, h.idx, h.ndata⟩, rfl, rfl⟩
  imp h := h.twin
  returned h x := h.toAlike.returned x

/-- The two operations begin alike: what each initialises is the same, but for D_W. -/
theorem Alike.startRun (h : Alike s s') :
    OutcomeRel Twin (startRun s).outcome (startRun s').outcome := by
  refine h.toSameInput.startRun h.returned ?_ fun n hn => ?_
  · exact ⟨((h.setEnc _ _).setSink _ _).setStage _, rfl, rfl⟩
  · exact ⟨((h.setSrc _ _).setDec _ _).setStage _, ⟨rfl, Nat.zero_le _, hn⟩, rfl⟩

theorem Alike.busy (h : Alike s s') : s'.busy = s.busy := by
  unfold State.busy; rw [h.status]

/-- A turn of the engine on both sides keeps the two operations together. -/
theorem Twin.engineTurn (h : Twin s s') : OutcomeRel Twin (engineTurn s) (engineTurn s') := by
  obtain ⟨ha, hr⟩ := h
  cases hb : s.busy with
  | false =>
    rw [engineTurn_free hb, engineTurn_free (ha.busy.trans hb)]
    exact .next ⟨ha, hr⟩
  | true =>
    have hb' := ha.busy.trans hb
    cases hs : s.stage with
    | idle =>
      rw [engineTurn_idle hb hs, engineTurn_idle hb' (ha.stage.trans hs)]
      exact .fault _
    | start =>
      rw [engineTurn_start hb hs, engineTurn_start hb' (ha.stage.trans hs)]
      exact ha.startRun
    | encLoop | encBreak | encInsert | encLast | encEos =>
      rw [hs] at hr
      obtain ⟨henc, hsink⟩ := hr
      have hg : s.stage.encodes = true := by rw [hs]; rfl
      exact (encTwin_rel.engineTurn ⟨ha, henc, hsink, hg⟩ hg).mono EncTwin.twin
    | decFirst =>
      rw [hs] at hr
      obtain ⟨hsrc, hregs⟩ := hr
      rw [engineTurn_decFirst hb hs, engineTurn_decFirst hb' (ha.stage.trans hs)]
      exact firstTwin_firstRel.runToken ⟨ha, hsrc, hregs⟩ hs (ha.stage.trans hs) ha.busy
    | decLoop =>
      rw [hs] at hr
      obtain ⟨hsrc, hdec⟩ := hr
      have hg : s.stage.decodes = true := by rw [hs]; rfl
      exact (decTwin_rel.engineTurn ⟨ha, hsrc, hdec, hg⟩ hg).mono DecTwin.twin
    | complete x =>
      rw [engineTurn_complete hb hs, engineTurn_complete hb' (ha.stage.trans hs)]
      refine .next ⟨ha.completion x, ?_⟩
      rw [completion_stage]; trivial

/-- At the beginning of Run an operation is BUSY and has written nothing to OUT. -/
theorem Inv.atStart (h : Inv s) (hs : s.stage = .start) : s.status = .busy ∧ s.outBuf = [] := by
  have hrun := h.run
  rw [hs] at hrun
  refine ⟨by_contra fun hb => ?_, hrun⟩
  have hidle := h.host.stage.mpr hb
  rw [hs] at hidle
  cases hidle

/-- Settles O7: two operations with the same input stay together turn by turn, and so end with the same result. -/
theorem resultDependsOnlyOnTheSnapshot : Obligations.ResultDependsOnlyOnTheSnapshot := by
  intro s s' t t' n h h' hs hs' hcfg hopl halphl hlen hmem hrun hrun'
  obtain ⟨hb, hout⟩ := h.atStart hs
  obtain ⟨hb', hout'⟩ := h'.atStart hs'
  have halike : Alike s s' := ⟨⟨hcfg, hopl, halphl, hlen, hmem⟩, hb'.trans hb.symm, hs'.trans hs.symm,
    hout'.trans hout.symm, fun hfree => absurd hb hfree⟩
  have hrel := OutcomeRel.engineRun (fun h => h.1.busy) Twin.engineTurn n
    (⟨halike, by rw [hs]; trivial⟩ : Twin s s')
  rw [hrun, hrun'] at hrel
  obtain ⟨u, hu, hend, _⟩ := hrel.of_next
  cases hu
  refine ⟨hend.status, fun hfree => ?_⟩
  obtain ⟨herr, hlen', hinfo⟩ := hend.result hfree
  exact ⟨herr, hlen', hinfo, hend.outBuf⟩

end Sys2Proof.Machine
end

section
/-! The family `30_encoding.md`, the encodings: the decoder and the encoder undo each other. For each of the three kinds
of encoded words there is one statement of what the words of that kind are: command words, accesses by the window they
fall in, tokens by the row of their marker. -/

namespace Sys2Proof

open Sys2Proof Sys2Proof.Machine

/-! ### The bits of one field -/

/-- Most significant first is least significant first, backwards (30_encoding.md R93). -/
theorem fieldValue_msbFirst (bits : List Bool) :
    fieldValue .msbFirst bits = fieldValue .lsbFirst bits.reverse := by
  unfold fieldValue
  rw [List.foldl_eq_foldr_reverse]
  simp only [Nat.add_comm]

theorem fieldValue_lsbFirst_cons (b : Bool) (bits : List Bool) :
    fieldValue .lsbFirst (b :: bits) = b.toNat + 2 * fieldValue .lsbFirst bits := rfl

theorem fieldValue_lsbFirst_inj {as bs : List Bool} (hlen : as.length = bs.length)
    (h : fieldValue .lsbFirst as = fieldValue .lsbFirst bs) : as = bs := by
  induction as generalizing bs with
  | nil => exact (List.length_eq_zero_iff.mp hlen.symm).symm
  | cons a as ih =>
    cases bs with
    | nil => cases hlen
    | cons b bs =>
      rw [fieldValue_lsbFirst_cons, fieldValue_lsbFirst_cons] at h
      have ha := Bool.toNat_lt a
      have hb := Bool.toNat_lt b
      have hhead : a = b := Function.LeftInverse.injective Bool.ofNat_toNat (show a.toNat = b.toNat by omega)
      rw [hhead, ih (Nat.succ.inj hlen) (by omega)]

/-- No bit of a field is dropped: its value and its length fix the bits. -/
theorem fieldValue_inj {o : TokenBitOrder} {as bs : List Bool} (hlen : as.length = bs.length)
    (h : fieldValue o as = fieldValue o bs) : as = bs := by
  cases o with
  | lsbFirst => exact fieldValue_lsbFirst_inj hlen h
  | msbFirst =>
    rw [fieldValue_msbFirst, fieldValue_msbFirst] at h
    exact List.reverse_injective (fieldValue_lsbFirst_inj (by simpa only [List.length_reverse] using hlen) h)

/-- The value of a field gives back its bits (40_bitpack.md R122). -/
theorem fieldBits_fieldValue (o : TokenBitOrder) (bits : List Bool) :
    fieldBits o bits.length (fieldValue o bits) = bits := by
  refine fieldValue_inj (o := o) (fieldBits_length _ _ _) ?_
  rw [fieldValue_fieldBits, Nat.mod_eq_of_lt (fieldValue_lt o bits)]

/-! ### Tokens -/

/-- A marker of 2 or more has no payload (30_encoding.md R92). -/
theorem payloadLength_of_two_le {t : Nat} (h : 2 ≤ t) : payloadLength t = 0 := by
  unfold payloadLength; rw [if_neg (by omega), if_neg (by omega)]

theorem tokenBits_of_two_le (o : TokenBitOrder) (w : Nat) {t : Nat} (h : 2 ≤ t) (p : Nat) :
    tokenBits o w t p = fieldBits o w t := by
  unfold tokenBits; rw [payloadLength_of_two_le h, fieldBits_zero, List.append_nil]

/-- A marker can have the values 0 to 3 at every place in the stream: at a width of 2 or more, and so as a first
token. -/
theorem lt_two_pow_tokenWidth {c : DecodeCtx} (h : c.side = .first ∨ widthOk c.width = true) {t : Nat} (ht : t ≤ 3) :
    t < 2 ^ c.tokenWidth := by
  have hw : 2 ≤ c.tokenWidth := by
    unfold DecodeCtx.tokenWidth
    simp only [widthOk, Bool.and_eq_true, decide_eq_true_eq] at h
    cases hs : c.side with
    | first => exact le_rfl
    | enc | loop => simp only [hs, reduceCtorEq, false_or] at h; exact h.1
  calc t < 2 ^ 2 := by omega
    _ ≤ 2 ^ c.tokenWidth := Nat.pow_le_pow_right (by norm_num) hw

/-- The bits of a token are its marker, and the payload of the length that the marker's value fixes (30_encoding.md
R95). -/
theorem exists_tokenBits {o : TokenBitOrder} {w : Nat} {bits : List Bool} (hw : w ≤ bits.length)
    (hp : (bits.drop w).length = payloadLength (fieldValue o (bits.take w))) :
    ∃ t p, t < 2 ^ w ∧ p < 2 ^ payloadLength t ∧ bits = tokenBits o w t p := by
  have hlen : (bits.take w).length = w := List.length_take_of_le hw
  refine ⟨fieldValue o (bits.take w), fieldValue o (bits.drop w), ?_, ?_, ?_⟩
  · simpa only [hlen] using fieldValue_lt o (bits.take w)
  · simpa only [hp] using fieldValue_lt o (bits.drop w)
  · have hmarker := fieldBits_fieldValue o (bits.take w)
    have hpayload := fieldBits_fieldValue o (bits.drop w)
    rw [hlen] at hmarker
    rw [hp] at hpayload
    rw [tokenBits, hmarker, hpayload, List.take_append_drop]

section Payload

variable (o : TokenBitOrder) {t p : Nat} (hp : p < 2 ^ payloadLength t)
include hp

/-- A token of the encoder with the marker value `t` and the payload value `p` (42_encoder.md R167 to R170). -/
theorem decodeEncToken_fieldBits : decodeEncToken o t (fieldBits o (payloadLength t) p) =
    if t = 0 then .ok (.encLit8 (BitVec.ofNat 8 p))
    else if t = 1 then if p < 256 then .error .nonCanonicalLit16 else .ok (.encLit16 (BitVec.ofNat 16 p))
    else if t = 2 then .ok .encEos
    else .ok (.encCode t) := by
  unfold decodeEncToken
  rw [if_neg (by simp), fieldValue_fieldBits, Nat.mod_eq_of_lt hp]

/-- The first token of a stream with the marker value `t` and the payload value `p` (43_decoder.md R193 to R196). -/
theorem decodeFirstToken_fieldBits : decodeFirstToken o t (fieldBits o (payloadLength t) p) =
    if t = 0 then .ok (.decFirstLit8 (BitVec.ofNat 8 p))
    else if t = 1 then .ok (.decFirstLit16 (BitVec.ofNat 16 p))
    else if t = 2 then .ok .decFirstEos
    else .ok .decFirstCorrupt := by
  unfold decodeFirstToken
  rw [if_neg (by simp), fieldValue_fieldBits, Nat.mod_eq_of_lt hp]

/-- A later token with the marker value `t` and the payload value `p` (30_encoding.md R96). -/
theorem decodeLoopToken_fieldBits (n : Nat) : decodeLoopToken o n t (fieldBits o (payloadLength t) p) =
    if t = 0 then .ok (.decLit8 (BitVec.ofNat 8 p))
    else if t = 1 then .ok (.decLit16 (BitVec.ofNat 16 p))
    else if t = 2 then .ok .decEos
    else if t < n then .ok (.decCodeKnown t)
    else if t = n then .ok (.decCodeSelf t)
    else .ok (.decCodeCorrupt t) := by
  unfold decodeLoopToken
  rw [if_neg (by simp), fieldValue_fieldBits, Nat.mod_eq_of_lt hp]

end Payload

/-- The tables of 30_encoding.md R92, R96 and R97: in context `c` a marker of value `t` with a payload of value `p` is
the token `i`. -/
inductive TokenRow (c : DecodeCtx) : Nat → Nat → Instr → Prop
  | encLit8 (hs : c.side = .enc) (u : BitVec 8) {p : Nat} (hu : u.toNat = p) : TokenRow c 0 p (.encLit8 u)
  | encLit16 (hs : c.side = .enc) (u : BitVec 16) {p : Nat} (hu : u.toNat = p) (hp : 256 ≤ p) :
      TokenRow c 1 p (.encLit16 u)
  | encEos (hs : c.side = .enc) : TokenRow c 2 0 .encEos
  | encCode (hs : c.side = .enc) {k : Nat} (hk : 3 ≤ k) : TokenRow c k 0 (.encCode k)
  | decFirstLit8 (hs : c.side = .first) (u : BitVec 8) {p : Nat} (hu : u.toNat = p) : TokenRow c 0 p (.decFirstLit8 u)
  | decFirstLit16 (hs : c.side = .first) (u : BitVec 16) {p : Nat} (hu : u.toNat = p) :
      TokenRow c 1 p (.decFirstLit16 u)
  | decFirstEos (hs : c.side = .first) : TokenRow c 2 0 .decFirstEos
  | decFirstCorrupt (hs : c.side = .first) : TokenRow c 3 0 .decFirstCorrupt
  | decLit8 (hs : c.side = .loop) (u : BitVec 8) {p : Nat} (hu : u.toNat = p) : TokenRow c 0 p (.decLit8 u)
  | decLit16 (hs : c.side = .loop) (u : BitVec 16) {p : Nat} (hu : u.toNat = p) : TokenRow c 1 p (.decLit16 u)
  | decEos (hs : c.side = .loop) : TokenRow c 2 0 .decEos
  | decCodeKnown (hs : c.side = .loop) {k : Nat} (hk : 3 ≤ k) (hn : k < c.next) : TokenRow c k 0 (.decCodeKnown k)
  | decCodeSelf (hs : c.side = .loop) {k : Nat} (hk : 3 ≤ k) (hn : k = c.next) : TokenRow c k 0 (.decCodeSelf k)
  | decCodeCorrupt (hs : c.side = .loop) {k : Nat} (hk : 3 ≤ k) (hn : c.next < k) : TokenRow c k 0 (.decCodeCorrupt k)

section TokenRow

variable {c : DecodeCtx} {t p : Nat} {i : Instr}

/-- The encoder writes the marker and the payload of the row. -/
theorem TokenRow.encode_eq (h : TokenRow c t p i) :
    encode c i = .token (tokenBits c.cfg.order c.tokenWidth t p) := by
  unfold DecodeCtx.tokenWidth
  cases h with
  | encLit8 hs _ hu | encLit16 hs _ hu | decFirstLit8 hs _ hu | decFirstLit16 hs _ hu | decLit8 hs _ hu
  | decLit16 hs _ hu => rw [hs, ← hu]; rfl
  | encEos hs | encCode hs | decFirstEos hs | decFirstCorrupt hs | decEos hs | decCodeKnown hs | decCodeSelf hs
  | decCodeCorrupt hs => rw [hs]; rfl

/-- The payload of a row fits its length. -/
theorem TokenRow.payload_lt (h : TokenRow c t p i) : p < 2 ^ payloadLength t := by
  cases h with
  | encLit8 _ u hu | decFirstLit8 _ u hu | decLit8 _ u hu | encLit16 _ u hu | decFirstLit16 _ u hu
  | decLit16 _ u hu => exact hu ▸ u.isLt
  | encEos | encCode | decFirstEos | decFirstCorrupt | decEos | decCodeKnown | decCodeSelf | decCodeCorrupt =>
    exact Nat.two_pow_pos _

/-- The decoder reads the marker and the payload of the row as its token. -/
theorem TokenRow.decode_eq (h : TokenRow c t p i) (ht : t < 2 ^ c.tokenWidth) :
    decode c (.token (tokenBits c.cfg.order c.tokenWidth t p)) = .ok i := by
  rw [decode_token c t p ht]
  have hp := h.payload_lt
  cases h with
  | encLit8 hs u hu => subst hu; simp [hs, decodeEncToken_fieldBits _ hp]
  | encLit16 hs u hu h256 => subst hu; simp [hs, decodeEncToken_fieldBits _ hp, h256]
  | encEos hs => simp [hs, decodeEncToken_fieldBits _ hp]
  | encCode hs hk =>
    simp only [hs, decodeEncToken_fieldBits _ hp]
    rw [if_neg (by omega), if_neg (by omega), if_neg (by omega)]
  | decFirstLit8 hs _ hu | decFirstLit16 hs _ hu => subst hu; simp [hs, decodeFirstToken_fieldBits _ hp]
  | decFirstEos hs | decFirstCorrupt hs => simp [hs, decodeFirstToken_fieldBits _ hp]
  | decLit8 hs _ hu | decLit16 hs _ hu => subst hu; simp [hs, decodeLoopToken_fieldBits _ hp]
  | decEos hs => simp [hs, decodeLoopToken_fieldBits _ hp]
  | decCodeKnown hs hk hn =>
    simp only [hs, decodeLoopToken_fieldBits _ hp]
    rw [if_neg (by omega), if_neg (by omega), if_neg (by omega), if_pos hn]
  | decCodeSelf hs hk hn =>
    simp only [hs, decodeLoopToken_fieldBits _ hp]
    rw [if_neg (by omega), if_neg (by omega), if_neg (by omega), if_neg (by omega), if_pos hn]
  | decCodeCorrupt hs hk hn =>
    simp only [hs, decodeLoopToken_fieldBits _ hp]
    rw [if_neg (by omega), if_neg (by omega), if_neg (by omega), if_neg (by omega), if_neg (by omega)]

/-- A row is decoded from its encoding. -/
theorem TokenRow.decode_encode (h : TokenRow c t p i) (ht : t < 2 ^ c.tokenWidth) : decode c (encode c i) = .ok i := by
  rw [h.encode_eq]; exact h.decode_eq ht

/-- The same, where the marker is 0 to 3 and so fits every width. -/
theorem TokenRow.decode_encode_le_three (h : TokenRow c t p i) (hw : c.side = .first ∨ widthOk c.width = true)
    (ht : t ≤ 3 := by decide) : decode c (encode c i) = .ok i :=
  h.decode_encode (lt_two_pow_tokenWidth hw ht)

/-- What the decoder reads as a token is a row. -/
theorem TokenRow.of_decode (ht : t < 2 ^ c.tokenWidth) (hp : p < 2 ^ payloadLength t)
    (h : decode c (.token (tokenBits c.cfg.order c.tokenWidth t p)) = .ok i) : TokenRow c t p i := by
  have hlit : ∀ n, payloadLength t = n → (BitVec.ofNat n p).toNat = p := by
    rintro n rfl
    exact Nat.mod_eq_of_lt hp
  have hzero : 2 ≤ t → p = 0 := fun h2 => by
    rw [payloadLength_of_two_le h2] at hp
    omega
  rw [decode_token c t p ht] at h
  cases hs : c.side with
  | enc =>
    simp only [hs, decodeEncToken_fieldBits _ hp] at h
    split_ifs at h with h0 h1 hlt h2 <;> cases h
    · subst h0; exact .encLit8 hs _ (hlit 8 rfl)
    · subst h1; exact .encLit16 hs _ (hlit 16 rfl) (by omega)
    · subst h2; exact hzero (by omega) ▸ .encEos hs
    · exact hzero (by omega) ▸ .encCode hs (by omega)
  | first =>
    rw [Laws.EncodingForm.tokenWidth_first hs] at ht
    simp only [hs, decodeFirstToken_fieldBits _ hp] at h
    split_ifs at h with h0 h1 h2 <;> cases h
    · subst h0; exact .decFirstLit8 hs _ (hlit 8 rfl)
    · subst h1; exact .decFirstLit16 hs _ (hlit 16 rfl)
    · subst h2; exact hzero (by omega) ▸ .decFirstEos hs
    · obtain rfl : t = 3 := by omega
      exact hzero (by omega) ▸ .decFirstCorrupt hs
  | loop =>
    simp only [hs, decodeLoopToken_fieldBits _ hp] at h
    split_ifs at h with h0 h1 h2 hknown hself <;> cases h
    · subst h0; exact .decLit8 hs _ (hlit 8 rfl)
    · subst h1; exact .decLit16 hs _ (hlit 16 rfl)
    · subst h2; exact hzero (by omega) ▸ .decEos hs
    · exact hzero (by omega) ▸ .decCodeKnown hs (by omega) hknown
    · exact hzero (by omega) ▸ .decCodeSelf hs (by omega) hself
    · exact hzero (by omega) ▸ .decCodeCorrupt hs (by omega) (by omega)

/-- Bits that are a token have a whole marker, and the payload its value fixes (30_encoding.md R95). -/
theorem length_of_decode {bits : List Bool} (h : decode c (.token bits) = .ok i) :
    c.tokenWidth ≤ bits.length ∧
      (bits.drop c.tokenWidth).length = payloadLength (fieldValue c.cfg.order (bits.take c.tokenWidth)) := by
  change decodeToken c bits = .ok i at h
  unfold decodeToken at h
  split at h
  · cases h
  · refine ⟨by omega, by_contra fun hp => ?_⟩
    cases hs : c.side with
    | enc => simp only [hs, decodeEncToken, if_pos hp] at h; cases h
    | first => simp only [hs, decodeFirstToken, if_pos hp] at h; cases h
    | loop => simp only [hs, decodeLoopToken, if_pos hp] at h; cases h

/-- Every bit sequence that is a token is the encoding of a row. -/
theorem exists_tokenRow {bits : List Bool} (h : decode c (.token bits) = .ok i) :
    ∃ t p, t < 2 ^ c.tokenWidth ∧ bits = tokenBits c.cfg.order c.tokenWidth t p ∧ TokenRow c t p i := by
  obtain ⟨hw, hlen⟩ := length_of_decode h
  obtain ⟨t, p, ht, hp, rfl⟩ := exists_tokenBits hw hlen
  exact ⟨t, p, ht, rfl, .of_decode ht hp h⟩

/-- A row is well-formed at a width of 10_state.md R32 and R33. -/
theorem TokenRow.wf (h : TokenRow c t p i) (ht : t < 2 ^ c.tokenWidth) (hw : widthOk c.width = true) :
    i.wf c = true := by
  cases h with
  | encLit8 hs | encEos hs | decFirstLit8 hs | decFirstLit16 hs | decFirstEos hs | decFirstCorrupt hs | decLit8 hs
  | decLit16 hs | decEos hs => simp [Instr.wf, hs, hw]
  | encLit16 hs _ hu hp => simp [Instr.wf, hs, hw, hu, hp]
  | encCode hs hk =>
    rw [Laws.EncodingForm.tokenWidth_eq (.inl hs)] at ht
    simp [Instr.wf, hs, hw, hk, ht]
  | decCodeKnown hs hk hn | decCodeCorrupt hs hk hn =>
    rw [Laws.EncodingForm.tokenWidth_eq (.inr hs)] at ht
    simp [Instr.wf, hs, hw, hk, hn, ht]
  | decCodeSelf hs hk hn =>
    rw [Laws.EncodingForm.tokenWidth_eq (.inr hs)] at ht
    subst hn
    simp [Instr.wf, hs, hw, hk, ht]

end TokenRow

/-! ### Bus accesses -/

/-- A 32-bit access is the one at its offset (00_scope.md R12). -/
theorem eq_accessAt {p : Params} {b : BusAccess} {n : Nat} (hw : b.width = .w32)
    (hn : (b.addr - p.baseAddr).toNat = n) : b = accessAt p n b.kind := by
  obtain ⟨addr, width, kind⟩ := b
  subst hn hw
  unfold accessAt
  rw [BitVec.ofNat_toNat, BitVec.setWidth_eq, BitVec.add_comm, BitVec.sub_add_cancel]

/-- Every access is one to a register, to an element of IN, to an element of OUT, or illegal (20_memory.md R61, R62). -/
theorem access_cases (p : Params) (b : BusAccess) :
    (∃ i < 1024, b = accessAt p (4 * i) b.kind) ∨
      (∃ k : BitVec 18, k.toNat < p.inCap ∧ b = accessAt p (0x00100000 + 4 * k.toNat) b.kind) ∨
      (∃ k : BitVec 18, k.toNat < p.outCap ∧ b = accessAt p (0x00200000 + 4 * k.toNat) b.kind) ∨
      accessLegal p (b.addr - p.baseAddr).toNat b.width = false := by
  cases hl : accessLegal p (b.addr - p.baseAddr).toNat b.width with
  | false => exact .inr (.inr (.inr rfl))
  | true =>
    simp only [accessLegal, Bool.and_eq_true, Bool.or_eq_true, beq_iff_eq, decide_eq_true_eq] at hl
    obtain ⟨⟨hw, halign⟩, (hreg | ⟨⟨hge, hcap⟩, hlt⟩) | ⟨⟨hge, hcap⟩, hlt⟩⟩ := hl
    · exact .inl ⟨(b.addr - p.baseAddr).toNat / 4, by omega, eq_accessAt hw (by omega)⟩
    · obtain ⟨k, hk, hn⟩ := (window_iff halign (by norm_num)).mpr ⟨hge, hcap⟩
      exact .inr (.inl ⟨⟨k, by omega⟩, hk, eq_accessAt hw hn⟩)
    · obtain ⟨k, hk, hn⟩ := (window_iff halign (by norm_num)).mpr ⟨hge, hcap⟩
      exact .inr (.inr (.inl ⟨⟨k, by omega⟩, hk, eq_accessAt hw hn⟩))

/-- A register of 10_state.md R20, or a reserved one, is encoded as an access at its word index. -/
theorem encode_decodeRegister (c : DecodeCtx) {i : Nat} (hi : i < 1024) (a : AccessKind) :
    encode c (decodeRegister i a) = .access (accessAt c.cfg (4 * i) a) := by
  by_cases h9 : 9 ≤ i
  · rw [decodeRegister_reserved h9]
    simp only [encode, BitVec.toNat_ofNat, Nat.mod_eq_of_lt (show i < 2 ^ 10 from hi)]
  · interval_cases i <;> cases a <;> rfl

/-- The access at a word index of the register page is decoded to its register. -/
theorem decode_encode_register (c : DecodeCtx) {i : Nat} (a : AccessKind) (hi : i < 1024 := by decide) :
    decode c (encode c (decodeRegister i a)) = .ok (decodeRegister i a) := by
  rw [encode_decodeRegister c hi]
  exact congrArg Except.ok (decodeAccess_reg c.cfg i hi a)

/-- A register or a reserved one is well-formed. -/
theorem wf_decodeRegister (c : DecodeCtx) {i : Nat} (hi : i < 1024) (a : AccessKind) :
    (decodeRegister i a).wf c = true := by
  by_cases h9 : 9 ≤ i
  · rw [decodeRegister_reserved h9]
    simpa only [Instr.wf, BitVec.toNat_ofNat, Nat.mod_eq_of_lt (show i < 2 ^ 10 from hi), decide_eq_true_eq] using h9
  · interval_cases i <;> cases a <;> rfl

/-- The row of an access is well-formed, and is encoded as that access. -/
theorem decodeAccess_wf_and_encode (c : DecodeCtx) (b : BusAccess) :
    (decodeAccess c.cfg b).wf c = true ∧ encode c (decodeAccess c.cfg b) = .access b := by
  rcases access_cases c.cfg b with ⟨i, hi, hb⟩ | ⟨k, hk, hb⟩ | ⟨k, hk, hb⟩ | hill
  · rw [hb, decodeAccess_reg c.cfg i hi]
    exact ⟨wf_decodeRegister c hi _, encode_decodeRegister c hi _⟩
  · rw [hb, decodeAccess_in c.cfg k hk]
    exact ⟨decide_eq_true hk, rfl⟩
  · rw [hb, decodeAccess_out c.cfg k hk]
    exact ⟨decide_eq_true hk, rfl⟩
  · have haddr : c.cfg.baseAddr + (b.addr - c.cfg.baseAddr) = b.addr := by
      rw [BitVec.add_comm, BitVec.sub_add_cancel]
    have hdec := decodeAccess_ill c.cfg _ _ b.kind hill
    rw [haddr] at hdec
    rw [hdec]
    exact ⟨by simp only [Instr.wf, hill, Bool.not_false], by simp only [encode, haddr]⟩

/-! ### Command words -/

/-- A value with bits 31:3 all zero is the command word of its bits (30_encoding.md R90). -/
theorem commandWord_of_bits {v : Word} (h : v.toNat < 8) :
    commandWord (v.getLsbD 0) (opOfBit (v.getLsbD 1)) (alphOfBit (v.getLsbD 2)) = v := by
  have key : ∀ n < 8, commandWord ((BitVec.ofNat 32 n).getLsbD 0) (opOfBit ((BitVec.ofNat 32 n).getLsbD 1))
      (alphOfBit ((BitVec.ofNat 32 n).getLsbD 2)) = BitVec.ofNat 32 n := by decide
  simpa only [BitVec.ofNat_toNat, BitVec.setWidth_eq] using key v.toNat h

/-- The row of a value written to CTRL is well-formed, and is encoded as that value. -/
theorem commandInstr_wf_and_encode (c : DecodeCtx) (v : Word) :
    (commandInstr v (decodeCommand c.busy v)).wf c = true ∧
      encode c (commandInstr v (decodeCommand c.busy v)) = .command v := by
  cases hb : c.busy with
  | true => exact ⟨hb, rfl⟩
  | false =>
    by_cases h8 : 8 ≤ v.toNat
    · rw [decodeCommand_illegal h8]
      exact ⟨by simp [commandInstr, Instr.wf, hb, h8], rfl⟩
    · rw [← commandWord_of_bits (Nat.lt_of_not_le h8), decodeCommand_word]
      generalize v.getLsbD 0 = st, opOfBit _ = op, alphOfBit _ = al
      cases st <;> cases op <;> cases al <;> exact ⟨by simp [Instr.wf, hb], rfl⟩

/-! ### The statements -/

/-- Settles O16: a command word by its bits, a token by its row, an access by its offset. -/
theorem decodeUndoesEncode : Obligations.DecodeUndoesEncode := by
  intro c i h
  cases i with
  | ctrlWriteBusy v =>
    have hb : c.busy = true := h
    simp only [encode, decode, decodeCommand, hb, if_true, commandInstr]
  | setmode | compressB64 | decompressB64 | compressUri | decompressUri =>
    have hb : c.busy = false := by simpa only [Instr.wf, Bool.not_eq_true'] using h
    simp only [encode, decode, hb, decodeCommand_word]
    rfl
  | ctrlIllegal v =>
    simp only [Instr.wf, Bool.and_eq_true, Bool.not_eq_true', decide_eq_true_eq] at h
    obtain ⟨hb, h8⟩ := h
    simp only [encode, decode, hb, decodeCommand_illegal h8, commandInstr]
  | encLit8 u =>
    simp only [Instr.wf, Bool.and_eq_true, beq_iff_eq] at h
    obtain ⟨hs, hw⟩ := h
    exact (TokenRow.encLit8 hs u rfl).decode_encode_le_three (.inr hw)
  | encLit16 u =>
    simp only [Instr.wf, Bool.and_eq_true, beq_iff_eq, decide_eq_true_eq] at h
    obtain ⟨⟨hs, hw⟩, hu⟩ := h
    exact (TokenRow.encLit16 hs u rfl hu).decode_encode_le_three (.inr hw)
  | encEos =>
    simp only [Instr.wf, Bool.and_eq_true, beq_iff_eq] at h
    obtain ⟨hs, hw⟩ := h
    exact (TokenRow.encEos hs).decode_encode_le_three (.inr hw)
  | encCode k =>
    simp only [Instr.wf, Bool.and_eq_true, beq_iff_eq, decide_eq_true_eq] at h
    obtain ⟨⟨⟨hs, _⟩, hk⟩, hlt⟩ := h
    exact (TokenRow.encCode hs hk).decode_encode (Laws.EncodingForm.tokenWidth_eq (.inl hs) ▸ hlt)
  | decFirstLit8 u =>
    have hs : c.side = .first := beq_iff_eq.mp h
    exact (TokenRow.decFirstLit8 hs u rfl).decode_encode_le_three (.inl hs)
  | decFirstLit16 u =>
    have hs : c.side = .first := beq_iff_eq.mp h
    exact (TokenRow.decFirstLit16 hs u rfl).decode_encode_le_three (.inl hs)
  | decFirstEos =>
    have hs : c.side = .first := beq_iff_eq.mp h
    exact (TokenRow.decFirstEos hs).decode_encode_le_three (.inl hs)
  | decFirstCorrupt =>
    have hs : c.side = .first := beq_iff_eq.mp h
    exact (TokenRow.decFirstCorrupt hs).decode_encode_le_three (.inl hs)
  | decLit8 u =>
    simp only [Instr.wf, Bool.and_eq_true, beq_iff_eq] at h
    obtain ⟨hs, hw⟩ := h
    exact (TokenRow.decLit8 hs u rfl).decode_encode_le_three (.inr hw)
  | decLit16 u =>
    simp only [Instr.wf, Bool.and_eq_true, beq_iff_eq] at h
    obtain ⟨hs, hw⟩ := h
    exact (TokenRow.decLit16 hs u rfl).decode_encode_le_three (.inr hw)
  | decEos =>
    simp only [Instr.wf, Bool.and_eq_true, beq_iff_eq] at h
    obtain ⟨hs, hw⟩ := h
    exact (TokenRow.decEos hs).decode_encode_le_three (.inr hw)
  | decCodeKnown k =>
    simp only [Instr.wf, Bool.and_eq_true, beq_iff_eq, decide_eq_true_eq] at h
    obtain ⟨⟨⟨⟨hs, _⟩, hk⟩, hn⟩, hlt⟩ := h
    exact (TokenRow.decCodeKnown hs hk hn).decode_encode (Laws.EncodingForm.tokenWidth_eq (.inr hs) ▸ hlt)
  | decCodeSelf k =>
    simp only [Instr.wf, Bool.and_eq_true, beq_iff_eq, decide_eq_true_eq] at h
    obtain ⟨⟨⟨⟨hs, _⟩, hk⟩, hn⟩, hlt⟩ := h
    exact (TokenRow.decCodeSelf hs hk hn).decode_encode (Laws.EncodingForm.tokenWidth_eq (.inr hs) ▸ hlt)
  | decCodeCorrupt k =>
    simp only [Instr.wf, Bool.and_eq_true, beq_iff_eq, decide_eq_true_eq] at h
    obtain ⟨⟨⟨⟨hs, _⟩, hk⟩, hn⟩, hlt⟩ := h
    exact (TokenRow.decCodeCorrupt hs hk hn).decode_encode (Laws.EncodingForm.tokenWidth_eq (.inr hs) ▸ hlt)
  | rdCtrl => exact decode_encode_register c (i := 0) .read
  | wrCtrl v => exact decode_encode_register c (i := 0) (.write v)
  | rwStatus a => exact decode_encode_register c (i := 1) a
  | rwInLen a => exact decode_encode_register c (i := 2) a
  | rdOutLen a => exact decode_encode_register c (i := 3) a
  | rdErrInfo a => exact decode_encode_register c (i := 4) a
  | rdConfig a => exact decode_encode_register c (i := 5) a
  | rdInCapR a => exact decode_encode_register c (i := 6) a
  | rdOutCapR a => exact decode_encode_register c (i := 7) a
  | rdDictCapR a => exact decode_encode_register c (i := 8) a
  | rwReservedReg idx a =>
    have h9 : 9 ≤ idx.toNat := of_decide_eq_true h
    have hreg := decode_encode_register c (i := idx.toNat) a idx.isLt
    rwa [decodeRegister_reserved h9, BitVec.ofNat_toNat, BitVec.setWidth_eq] at hreg
  | rwIn k a => exact congrArg Except.ok (decodeAccess_in c.cfg k (of_decide_eq_true h) a)
  | rdOut k a => exact congrArg Except.ok (decodeAccess_out c.cfg k (of_decide_eq_true h) a)
  | busIllegal off w a =>
    exact congrArg Except.ok (decodeAccess_ill c.cfg off w a (by simpa only [Instr.wf, Bool.not_eq_true'] using h))

/-- Settles O17: a command word, an access and a row of the token tables are each encoded as they were read. -/
theorem encodeUndoesDecode : Obligations.EncodeUndoesDecode := by
  intro c e i h
  cases e with
  | command v => cases h; exact (commandInstr_wf_and_encode c v).2
  | access b => cases h; exact (decodeAccess_wf_and_encode c b).2
  | token bits =>
    obtain ⟨t, p, _, rfl, hrow⟩ := exists_tokenRow h
    exact hrow.encode_eq

/-- Settles O18: command words, accesses and rows of the token tables are each well-formed. -/
theorem decodedInstructionsAreWellFormed : Obligations.DecodedInstructionsAreWellFormed := by
  intro c e i hw h
  cases e with
  | command v => cases h; exact (commandInstr_wf_and_encode c v).1
  | access b => cases h; exact (decodeAccess_wf_and_encode c b).1
  | token bits =>
    obtain ⟨t, p, ht, rfl, hrow⟩ := exists_tokenRow h
    exact hrow.wf ht hw

/-- Settles O19: the rows of a code in the decoder's loop, by its place relative to D_NEXT. -/
theorem loopCodeClassification : Obligations.LoopCodeClassification := by
  intro c t hs h3 hlt
  have hw : c.tokenWidth = c.width := Laws.EncodingForm.tokenWidth_eq (.inr hs)
  have row : ∀ {i}, TokenRow c t 0 i → decode c (.token (fieldBits c.cfg.order c.width t)) = .ok i := fun h => by
    rw [← tokenBits_of_two_le _ _ (by omega : 2 ≤ t) 0, ← hw]
    exact h.decode_eq (hw ▸ hlt)
  refine ⟨?_, fun _ => rfl⟩
  rcases Nat.lt_trichotomy t c.next with hn | hn | hn
  · rw [if_pos hn]
    exact row (.decCodeKnown hs h3 hn)
  · rw [if_neg (by omega), if_pos hn]
    exact row (.decCodeSelf hs h3 hn)
  · rw [if_neg (by omega), if_neg (by omega)]
    exact row (.decCodeCorrupt hs h3 hn)

/-- Settles O21: each word is what the encoder writes for its instruction, so the decoder gives the instruction back. -/
theorem sampleWordsDecode : Obligations.SampleWordsDecode := by
  refine ⟨decodeUndoesEncode _ (.setmode .uri .decompress) rfl, decodeUndoesEncode _ .compressUri rfl,
    decodeUndoesEncode _ (.ctrlIllegal 0x9) rfl, decodeUndoesEncode _ (.decFirstLit8 0x41) rfl,
    decodeUndoesEncode _ .decFirstCorrupt rfl, decodeUndoesEncode _ (.decCodeKnown 5) rfl,
    decodeUndoesEncode _ .decEos rfl, decodeUndoesEncode _ (.encLit8 0x42) rfl,
    decodeUndoesEncode _ (.rwStatus .read) rfl, decodeUndoesEncode _ (.rdOut 1 .read) ?_,
    decodeUndoesEncode _ (.busIllegal 0x6 .w32 .read) ?_⟩
  all_goals decide

end Sys2Proof
end

section
/-! The family `30_encoding.md`, the host's side: what a write of CTRL does by the bits of its value, and the writes of
`LOAD s`. -/

namespace Sys2Proof.Machine

open Sys2Proof

/-! ### Command words -/

/-- A write of CTRL while BUSY is only answered (44_host_interface.md R221). -/
theorem writeCtrl_busy {s : State} (hb : s.busy = true) (v : Word) : writeCtrl v s = .next (s.respond .ack) := by
  unfold writeCtrl decodeCommand; rw [hb]; rfl

/-- A legal command word, while STATE is not BUSY, starts its operation or writes its latches (44_host_interface.md
R223 to R227). -/
theorem writeCtrl_commandWord {s : State} (hb : s.busy = false) (st : Bool) (op : Op) (al : Alphabet) :
    writeCtrl (commandWord st op al) s =
      .next ((if st then s.startOp op al else s.setMode op al).respond .ack) := by
  unfold writeCtrl
  rw [hb]
  cases st <;> cases op <;> cases al <;> exact congrArg Host.Outcome.next (writeUnlessBusy_free hb _)

/-- A value with a reserved bit set, while STATE is not BUSY, reports ILLEGAL_CMD (44_host_interface.md R222). -/
theorem writeCtrl_illegal {s : State} (hb : s.busy = false) {v : Word} (h8 : 8 ≤ v.toNat) :
    writeCtrl v s = .next ((s.enterError .illegalCmd v).respond .ack) := by
  unfold writeCtrl
  rw [hb, decodeCommand_illegal h8]
  exact congrArg Host.Outcome.next (writeUnlessBusy_free hb _)

theorem startOp_started (op : Op) (al : Alphabet) (s : State) (r : Response) :
    Started op al s ((s.startOp op al).respond r) :=
  ⟨⟨rfl, rfl, rfl, rfl⟩, ⟨rfl, rfl⟩, ⟨rfl, rfl, rfl⟩, rfl, ⟨rfl, rfl, rfl, rfl, rfl, rfl, rfl, rfl, rfl, rfl⟩⟩

theorem enterError_illegal (v : Word) (s : State) (r : Response) :
    Illegal v s ((s.enterError .illegalCmd v).respond r) :=
  ⟨⟨rfl, rfl⟩, ⟨rfl, rfl⟩,
    ⟨rfl, rfl, rfl, rfl, rfl, rfl, rfl, rfl, rfl, rfl, rfl, rfl, rfl, rfl, rfl, rfl, rfl, rfl⟩⟩

/-- Settles O30: while BUSY, with a reserved bit set, and as the command word of its bits. -/
theorem ctrlWriteDoesItsCommand : Obligations.CtrlWriteDoesItsCommand := by
  intro s v
  change ∃ t, writeCtrl v s = .next t ∧ CtrlWritten v s t
  unfold CtrlWritten
  by_cases hs : s.status = .busy
  · exact ⟨_, writeCtrl_busy ((busy_iff s).mpr hs) v, by rw [if_pos hs]; exact ⟨_, rfl⟩⟩
  have hb : s.busy = false := (not_busy_iff s).mpr hs
  by_cases h8 : 8 ≤ v.toNat
  · exact ⟨_, writeCtrl_illegal hb h8, by rw [if_neg hs, if_pos h8]; exact enterError_illegal v s .ack⟩
  have hword := writeCtrl_commandWord hb (v.getLsbD 0) (opOfBit (v.getLsbD 1)) (alphOfBit (v.getLsbD 2))
  rw [commandWord_of_bits (Nat.lt_of_not_le h8)] at hword
  refine ⟨_, hword, ?_⟩
  rw [if_neg hs, if_neg h8]
  cases v.getLsbD 0 with
  | true => exact startOp_started _ _ s .ack
  | false => exact ⟨.ack, rfl⟩

/-! ### `LOAD s` -/

/-- A step that takes a write runs the instruction at its offset. -/
theorem step_wr {s : State} {off : Nat} {v : Word} {rest : List Event} {i : Instr}
    (hev : s.events = wr s.cfg off v :: rest) (hi : decodeAccess s.cfg (accessAt s.cfg off (.write v)) = i) :
    step s = exec i (s.take (wr s.cfg off v) rest) := by
  rw [step_eq, hev, ← hi]; rfl

/-- RW_IN_LEN of a write, while STATE is not BUSY (44_host_interface.md R231). -/
theorem exec_rwInLen_write {s : State} (hb : s.busy = false) (v : Word) :
    exec (.rwInLen (.write v)) s = .next ((s.setInLen v).respond .ack) :=
  congrArg Host.Outcome.next (writeUnlessBusy_free hb _)

/-- RW_IN of a write below IN_CAP, while STATE is not BUSY (44_host_interface.md R233). -/
theorem exec_rwIn_write {s : State} (hb : s.busy = false) {k : BitVec 18} (hk : k.toNat < s.cfg.inCap) (v : Word) :
    exec (.rwIn k (.write v)) s = .next ((s.setIn (s.inBuf.write k.toNat (v.setWidth 16))).respond .ack) := by
  change execRwIn k (.write v) s = _
  unfold execRwIn
  rw [if_pos hk]
  exact congrArg Host.Outcome.next (writeUnlessBusy_free hb _)

/-- A step that takes a write of IN_LEN, while STATE is not BUSY. -/
theorem step_wr_inLen {s : State} {v : Word} {rest : List Event} (hb : s.busy = false)
    (hev : s.events = wr s.cfg 0x008 v :: rest) :
    step s = .next (((s.take (wr s.cfg 0x008 v) rest).setInLen v).respond .ack) := by
  rw [step_wr hev (decodeAccess_reg s.cfg 2 (by decide) _)]
  exact exec_rwInLen_write (s := s.take _ rest) hb v

/-- A step that takes a write of IN[k], while STATE is not BUSY. -/
theorem step_wr_in {s : State} {k : Nat} {u : CodeUnit} {rest : List Event} (hb : s.busy = false)
    (hcap : s.cfg.inCap ≤ 2 ^ 18) (hk : k < s.cfg.inCap)
    (hev : s.events = wr s.cfg (inOffset k) (u.setWidth 32) :: rest) :
    step s = .next (((s.take (wr s.cfg (inOffset k) (u.setWidth 32)) rest).setIn (s.inBuf.write k u)).respond .ack) := by
  have hu : (u.setWidth 32).setWidth 16 = u := by simp
  have hexec := exec_rwIn_write (s := s.take (wr s.cfg (inOffset k) (u.setWidth 32)) rest) hb
    (k := ⟨k, by omega⟩) hk (u.setWidth 32)
  rw [hu] at hexec
  rw [step_wr hev (decodeAccess_in s.cfg ⟨k, by omega⟩ hk _)]
  exact hexec

/-- The elements of `xs` written in order from index `k` on. -/
def Memory.writeAll : Memory → Nat → List CodeUnit → Memory
  | m, _, [] => m
  | m, k, x :: xs => Memory.writeAll (m.write k x) (k + 1) xs

/-- They are read where they were written, and every other element is as it was. -/
theorem Memory.read?_writeAll {m : Memory} (hm : m.wf) (k : Nat) (xs : List CodeUnit) (j : Nat) :
    (m.writeAll k xs).read? j = if k ≤ j ∧ j < k + xs.length then xs[j - k]? else m.read? j := by
  induction xs generalizing m k with
  | nil => rw [if_neg (by simp)]; rfl
  | cons x xs ih =>
    change Memory.read? (Memory.writeAll (m.write k x) (k + 1) xs) j = _
    rw [ih (Memory.wf_write m hm k x), Memory.read?_write m hm, List.length_cons]
    by_cases hj : j = k
    · subst hj; simp
    · by_cases hin : k + 1 ≤ j ∧ j < k + 1 + xs.length
      · obtain ⟨d, hd⟩ : ∃ d, j - k = d + 1 := ⟨j - k - 1, by omega⟩
        rw [if_pos hin, if_pos (by omega), hd, List.getElem?_cons_succ]
        congr 1; omega
      · rw [if_neg hin, if_neg hj, if_neg (by omega)]

/-- The writes of `LOAD s` from index `k` on, while STATE is not BUSY, write the elements and nothing else. -/
theorem stepRun_writeIn {s : State} {k : Nat} {xs : List CodeUnit} {rest : List Event} (hb : s.busy = false)
    (hcap : s.cfg.inCap ≤ 2 ^ 18) (hk : k + xs.length ≤ s.cfg.inCap) (hev : s.events = writeIn s.cfg k xs ++ rest) :
    ∃ r n, stepRun xs.length s =
      .next { s with inBuf := s.inBuf.writeAll k xs, resp := r, events := rest, freeCtr := n } := by
  induction xs generalizing s k with
  | nil => exact ⟨s.resp, s.freeCtr, by rw [← show s.events = rest from hev]; rfl⟩
  | cons x xs ih =>
    rw [List.length_cons] at hk
    simp only [List.length_cons, stepRun, step_wr_in hb hcap (by omega) hev]
    exact ih hb hcap (by change k + 1 + xs.length ≤ s.cfg.inCap; omega) rfl

/-- Settles O40: the write of IN_LEN, then the writes of the elements. -/
theorem loadWritesTheInput : Obligations.LoadWritesTheInput := by
  intro s xs rest hcfg hin hs hlen hev
  have hb : s.busy = false := (not_busy_iff s).mpr hs
  have hcap : s.cfg.inCap ≤ 2 ^ 18 := hcfg.1.2
  obtain ⟨r, n, hrun⟩ := stepRun_writeIn (k := 0) (rest := rest) (xs := xs) (s := ((s.take
    (wr s.cfg 0x008 (BitVec.ofNat 32 xs.length)) (writeIn s.cfg 0 xs ++ rest)).setInLen
      (BitVec.ofNat 32 xs.length)).respond .ack) hb hcap (by rwa [Nat.zero_add]) rfl
  refine ⟨_, by rw [stepRun, step_wr_inLen hb hev]; exact hrun, ?_, fun k u hu => ?_, fun k hk => ?_, rfl⟩
  · change (BitVec.ofNat 32 xs.length).toNat = _
    rw [BitVec.toNat_ofNat]
    exact Nat.mod_eq_of_lt (by omega)
  · have hk : k < xs.length := (List.getElem?_eq_some_iff.mp hu).1
    change ((s.inBuf.writeAll 0 xs).read? k).getD _ = u
    rw [Memory.read?_writeAll hin, if_pos (by omega), Nat.sub_zero, hu]
    rfl
  · change ((s.inBuf.writeAll 0 xs).read? k).getD _ = (s.inBuf.read? k).getD _
    rw [Memory.read?_writeAll hin, if_neg (by omega)]
    rfl

end Sys2Proof.Machine
end

section
/-! The family `40_bitpack.md`: the bit sink and the bit source never fault, the source hands out the stream one token a
turn, and a sink without room raises RESOURCE(3). -/

namespace Sys2Proof.Machine

open Sys2Proof

/-! ### No step stops -/

/-- A turn of the engine, busy or not, answers a next state. -/
theorem Inv.exists_engineTurn {s : State} (h : Inv s) : ∃ t, Machine.engineTurn s = .next t := by
  cases hb : s.busy with
  | true =>
    obtain ⟨t, ht, _⟩ := engineTurn_busy h ((busy_iff s).mp hb)
    exact ⟨t, ht⟩
  | false => exact ⟨s, engineTurn_free hb⟩

/-- Settles O4, by the kind of the next event: an access always completes, a reset always takes place, and no turn of
the engine faults while the invariant holds. -/
theorem stepNeverStops : Obligations.StepNeverStops := by
  intro s h
  rw [step_eq]
  split
  next a rest _ =>
    obtain ⟨t, ht, _⟩ := access_effect a (s.take (.access a) rest)
    exact ⟨t, ht⟩
  next => exact ⟨_, rfl⟩
  next rest _ => exact (h.inputs rest (s.nextFree .engine)).exists_engineTurn
  next =>
    split
    · exact (h.inputs s.events (s.freeCtr + 1)).exists_engineTurn
    · exact ⟨s, rfl⟩

/-! ### The source: one token a turn -/

/-- The engine is about to read a token at width `w` (30_encoding.md R94). -/
def State.ReadsAt (s : State) (w : Nat) : Prop :=
  s.stage = .decFirst ∧ w = 2 ∨ s.stage = .decLoop ∧ w = s.dec.width

theorem State.ReadsAt.engineTurn {s : State} {w : Nat} (h : s.ReadsAt w) (hb : s.busy = true) :
    engineTurn s = runToken w s := by
  rcases h with ⟨hs, rfl⟩ | ⟨hs, rfl⟩
  · exact engineTurn_decFirst hb hs
  · unfold Machine.engineTurn; rw [hb, hs]; rfl

theorem State.ReadsAt.decodeCtx {s : State} {w : Nat} (h : s.ReadsAt w) :
    s.decodeCtx.side ≠ .enc ∧ s.decodeCtx.tokenWidth = w ∧ s.decodeCtx.cfg = s.cfg := by
  rcases h with ⟨hs, rfl⟩ | ⟨hs, rfl⟩
  · rw [decodeCtx_decFirst hs]; exact ⟨by simp, rfl, rfl⟩
  · rw [decodeCtx_decLoop hs]; exact ⟨by simp, rfl, rfl⟩

theorem State.ReadsAt.sourceInv {s : State} {w : Nat} (h : s.ReadsAt w) (hinv : Inv s) : SourceInv s := by
  have hrun := hinv.run
  rcases h with ⟨hs, _⟩ | ⟨hs, _⟩
  · rw [hs] at hrun
    exact hrun.1.src
  · rw [hs] at hrun
    exact hrun.1.src

/-- Where the bits left cover a token, ReadToken takes exactly its bits (30_encoding.md R95, 40_bitpack.md R130). -/
theorem readToken_left (w : Nat) {s : State} (h : SourceInv s) {n : Nat}
    (hn : n = w + payloadLength (fieldValue s.cfg.order (s.bitsLeft.take w))) (hlen : n ≤ s.bitsLeft.length) :
    ∃ u, readToken w s = .ok (s.bitsLeft.take n) u ∧ SourceFrame s u ∧ u.bitsLeft = s.bitsLeft.drop n := by
  obtain ⟨t, hmarker, hft, hit, _, _, hlt⟩ := readRaw_left w h (by omega)
  have hcfg : t.cfg = s.cfg := hft.eng.cfg
  obtain ⟨u, hpayload, hfu, _, _, _, hlu⟩ :=
    readRaw_left (payloadLength (fieldValue s.cfg.order (s.bitsLeft.take w))) hit
      (by rw [hlt, List.length_drop]; omega)
  refine ⟨u, ?_, hft.trans hfu, ?_⟩
  · rw [readToken, hmarker, Eng.bind_ok, hcfg, hpayload, Eng.bind_ok, hlt, hn, List.take_add]
  · rw [hlu, hlt, hn, List.drop_drop]

/-- On the decoder's side a whole marker with the payload its value fixes is a token (30_encoding.md R95). -/
theorem exists_decode_token {c : DecodeCtx} {bits : List Bool} (hs : c.side ≠ .enc)
    (hl : bits.length = c.tokenWidth + payloadLength (fieldValue c.cfg.order (bits.take c.tokenWidth))) :
    ∃ i, decode c (.token bits) = .ok i := by
  obtain ⟨t, p, ht, hp, rfl⟩ := exists_tokenBits (o := c.cfg.order) (w := c.tokenWidth) (bits := bits) (by omega)
    (by rw [List.length_drop]; omega)
  rw [decode_token c t p ht]
  cases hside : c.side with
  | enc => exact absurd hside hs
  | first =>
    simp only [decodeFirstToken_fieldBits _ hp]
    split_ifs <;> exact ⟨_, rfl⟩
  | loop =>
    simp only [decodeLoopToken_fieldBits _ hp]
    split_ifs <;> exact ⟨_, rfl⟩

/-- Settles O23: the fetch takes the next bits of the stream, these are a token, and the turn runs it. -/
theorem decoderReadsTheStream : Obligations.DecoderReadsTheStream := by
  intro s w hinv hb (hr : s.ReadsAt w) hlen
  obtain ⟨hside, hwidth, hcfg⟩ := hr.decodeCtx
  obtain ⟨u, hread, hframe, hleft⟩ := readToken_left w (hr.sourceInv hinv) rfl hlen
  obtain ⟨i, hi⟩ := exists_decode_token (c := s.decodeCtx) (bits := s.bitsLeft.take (w + _)) hside (by
    rw [hwidth, hcfg, List.length_take_of_le hlen, List.take_take, Nat.min_eq_left (Nat.le_add_right w _)])
  refine ⟨i, u, hi, ?_, hframe, hleft⟩
  rw [hr.engineTurn ((busy_iff s).mpr hb), runToken, hread]
  dsimp only
  rw [hi]

/-! ### The sink: OUT is full -/

/-- The operation raises RESOURCE(3) with `cap` characters in OUT (40_bitpack.md R125). -/
def Eng.Full {α : Type} (cap : Nat) (x : Eng α) : Prop :=
  ∃ t, x = .raise (.resource .output) t ∧ t.sink.outN = cap

theorem Eng.Full.bind {α β : Type} {cap : Nat} {x : Eng α} (h : x.Full cap) (f : α → State → Eng β) :
    (x.bind f).Full cap := by
  obtain ⟨t, rfl, ht⟩ := h
  exact ⟨t, rfl, ht⟩

theorem Eng.Full.outcome {cap : Nat} {x : Eng Unit} (h : x.Full cap) :
    ∃ t, x.outcome = .next t ∧ t.stage = .complete (.err (.resource .output)) ∧ t.sink.outN = cap := by
  obtain ⟨t, rfl, ht⟩ := h
  exact ⟨_, rfl, rfl, ht⟩

theorem full_pushBits {bs : List Bool} {s : State} (hk : SinkInv s)
    (hr : ¬ s.sink.room bs.length s.cfg.outCap) : (pushBits bs s).Full s.cfg.outCap := by
  obtain ⟨t, ht, hframe, hfull⟩ := pushBits_full bs hk hr
  exact ⟨t, ht, hfull.trans (congrArg Params.outCap hframe.eng.cfg)⟩

/-- Where `bs` and `m` more bits have no room, pushing `bs` finds OUT full, or what follows has no room for `m` bits. -/
theorem full_pushBits_bind {α : Type} {bs : List Bool} {s : State} {f : Unit → State → Eng α} (m : Nat)
    (hk : SinkInv s) (hr : ¬ s.sink.room (bs.length + m) s.cfg.outCap)
    (hf : ∀ t, SinkFrame s t → SinkInv t → Pushed bs s t → ¬ t.sink.room m t.cfg.outCap →
      (f () t).Full t.cfg.outCap) : ((pushBits bs s).bind f).Full s.cfg.outCap := by
  by_cases hroom : s.sink.room bs.length s.cfg.outCap
  · obtain ⟨t, ht, hframe, hkt, hpushed⟩ := pushBits_pushed bs hk hroom
    have hcfg : t.cfg = s.cfg := hframe.eng.cfg
    rw [ht, Eng.bind_ok, ← hcfg]
    refine hf t hframe hkt hpushed ?_
    unfold SinkRegs.room at *
    rw [hpushed.outN, hpushed.pos, hcfg]
    omega
  · exact (full_pushBits hk hroom).bind f

/-- The marker values 0 to 3 fit every code width. -/
theorem lt_two_pow_of_le_three {w t : Nat} (hw : 2 ≤ w) (ht : t ≤ 3) : t < 2 ^ w :=
  calc t < 2 ^ 2 := by omega
    _ ≤ 2 ^ w := Nat.pow_le_pow_right (by norm_num) hw

/-- A literal token whose marker and payload have no room. -/
theorem full_emitLiteral {t n : Nat} {u : CodeUnit} {s : State} (hk : SinkInv s) (hw2 : 2 ≤ s.enc.width)
    (hw : s.enc.width ≤ 25) (ht : t ≤ 3) (hn1 : 1 ≤ n) (hn : n ≤ 25) (hu : u.toNat < 2 ^ n)
    (hr : ¬ s.sink.room (s.enc.width + n) s.cfg.outCap) : (emitLiteral t n u s).Full s.cfg.outCap := by
  unfold emitLiteral
  rw [emit_eq (by omega) hw (lt_two_pow_of_le_three hw2 ht)]
  refine full_pushBits_bind n hk (by rwa [fieldBits_length]) fun a _ hka _ hra => ?_
  rw [emit_eq hn1 hn hu]
  exact (full_pushBits hka (by rwa [fieldBits_length])).bind _

/-- `n` pad characters, six bits each, that have no room. -/
theorem full_putPads {n : Nat} {s : State} (hk : SinkInv s) (hr : ¬ s.sink.room (6 * n) s.cfg.outCap) :
    (putPads n s).Full s.cfg.outCap := by
  unfold SinkRegs.room at hr
  have hpos := hk.pos
  have houtN := hk.outN
  induction n generalizing s with
  | zero => omega
  | succ n ih =>
    rw [putPads, putRaw_eq]
    split
    · exact ⟨s, rfl, ‹_›⟩
    next hne =>
      have hwrote := hk.wrote padChar hne
      refine ih (s := s.wrote padChar) hwrote ?_ hwrote.pos hwrote.outN
      change ¬ s.sink.outN + 1 + (s.sink.pos + 6 * n) / 6 ≤ s.cfg.outCap
      omega

/-- The number of `=` PadOut adds after `n` characters (41_alphabet.md R145, R146). -/
def padsDue (al : Alphabet) (n : Nat) : Nat :=
  match al with
  | .base64 => padCount n
  | .uri => 0

theorem padOut_eq (s : State) : padOut s = putPads (padsDue s.alphl s.sink.outN) s := by
  unfold padOut padsDue
  cases s.alphl <;> rfl

/-- The length of the output with its padding: for BASE64 the next multiple of 4 (41_alphabet.md R145). -/
theorem add_padsDue (al : Alphabet) (n : Nat) : n + padsDue al n = if al = .base64 then 4 * ((n + 3) / 4) else n := by
  cases al with
  | base64 => simp only [padsDue, padCount, if_true]; omega
  | uri => rfl

/-- The end of COMPRESS whose characters, padding included, have no room. -/
theorem execEncEos_full {s : State} (hk : SinkInv s) (hw2 : 2 ≤ s.enc.width) (hw : s.enc.width ≤ 25)
    {n : Nat} (hn : n = s.sink.outN + (s.sink.pos + s.enc.width) / 6 + 1)
    (hr : s.cfg.outCap < n + padsDue s.alphl n) :
    ∃ t, execEncEos s = .next t ∧ t.stage = .complete (.err (.resource .output)) ∧ t.sink.outN = s.cfg.outCap := by
  unfold execEncEos
  rw [emit_eq (by omega) hw (lt_two_pow_of_le_three hw2 (by decide))]
  refine Eng.Full.outcome (full_pushBits_bind
    (6 - (s.sink.pos + s.enc.width) % 6 + 6 * padsDue s.alphl n) hk ?_ fun a hfa hka hpa hra => ?_)
  · rw [fieldBits_length]
    unfold SinkRegs.room
    omega
  · have hposa := hpa.pos
    have houta := hpa.outN
    rw [fieldBits_length] at hposa houta
    rw [← hposa] at hra
    refine full_pushBits_bind (6 * padsDue s.alphl n) hka (by rwa [List.length_replicate])
      fun b hfb hkb hpb hrb => ?_
    have houtb := hpb.outN
    rw [List.length_replicate] at houtb
    have hnb : b.sink.outN = n := by unfold bpc at houtb; omega
    have halb : b.alphl = s.alphl := (hfa.trans hfb).eng.alphl
    rw [padOut_eq, hnb, halb]
    exact (full_putPads hkb hrb).bind _

/-- Settles O52: of the bits, and for EOS of the padding, that a token pushes, some find OUT full. -/
theorem outputFullRaisesResource : Obligations.OutputFullRaisesResource := by
  intro s hk hw2 hw
  refine ⟨fun c hr => ?_, fun c hr => ?_, fun k hlt hr => ?_, fun n hn hr => ?_⟩
  · have hc : (c.setWidth 16).toNat < 2 ^ 8 := by
      rw [BitVec.toNat_setWidth_of_le (by omega)]
      exact c.isLt
    exact (full_emitLiteral hk hw2 hw (by decide) (by decide) (by decide) hc hr).outcome
  · exact (full_emitLiteral hk hw2 hw (by decide) (by decide) (by decide) c.isLt hr).outcome
  · change ∃ t, execEncCode k s = .next t ∧ _
    unfold execEncCode
    rw [emit_eq (by omega) hw hlt]
    exact ((full_pushBits hk (by rwa [fieldBits_length])).bind _).outcome
  · rw [← add_padsDue] at hr
    exact execEncEos_full hk hw2 hw hn hr

/-! ### Fields too narrow -/

/-- Emit of a value that does not fit its field (40_bitpack.md R127). -/
theorem emit_of_le {v n : Nat} (h : 2 ^ n ≤ v) (s : State) : emit v n s = .stop .emitOutOfRange :=
  if_neg fun hfits => absurd hfits.2.2 (Nat.not_lt.mpr h)

/-- Settles O53: the code's Emit is the fault, and nothing follows it. -/
theorem fieldTooNarrowIsAFault : Obligations.FieldTooNarrowIsAFault := by
  intro s k h
  change execEncCode k s = _
  rw [execEncCode, emit_of_le h]
  rfl

end Sys2Proof.Machine
end

section
/-! The family `41_alphabet.md`: the tables of the two alphabets, Validate, and the length of padded output. -/

namespace Sys2Proof.Machine

open Sys2Proof

/-! ### The tables -/

theorem toNat_group {n : Nat} (h : n < 64) : (BitVec.ofNat 6 n).toNat = n :=
  (BitVec.toNat_ofNat n 6).trans (Nat.mod_eq_of_lt h)

theorem mapGroup_upper (al : Alphabet) {n : Nat} (h : n < 26) :
    mapGroup al (BitVec.ofNat 6 n) = BitVec.ofNat 16 (0x41 + n) := by
  simp only [mapGroup, toNat_group (show n < 64 by omega), if_pos h]

theorem mapGroup_lower (al : Alphabet) {n : Nat} (h : n < 26) :
    mapGroup al (BitVec.ofNat 6 (n + 26)) = BitVec.ofNat 16 (0x61 + n) := by
  simp only [mapGroup, toNat_group (show n + 26 < 64 by omega)]
  rw [if_neg (by omega), if_pos (by omega), Nat.add_sub_cancel]

theorem mapGroup_digit (al : Alphabet) {n : Nat} (h : n < 10) :
    mapGroup al (BitVec.ofNat 6 (n + 52)) = BitVec.ofNat 16 (0x30 + n) := by
  simp only [mapGroup, toNat_group (show n + 52 < 64 by omega)]
  rw [if_neg (by omega), if_neg (by omega), if_pos (by omega), Nat.add_sub_cancel]

/-- A character is the one at its distance from the first of its row. -/
theorem ofNat_add_toNat_sub {ch : CodeUnit} {b : Nat} (h : b ≤ ch.toNat) :
    BitVec.ofNat 16 (b + (ch.toNat - b)) = ch := by
  rw [Nat.add_sub_cancel' h, BitVec.ofNat_toNat, BitVec.setWidth_eq]

/-- A character with a group is the forward character of it, or the decode-only `$` of URI (41_alphabet.md R143,
R144). -/
theorem map_of_unmap {al : Alphabet} {ch : CodeUnit} {g : Group} (h : unmapChar al ch = some g) :
    mapGroup al g = ch ∨ al = .uri ∧ ch = 0x24 ∧ g = 0 := by
  unfold unmapChar at h
  dsimp only at h
  split at h
  next hupper =>
    cases h
    exact .inl ((mapGroup_upper al (by omega)).trans (ofNat_add_toNat_sub hupper.1))
  split at h
  next hlower =>
    cases h
    exact .inl ((mapGroup_lower al (by omega)).trans (ofNat_add_toNat_sub hlower.1))
  split at h
  next hdigit =>
    cases h
    exact .inl ((mapGroup_digit al (by omega)).trans (ofNat_add_toNat_sub hdigit.1))
  split at h
  next hplus =>
    cases h
    exact .inl (BitVec.eq_of_toNat_eq hplus.symm)
  cases al with
  | base64 =>
    obtain ⟨hslash, hg⟩ := Option.ite_none_right_eq_some.mp h
    cases hg
    exact .inl (BitVec.eq_of_toNat_eq hslash.symm)
  | uri =>
    dsimp only at h
    split at h
    next hminus =>
      cases h
      exact .inl (BitVec.eq_of_toNat_eq hminus.symm)
    obtain ⟨hdollar, hg⟩ := Option.ite_none_right_eq_some.mp h
    cases hg
    exact .inr ⟨rfl, BitVec.eq_of_toNat_eq hdollar, rfl⟩

/-- Settles O46: the forward tables entry by entry; the reverse ones undo them, and give nothing else but `$`. -/
theorem alphabetTables : Obligations.AlphabetTables := by
  refine ⟨by decide, by decide, fun al ch g => ⟨map_of_unmap, ?_⟩⟩
  rintro (rfl | ⟨rfl, rfl, rfl⟩)
  · exact unmap_map al g
  · decide

/-! ### Validate -/

/-- The first character of a list is invalid: for BASE64 a `=` that does not begin a final run, and otherwise a
character with no group. -/
theorem invalidAt_cons_zero {al : Alphabet} {ch : CodeUnit} {rest : List CodeUnit} :
    InvalidAt al (ch :: rest) 0 ↔
      if al = .base64 ∧ ch = padChar then isTrailingPad (ch :: rest) = false else unmapChar al ch = none := by
  have hpad : (isTrailingPad (ch :: rest) = false) ↔
      ¬ ((ch :: rest).length ≤ 0 + 3 ∧ ∀ c ∈ (ch :: rest).drop 0, c = padChar) := by
    rw [← Bool.not_eq_true]
    simp [isTrailingPad]
  simp [InvalidAt, hpad]

/-- The later characters are judged as they are without the first. -/
theorem invalidAt_cons_succ {al : Alphabet} {ch : CodeUnit} {rest : List CodeUnit} {k : Nat} :
    InvalidAt al (ch :: rest) (k + 1) ↔ InvalidAt al rest k := by
  have hlen : (ch :: rest).length ≤ k + 1 + 3 ↔ rest.length ≤ k + 3 := by
    rw [List.length_cons]
    omega
  simp only [InvalidAt, List.getElem?_cons_succ, List.drop_succ_cons, hlen]

theorem not_invalidAt_nil (al : Alphabet) (k : Nat) : ¬ InvalidAt al [] k := by simp [InvalidAt]

theorem validateFrom_cons_invalid {al : Alphabet} {ch : CodeUnit} {rest : List CodeUnit}
    (h : InvalidAt al (ch :: rest) 0) (n : Nat) : validateFrom al n (ch :: rest) = some n := by
  rw [invalidAt_cons_zero] at h
  rw [validateFrom]
  split at h
  next hpad => rw [if_pos hpad, h, if_neg Bool.false_ne_true]
  next hpad => rw [if_neg hpad, if_pos h]

theorem validateFrom_cons_valid {al : Alphabet} {ch : CodeUnit} {rest : List CodeUnit}
    (h : ¬ InvalidAt al (ch :: rest) 0) (n : Nat) : validateFrom al n (ch :: rest) = validateFrom al (n + 1) rest := by
  rw [invalidAt_cons_zero] at h
  rw [validateFrom]
  split at h
  next hpad => rw [if_pos hpad, if_pos (Bool.eq_true_of_not_eq_false h)]
  next hpad => rw [if_neg hpad, if_neg h]

/-- Validate passes where no character is invalid (41_alphabet.md R147). -/
theorem validateFrom_eq_none_iff (al : Alphabet) (n : Nat) (chars : List CodeUnit) :
    validateFrom al n chars = none ↔ ∀ k, ¬ InvalidAt al chars k := by
  induction chars generalizing n with
  | nil => simp [validateFrom, not_invalidAt_nil]
  | cons ch rest ih =>
    rw [← Nat.and_forall_add_one]
    simp only [invalidAt_cons_succ]
    by_cases h : InvalidAt al (ch :: rest) 0
    · simp [validateFrom_cons_invalid h, h]
    · simp [validateFrom_cons_valid h, h, ih]

/-- Validate from index `n` on reports the lowest invalid character, counted from `n` (41_alphabet.md R147). -/
theorem validateFrom_eq_some_iff (al : Alphabet) (n : Nat) (chars : List CodeUnit) (k : Nat) :
    validateFrom al n chars = some (n + k) ↔ InvalidAt al chars k ∧ ∀ j < k, ¬ InvalidAt al chars j := by
  induction chars generalizing n k with
  | nil => simp [validateFrom, not_invalidAt_nil]
  | cons ch rest ih =>
    by_cases h : InvalidAt al (ch :: rest) 0
    · rw [validateFrom_cons_invalid h]
      cases k with
      | zero => simp [h]
      | succ k =>
        exact iff_of_false (by simp) fun hlowest => hlowest.2 0 (Nat.succ_pos k) h
    · rw [validateFrom_cons_valid h]
      cases k with
      | zero =>
        refine iff_of_false (fun hsome => ?_) (fun hinv => h hinv.1)
        have hle := (validate_some hsome).1
        omega
      | succ k =>
        rw [Nat.forall_lt_succ_left, show n + (k + 1) = n + 1 + k by omega, ih]
        simp only [invalidAt_cons_succ, h, not_false_eq_true, true_and]

/-- Settles O45, by induction on the characters: the first one is invalid, or the rest decide. -/
theorem validateReportsTheLowestIndex : Obligations.ValidateReportsTheLowestIndex := by
  intro al chars
  refine ⟨validateFrom_eq_none_iff al 0 chars, fun k => ?_⟩
  rw [← validateFrom_eq_some_iff al 0, Nat.zero_add]

/-! ### The length of BASE64 output -/

/-- What every turn of an engine keeps, any number of turns keeps. -/
theorem engineRun_keeps {P : State → Prop} (hturn : ∀ {s t}, P s → s.busy = true → engineTurn s = .next t → P t)
    {n : Nat} {s t : State} (hs : P s) (h : engineRun n s = .next t) : P t := by
  induction n generalizing s with
  | zero =>
    cases h
    exact hs
  | succ n ih =>
    unfold engineRun at h
    split at h
    next hb =>
      split at h
      next u hu => exact ih (hturn hs hb hu) h
      · cases h
      · cases h
    next =>
      cases h
      exact hs

/-- An operation of the engine that ends Run with a result went on: raising ends it with an error. -/
theorem Eng.eq_ok_of_result {x : Eng Unit} {t : State} {m : Nat} (h : x.outcome = .next t)
    (hs : t.stage = .complete (.ok m)) : x = .ok () t := by
  rcases Eng.outcome_eq_next.mp h with hok | ⟨e, u, _, rfl⟩
  · exact hok
  · cases hs

theorem pushBits_frame {bs : List Bool} {s t : State} (h : pushBits bs s = .ok () t) : SinkFrame s t := by
  rcases pushBits_cases bs s with ⟨u, hu, hf⟩ | ⟨u, hu, _⟩
  · cases hu.symm.trans h
    exact hf
  · cases hu.symm.trans h

theorem emit_frame {v n : Nat} {s t : State} (h : emit v n s = .ok () t) : SinkFrame s t := by
  unfold emit at h
  split at h
  · exact pushBits_frame h
  · cases h

theorem SinkFrame.stage {s t : State} (h : SinkFrame s t) : t.stage = s.stage := by rw [h]; rfl

theorem emitLiteral_stage {t n : Nat} {u : CodeUnit} {s k : State} (h : emitLiteral t n u s = .ok () k) :
    k.stage = s.stage := by
  obtain ⟨_, a, ha, h⟩ := Eng.bind_eq_ok.mp h
  obtain ⟨_, b, hb, h⟩ := Eng.bind_eq_ok.mp h
  cases h
  exact (emit_frame hb).stage.trans (emit_frame ha).stage

/-- Run does not return a result where it emits a phrase: the place `g` follows. -/
theorem emitPhrase_no_result {g : Stage} (hg : ∀ r, g ≠ .complete r) {s t : State} (h : emitPhrase g s = .next t)
    (m : Nat) : t.stage ≠ .complete (.ok m) := by
  intro hs
  suffices hstage : t.stage = g from hg _ (hstage.symm.trans hs)
  unfold emitPhrase at h
  split at h
  next i hi =>
    rcases chooseToken_cases hi with ⟨c, rfl⟩ | ⟨c, rfl⟩ | ⟨k, rfl⟩
    · exact emitLiteral_stage (Eng.eq_ok_of_result h hs)
    · exact emitLiteral_stage (Eng.eq_ok_of_result h hs)
    · obtain ⟨_, a, ha, hok⟩ := Eng.bind_eq_ok.mp (Eng.eq_ok_of_result h hs)
      cases hok
      exact (emit_frame ha).stage
  · cases h

/-- Run does not return a result at the head of the loop. -/
theorem encHead_no_result {s t : State} (hs : s.stage = .encLoop) (h : (encHead s).outcome = .next t) (m : Nat) :
    t.stage ≠ .complete (.ok m) := by
  intro hres
  have hok := Eng.eq_ok_of_result h hres
  have hextend : ∀ (c : CodeUnit) (e : EncRegs), t = encExtend c (s.setEnc e) → False := by
    rintro c e rfl
    rw [encExtend_eq] at hres
    split at hres
    · cases hs.symm.trans hres
    · cases hres
  unfold encHead at hok
  rw [encStep_eq] at hok
  split_ifs at hok <;> cases hok
  · exact hextend _ _ rfl
  · exact hextend _ _ rfl
  · cases hres

/-- Run does not return a result where it makes a break's entry. -/
theorem encAfterBreak_no_result {c : CodeUnit} {s t : State} (hs : s.stage = .encLoop)
    (h : (encAfterBreak c s).outcome = .next t) (m : Nat) : t.stage ≠ .complete (.ok m) := by
  intro hres
  have hok := Eng.eq_ok_of_result h hres
  unfold encAfterBreak at hok
  rw [encInsert_eq] at hok
  split at hok
  · cases hok
  · cases hok
    cases hs.symm.trans hres

/-- Pad characters that find room are counted (41_alphabet.md R145). -/
theorem putPads_outN {n : Nat} {s t : State} (h : putPads n s = .ok () t) : t.sink.outN = s.sink.outN + n := by
  induction n generalizing s with
  | zero =>
    cases h
    rfl
  | succ n ih =>
    rw [putPads, putRaw_eq] at h
    split at h
    · cases h
    · rw [ih h, wrote_outN]
      omega

/-- PadOut makes the length of BASE64 output a multiple of 4 (41_alphabet.md R145). -/
theorem padOut_base64 {s t : State} (hal : s.alphl = .base64) (h : padOut s = .ok () t) : t.sink.outN % 4 = 0 := by
  rw [padOut_eq] at h
  rw [putPads_outN h, add_padsDue, hal, if_pos rfl]
  omega

/-- The result that EOS returns for BASE64 is padded (42_encoder.md R170). -/
theorem encEos_base64 {s t : State} {m : Nat} (hal : s.alphl = .base64) (h : exec .encEos s = .next t)
    (hres : t.stage = .complete (.ok m)) : m % 4 = 0 := by
  obtain ⟨_, a, ha, hok⟩ := Eng.bind_eq_ok.mp (Eng.eq_ok_of_result h hres)
  obtain ⟨_, b, hb, hok⟩ := Eng.bind_eq_ok.mp hok
  obtain ⟨_, c, hc, hok⟩ := Eng.bind_eq_ok.mp hok
  cases hok
  cases hres
  have hframe : SinkFrame s b := (emit_frame ha).trans (pushBits_frame hb)
  exact padOut_base64 (hframe.eng.alphl.trans hal) hc

/-- The empty result is the only one that Run of COMPRESS returns at its beginning (42_encoder.md R161). -/
theorem startRun_compress_result {s t : State} {m : Nat} (hop : s.opl = .compress)
    (h : (startRun s).outcome = .next t) (hres : t.stage = .complete (.ok m)) : m = 0 := by
  have hok := Eng.eq_ok_of_result h hres
  unfold startRun startCompress at hok
  rw [hop] at hok
  dsimp only at hok
  split_ifs at hok <;> cases hok <;> cases hres
  rfl

/-- A result that a turn of a BASE64 COMPRESS returns has a multiple of 4 characters. -/
theorem engineTurn_base64_result {s t : State} {m : Nat} (hinv : Inv s) (hb : s.busy = true)
    (hop : s.opl = .compress) (hal : s.alphl = .base64) (h : engineTurn s = .next t)
    (hres : t.stage = .complete (.ok m)) : m % 4 = 0 := by
  have hrun := hinv.run
  unfold engineTurn at h
  rw [if_pos hb] at h
  generalize hs : s.stage = g at h hrun
  cases g with
  | idle => cases h
  | start => rw [startRun_compress_result hop h hres]
  | encLoop => exact absurd hres (encHead_no_result hs h m)
  | encBreak c => exact absurd hres (emitPhrase_no_result (by simp) h m)
  | encInsert c => exact absurd hres (encAfterBreak_no_result rfl h m)
  | encLast => exact absurd hres (emitPhrase_no_result (by simp) h m)
  | encEos => exact encEos_base64 hal h hres
  | decFirst => cases hop.symm.trans hrun.1.op
  | decLoop => cases hop.symm.trans hrun.1.op
  | complete r =>
    cases h
    cases (completion_stage r s).symm.trans hres

/-- What holds of a BASE64 COMPRESS from its beginning on: the result that Run has returned, or that the completion step
has reported, has a multiple of 4 characters. -/
structure Base64Compress (s : State) : Prop where
  inv    : Inv s
  op     : s.opl = .compress
  alph   : s.alphl = .base64
  result : ∀ m, s.stage = .complete (.ok m) → m % 4 = 0
  outLen : s.status = .done → s.outLen.toNat % 4 = 0

/-- A turn either goes on, and may return a result, or is the completion step, which reports the one returned. -/
theorem Base64Compress.engineTurn {s t : State} (h : Base64Compress s) (hb : s.busy = true)
    (ht : engineTurn s = .next t) : Base64Compress t := by
  have hbusy := (busy_iff s).mp hb
  obtain ⟨u, hu, hcase⟩ := engineTurn_busy h.inv hbusy
  cases hu.symm.trans ht
  rcases hcase with hadv | ⟨r, hs, rfl, hinv, _⟩
  · refine ⟨hadv.inv, hadv.frame.opl.trans h.op, hadv.frame.alphl.trans h.alph, fun m hres => ?_, fun hdone => ?_⟩
    · exact engineTurn_base64_result h.inv hb h.op h.alph ht hres
    · cases (hadv.frame.status.trans hbusy).symm.trans hdone
  · have hresult : ∀ m, (s.completion r).stage ≠ .complete (.ok m) := by simp [completion_stage]
    cases r with
    | ok m =>
      refine ⟨hinv, h.op, h.alph, fun k hres => absurd hres (hresult k), fun _ => ?_⟩
      have hm := h.result m hs
      change (BitVec.ofNat 32 m).toNat % 4 = 0
      rw [BitVec.toNat_ofNat]
      omega
    | err e =>
      refine ⟨hinv, h.op, h.alph, fun k hres => absurd hres (hresult k), fun hdone => ?_⟩
      cases hdone

/-- Settles O54: every turn keeps `Base64Compress`, which holds at the beginning of Run. -/
theorem base64LengthIsAMultipleOfFour : Obligations.Base64LengthIsAMultipleOfFour := by
  intro s t n hinv hs hop hal hrun hdone
  have hbusy := (hinv.atStart hs).1
  have hstart : Base64Compress s := by
    refine ⟨hinv, hop, hal, ?_, ?_⟩
    · simp [hs]
    · simp [hbusy]
  exact (engineRun_keeps Base64Compress.engineTurn hstart hrun).outLen hdone

end Sys2Proof.Machine
end

section
/-! The family `42_encoder.md`, COMPRESS block by block: how Run begins, what EncStep does around its token, and the
bits that each token pushes into the sink. -/

namespace Sys2Proof.Machine

open Sys2Proof

/-! ### Tick -/

/-- Settles O41: the counter has run down where only 1 was left. -/
theorem tickCountsDown : Obligations.TickCountsDown := by
  intro width enl henl
  have hzero : enl - 1 = 0 ↔ enl = 1 := by omega
  simp only [tick, hzero]

/-! ### The beginning of Run -/

theorem startRun_compress {s : State} (hop : s.opl = .compress) (hpos : 0 < s.snapLen.toNat)
    (hcap : s.snapLen.toNat ≤ s.cfg.inCap) :
    startRun s = .ok () ((sinkInit (encInit s)).setStage .encLoop) := by
  rw [startRun, if_neg (Nat.not_lt.mpr hcap), hop]
  exact if_neg (Nat.ne_of_gt hpos)

theorem startRun_decompress {s : State} (hop : s.opl = .decompress) (hpos : 0 < s.snapLen.toNat)
    (hcap : s.snapLen.toNat ≤ s.cfg.inCap) (hvalid : ∀ k, ¬ InvalidAt s.alphl s.inputUnits k) :
    startRun s = .ok () ((decInit (dataLength s.alphl s.inputUnits) s).setStage .decFirst) := by
  rw [startRun, if_neg (Nat.not_lt.mpr hcap), hop]
  dsimp only
  rw [startDecompress, (validateFrom_eq_none_iff _ _ _).mpr hvalid]
  exact if_neg (Nat.ne_of_gt hpos)

/-- Valid BASE64 input has at most three pad characters after its data: with more, the first of them is invalid
(41_alphabet.md R147). -/
theorem length_le_dataLength_add_three {chars : List CodeUnit} (hvalid : ∀ k, ¬ InvalidAt .base64 chars k) :
    chars.length ≤ dataLength .base64 chars + 3 := by
  by_contra hlong
  have hpad := (dataLength_base64_spec chars).1 _ (Nat.le_refl _) (by omega)
  refine hvalid (dataLength .base64 chars) ⟨padChar, hpad, ?_⟩
  rw [if_pos ⟨rfl, rfl⟩]
  exact fun hrun => hlong hrun.1

/-- Settles O44: Run passes its checks and initialises the engine, and NDATA is what its specification says. -/
theorem startInitialisesTheEngine : Obligations.StartInitialisesTheEngine := by
  intro s hb hs hpos hcap
  rw [engineTurn_start ((busy_iff s).mpr hb) hs]
  refine ⟨fun hop => ?_, fun hop hvalid => ?_⟩
  · rw [startRun_compress hop hpos hcap]
    rfl
  · rw [startRun_decompress hop hpos hcap hvalid]
    refine ⟨dataLength s.alphl s.inputUnits, rfl, fun hal => ?_, fun hal => ?_⟩
    · rw [hal, dataLength_uri, inputUnits_length]
    · rw [hal] at hvalid ⊢
      have hle := dataLength_le .base64 s.inputUnits
      have hthree := length_le_dataLength_add_three hvalid
      obtain ⟨hpads, hlast⟩ := dataLength_base64_spec s.inputUnits
      rw [inputUnits_length] at hle hthree hpads
      refine ⟨hle, hthree, fun k hk hlt => inputUnits_get s (hpads k hk hlt), ?_⟩
      rcases Nat.eq_zero_or_pos (dataLength .base64 s.inputUnits) with hzero | hdata
      · exact .inl hzero
      · refine .inr fun hpad => hlast.resolve_left (Nat.ne_of_gt hdata) ?_
        rw [inputUnits_get? s (by omega), hpad]
        rfl

/-! ### EncStep around its token -/

theorem engineTurn_encLoop {s : State} (hb : s.status = .busy) (hs : s.stage = .encLoop) :
    engineTurn s = (encHead s).outcome := by
  rw [engineTurn, if_pos ((busy_iff s).mpr hb), hs]

theorem engineTurn_encInsert {s : State} {c : CodeUnit} (hb : s.status = .busy) (hs : s.stage = .encInsert c) :
    engineTurn s = (encAfterBreak c (s.setStage .encLoop)).outcome := by
  rw [engineTurn, if_pos ((busy_iff s).mpr hb), hs]

/-- The registers `e` of a step on the unit `c` once `c` is registered: seen before, or registered now with the next
code and pending (42_encoder.md R164). -/
def EncRegs.Seen (e₀ e : EncRegs) (c : CodeUnit) (cap : Nat) : Prop :=
  [c] ∈ e₀.keys ∧ e = { e₀ with i := e₀.i + 1 } ∨
    [c] ∉ e₀.keys ∧ [c] ∉ e₀.pend ∧ e₀.next ≠ cap ∧
      e = { e₀ with i := e₀.i + 1, dict := ([c], e₀.next) :: e₀.dict, next := e₀.next + 1, pend := [c] :: e₀.pend }

theorem EncRegs.Seen.w {e₀ e : EncRegs} {c : CodeUnit} {cap : Nat} (h : e₀.Seen e c cap) : e.w = e₀.w := by
  rcases h with ⟨_, rfl⟩ | ⟨_, _, _, rfl⟩ <;> rfl

theorem advance_register_of_not_pend {e : EncRegs} {c : CodeUnit} (h : [c] ∉ e.pend) :
    e.advance.register c =
      { e with i := e.i + 1, dict := ([c], e.next) :: e.dict, next := e.next + 1, pend := [c] :: e.pend } := by
  have hpend : [c] ∉ (e.advance.insert [c]).pend := h
  rw [EncRegs.register, EncRegs.pendAdd, if_neg hpend]
  rfl

/-- EncStep registers its unit and extends E_W by it, or breaks (42_encoder.md R164 to R166). -/
theorem EncRegs.Seen.encStep {s : State} {e : EncRegs} (h : s.enc.Seen e (s.memRead s.enc.i) s.cfg.dictCap) :
    encStep s = .ok () (encExtend (s.memRead s.enc.i) (s.setEnc e)) := by
  rw [encStep_eq]
  rcases h with ⟨hkey, rfl⟩ | ⟨hkey, hpend, hcap, rfl⟩
  · rw [if_pos hkey]
    rfl
  · rw [if_neg hkey, if_neg hcap, advance_register_of_not_pend hpend]

/-- All that EncStep does after its token (42_encoder.md R166, R174). -/
theorem encAfterBreak_eq (c : CodeUnit) (s : State) :
    encAfterBreak c s = if s.enc.next = s.cfg.dictCap then .raise (.resource .dictionary) s
      else .ok () (s.setEnc ((s.enc.insert (s.enc.w ++ [c])).setW [c])) := by
  rw [encAfterBreak, encInsert_eq]
  split <;> rfl

/-- Settles O47, clause by clause: a unit seen before or new, a new one in a full dictionary, the entry after a break,
and the end of the input. -/
theorem encoderStep : Obligations.EncoderStep := by
  refine ⟨fun s e hb hs hi (hseen : s.enc.Seen e _ _) => ?_, fun s hb hs hi hkey hcap => ?_, fun s c hb hs => ?_,
    fun s hb hs hi => ?_⟩
  · rw [engineTurn_encLoop hb hs, encHead, if_pos hi, hseen.encStep, encExtend_eq, setEnc_enc, hseen.w]
    exact ⟨fun hkey => by rw [if_pos hkey]; rfl, fun hkey => by rw [if_neg hkey]; rfl⟩
  · rw [engineTurn_encLoop hb hs, encHead, if_pos hi, encStep_eq, if_neg hkey, if_pos hcap]
    exact ⟨_, rfl, rfl⟩
  · rw [engineTurn_encInsert hb hs, encAfterBreak_eq, setStage_enc, setStage_cfg]
    refine ⟨fun hcap => ?_, fun hcap => ?_⟩
    · rw [if_neg hcap]
      rfl
    · rw [if_pos hcap]
      exact ⟨_, rfl, rfl⟩
  · rw [engineTurn_encLoop hb hs, encHead, if_neg (Nat.not_lt.mpr hi)]
    rfl

/-! ### The choice of the token -/

theorem chooseToken_pending {e : EncRegs} {u : CodeUnit} (hw : e.w = [u]) (hp : e.w ∈ e.pend) :
    chooseToken e = if u.toNat < 256 then some (.encLit8 (u.setWidth 8)) else some (.encLit16 u) := by
  rw [chooseToken, if_pos hp, hw]

theorem chooseToken_code {e : EncRegs} (hp : e.w ∉ e.pend) : chooseToken e = (dictCode e.dict e.w).map .encCode := by
  rw [chooseToken, if_neg hp]

/-- Settles O48: a pending phrase by its unit, any other by its entry. -/
theorem emitPhraseChoosesItsToken : Obligations.EmitPhraseChoosesItsToken := by
  refine fun e => ⟨fun u hw hp hu => ?_, fun u hw hp hu => ?_, fun k hp hk => ?_⟩
  · rw [chooseToken_pending hw hp, if_pos hu]
  · rw [chooseToken_pending hw hp, if_neg (Nat.not_lt.mpr hu)]
  · rw [chooseToken_code hp, hk]
    rfl

/-! ### The bits of the tokens -/

/-- Room for more bits is room for the first of them. -/
theorem SinkRegs.room.of_le {k : SinkRegs} {m n cap : Nat} (h : k.room n cap) (hle : m ≤ n) : k.room m cap := by
  unfold SinkRegs.room at *
  omega

/-- The room that is left once `bits` have been pushed. -/
theorem Pushed.room {bits : List Bool} {s t : State} (h : Pushed bits s t) {m cap : Nat}
    (hr : s.sink.room (bits.length + m) cap) : t.sink.room m cap := by
  unfold SinkRegs.room at *
  rw [h.outN, h.pos]
  omega

/-- `Pushed` speaks of the sink and OUT only. -/
theorem Pushed.setEnc {bits : List Bool} {s t : State} (h : Pushed bits s t) (e : EncRegs) :
    Pushed bits s (t.setEnc e) := ⟨h.outN, h.pos, h.pending, h.chars, h.rest⟩

/-- Emit of a value that fits its field, with room for its bits (40_bitpack.md R122, R123). -/
theorem emit_pushed {v n : Nat} {s : State} (hk : SinkInv s) (h1 : 1 ≤ n) (h25 : n ≤ 25) (hv : v < 2 ^ n)
    (hr : s.sink.room n s.cfg.outCap) :
    ∃ t, emit v n s = .ok () t ∧ SinkFrame s t ∧ SinkInv t ∧ Pushed (fieldBits s.cfg.order n v) s t := by
  rw [emit_eq h1 h25 hv]
  exact pushBits_pushed _ hk (by rwa [fieldBits_length])

/-- A literal token pushes its marker and its payload, makes two Ticks and takes the phrase out of E_PEND (42_encoder.md
R167, R168). -/
theorem emitLiteral_pushed {m n : Nat} {u : CodeUnit} {s : State} (hk : SinkInv s) (hw2 : 2 ≤ s.enc.width)
    (hw : s.enc.width ≤ 25) (hm : m ≤ 3) (hn1 : 1 ≤ n) (hn : n ≤ 25) (hu : u.toNat < 2 ^ n)
    (hr : s.sink.room (s.enc.width + n) s.cfg.outCap) :
    ∃ t, (emitLiteral m n u s).outcome = .next t ∧
      Pushed (fieldBits s.cfg.order s.enc.width m ++ fieldBits s.cfg.order n u.toNat) s t ∧
      t = { s with
        enc := { s.enc with
          width := (tick2 s.enc.width s.enc.enl).1, enl := (tick2 s.enc.width s.enc.enl).2
          pend := s.enc.pend.filter (· ≠ [u]) }
        sink := t.sink, outBuf := t.outBuf } := by
  obtain ⟨a, ha, hfa, hka, hpa⟩ := emit_pushed hk (by omega) hw (lt_two_pow_of_le_three hw2 hm)
    (hr.of_le (Nat.le_add_right _ n))
  have hcfg : a.cfg = s.cfg := hfa.eng.cfg
  have hra : a.sink.room n a.cfg.outCap := by
    rw [hcfg]
    exact hpa.room (by rwa [fieldBits_length])
  obtain ⟨b, hb, hfb, _, hpb⟩ := emit_pushed hka hn1 hn hu hra
  have hpushed := hpa.trans hpb hfa.eng.alphl
  have hframe := hfa.trans hfb
  rw [hcfg] at hpushed
  refine ⟨b.setEnc (b.enc.tick.pendRemove [u]).tick, ?_, hpushed.setEnc _, ?_⟩
  · rw [emitLiteral, ha, Eng.bind_ok, hb]
    rfl
  · rw [hframe]
    rfl

/-- Settles O49: both literals are one token, with a payload of 8 or of 16 bits. -/
theorem encLiteralTokens : Obligations.EncLiteralTokens := by
  intro s hk hw2 hw
  refine ⟨fun c hr => ?_, fun c hr => emitLiteral_pushed hk hw2 hw (by decide) (by decide) (by decide) c.isLt hr⟩
  have hc : (c.setWidth 16).toNat = c.toNat := BitVec.toNat_setWidth_of_le (by decide)
  have hlit := emitLiteral_pushed (m := 0) hk hw2 hw (by decide) (by decide) (by decide) (hc.trans_lt c.isLt) hr
  rwa [hc] at hlit

/-- Settles O50: the code fits its field. -/
theorem encCodeToken : Obligations.EncCodeToken := by
  intro s k hk hw2 hw hlt hr
  obtain ⟨a, ha, hframe, _, hpushed⟩ := emit_pushed hk (by omega) hw hlt hr
  refine ⟨a.setEnc a.enc.tick, ?_, hpushed.setEnc _, ?_⟩
  · change execEncCode k s = _
    rw [execEncCode, ha]
    rfl
  · rw [hframe]
    rfl

/-- Between characters the accumulator is empty. -/
theorem SinkInv.sink_of_pos_eq_zero {s : State} (h : SinkInv s) (hp : s.sink.pos = 0) :
    s.sink = { acc := 0, pos := 0, outN := s.sink.outN } := by
  have hacc : s.sink.acc = 0 := by
    have hlt := h.acc
    rw [hp, Nat.pow_zero, Nat.lt_one_iff] at hlt
    exact BitVec.eq_of_toNat_eq hlt
  rw [← hacc, ← hp]

/-- Flush pushes the zero bits up to the end of the character, and leaves the accumulator empty (40_bitpack.md R124). -/
theorem flush_pushed {s : State} (hk : SinkInv s) (hr : s.sink.outN < s.cfg.outCap) :
    ∃ t, flush s = .ok () t ∧ SinkFrame s t ∧ SinkInv t ∧ Pushed (List.replicate (6 - s.sink.pos) false) s t ∧
      t.sink = { acc := 0, pos := 0, outN := s.sink.outN + 1 } := by
  have hpos := hk.pos
  obtain ⟨t, ht, hframe, hkt, hpushed⟩ := pushBits_pushed (List.replicate (6 - s.sink.pos) false) hk (by
    rw [List.length_replicate]
    unfold SinkRegs.room
    omega)
  have hp := hpushed.pos
  have hn := hpushed.outN
  rw [List.length_replicate] at hp hn
  refine ⟨t, ht, hframe, hkt, hpushed, ?_⟩
  rw [hkt.sink_of_pos_eq_zero (by omega), hn]
  congr 1
  omega

/-- Settles O51: the bits of EOS, then those that complete its last character, then the padding due after it. -/
theorem encEosToken : Obligations.EncEosToken := by
  intro s n m hk hw2 hw hn hm hcap
  rw [← add_padsDue] at hm
  obtain ⟨a, ha, hfa, hka, hpa⟩ := emit_pushed (v := 2) hk (by omega) hw (lt_two_pow_of_le_three hw2 (by decide)) (by
    unfold SinkRegs.room
    omega)
  have hposa := hpa.pos
  have houta := hpa.outN
  rw [fieldBits_length] at hposa houta
  obtain ⟨b, hb, hfb, hkb, hpb, hsinkb⟩ := flush_pushed hka (by rw [hfa.eng.cfg]; omega)
  have houtb : a.sink.outN + 1 = n := by omega
  rw [houtb] at hsinkb
  have hfsb := hfa.trans hfb
  obtain ⟨t, ht, hft, _, hsinkt, hread⟩ := putPads_read (padsDue b.alphl b.sink.outN) hkb (by
    rw [hfsb.eng.cfg, hfsb.eng.alphl, hsinkb, ← hm]
    exact hcap)
  have hframe := hfsb.trans hft
  rw [hfsb.eng.alphl, hsinkb, ← hm] at hread hsinkt
  refine ⟨b, t.returned (.ok t.sink.outN), ?_, ?_, hread, ?_⟩
  · change execEncEos s = _
    rw [execEncEos, ha, Eng.bind_ok, hb, Eng.bind_ok, padOut_eq, ht]
    rfl
  · rw [← hposa]
    exact hpa.trans hpb hfa.eng.alphl
  · rw [hframe, hsinkt]
    rfl

end Sys2Proof.Machine
end

section
/-! The family `42_encoder.md`, the code widths: how many Ticks an operation of the engine can make, on each side. A
turn makes at most two, on one side only, and two Ticks never widen twice. -/

namespace Sys2Proof.Machine

open Sys2Proof

/-! ### A width and its enlarge counter -/

/-- `q` is `p`, a code width with its enlarge counter, after at most `n` Ticks. -/
def AtMostTicks (n : Nat) (p q : Nat × Nat) : Prop := ∃ k ≤ n, q = (fun p => tick p.1 p.2)^[k] p

theorem AtMostTicks.refl (n : Nat) (p : Nat × Nat) : AtMostTicks n p p := ⟨0, Nat.zero_le n, rfl⟩

theorem atMostTicks_tick (w e : Nat) : AtMostTicks 1 (w, e) (tick w e) := ⟨1, Nat.le_refl 1, rfl⟩

theorem atMostTicks_tick2 (w e : Nat) : AtMostTicks 2 (w, e) (tick2 w e) := ⟨2, Nat.le_refl 2, rfl⟩

theorem AtMostTicks.trans {m n : Nat} {p q r : Nat × Nat} (h₁ : AtMostTicks m p q) (h₂ : AtMostTicks n q r) :
    AtMostTicks (n + m) p r := by
  obtain ⟨j, hj, rfl⟩ := h₁
  obtain ⟨k, hk, rfl⟩ := h₂
  exact ⟨k + j, Nat.add_le_add hk hj, (Function.iterate_add_apply _ k j p).symm⟩

theorem AtMostTicks.eq_of_zero {p q : Nat × Nat} (h : AtMostTicks 0 p q) : q = p := by
  obtain ⟨k, hk, rfl⟩ := h
  rw [Nat.le_zero.mp hk]
  rfl

/-- A Tick leaves the width, or widens it by one and makes the counter 2^width. -/
theorem tick_cases (w e : Nat) : (tick w e).1 = w ∨ tick w e = (w + 1, 2 ^ w) := by
  unfold tick
  split
  · exact .inr rfl
  · exact .inl rfl

/-- Where the counter is above 1, Tick leaves the width. -/
theorem tick_fst_of_two_le {w e : Nat} (he : 2 ≤ e) : (tick w e).1 = w := by
  rw [tick, if_neg (by omega)]

/-- Two Ticks widen by at most one: after the first has widened, the counter is at least 2. -/
theorem tick2_fst (w e : Nat) (hw : 1 ≤ w) : (tick2 w e).1 = w ∨ (tick2 w e).1 = w + 1 := by
  unfold tick2
  rcases tick_cases w e with hsame | hwide
  · rw [hsame]
    exact (tick_cases w _).imp_right (congrArg Prod.fst)
  · rw [hwide]
    exact .inr (tick_fst_of_two_le (Nat.le_self_pow (Nat.ne_of_gt hw) 2))

theorem AtMostTicks.fst {p q : Nat × Nat} (h : AtMostTicks 2 p q) (hw : 1 ≤ p.1) : q.1 = p.1 ∨ q.1 = p.1 + 1 := by
  obtain ⟨k, hk, rfl⟩ := h
  match k, hk with
  | 0, _ => exact .inl rfl
  | 1, _ => exact (tick_cases p.1 p.2).imp_right (congrArg Prod.fst)
  | 2, _ => exact tick2_fst p.1 p.2 hw

/-! ### The widths of a state -/

/-- From `s` to `t` the encoder's width has made at most `m` Ticks, and the decoder's at most `n`. -/
structure Ticked (m n : Nat) (s t : State) : Prop where
  enc : AtMostTicks m (s.enc.width, s.enc.enl) (t.enc.width, t.enc.enl)
  dec : AtMostTicks n (s.dec.width, s.dec.enl) (t.dec.width, t.dec.enl)

theorem Ticked.refl (m n : Nat) (s : State) : Ticked m n s s := ⟨.refl m _, .refl n _⟩

theorem Ticked.of_eq {s t : State} (henc : t.enc = s.enc) (hdec : t.dec = s.dec) (m n : Nat) : Ticked m n s t := by
  refine ⟨?_, ?_⟩
  · rw [henc]
    exact .refl m _
  · rw [hdec]
    exact .refl n _

theorem Ticked.trans {m n m' n' : Nat} {s t u : State} (h₁ : Ticked m n s t) (h₂ : Ticked m' n' t u) :
    Ticked (m' + m) (n' + n) s u := ⟨h₁.enc.trans h₂.enc, h₁.dec.trans h₂.dec⟩

theorem SinkFrame.ticked {s t : State} (h : SinkFrame s t) (m n : Nat) : Ticked m n s t :=
  .of_eq (by rw [h]; rfl) (by rw [h]; rfl) m n

theorem SourceFrame.ticked {s t : State} (h : SourceFrame s t) (m n : Nat) : Ticked m n s t :=
  .of_eq (by rw [h]; rfl) (by rw [h]; rfl) m n

theorem completion_ticked (r : RunResult) (s : State) (m n : Nat) : Ticked m n s (s.completion r) := by
  cases r <;> exact ⟨.refl m _, .refl n _⟩

/-! ### What an operation ends in -/

/-- The state in which the operation goes on or raises meets `P`. -/
def Eng.Ends {α : Type} (P : State → Prop) : Eng α → Prop
  | .ok _ t => P t
  | .raise _ t => P t
  | .stop _ => True

theorem Eng.Ends.mono {α : Type} {P Q : State → Prop} {x : Eng α} (h : x.Ends P) (hPQ : ∀ t, P t → Q t) :
    x.Ends Q := by
  cases x with
  | ok a t => exact hPQ t h
  | raise e t => exact hPQ t h
  | stop f => trivial

theorem Eng.Ends.bind {α β : Type} {P Q : State → Prop} {x : Eng α} {f : α → State → Eng β} (h : x.Ends P)
    (hPQ : ∀ t, P t → Q t) (hf : ∀ a t, P t → (f a t).Ends Q) : (x.bind f).Ends Q := by
  cases x with
  | ok a t => exact hf a t h
  | raise e t => exact hPQ t h
  | stop f => trivial

/-- Returning an error makes no Tick. -/
theorem Eng.Ends.next {m n : Nat} {s t : State} {x : Eng Unit} (hx : x.Ends (Ticked m n s))
    (h : x.outcome = .next t) : Ticked m n s t := by
  rcases Eng.outcome_eq_next.mp h with rfl | ⟨e, u, rfl, rfl⟩
  · exact hx
  · exact ⟨hx.enc, hx.dec⟩

/-! ### COMPRESS -/

theorem pushBits_ends (bs : List Bool) (s : State) : (pushBits bs s).Ends (SinkFrame s) := by
  rcases pushBits_cases bs s with ⟨t, ht, hframe⟩ | ⟨t, ht, hframe⟩ <;>
    (rw [ht]; exact hframe)

theorem emit_ends (v n : Nat) (s : State) : (emit v n s).Ends (SinkFrame s) := by
  unfold emit
  split
  · exact pushBits_ends _ s
  · trivial

theorem padOut_ends (s : State) : (padOut s).Ends (SinkFrame s) := by
  rcases padOut_cases s with ⟨t, ht, hframe⟩ | ⟨t, ht, hframe⟩ <;>
    (rw [ht]; exact hframe)

/-- A literal token makes two Ticks, or none where it raises (42_encoder.md R167, R168). -/
theorem emitLiteral_ticked (m n : Nat) (u : CodeUnit) (s : State) : (emitLiteral m n u s).Ends (Ticked 2 0 s) := by
  refine (emit_ends m _ s).bind (fun t ht => ht.ticked 2 0) fun _ t ht => ?_
  refine (emit_ends _ n t).bind (fun v hv => (ht.trans hv).ticked 2 0) fun _ v hv => ?_
  have h := (ht.trans hv).ticked 0 0
  exact ⟨h.enc.trans (atMostTicks_tick2 _ _), h.dec⟩

/-- A code token makes one Tick, or none where it raises (42_encoder.md R169). -/
theorem encCode_ticked (k : Nat) (s : State) :
    ((emit k s.enc.width s).bind fun _ t => .ok () (t.setEnc t.enc.tick)).Ends (Ticked 2 0 s) := by
  refine (emit_ends k _ s).bind (fun t ht => ht.ticked 2 0) fun _ t ht => ?_
  have h := ht.ticked 1 0
  exact ⟨h.enc.trans (atMostTicks_tick _ _), h.dec⟩

theorem emitPhrase_ticked {g : Stage} {s t : State} (h : emitPhrase g s = .next t) : Ticked 2 0 s t := by
  suffices Ticked 2 0 (s.setStage g) t from ⟨this.enc, this.dec⟩
  unfold emitPhrase at h
  split at h
  next i hi =>
    rcases chooseToken_cases hi with ⟨c, rfl⟩ | ⟨c, rfl⟩ | ⟨k, rfl⟩
    · exact (emitLiteral_ticked 0 8 _ _).next h
    · exact (emitLiteral_ticked 1 16 _ _).next h
    · exact (encCode_ticked k _).next h
  · cases h

/-- EOS makes no Tick (42_encoder.md R170). -/
theorem encEos_ticked {s t : State} (h : exec .encEos s = .next t) : Ticked 0 0 s t := by
  refine Eng.Ends.next ?_ h
  refine (emit_ends 2 _ s).bind (fun a ha => ha.ticked 0 0) fun _ a ha => ?_
  refine (pushBits_ends _ a).bind (fun b hb => (ha.trans hb).ticked 0 0) fun _ b hb => ?_
  refine (padOut_ends b).bind (fun c hc => ((ha.trans hb).trans hc).ticked 0 0) fun _ c hc => ?_
  have h := ((ha.trans hb).trans hc).ticked 0 0
  exact ⟨h.enc, h.dec⟩

theorem encExtend_ticked (c : CodeUnit) (s : State) : Ticked 0 0 s (encExtend c s) := by
  rw [encExtend_eq]
  split <;> exact ⟨.refl 0 _, .refl 0 _⟩

/-- EncStep makes no Tick before its token. -/
theorem encHead_ticked {s t : State} (h : (encHead s).outcome = .next t) : Ticked 0 0 s t := by
  refine Eng.Ends.next ?_ h
  have hextend : ∀ (c : CodeUnit) (e : EncRegs), Ticked 0 0 s (s.setEnc e) →
      Ticked 0 0 s (encExtend c (s.setEnc e)) := fun c e he => he.trans (encExtend_ticked c _)
  unfold encHead
  rw [encStep_eq]
  split_ifs
  · exact hextend _ _ ⟨.refl 0 _, .refl 0 _⟩
  · exact ⟨.refl 0 _, .refl 0 _⟩
  · exact hextend _ _ ⟨.refl 0 _, .refl 0 _⟩
  · exact ⟨.refl 0 _, .refl 0 _⟩

theorem encAfterBreak_ticked {c : CodeUnit} {s t : State} (h : (encAfterBreak c s).outcome = .next t) :
    Ticked 0 0 s t := by
  refine Eng.Ends.next ?_ h
  rw [encAfterBreak_eq]
  split <;> exact ⟨.refl 0 _, .refl 0 _⟩

/-! ### DECOMPRESS -/

theorem decInsert_ticked (p : Phrase) (s : State) : (decInsert p s).Ends (Ticked 0 0 s) := by
  rw [decInsert_eq]
  split <;> exact ⟨.refl 0 _, .refl 0 _⟩

theorem append_ticked (p : Phrase) (s : State) : (append p s).Ends (Ticked 0 0 s) := by
  induction p generalizing s with
  | nil => exact ⟨.refl 0 _, .refl 0 _⟩
  | cons u p ih =>
    rw [append, appendUnit_eq]
    split
    · exact ⟨.refl 0 _, .refl 0 _⟩
    · exact (ih (s.appended u)).mono fun t ht => ⟨ht.enc, ht.dec⟩

theorem setDec_tick_ticked (s : State) : Ticked 0 1 s (s.setDec s.dec.tick) := ⟨.refl 0 _, atMostTicks_tick _ _⟩

/-- Tail makes one Tick (43_decoder.md R204). -/
theorem tail_ticked (k : Nat) (s : State) : (tail k s).Ends (Ticked 0 1 s) := by
  unfold tail
  split
  · refine (append_ticked _ s).bind (fun t ht => ht.trans (.refl 0 1 _)) fun _ t ht => ?_
    refine (decInsert_ticked _ t).bind (fun v hv => (ht.trans hv).trans (.refl 0 1 _)) fun _ v hv => ?_
    have h := (ht.trans hv).trans (setDec_tick_ticked v)
    exact ⟨h.enc, h.dec⟩
  all_goals trivial

/-- A literal in the loop makes two Ticks, its own and that of Tail (43_decoder.md R198, R199). -/
theorem loopLiteral_ticked (c : CodeUnit) (s : State) : (loopLiteral c s).Ends (Ticked 0 2 s) := by
  refine (decInsert_ticked [c] s).bind (fun t ht => ht.trans (.refl 0 2 _)) fun _ t ht => ?_
  exact (tail_ticked _ _).mono fun v hv => (ht.trans (setDec_tick_ticked t)).trans hv

/-- The first literal makes one Tick (43_decoder.md R197). -/
theorem seed_ticked (c : CodeUnit) (s : State) : (seed c s).Ends (Ticked 0 1 s) := by
  rw [seed_eq]
  split
  · exact .refl 0 1 s
  · exact (append_ticked _ _).mono fun t ht => ⟨ht.enc, (atMostTicks_tick _ _).trans ht.dec⟩

/-- A token that DECOMPRESS reads makes at most two Ticks. -/
theorem exec_decoded_ticked {c : DecodeCtx} {bits : List Bool} {i : Instr} {s t : State} (hside : c.side ≠ .enc)
    (hi : decode c (.token bits) = .ok i) (h : exec i s = .next t) : Ticked 0 2 s t := by
  have hseed : ∀ u, (seed u s).outcome = .next t → Ticked 0 2 s t := fun u h =>
    ((seed_ticked u s).next h).trans (.refl 0 1 _)
  have htail : ∀ k, (tail k s).outcome = .next t → Ticked 0 2 s t := fun k h =>
    ((tail_ticked k s).next h).trans (.refl 0 1 _)
  have hreturned : ∀ r, Host.Outcome.next (ρ := Refusal) (φ := Fault) (s.returned r) = .next t → Ticked 0 2 s t := by
    rintro r h
    cases h
    exact ⟨.refl 0 _, .refl 2 _⟩
  cases hs : c.side with
  | enc => exact absurd hs hside
  | first =>
    rcases decode_first_cases hs hi with ⟨u, rfl⟩ | ⟨u, rfl⟩ | rfl | rfl
    · exact hseed _ h
    · exact hseed _ h
    · exact hreturned _ h
    · exact hreturned _ h
  | loop =>
    rcases decode_loop_cases hs hi with ⟨u, rfl⟩ | ⟨u, rfl⟩ | rfl | ⟨k, rfl⟩ | ⟨k, rfl⟩ | ⟨k, rfl⟩
    · exact (loopLiteral_ticked _ s).next h
    · exact (loopLiteral_ticked _ s).next h
    · exact hreturned _ h
    · exact htail k h
    · exact htail k h
    · exact hreturned _ h

theorem runToken_ticked {w : Nat} {s t : State} (hsrc : SourceInv s) (hside : s.decodeCtx.side ≠ .enc)
    (h : runToken w s = .next t) : Ticked 0 2 s t := by
  unfold runToken at h
  rcases readToken_cases w hsrc with ⟨bits, u, hread, hframe, _⟩ | ⟨u, hread, hframe, _⟩
  · rw [hread] at h
    dsimp only at h
    split at h
    next i hi =>
      have htoken := exec_decoded_ticked hside hi h
      exact (hframe.ticked 0 0).trans ⟨htoken.enc, htoken.dec⟩
    · cases h
  · rw [hread] at h
    cases h
    have hticked := hframe.ticked 0 2
    exact ⟨hticked.enc, hticked.dec⟩

/-! ### A turn -/

/-- A turn past the beginning of Run makes at most two Ticks, on the side whose tokens it runs, and there the width is
at least 2. -/
theorem engineTurn_ticked {s t : State} (hinv : Inv s) (hb : s.busy = true) (hstart : s.stage ≠ .start)
    (h : engineTurn s = .next t) :
    Ticked 0 0 s t ∨ Ticked 2 0 s t ∧ 2 ≤ s.enc.width ∨ Ticked 0 2 s t ∧ 2 ≤ s.dec.width := by
  have hrun := hinv.run
  have hdec : ∀ w, s.ReadsAt w → Ticked 0 2 s t := fun w hr =>
    runToken_ticked (hr.sourceInv hinv) hr.decodeCtx.1 ((hr.engineTurn hb).symm.trans h)
  unfold engineTurn at h
  rw [if_pos hb] at h
  generalize hs : s.stage = g at h hrun
  cases g with
  | idle => cases h
  | start => exact absurd hs hstart
  | encLoop => exact .inl (encHead_ticked h)
  | encBreak c => exact .inr (.inl ⟨emitPhrase_ticked h, hrun.2.width.width_ge⟩)
  | encInsert c =>
    have hinsert := encAfterBreak_ticked h
    exact .inl ⟨hinsert.enc, hinsert.dec⟩
  | encLast => exact .inr (.inl ⟨emitPhrase_ticked h, hrun.2.1.width.width_ge⟩)
  | encEos => exact .inl (encEos_ticked h)
  | decFirst => exact .inr (.inr ⟨hdec 2 (.inl ⟨hs, rfl⟩), Nat.le_of_eq hrun.2.2.1.symm⟩)
  | decLoop => exact .inr (.inr ⟨hdec _ (.inr ⟨hs, rfl⟩), hrun.2.width.width_ge⟩)
  | complete r =>
    cases h
    exact .inl (completion_ticked r s 0 0)

/-- Settles O55: a turn makes at most two Ticks, on one side only, and two Ticks widen by at most one. -/
theorem codeWidthGrowsByOne : Obligations.CodeWidthGrowsByOne := by
  intro s t hinv hb hstart h
  have hsame : ∀ {w e w' e' : Nat}, AtMostTicks 0 (w, e) (w', e') → w' = w :=
    fun hticks => congrArg Prod.fst hticks.eq_of_zero
  rcases engineTurn_ticked hinv ((busy_iff s).mpr hb) hstart h with
    ⟨henc, hdec⟩ | ⟨⟨henc, hdec⟩, hw⟩ | ⟨⟨henc, hdec⟩, hw⟩
  · exact ⟨.inl (hsame henc), .inl (hsame hdec)⟩
  · exact ⟨henc.fst (Nat.le_of_lt hw), .inl (hsame hdec)⟩
  · exact ⟨.inl (hsame henc), hdec.fst (Nat.le_of_lt hw)⟩

end Sys2Proof.Machine
end

section
/-! The family `43_decoder.md`, the tokens of DECOMPRESS: what each of them does where D_DICT and OUT have room, which
error it raises where they have none, and how many of them are read. -/

namespace Sys2Proof.Machine

open Sys2Proof

/-! ### The first token and the tokens that end the operation -/

/-- Seed where D_DICT and OUT have room (43_decoder.md R197, R207, R208). -/
theorem seed_room {s : State} (hn : s.dec.next ≠ s.cfg.dictCap) (hr : s.dec.resLen ≠ s.cfg.outCap) (c : CodeUnit) :
    (seed c s).outcome = .next { s with
      dec := {
        w := 3, next := s.dec.next + 1, width := (tick s.dec.width s.dec.enl).1
        enl := (tick s.dec.width s.dec.enl).2, resLen := s.dec.resLen + 1, dict := (s.dec.next, [c]) :: s.dec.dict }
      outBuf := s.outBuf.write s.dec.resLen c } := by
  have hr' : (s.setDec ((s.dec.setW 3).insert [c]).tick).dec.resLen ≠ s.cfg.outCap := hr
  rw [seed_eq, if_neg hn, append, appendUnit_eq, setDec_cfg, if_neg hr']
  rfl

/-- Settles O56: both literals seed the decoder with their unit. -/
theorem decFirstLiterals : Obligations.DecFirstLiterals :=
  fun _ hn hr => ⟨fun c => seed_room hn hr (c.setWidth 16), fun c => seed_room hn hr c⟩

/-- Settles O57: the ending tokens only go to another place in Run. -/
theorem decEndingTokens : Obligations.DecEndingTokens := fun _ _ => ⟨rfl, rfl, rfl, rfl⟩

/-! ### Append -/

/-- OUT after Append: the phrase stands at RES_LEN (43_decoder.md R207). -/
theorem append_appended {p : Phrase} {s t : State} (hwf : s.outBuf.wf) (h : append p s = .ok () t) :
    Appended p s t := by
  induction p generalizing s with
  | nil =>
    cases h
    intro k
    rw [if_neg (by simp)]
  | cons u p ih =>
    rw [append, appendUnit_eq] at h
    split at h
    · cases h
    · have hrest := ih (s := s.appended u) (Memory.wf_write _ hwf _ _) h
      intro k
      have hwrite : (s.appended u).outBuf.read? k = if k = s.dec.resLen then some u else s.outBuf.read? k :=
        Memory.read?_write _ hwf _ _ _
      have hlen : (s.appended u).dec.resLen = s.dec.resLen + 1 := rfl
      rw [hrest k, hwrite, hlen, List.length_cons]
      rcases Nat.lt_trichotomy k s.dec.resLen with hlt | rfl | hgt
      · rw [if_neg (by omega), if_neg (by omega), if_neg (by omega)]
      · rw [if_neg (by omega), if_pos rfl, if_pos (by omega), Nat.sub_self, List.getElem?_cons_zero]
      · rw [if_neg (Nat.ne_of_gt hgt), show k - s.dec.resLen = k - (s.dec.resLen + 1) + 1 by omega,
          List.getElem?_cons_succ]
        exact if_congr (by omega) rfl rfl

/-- Append where the phrase fits into OUT. -/
theorem append_room {p : Phrase} {s : State} (hwf : s.outBuf.wf) (hroom : s.dec.resLen + p.length ≤ s.cfg.outCap) :
    ∃ t, append p s = .ok () t ∧ Appended p s t ∧ t = (s.setDec (s.dec.countBy p.length)).setOut t.outBuf := by
  obtain ⟨t, ht, hframe, hdec⟩ := append_ok p s hroom
  refine ⟨t, ht, append_appended hwf ht, ?_⟩
  rw [← hdec]
  exact hframe

/-- Append where the phrase does not fit into OUT. -/
theorem append_full {p : Phrase} {s : State} (hle : s.dec.resLen ≤ s.cfg.outCap)
    (hfull : s.cfg.outCap < s.dec.resLen + p.length) : ∃ t, append p s = .raise (.resource .output) t := by
  induction p generalizing s with
  | nil => exact absurd hle (Nat.not_le.mpr hfull)
  | cons u p ih =>
    rw [append, appendUnit_eq]
    rw [List.length_cons] at hfull
    split
    · exact ⟨s, rfl⟩
    next hne =>
      refine ih (s := s.appended u) ?_ ?_
      · show s.dec.resLen + 1 ≤ s.cfg.outCap
        omega
      · show s.cfg.outCap < s.dec.resLen + 1 + p.length
        omega

/-! ### Tail -/

/-- Tail(k) where its entry is `e` and the last entry is `w` (43_decoder.md R204). -/
theorem tail_eq {s : State} {k : Nat} {w e : Phrase} (he : tailEntry k s.dec = .ok e) (hne : e ≠ [])
    (hw : dictPhrase s.dec.dict s.dec.w = some w) :
    tail k s = (append e s).bind fun _ t => (decInsert (w ++ e.take 1) t).bind fun _ v =>
      .ok () (v.setDec (v.dec.tick.setW k)) := by
  cases e with
  | nil => exact absurd rfl hne
  | cons u p =>
    unfold tail
    rw [he, hw]
    rfl

/-- The entry of a known code. -/
theorem tailEntry_known {d : DecRegs} {k : Nat} {e : Phrase} (hk : k < d.next) (he : dictPhrase d.dict k = some e) :
    tailEntry k d = .ok e := by
  unfold tailEntry
  rw [if_pos hk, he]

/-- The entry of a self-reference. -/
theorem tailEntry_self {d : DecRegs} {w : Phrase} (hw : dictPhrase d.dict d.w = some w) (hne : w ≠ []) :
    tailEntry d.next d = .ok (w ++ w.take 1) := by
  unfold tailEntry
  rw [if_neg (Nat.lt_irrefl _), if_pos rfl, hw]
  cases w with
  | nil => exact absurd rfl hne
  | cons u p => rfl

/-- An entry of D_DICT is not empty (10_state.md R38). -/
theorem LoopInv.ne_nil {cap : Nat} {d : DecRegs} (h : LoopInv cap d) {k : Nat} (h3 : 3 ≤ k) (hk : k < d.next)
    {p : Phrase} (hp : dictPhrase d.dict k = some p) : p ≠ [] := by
  obtain ⟨u, q, hq⟩ := h.phrase h3 hk
  cases hq.symm.trans hp
  simp

/-- The registers after Tail(k) has output `n` units and made the entry `p` (43_decoder.md R204). -/
def DecRegs.afterTail (d : DecRegs) (k n : Nat) (p : Phrase) : DecRegs :=
  { w := k, next := d.next + 1, width := (Machine.tick d.width d.enl).1, enl := (Machine.tick d.width d.enl).2
    resLen := d.resLen + n, dict := (d.next, p) :: d.dict }

/-- Tail(k) where Append goes on and D_DICT has room. -/
theorem tail_append {s a : State} {k : Nat} {w e : Phrase} (he : tailEntry k s.dec = .ok e) (hne : e ≠ [])
    (hw : dictPhrase s.dec.dict s.dec.w = some w) (hcap : s.dec.next ≠ s.cfg.dictCap) (ha : append e s = .ok () a)
    (hframe : a = (s.setDec (s.dec.countBy e.length)).setOut a.outBuf) :
    (tail k s).outcome =
      .next { s with dec := s.dec.afterTail k e.length (w ++ e.take 1), outBuf := a.outBuf } := by
  have hcap' : a.dec.next ≠ a.cfg.dictCap := by
    rw [hframe]
    exact hcap
  rw [tail_eq he hne hw, ha, Eng.bind_ok, decInsert_eq, if_neg hcap', hframe]
  rfl

/-- Tail(k) where D_DICT and OUT have room. -/
theorem tail_room {s : State} {k : Nat} {w e : Phrase} (he : tailEntry k s.dec = .ok e) (hne : e ≠ [])
    (hw : dictPhrase s.dec.dict s.dec.w = some w) (hwf : s.outBuf.wf) (hcap : s.dec.next ≠ s.cfg.dictCap)
    (hroom : s.dec.resLen + e.length ≤ s.cfg.outCap) :
    ∃ t, (tail k s).outcome = .next t ∧ Appended e s t ∧
      t = { s with dec := s.dec.afterTail k e.length (w ++ e.take 1), outBuf := t.outBuf } := by
  obtain ⟨a, ha, happ, hframe⟩ := append_room hwf hroom
  exact ⟨_, tail_append he hne hw hcap ha hframe, happ, rfl⟩

/-- Tail(k) where the entry does not fit into OUT, whether or not D_DICT has room (43_decoder.md R204). -/
theorem tail_full {s : State} {k : Nat} {w e : Phrase} (he : tailEntry k s.dec = .ok e) (hne : e ≠ [])
    (hw : dictPhrase s.dec.dict s.dec.w = some w) (hle : s.dec.resLen ≤ s.cfg.outCap)
    (hfull : s.cfg.outCap < s.dec.resLen + e.length) :
    ∃ t, (tail k s).outcome = .next t ∧ t.stage = .complete (.err (.resource .output)) := by
  obtain ⟨t, ht⟩ := append_full hle hfull
  rw [tail_eq he hne hw, ht]
  exact ⟨_, rfl, rfl⟩

/-- Tail(k) where the entry fits into OUT and D_DICT is full (43_decoder.md R204, R208). -/
theorem tail_dictFull {s : State} {k : Nat} {w e : Phrase} (he : tailEntry k s.dec = .ok e) (hne : e ≠ [])
    (hw : dictPhrase s.dec.dict s.dec.w = some w) (hcap : s.dec.next = s.cfg.dictCap)
    (hroom : s.dec.resLen + e.length ≤ s.cfg.outCap) :
    ∃ t, (tail k s).outcome = .next t ∧ t.stage = .complete (.err (.resource .dictionary)) := by
  obtain ⟨a, ha, hframe, hdec⟩ := append_ok e s hroom
  have hcap' : a.dec.next = a.cfg.dictCap := by
    rw [hdec, hframe.cfg]
    exact hcap
  rw [tail_eq he hne hw, ha, Eng.bind_ok, decInsert_eq, if_pos hcap']
  exact ⟨_, rfl, rfl⟩

/-! ### Literals in the loop -/

/-- The decoder once a literal of the loop has its own entry: Tail of that entry is next (43_decoder.md R198). -/
def State.literalEntered (c : CodeUnit) (s : State) : State := s.setDec (s.dec.insert [c]).tick

theorem loopLiteral_eq {s : State} (hcap : s.dec.next ≠ s.cfg.dictCap) (c : CodeUnit) :
    loopLiteral c s = tail s.dec.next (s.literalEntered c) := by
  rw [loopLiteral, decInsert_eq, if_neg hcap]
  rfl

theorem literalEntered_tailEntry (s : State) (c : CodeUnit) :
    tailEntry s.dec.next (s.literalEntered c).dec = .ok [c] :=
  tailEntry_known (Nat.lt_succ_self _) (if_pos rfl)

/-- The entry of a literal is not the last decoded one. -/
theorem literalEntered_last {s : State} (hl : LoopInv s.cfg.dictCap s.dec) (c : CodeUnit) :
    dictPhrase (s.literalEntered c).dec.dict (s.literalEntered c).dec.w = dictPhrase s.dec.dict s.dec.w :=
  if_neg (Nat.ne_of_gt hl.w.2)

/-- Appending one unit is one write. -/
theorem append_singleton {s : State} (hr : s.dec.resLen ≠ s.cfg.outCap) (c : CodeUnit) :
    append [c] s = .ok () (s.appended c) := by
  rw [append, appendUnit_eq, if_neg hr]
  rfl

/-- A literal of the loop where D_DICT and OUT have room. -/
theorem loopLiteral_room {s : State} {w : Phrase} (hl : LoopInv s.cfg.dictCap s.dec)
    (hw : dictPhrase s.dec.dict s.dec.w = some w) (hcap : s.dec.next + 2 ≤ s.cfg.dictCap)
    (hroom : s.dec.resLen < s.cfg.outCap) (c : CodeUnit) :
    (loopLiteral c s).outcome = .next { s with
      dec := {
        w := s.dec.next, next := s.dec.next + 2, width := (tick2 s.dec.width s.dec.enl).1
        enl := (tick2 s.dec.width s.dec.enl).2, resLen := s.dec.resLen + 1
        dict := (s.dec.next + 1, w ++ [c]) :: (s.dec.next, [c]) :: s.dec.dict }
      outBuf := s.outBuf.write s.dec.resLen c } := by
  have hnext : s.dec.next + 1 ≠ s.cfg.dictCap := by omega
  have hout := append_singleton (s := s.literalEntered c) (Nat.ne_of_lt hroom) c
  rw [loopLiteral_eq (by omega), tail_append (literalEntered_tailEntry s c) (by simp)
    ((literalEntered_last hl c).trans hw) hnext hout rfl]
  rfl

/-- Settles O58: both literals of the loop run alike. -/
theorem decLiteralTokens : Obligations.DecLiteralTokens :=
  fun _ _ hl hw hcap hroom =>
    ⟨fun c => loopLiteral_room hl hw hcap hroom (c.setWidth 16), fun c => loopLiteral_room hl hw hcap hroom c⟩

/-- Settles O59: a known code and a self-reference are Tail, each with the entry it outputs. -/
theorem decCodeTokens : Obligations.DecCodeTokens := by
  intro s k w e hl hwf hw hcap hroom
  refine ⟨fun h3 hk he => ?_, fun hk he => ?_⟩
  · exact tail_room (tailEntry_known hk he) (hl.ne_nil h3 hk he) hw hwf (Nat.ne_of_lt hcap) hroom
  · subst hk he
    have hne := hl.ne_nil hl.w.1 hl.w.2 hw
    have htake : (w ++ w.take 1).take 1 = w.take 1 := by
      cases w with
      | nil => exact absurd rfl hne
      | cons u p => rfl
    have htail := tail_room (tailEntry_self hw hne) (by simp [hne]) hw hwf (Nat.ne_of_lt hcap) hroom
    rwa [htake] at htail

/-- The capacity errors of a literal of the loop, in the order of the pseudocode (43_decoder.md R198, R199). -/
theorem loopLiteral_errors {s : State} (hl : LoopInv s.cfg.dictCap s.dec) (c : CodeUnit) :
    (s.dec.next = s.cfg.dictCap → ∃ t, (loopLiteral c s).outcome = .next t ∧
      t.stage = .complete (.err (.resource .dictionary)) ∧ t.outBuf = s.outBuf) ∧
    (s.dec.next ≠ s.cfg.dictCap → s.dec.resLen = s.cfg.outCap → ∃ t, (loopLiteral c s).outcome = .next t ∧
      t.stage = .complete (.err (.resource .output))) ∧
    (s.dec.next + 1 = s.cfg.dictCap → s.dec.resLen < s.cfg.outCap → ∃ t, (loopLiteral c s).outcome = .next t ∧
      t.stage = .complete (.err (.resource .dictionary))) := by
  obtain ⟨u, p, hp⟩ := hl.phrase hl.w.1 hl.w.2
  have hw := (literalEntered_last hl c).trans hp
  have he := literalEntered_tailEntry s c
  refine ⟨fun hcap => ?_, fun hcap hres => ?_, fun hcap hres => ?_⟩
  · rw [loopLiteral, decInsert_eq, if_pos hcap]
    exact ⟨_, rfl, rfl, rfl⟩
  · rw [loopLiteral_eq hcap]
    exact tail_full he (by simp) hw (Nat.le_of_eq hres) (Nat.lt_succ_of_le (Nat.le_of_eq hres.symm))
  · rw [loopLiteral_eq (by omega)]
    exact tail_dictFull he (by simp) hw hcap hres

/-- Settles O60: a literal by its own checks and those of Tail, a code by those of Tail on its entry. -/
theorem decCapacityErrors : Obligations.DecCapacityErrors := by
  intro s i hl hle
  refine ⟨?_, fun k e hcode => ?_⟩
  · rintro (⟨c, rfl⟩ | ⟨c, rfl⟩)
    · exact loopLiteral_errors hl (c.setWidth 16)
    · exact loopLiteral_errors hl c
  · obtain ⟨u, p, hw⟩ := hl.phrase hl.w.1 hl.w.2
    suffices hentry : tailEntry k s.dec = .ok e ∧ e ≠ [] ∧ exec i s = (tail k s).outcome by
      obtain ⟨he, hne, hexec⟩ := hentry
      rw [hexec]
      exact ⟨tail_full he hne hw hle, fun hroom hcap => tail_dictFull he hne hw hcap hroom⟩
    rcases hcode with ⟨rfl, h3, hk, he⟩ | ⟨rfl, rfl, w, hw', rfl⟩
    · exact ⟨tailEntry_known hk he, hl.ne_nil h3 hk he, rfl⟩
    · have hne := hl.ne_nil hl.w.1 hl.w.2 hw'
      exact ⟨tailEntry_self hw' hne, by simp [hne], rfl⟩

/-! ### How many tokens are read -/

theorem decInsert_frame (p : Phrase) (s : State) : (decInsert p s).Ends (DecFrame s) := by
  rw [decInsert_eq]
  split
  · exact DecFrame.refl s
  · rfl

theorem append_frame (p : Phrase) (s : State) : (append p s).Ends (DecFrame s) := by
  induction p generalizing s with
  | nil => exact DecFrame.refl s
  | cons u p ih =>
    rw [append, appendUnit_eq]
    split
    · exact DecFrame.refl s
    · exact (ih (s.appended u)).mono fun t ht => DecFrame.trans (t := s.appended u) rfl ht

theorem tail_frame (k : Nat) (s : State) : (tail k s).Ends (DecFrame s) := by
  unfold tail
  split
  · refine (append_frame _ s).bind (fun t ht => ht) fun _ t ht => ?_
    exact (decInsert_frame _ t).bind (fun v hv => ht.trans hv) fun _ v hv => (ht.trans hv).trans rfl
  all_goals trivial

theorem loopLiteral_frame (c : CodeUnit) (s : State) : (loopLiteral c s).Ends (DecFrame s) := by
  refine (decInsert_frame [c] s).bind (fun t ht => ht) fun _ t ht => ?_
  exact (tail_frame _ _).mono fun v hv => (ht.trans (u := t.setDec t.dec.tick) rfl).trans hv

theorem seed_frame (c : CodeUnit) (s : State) : (seed c s).Ends (DecFrame s) := by
  rw [seed_eq]
  split
  · exact DecFrame.refl s
  · exact (append_frame _ _).mono fun t ht =>
      DecFrame.trans (t := s.setDec ((s.dec.setW 3).insert [c]).tick) rfl ht

/-- An operation of the decoder as a step: it leaves the source and the place in Run, or Run returns an error. -/
theorem Eng.Ends.decFrame_or_complete {s t : State} {x : Eng Unit} (hx : x.Ends (DecFrame s))
    (h : x.outcome = .next t) : DecFrame s t ∨ ∃ r, t.stage = .complete r := by
  rcases Eng.outcome_eq_next.mp h with rfl | ⟨e, u, rfl, rfl⟩
  · exact .inl hx
  · exact .inr ⟨_, rfl⟩

/-- A token that DECOMPRESS reads leaves the source and the place in Run, or Run returns. -/
theorem exec_decoded_frame {c : DecodeCtx} {bits : List Bool} {i : Instr} {s t : State} (hside : c.side ≠ .enc)
    (hi : decode c (.token bits) = .ok i) (h : exec i s = .next t) :
    DecFrame s t ∨ ∃ r, t.stage = .complete r := by
  have hreturned : ∀ r, Host.Outcome.next (ρ := Refusal) (φ := Fault) (s.returned r) = .next t →
      DecFrame s t ∨ ∃ r, t.stage = .complete r := by
    rintro r h
    cases h
    exact .inr ⟨r, rfl⟩
  cases hs : c.side with
  | enc => exact absurd hs hside
  | first =>
    rcases decode_first_cases hs hi with ⟨u, rfl⟩ | ⟨u, rfl⟩ | rfl | rfl
    · exact (seed_frame _ s).decFrame_or_complete h
    · exact (seed_frame _ s).decFrame_or_complete h
    · exact hreturned _ h
    · exact hreturned _ h
  | loop =>
    rcases decode_loop_cases hs hi with ⟨u, rfl⟩ | ⟨u, rfl⟩ | rfl | ⟨k, rfl⟩ | ⟨k, rfl⟩ | ⟨k, rfl⟩
    · exact (loopLiteral_frame _ s).decFrame_or_complete h
    · exact (loopLiteral_frame _ s).decFrame_or_complete h
    · exact hreturned _ h
    · exact (tail_frame k s).decFrame_or_complete h
    · exact (tail_frame k s).decFrame_or_complete h
    · exact hreturned _ h

/-- After a token read Run has returned, or the loop goes on with at least the marker's bits consumed (43_decoder.md
R209). -/
theorem State.ReadsAt.consumes {s t : State} {w : Nat} (hr : s.ReadsAt w) (hinv : Inv s) (hb : s.busy = true)
    (h : Machine.engineTurn s = .next t) :
    (∃ r, t.stage = .complete r) ∨
      t.stage = .decLoop ∧ t.src.ndata = s.src.ndata ∧ s.src.bcnt + w ≤ t.src.bcnt := by
  rw [hr.engineTurn hb] at h
  unfold runToken at h
  rcases readToken_cases w (hr.sourceInv hinv) with ⟨bits, u, hread, _, _, hndata, hlen, hbcnt⟩ | ⟨u, hread, _⟩
  · rw [hread] at h
    dsimp only at h
    split at h
    next i hi =>
      refine (exec_decoded_frame hr.decodeCtx.1 hi h).symm.imp_right fun hframe => ?_
      have hsrc : t.src = u.src := by rw [hframe]; rfl
      refine ⟨by rw [hframe]; rfl, by rw [hsrc, hndata], ?_⟩
      rw [hsrc, hbcnt, hlen]
      omega
    · cases h
  · rw [hread] at h
    cases h
    exact .inl ⟨_, rfl⟩

/-- No more bits are consumed than the data characters carry. -/
theorem SourceInv.bcnt_le {s : State} (h : SourceInv s) : s.src.bcnt ≤ 6 * s.src.ndata := by
  have hbcnt := h.bcnt
  have hidx := h.idx
  omega

/-- After the first token every marker has at least three bits (43_decoder.md R205, R209). -/
theorem LoopInv.three_le_width {cap : Nat} {d : DecRegs} (h : LoopInv cap d) : 3 ≤ d.width := by
  by_contra hlt
  have hpow : 2 ^ d.width ≤ 2 ^ 2 := Nat.pow_le_pow_right (by norm_num) (by omega)
  have hnext := h.width.lt_pow
  have hw := h.w
  omega

/-- A turn of a busy engine as a run of it. -/
theorem engineRun_succ {s t : State} (hb : s.busy = true) (h : engineTurn s = .next t) (n : Nat) :
    engineRun (n + 1) s = engineRun n t := by
  rw [engineRun, if_pos hb, h]

/-- In the loop, with fewer than `3 * m` bits left, Run returns within `m` token reads. -/
theorem decLoop_reads_bounded (m : Nat) {s : State} (hinv : Inv s) (hb : s.status = .busy) (hs : s.stage = .decLoop)
    (hbits : 6 * s.src.ndata - s.src.bcnt < 3 * m) :
    ∃ n t r, n ≤ m ∧ engineRun n s = .next t ∧ t.stage = .complete r := by
  induction m generalizing s with
  | zero => omega
  | succ m ih =>
    have hb' := (busy_iff s).mpr hb
    have hr : s.ReadsAt s.dec.width := .inr ⟨hs, rfl⟩
    have hrun := hinv.run
    rw [hs] at hrun
    have hwidth := hrun.2.three_le_width
    obtain ⟨t, ht, hadv | ⟨r, hcomplete, _⟩⟩ := engineTurn_busy hinv hb
    · rcases hr.consumes hinv hb' ht with ⟨r, hdone⟩ | ⟨hloop, hndata, hbcnt⟩
      · exact ⟨1, t, r, by omega, engineRun_succ hb' ht 0, hdone⟩
      · have hle := (State.ReadsAt.sourceInv (.inr ⟨hloop, rfl⟩) hadv.inv).bcnt_le
        obtain ⟨n, u, r, hn, hu, hdone⟩ := ih hadv.inv (hadv.frame.status.trans hb) hloop (by omega)
        exact ⟨n + 1, u, r, by omega, (engineRun_succ hb' ht n).trans hu, hdone⟩
    · cases hs.symm.trans hcomplete

/-- Settles O25: the first token takes two bits or more of the 6 * NDATA, every other one three or more. -/
theorem tokenReadsAreBounded : Obligations.TokenReadsAreBounded := by
  intro s hinv hb hs
  have hb' := (busy_iff s).mpr hb
  have hr : s.ReadsAt 2 := .inl ⟨hs, rfl⟩
  obtain ⟨t, ht, hadv | ⟨r, hcomplete, _⟩⟩ := engineTurn_busy hinv hb
  · rcases hr.consumes hinv hb' ht with ⟨r, hdone⟩ | ⟨hloop, hndata, hbcnt⟩
    · exact ⟨1, t, r, by omega, engineRun_succ hb' ht 0, hdone⟩
    · have hle := (State.ReadsAt.sourceInv (.inr ⟨hloop, rfl⟩) hadv.inv).bcnt_le
      obtain ⟨n, u, r, hn, hu, hdone⟩ := decLoop_reads_bounded (2 * s.src.ndata) hadv.inv
        (hadv.frame.status.trans hb) hloop (by omega)
      exact ⟨n + 1, u, r, by omega, (engineRun_succ hb' ht n).trans hu, hdone⟩
  · cases hs.symm.trans hcomplete

end Sys2Proof.Machine
end

section
/-! The family `43_decoder.md`, the round trip (R206), what both directions need: runs of the engine to their end, the
text in which COMPRESS leaves its bits, and the block that DECOMPRESS starts on such a text. -/

namespace Sys2Proof.Machine

open Sys2Proof

/-! ### Runs of the engine -/

/-- A block that is not busy stays as it is, however many turns it is given. -/
theorem engineRun_free {s : State} (hb : s.busy = false) (n : Nat) : engineRun n s = .next s := by
  cases n with
  | zero => rfl
  | succ n =>
    rw [engineRun, hb]
    rfl

/-- A run goes on where it stopped. -/
theorem engineRun_add {m : Nat} {s t : State} (h : engineRun m s = .next t) (n : Nat) :
    engineRun (m + n) s = engineRun n t := by
  induction m generalizing s with
  | zero =>
    cases h
    rw [Nat.zero_add]
  | succ m ih =>
    cases hb : s.busy with
    | false =>
      cases (engineRun_free hb (m + 1)).symm.trans h
      rw [engineRun_free hb, engineRun_free hb]
    | true =>
      rw [engineRun, if_pos hb] at h
      split at h
      next u hu => rw [Nat.add_right_comm, engineRun_succ hb hu, ih h]
      · cases h
      · cases h

/-- One more turn at the end of a run. -/
theorem engineRun_turn {n : Nat} {s t u : State} (h : engineRun n s = .next t) (hb : t.busy = true)
    (ht : engineTurn t = .next u) : engineRun (n + 1) s = .next u :=
  (engineRun_add h 1).trans (engineRun_succ hb ht 0)

/-- An operation ends in one state, whatever the number of turns after which it is looked at. -/
theorem engineRun_end_unique {m n : Nat} {s t u : State} (ht : engineRun m s = .next t) (htb : t.busy = false)
    (hu : engineRun n s = .next u) (hub : u.busy = false) : u = t := by
  have h := engineRun_add ht n
  rw [Nat.add_comm, engineRun_add hu m, engineRun_free hub, engineRun_free htb] at h
  exact Host.Outcome.next.inj h

/-- With as many turns as `turnsLeft` says the operation completes. -/
theorem engineRun_completes {n : Nat} {s : State} (hinv : Inv s) (hn : s.turnsLeft ≤ n) :
    ∃ t, engineRun n s = .next t ∧ t.busy = false := by
  induction n generalizing s with
  | zero =>
    refine ⟨s, rfl, (not_busy_iff s).mpr (hinv.host.stage.mp ?_)⟩
    unfold State.turnsLeft at hn
    generalize s.stage = g at hn ⊢
    cases g with
    | idle => rfl
    | _ => simp at hn
  | succ n ih =>
    cases hb : s.busy with
    | false => exact ⟨s, engineRun_free hb _, hb⟩
    | true =>
      obtain ⟨t, ht, hadv | ⟨r, _, _, hinv', hfree⟩⟩ := engineTurn_busy hinv ((busy_iff s).mp hb)
      · have hless := hadv.less
        rw [engineRun_succ hb ht]
        exact ih hadv.inv (by omega)
      · have hfree' := (not_busy_iff t).mpr hfree
        exact ⟨t, by rw [engineRun_succ hb ht, engineRun_free hfree'], hfree'⟩

/-- `turnBound` turns are enough from the beginning of Run. -/
theorem turnsLeft_startOp_le (op : Op) (al : Alphabet) (s : State) :
    (s.startOp op al).turnsLeft ≤ (s.startOp op al).turnBound :=
  Nat.le_of_lt (show 5 + 3 * s.inLen.toNat < 3 * s.inLen.toNat + 6 by omega)

/-! ### The text of a bitstream -/

/-- The group of six bits of the stream, as a field, is those bits again (40_bitpack.md R121). -/
theorem fieldBits_groupOf {bits : List Bool} (h : bits.length = 6) :
    fieldBits .msbFirst 6 (groupOf bits).toNat = bits := by
  have hlt : fieldValue .msbFirst bits < 2 ^ 6 := h ▸ fieldValue_lt .msbFirst bits
  have hbits := fieldBits_fieldValue .msbFirst bits
  rw [groupOf, BitVec.toNat_ofNat, Nat.mod_eq_of_lt hlt]
  rwa [h] at hbits

/-- A stream of `6 * n` bits is the sequence of its groups of six. -/
theorem flatMap_groups {bits : List Bool} {n : Nat} (h : bits.length = 6 * n) :
    (List.range n).flatMap (fun j => (bits.drop (6 * j)).take 6) = bits := by
  suffices htake : ∀ m ≤ n, (List.range m).flatMap (fun j => (bits.drop (6 * j)).take 6) = bits.take (6 * m) by
    rw [htake n le_rfl, List.take_of_length_le (Nat.le_of_eq h)]
  intro m hm
  induction m with
  | zero => rfl
  | succ m ih =>
    rw [List.range_succ, List.flatMap_append, ih (by omega), List.flatMap_singleton, Nat.mul_succ, List.take_add]

/-- The first `m` elements of the buffer are the text of `bits`: `n` characters of six bits each, and for BASE64 at most
three `=` after them (40_bitpack.md R121, 41_alphabet.md R145, R146). -/
structure TextOf (al : Alphabet) (bits : List Bool) (n : Nat) (buf : Memory) (m : Nat) : Prop where
  length : bits.length = 6 * n
  chars  : ∀ j < n, buf.read? j = some (mapGroup al (groupOf ((bits.drop (6 * j)).take 6)))
  le     : n ≤ m
  pads   : ∀ j, n ≤ j → j < m → buf.read? j = some padChar
  le_add : m ≤ n + 3
  uri    : al = .uri → m = n

/-- The snapshot of `s` is a text of `bits`. -/
def State.HoldsText (s : State) (bits : List Bool) (n : Nat) : Prop :=
  TextOf s.alphl bits n s.snapIn s.snapLen.toNat

section HoldsText

variable {s : State} {bits : List Bool} {n : Nat} (h : s.HoldsText bits n)
include h

theorem State.HoldsText.memRead_char {j : Nat} (hj : j < n) :
    s.memRead j = mapGroup s.alphl (groupOf ((bits.drop (6 * j)).take 6)) := by
  rw [State.memRead, h.chars j hj]
  rfl

theorem State.HoldsText.memRead_pad {j : Nat} (hj : n ≤ j) (hlt : j < s.snapLen.toNat) : s.memRead j = padChar := by
  rw [State.memRead, h.pads j hj hlt]
  rfl

/-- Validate passes a text (41_alphabet.md R147). -/
theorem State.HoldsText.valid (k : Nat) : ¬ InvalidAt s.alphl s.inputUnits k := by
  rintro ⟨ch, hch, hbad⟩
  have hk : k < s.snapLen.toNat := by
    have hlt := (List.getElem?_eq_some_iff.mp hch).1
    rwa [inputUnits_length] at hlt
  have hread := inputUnits_get s hch
  rcases Nat.lt_or_ge k n with hdata | hpad
  · rw [h.memRead_char hdata] at hread
    rw [← hread, if_neg fun hc => map_ne_pad _ _ hc.2, unmap_map] at hbad
    cases hbad
  · rw [h.memRead_pad hpad hk] at hread
    subst hread
    have hal : s.alphl = .base64 := by
      cases hal : s.alphl with
      | base64 => rfl
      | uri => exact absurd (h.uri hal) (by omega)
    have hlen := h.le_add
    rw [if_pos ⟨hal, rfl⟩, inputUnits_length] at hbad
    refine hbad ⟨by omega, fun c hc => ?_⟩
    obtain ⟨i, hi, rfl⟩ := List.mem_iff_getElem.mp hc
    rw [List.length_drop, inputUnits_length] at hi
    rw [List.getElem_drop]
    refine ((inputUnits_get s (List.getElem?_eq_getElem _)).symm).trans (h.memRead_pad (by omega) (by omega))

/-- NDATA of a text (41_alphabet.md R148). -/
theorem State.HoldsText.dataLength_eq : dataLength s.alphl s.inputUnits = n := by
  cases hal : s.alphl with
  | uri => rw [dataLength_uri, inputUnits_length, h.uri hal]
  | base64 =>
    have hle := dataLength_le .base64 s.inputUnits
    obtain ⟨hpads, hlast⟩ := dataLength_base64_spec s.inputUnits
    rw [inputUnits_length] at hle hpads
    have hn := h.le
    rcases Nat.lt_trichotomy (dataLength .base64 s.inputUnits) n with hlt | heq | hgt
    · have hread := inputUnits_get s (hpads _ le_rfl (by omega))
      rw [h.memRead_char hlt] at hread
      exact absurd hread (map_ne_pad _ _)
    · exact heq
    · refine absurd ?_ (hlast.resolve_left (by omega))
      rw [inputUnits_get? s (by omega), h.memRead_pad (by omega) (by omega)]

/-- The source, initialised on a text, holds the bits of the text (40_bitpack.md R128). -/
theorem State.HoldsText.bitsLeft_decInit (g : Stage) : ((decInit n s).setStage g).bitsLeft = bits := by
  have hstream : ((decInit n s).setStage g).streamBits = (List.range n).flatMap s.charBits := rfl
  unfold State.bitsLeft
  rw [hstream, show ((decInit n s).setStage g).src.bcnt = 0 from rfl, List.drop_zero]
  conv_rhs => rw [← flatMap_groups h.length]
  refine List.flatMap_congr fun j hj => ?_
  have hj' := List.mem_range.mp hj
  have hlen := h.length
  unfold State.charBits
  rw [h.memRead_char hj', unmap_map]
  exact fieldBits_groupOf (by rw [List.length_take, List.length_drop]; omega)

end HoldsText

end Sys2Proof.Machine
end

section
/-! The family `43_decoder.md`, the round trip (R206), the decoder's side: how D_DICT stands to E_DICT while a phrase is
not yet sent, and that the decoder, reading the token of that phrase, outputs the phrase and catches up. -/

namespace Sys2Proof.Machine

open Sys2Proof

/-! ### Reading the token that was written -/

/-- Where the bits left begin with a token, the turn runs it and takes exactly its bits (43_decoder.md R190). -/
theorem State.ReadsAt.reads {d : State} {w m p : Nat} {i : Instr} {rest : List Bool} (hr : d.ReadsAt w) (hinv : Inv d)
    (hb : d.status = .busy) (hm : m < 2 ^ w) (hrow : TokenRow d.decodeCtx m p i)
    (hbits : d.bitsLeft = tokenBits d.cfg.order w m p ++ rest) :
    ∃ r, Machine.engineTurn d = exec i ((d.setSrc r).setStage .decLoop) ∧ (d.setSrc r).bitsLeft = rest := by
  obtain ⟨_, hwidth, hcfg⟩ := hr.decodeCtx
  have hmarker : fieldValue d.cfg.order (d.bitsLeft.take w) = m := by
    rw [hbits, tokenBits, List.append_assoc, List.take_left' (fieldBits_length _ _ _), fieldValue_fieldBits,
      Nat.mod_eq_of_lt hm]
  have hlen : (tokenBits d.cfg.order w m p).length = w + payloadLength m := by
    rw [tokenBits, List.length_append, fieldBits_length, fieldBits_length]
  have hread := decoderReadsTheStream d w hinv hb hr
  rw [hmarker, hbits, List.length_append, hlen, List.take_left' hlen, List.drop_left' hlen] at hread
  obtain ⟨j, v, hdecode, hturn, hframe, hleft⟩ := hread (Nat.le_add_right _ _)
  have hij : j = i := by
    have hrow' := hrow.decode_eq (by rwa [hwidth])
    rw [hwidth, hcfg] at hrow'
    exact Except.ok.inj (hdecode.symm.trans hrow')
  subst hij
  have hv : v = d.setSrc v.src := hframe
  rw [hv] at hturn hleft
  exact ⟨_, hturn, hleft⟩

/-! ### The two dictionaries -/

/-- The entry of an index that D_DICT lists (10_state.md R38). -/
theorem dictPhrase_of_mem {d : List (Nat × Phrase)} (hnd : (d.map Prod.fst).Nodup) {k : Nat} {p : Phrase}
    (h : (k, p) ∈ d) : dictPhrase d k = some p := by
  induction d with
  | nil => cases h
  | cons e d ih =>
    obtain ⟨j, q⟩ := e
    rw [List.map_cons, List.nodup_cons] at hnd
    rcases List.mem_cons.mp h with heq | hmem
    · cases heq
      exact if_pos rfl
    · have hk : k ∈ d.map Prod.fst := List.mem_map_of_mem (f := Prod.fst) hmem
      have hne : j ≠ k := fun hjk => hnd.1 (hjk ▸ hk)
      exact (if_neg hne).trans (ih hnd.2 hmem)

/-- The entries of E_DICT in the form of D_DICT. -/
def EncRegs.entries (e : EncRegs) : List (Nat × Phrase) := e.dict.map Prod.swap

theorem EncDictInv.next_eq {cap : Nat} {e : EncRegs} (h : EncDictInv cap e) : e.next = 3 + e.entries.length := by
  have hlen := congrArg List.length h.codes
  have hge := h.next_ge
  rw [List.length_map, List.length_reverse, List.length_range'] at hlen
  rw [EncRegs.entries, List.length_map]
  omega

theorem LoopInv.next_eq {cap : Nat} {d : DecRegs} (h : LoopInv cap d) : d.next = 3 + d.dict.length := by
  have hlen := congrArg List.length h.codes
  have hw := h.w
  rw [List.length_map, List.length_reverse, List.length_range'] at hlen
  omega

theorem LoopInv.mem {cap : Nat} {d : DecRegs} (h : LoopInv cap d) {k : Nat} {p : Phrase} (hp : (k, p) ∈ d.dict) :
    3 ≤ k ∧ k < d.next ∧ dictPhrase d.dict k = some p := by
  have hk := List.mem_map_of_mem (f := Prod.fst) hp
  have hnd : (d.dict.map Prod.fst).Nodup := by
    rw [h.codes, List.nodup_reverse]
    exact List.nodup_range'
  rw [h.codes, List.mem_reverse, List.mem_range'_1] at hk
  exact ⟨hk.1, by omega, dictPhrase_of_mem hnd hp⟩

/-- While E_W = `w` is not yet sent: the phrases `pend` pending for it, and the entries `new` that E_DICT has for what
the decoder `d` learns from the token of `w` only (42_encoder.md R164, R166; 43_decoder.md R197, R198, R204). -/
inductive Owes (d : State) : (w : Phrase) → (pend : List Phrase) → (new : List (Nat × Phrase)) → Prop
  /-- nothing of the input has been taken -/
  | nothing (hs : d.stage = .decFirst) : Owes d [] [] []
  /-- the first unit -/
  | first (hs : d.stage = .decFirst) (u : CodeUnit) : Owes d [u] [[u]] [(d.dec.next, [u])]
  /-- a unit seen first, after the phrase `p` -/
  | literal (hs : d.stage = .decLoop) {p : Phrase} (hp : dictPhrase d.dec.dict d.dec.w = some p) (u : CodeUnit) :
      Owes d [u] [[u]] [(d.dec.next + 1, p ++ [u]), (d.dec.next, [u])]
  /-- a phrase that is a key, after the phrase `p` -/
  | code (hs : d.stage = .decLoop) {p : Phrase} (hp : dictPhrase d.dec.dict d.dec.w = some p) (u : CodeUnit)
      (q : Phrase) : Owes d (u :: q) [] [(d.dec.next, p ++ [u])]

/-- The decoder `d` has read every token before that of E_W. `ahead` is the entry of the unit that follows E_W, where it
is new. -/
structure Unsent (ahead : List (Nat × Phrase)) (e : EncRegs) (d : State) : Prop where
  fresh : e.w ∉ ahead.map Prod.snd
  owes  : ∃ pend new, Owes d e.w pend new ∧ e.pend = ahead.map Prod.snd ++ pend ∧
    e.entries = ahead ++ (new ++ d.dec.dict)

/-- The decoder `d` has read the token of E_W, too. -/
structure Sent (ahead : List (Nat × Phrase)) (e : EncRegs) (d : State) : Prop where
  stage   : d.stage = .decLoop
  last    : dictPhrase d.dec.dict d.dec.w = some e.w
  pend    : e.pend = ahead.map Prod.snd
  entries : e.entries = ahead ++ d.dec.dict

/-- The token of E_W by marker and payload (42_encoder.md R167 to R169). -/
inductive EncRegs.Sends (e : EncRegs) : (marker payload : Nat) → Prop
  | lit8 {u : CodeUnit} (hw : e.w = [u]) (hp : e.w ∈ e.pend) (hu : u.toNat < 256) : Sends e 0 u.toNat
  | lit16 {u : CodeUnit} (hw : e.w = [u]) (hp : e.w ∈ e.pend) : Sends e 1 u.toNat
  | code {k : Nat} (hp : e.w ∉ e.pend) (hk : dictCode e.dict e.w = some k) : Sends e k 0

/-- The turn of the decoder `d` that leads to `t` outputs the phrase `w`, makes the entries `new`, and leaves the bits
`rest`. -/
structure Delivers (d : State) (w : Phrase) (new : List (Nat × Phrase)) (rest : List Bool) (t : State) : Prop where
  turn   : engineTurn d = .next t
  stage  : t.stage = .decLoop
  status : t.status = d.status
  cfg    : t.cfg = d.cfg
  left   : t.bitsLeft = rest
  dict   : t.dec.dict = new ++ d.dec.dict
  last   : dictPhrase t.dec.dict t.dec.w = some w
  resLen : t.dec.resLen = d.dec.resLen + w.length
  out    : Appended w d t

section Token

variable {d : State} {e : EncRegs} {m p : Nat} {c : DecodeCtx} {u : CodeUnit}

theorem setWidth_setWidth_of_lt (hu : u.toNat < 256) : (u.setWidth 8).setWidth 16 = u := by
  apply BitVec.eq_of_toNat_eq
  simp only [BitVec.toNat_setWidth]
  omega

theorem toNat_setWidth_of_lt (hu : u.toNat < 256) : (u.setWidth 8).toNat = u.toNat := by
  simp only [BitVec.toNat_setWidth]
  omega

/-- A literal, read as the first token, seeds the decoder with the unit the encoder sent. -/
theorem EncRegs.Sends.firstRow (h : e.Sends m p) (hw : e.w = [u]) (hp : e.w ∈ e.pend) (hs : c.side = .first) :
    m ≤ 1 ∧ ∃ i, TokenRow c m p i ∧ ∀ s, exec i s = (seed u s).outcome := by
  cases h with
  | lit8 hw' _ hu =>
    cases hw.symm.trans hw'
    refine ⟨by omega, _, .decFirstLit8 hs (u.setWidth 8) (toNat_setWidth_of_lt hu), fun s => ?_⟩
    exact congrArg (fun v => (seed v s).outcome) (setWidth_setWidth_of_lt hu)
  | lit16 hw' _ =>
    cases hw.symm.trans hw'
    exact ⟨le_rfl, _, .decFirstLit16 hs u rfl, fun s => rfl⟩
  | code hp' => exact absurd hp hp'

/-- A literal, read in the loop, is the literal of the unit the encoder sent. -/
theorem EncRegs.Sends.loopRow (h : e.Sends m p) (hw : e.w = [u]) (hp : e.w ∈ e.pend) (hs : c.side = .loop) :
    m ≤ 1 ∧ ∃ i, TokenRow c m p i ∧ ∀ s, exec i s = (loopLiteral u s).outcome := by
  cases h with
  | lit8 hw' _ hu =>
    cases hw.symm.trans hw'
    refine ⟨by omega, _, .decLit8 hs (u.setWidth 8) (toNat_setWidth_of_lt hu), fun s => ?_⟩
    exact congrArg (fun v => (loopLiteral v s).outcome) (setWidth_setWidth_of_lt hu)
  | lit16 hw' _ =>
    cases hw.symm.trans hw'
    exact ⟨le_rfl, _, .decLit16 hs u rfl, fun s => rfl⟩
  | code hp' => exact absurd hp hp'

/-- A code of the encoder is a known one, or the self-reference; its entry is the phrase the encoder sent (43_decoder.md
R201, R202). -/
theorem codeRow {cap k : Nat} {q last : Phrase} (hl : LoopInv cap d.dec) (hs : c.side = .loop)
    (hn : c.next = d.dec.next) (hlast : dictPhrase d.dec.dict d.dec.w = some last)
    (hk : (k, u :: q) ∈ (d.dec.next, last ++ [u]) :: d.dec.dict) :
    3 ≤ k ∧ k ≤ d.dec.next ∧ tailEntry k d.dec = .ok (u :: q) ∧
      dictPhrase ((d.dec.next, last ++ [u]) :: d.dec.dict) k = some (u :: q) ∧
      ∃ i, TokenRow c k 0 i ∧ ∀ s, exec i s = (tail k s).outcome := by
  rcases List.mem_cons.mp hk with hself | hknown
  · obtain ⟨rfl, hphrase⟩ := Prod.mk.inj hself
    have h3 : 3 ≤ d.dec.next := by
      have := hl.w
      omega
    have hne := hl.ne_nil hl.w.1 hl.w.2 hlast
    have hhead : last.take 1 = [u] := by
      cases last with
      | nil => exact absurd rfl hne
      | cons v r => rw [(List.cons.inj hphrase).1]; rfl
    have hentry := tailEntry_self hlast hne
    rw [hhead, ← hphrase] at hentry
    rw [hphrase] at hentry ⊢
    exact ⟨h3, le_rfl, hentry, if_pos rfl, _, .decCodeSelf hs h3 hn.symm, fun s => rfl⟩
  · obtain ⟨h3, hlt, hphrase⟩ := hl.mem hknown
    exact ⟨h3, Nat.le_of_lt hlt, tailEntry_known hlt hphrase, (if_neg (Nat.ne_of_gt hlt)).trans hphrase, _,
      .decCodeKnown hs h3 (hn ▸ hlt), fun s => rfl⟩

end Token

/-! ### The decoder catches up -/

/-- One written unit is an appended phrase of one unit. -/
theorem appended_write {d t : State} {u : CodeUnit} (hwf : d.outBuf.wf)
    (ht : t.outBuf = d.outBuf.write d.dec.resLen u) : Appended [u] d t := by
  intro k
  rw [ht, Memory.read?_write _ hwf, List.length_singleton]
  by_cases hk : k = d.dec.resLen
  · subst hk
    rw [if_pos rfl, if_pos (by omega), Nat.sub_self, List.getElem?_cons_zero]
  · rw [if_neg hk, if_neg (by omega)]

section Catch

variable {d : State} {e : EncRegs} {m p : Nat} {rest : List Bool}

/-- The decoder reads the first literal. -/
theorem first_delivers {u : CodeUnit} (hinv : Inv d) (hb : d.status = .busy) (hs : d.stage = .decFirst)
    (hsend : e.Sends m p) (hw : e.w = [u]) (hp : e.w ∈ e.pend)
    (hbits : d.bitsLeft = tokenBits d.cfg.order 2 m p ++ rest) :
    ∃ t, Delivers d [u] [(d.dec.next, [u])] rest t := by
  obtain ⟨hm, i, hrow, hexec⟩ := hsend.firstRow (c := d.decodeCtx) hw hp (by rw [decodeCtx_decFirst hs])
  obtain ⟨r, hturn, hleft⟩ := State.ReadsAt.reads (.inl ⟨hs, rfl⟩) hinv hb (by omega) hrow hbits
  have hrun := hinv.run
  rw [hs] at hrun
  obtain ⟨_, hnext, _, _, _, hres⟩ := hrun
  obtain ⟨_, hout, hdict⟩ := hinv.host.cfg
  have hseed := seed_room (s := (d.setSrc r).setStage .decLoop) (show d.dec.next ≠ d.cfg.dictCap by omega)
    (show d.dec.resLen ≠ d.cfg.outCap by omega) u
  refine ⟨_, hturn.trans ((hexec _).trans hseed), rfl, rfl, rfl, hleft, rfl, ?_, rfl, ?_⟩
  · exact if_pos hnext
  · exact appended_write hinv.host.outWf rfl

/-- The decoder reads a literal in the loop. -/
theorem literal_delivers {u : CodeUnit} {last : Phrase} (hinv : Inv d) (hb : d.status = .busy) (hs : d.stage = .decLoop)
    (hsend : e.Sends m p) (hw : e.w = [u]) (hp : e.w ∈ e.pend)
    (hlast : dictPhrase d.dec.dict d.dec.w = some last) (hcap : d.dec.next + 2 ≤ d.cfg.dictCap)
    (hroom : d.dec.resLen < d.cfg.outCap) (hbits : d.bitsLeft = tokenBits d.cfg.order d.dec.width m p ++ rest) :
    ∃ t, Delivers d [u] [(d.dec.next + 1, last ++ [u]), (d.dec.next, [u])] rest t := by
  have hrun := hinv.run
  rw [hs] at hrun
  obtain ⟨_, hl⟩ := hrun
  obtain ⟨hm, i, hrow, hexec⟩ := hsend.loopRow (c := d.decodeCtx) hw hp (by rw [decodeCtx_decLoop hs])
  obtain ⟨r, hturn, hleft⟩ := State.ReadsAt.reads (.inr ⟨hs, rfl⟩) hinv hb
    (lt_two_pow_of_le_three hl.width.width_ge (by omega)) hrow hbits
  have hlit := loopLiteral_room (s := (d.setSrc r).setStage .decLoop) hl hlast hcap hroom u
  refine ⟨_, hturn.trans ((hexec _).trans hlit), rfl, rfl, rfl, hleft, rfl, ?_, rfl, ?_⟩
  · exact (if_neg (Nat.succ_ne_self _)).trans (if_pos rfl)
  · exact appended_write hinv.host.outWf rfl

/-- The decoder reads a code. -/
theorem code_delivers {u : CodeUnit} {q last : Phrase} {k : Nat} (hinv : Inv d) (hb : d.status = .busy)
    (hs : d.stage = .decLoop) (hlast : dictPhrase d.dec.dict d.dec.w = some last)
    (hk : (k, u :: q) ∈ (d.dec.next, last ++ [u]) :: d.dec.dict) (hcap : d.dec.next ≠ d.cfg.dictCap)
    (hroom : d.dec.resLen + (u :: q).length ≤ d.cfg.outCap)
    (hbits : d.bitsLeft = tokenBits d.cfg.order d.dec.width k 0 ++ rest) :
    ∃ t, Delivers d (u :: q) [(d.dec.next, last ++ [u])] rest t := by
  have hrun := hinv.run
  rw [hs] at hrun
  obtain ⟨_, hl⟩ := hrun
  obtain ⟨h3, hle, hentry, hphrase, i, hrow, hexec⟩ := codeRow (c := d.decodeCtx) hl (by rw [decodeCtx_decLoop hs])
    (by rw [decodeCtx_decLoop hs]) hlast hk
  obtain ⟨r, hturn, hleft⟩ := State.ReadsAt.reads (.inr ⟨hs, rfl⟩) hinv hb
    (Nat.lt_of_le_of_lt hle hl.width.lt_pow) hrow hbits
  obtain ⟨t, ht, happ, hframe⟩ := tail_room (s := (d.setSrc r).setStage .decLoop) hentry (by simp) hlast
    hinv.host.outWf hcap hroom
  rw [hframe] at ht happ
  exact ⟨_, hturn.trans ((hexec _).trans ht), rfl, rfl, rfl, hleft, rfl, hphrase, rfl, happ⟩

end Catch

end Sys2Proof.Machine
end

section
/-! The family `43_decoder.md`, the round trip (R206), the two sides together: what each block of COMPRESS does to a
decoder that keeps up with it. -/

namespace Sys2Proof.Machine

open Sys2Proof

/-! ### What has been output -/

/-- `d` is a running operation with the parameters of `x`, and what it has output is the beginning of `x`'s input. -/
structure Restores (x d : State) : Prop where
  inv  : Inv d
  busy : d.status = .busy
  cfg  : d.cfg = x.cfg
  out  : ∀ k < d.dec.resLen, d.outBuf.read? k = some (x.memRead k)

/-- `q` is the input of `x` from where the output of `d` ends up to index `i`. -/
structure Spells (x d : State) (q : Phrase) (i : Nat) : Prop where
  len   : d.dec.resLen + q.length = i
  units : ∀ k < q.length, q[k]? = some (x.memRead (d.dec.resLen + k))

/-- One more unit of the input is taken. -/
theorem Spells.snoc {x d : State} {q : Phrase} {i : Nat} (h : Spells x d q i) :
    Spells x d (q ++ [x.memRead i]) (i + 1) where
  len := by
    have hlen := h.len
    rw [List.length_append, List.length_singleton]
    omega
  units := by
    intro k hk
    rw [List.length_append, List.length_singleton] at hk
    rcases Nat.lt_succ_iff_lt_or_eq.mp hk with hlt | rfl
    · rw [List.getElem?_append_left hlt, h.units k hlt]
    · rw [List.getElem?_concat_length, h.len]

/-- The first part of what is spelled. -/
theorem Spells.left {x d : State} {q r : Phrase} {i : Nat} (h : Spells x d (q ++ r) i) :
    Spells x d q (d.dec.resLen + q.length) where
  len := rfl
  units := by
    intro k hk
    rw [← h.units k (by rw [List.length_append]; omega), List.getElem?_append_left hk]

/-- The second part, once the first has been output. -/
theorem Spells.right {x d t : State} {q r : Phrase} {i : Nat} (h : Spells x d (q ++ r) i)
    (ht : t.dec.resLen = d.dec.resLen + q.length) : Spells x t r i where
  len := by
    have hlen := h.len
    rw [List.length_append] at hlen
    omega
  units := by
    intro k hk
    have hunit := h.units (q.length + k) (by rw [List.length_append]; omega)
    rw [List.getElem?_append_right (Nat.le_add_right _ _), Nat.add_sub_cancel_left] at hunit
    rw [hunit, ht, Nat.add_assoc]

/-- A decoder that outputs what comes next in the input goes on restoring it. -/
theorem Restores.deliver {x d t : State} {w : Phrase} {new : List (Nat × Phrase)} {rest : List Bool} {i : Nat}
    (h : Restores x d) (ht : Delivers d w new rest t) (hw : Spells x d w i) : Restores x t where
  inv := h.inv.engineTurn ht.turn
  busy := ht.status.trans h.busy
  cfg := ht.cfg.trans h.cfg
  out := by
    intro k hk
    have hlen := ht.resLen
    rw [ht.out k]
    by_cases hlt : k < d.dec.resLen
    · rw [if_neg (by omega), h.out k hlt]
    · rw [if_pos (by omega), hw.units _ (by omega)]
      congr 2
      omega

theorem Restores.loopInv {x d : State} (h : Restores x d) (hs : d.stage = .decLoop) :
    LoopInv d.cfg.dictCap d.dec := by
  have hrun := h.inv.run
  rw [hs] at hrun
  exact hrun.2

/-- At its first token the decoder has no entry and no output. -/
theorem Restores.first {x d : State} (h : Restores x d) (hs : d.stage = .decFirst) :
    d.dec.next = 3 ∧ d.dec.dict = [] ∧ d.dec.resLen = 0 := by
  have hrun := h.inv.run
  rw [hs] at hrun
  obtain ⟨_, hnext, _, _, hdict, hres⟩ := hrun
  exact ⟨hnext, hdict, hres⟩

/-! ### The token of E_W -/

/-- The code E_W is sent as is an entry of E_DICT. -/
theorem mem_entries_of_dictCode {e : EncRegs} {p : Phrase} {k : Nat} (h : dictCode e.dict p = some k) :
    (k, p) ∈ e.entries := List.mem_map_of_mem (f := Prod.swap) (dictCode_mem h)

/-- The decoder reads the token of E_W at the width it was sent at, outputs E_W, and makes the entries it still owes. -/
theorem Unsent.deliver {x d : State} {e : EncRegs} {ahead : List (Nat × Phrase)} {m p : Nat} {rest : List Bool}
    (hr : Restores x d) (hu : Unsent ahead e d) (hdict : EncDictInv d.cfg.dictCap e) (hne : e.w ≠ [])
    (hwidth : Balanced e.width e.enl (e.next - 1 - e.pend.length))
    (hroom : d.dec.resLen + e.w.length ≤ d.cfg.outCap) (hsend : e.Sends m p)
    (hbits : d.bitsLeft = tokenBits d.cfg.order e.width m p ++ rest) :
    ∃ new t, Delivers d e.w new rest t ∧ e.entries = ahead ++ (new ++ d.dec.dict) := by
  obtain ⟨pend, new, howes, hpend, hentries⟩ := hu.owes
  have hnext := hdict.next_eq
  have hcap := hdict.next_le
  have hfresh := hu.fresh
  have hlen := congrArg List.length hpend
  rw [hentries] at hnext
  simp only [List.length_append, List.length_map] at hnext hlen
  have hmem : ∀ u, e.w = [u] → pend = [[u]] → e.w ∈ e.pend := fun u hw hp => by simp [hpend, hp, hw]
  have hloop : d.stage = .decLoop → new.length = pend.length + 1 → e.width = d.dec.width := fun hs hnew => by
    have hl := hr.loopInv hs
    have hdnext := hl.next_eq
    rw [← hwidth.size_eq, ← hl.width.size_eq]
    congr 1
    omega
  suffices hdeliver : ∃ t, Delivers d e.w new rest t by
    obtain ⟨t, ht⟩ := hdeliver
    exact ⟨new, t, ht, hentries⟩
  generalize hw : e.w = w at howes hne hroom hmem hfresh ⊢
  cases howes with
  | nothing => exact absurd rfl hne
  | first hs u =>
    have hw2 : e.width = 2 := by
      obtain ⟨_, hdd, _⟩ := hr.first hs
      rw [hdd] at hnext
      simp only [List.length_singleton, List.length_nil] at hnext hlen
      rw [← hwidth.size_eq, show e.next - 1 - e.pend.length = 2 by omega]
      rfl
    rw [hw2] at hbits
    exact first_delivers hr.inv hr.busy hs hsend hw (hw ▸ hmem u rfl rfl) hbits
  | literal hs hp u =>
    have hdnext := (hr.loopInv hs).next_eq
    rw [hloop hs rfl] at hbits
    simp only [List.length_cons, List.length_nil] at hnext hroom
    exact literal_delivers hr.inv hr.busy hs hsend hw (hw ▸ hmem u rfl rfl) hp (by omega) (by omega) hbits
  | code hs hp u q =>
    have hdnext := (hr.loopInv hs).next_eq
    rw [hloop hs rfl] at hbits
    have hnot : e.w ∉ e.pend := by
      rw [hpend, hw, List.append_nil]
      exact hfresh
    cases hsend with
    | lit8 _ hp' => exact absurd hp' hnot
    | lit16 _ hp' => exact absurd hp' hnot
    | code _ hk =>
      rw [hw] at hk
      have hentry := mem_entries_of_dictCode hk
      rw [hentries] at hentry
      have hknown := (List.mem_append.mp hentry).resolve_left fun hahead =>
        hfresh (List.mem_map_of_mem (f := Prod.snd) hahead)
      simp only [List.length_cons, List.length_nil] at hnext
      exact code_delivers hr.inv hr.busy hs hp hknown (by omega) hroom hbits

/-- Once the token of E_W is read, nothing is owed for it, and it is pending no more. -/
theorem Unsent.sent {d t : State} {e f : EncRegs} {ahead new : List (Nat × Phrase)} {rest : List Bool}
    (hu : Unsent ahead e d) (ht : Delivers d e.w new rest t) (hentries : e.entries = ahead ++ (new ++ d.dec.dict))
    (hdict : f.dict = e.dict) (hw : f.w = e.w) (hpend : f.pend = e.pend.filter (· ≠ e.w)) : Sent ahead f t where
  stage := ht.stage
  last := by rw [ht.last, hw]
  pend := by
    obtain ⟨pend, _, howes, hp, _⟩ := hu.owes
    have hfresh := hu.fresh
    have hown : pend.filter (· ≠ e.w) = [] := by
      generalize e.w = w at howes
      cases howes <;> simp
    rw [hpend, hp, List.filter_append, hown, List.append_nil, List.filter_eq_self]
    intro q hq
    simp only [ne_eq, decide_eq_true_eq]
    rintro rfl
    exact hfresh hq
  entries := by
    rw [ht.dict, ← hentries, EncRegs.entries, EncRegs.entries, hdict]

/-! ### The steps between tokens -/

/-- The first step takes its unit as a new one (42_encoder.md R164, R165). -/
theorem Unsent.first {x d : State} {e : EncRegs} {cap : Nat} (hr : Restores x d) (hu : Unsent [] e d)
    (hdict : EncDictInv cap e) (hw : e.w = []) {c : CodeUnit} (hc : [c] ∉ e.keys) :
    Unsent [] ((e.register c).setW [c]) d where
  fresh := List.not_mem_nil
  owes := by
    obtain ⟨pend, new, howes, hpend, hentries⟩ := hu.owes
    rw [hw] at howes
    cases howes with
    | nothing hs =>
      obtain ⟨hdnext, hdd, _⟩ := hr.first hs
      rw [hdd] at hentries
      have hnext := hdict.next_eq
      rw [hentries] at hnext
      refine ⟨_, _, .first hs c, ?_, ?_⟩
      · show (e.register c).pend = [[c]]
        rw [hdict.pend_register hc, hpend]
        rfl
      · show (e.next, [c]) :: e.entries = [(d.dec.next, [c])] ++ d.dec.dict
        rw [hentries, hnext, hdnext, hdd]
        rfl

/-- A new unit makes an entry that is ahead of E_W (42_encoder.md R164). -/
theorem Unsent.register {d : State} {e : EncRegs} {cap : Nat} (hu : Unsent [] e d) (hdict : EncDictInv cap e)
    {c : CodeUnit} (hc : [c] ∉ e.keys) (hw : e.w ≠ [c]) : Unsent [(e.next, [c])] (e.register c) d where
  fresh := by simpa using hw
  owes := by
    obtain ⟨pend, new, howes, hpend, hentries⟩ := hu.owes
    refine ⟨pend, new, howes, ?_, ?_⟩
    · rw [hdict.pend_register hc, hpend]
      rfl
    · show (e.next, [c]) :: e.entries = _
      rw [hentries]
      rfl

/-- E_W grows by a unit (42_encoder.md R165): what is owed for it stays the same. -/
theorem Unsent.extend {d : State} {e : EncRegs} (hu : Unsent [] e d) (hne : e.w ≠ []) (hp : e.w ∉ e.pend)
    (c : CodeUnit) : Unsent [] (e.setW (e.w ++ [c])) d where
  fresh := List.not_mem_nil
  owes := by
    obtain ⟨pend, new, howes, hpend, hentries⟩ := hu.owes
    suffices hext : Owes d (e.w ++ [c]) pend new from ⟨pend, new, hext, hpend, hentries⟩
    rw [hpend] at hp
    generalize e.w = w at howes hne hp ⊢
    cases howes with
    | nothing => exact absurd rfl hne
    | first => exact absurd (List.mem_singleton_self _) hp
    | literal => exact absurd (List.mem_singleton_self _) hp
    | code hs hlast u q => exact .code hs hlast u (q ++ [c])

/-- The entry that stands ahead of E_W is that of the unit `c`, or there is none. -/
def Ahead (c : CodeUnit) (ahead : List (Nat × Phrase)) : Prop := ahead = [] ∨ ∃ n, ahead = [(n, [c])]

/-- The newest entry of E_DICT has the highest code (42_encoder.md R173). -/
theorem EncDictInv.newest_code {cap : Nat} {e : EncRegs} (h : EncDictInv cap e) {n : Nat} {p : Phrase}
    {l : List (Nat × Phrase)} (hl : e.entries = (n, p) :: l) : n = 3 + l.length := by
  have hcodes : e.entries.map Prod.fst = (List.range' 3 (e.next - 3)).reverse := by
    rw [← h.codes, EncRegs.entries, List.map_map]
    rfl
  rw [h.next_eq, hl, List.length_cons, Nat.add_sub_cancel_left, List.range'_concat, List.reverse_append] at hcodes
  simpa using (List.cons.inj hcodes).1

/-- After a break's entry E_W is the unit that broke (42_encoder.md R166): a literal where its entry stood ahead, and
otherwise a phrase whose code the decoder knows, or is about to learn. -/
theorem Sent.insert {x d : State} {e : EncRegs} {cap : Nat} {c : CodeUnit} {ahead : List (Nat × Phrase)}
    (hr : Restores x d) (hs : Sent ahead e d) (ha : Ahead c ahead) (hdict : EncDictInv cap e) :
    Unsent [] ((e.insert (e.w ++ [c])).setW [c]) d where
  fresh := List.not_mem_nil
  owes := by
    have hnext := hdict.next_eq
    have hdnext := (hr.loopInv hs.stage).next_eq
    have hentries := hs.entries
    rw [hentries, List.length_append] at hnext
    suffices h : ∃ pend new, Owes d [c] pend new ∧ e.pend = pend ∧
        (e.next, e.w ++ [c]) :: e.entries = new ++ d.dec.dict from h
    rcases ha with rfl | ⟨n, rfl⟩
    · refine ⟨_, _, .code hs.stage hs.last c [], hs.pend, ?_⟩
      rw [List.length_nil, Nat.zero_add, ← hdnext] at hnext
      rw [hentries, hnext]
      rfl
    · refine ⟨_, _, .literal hs.stage hs.last c, hs.pend, ?_⟩
      have hn := hdict.newest_code (l := d.dec.dict) hentries
      rw [List.length_singleton] at hnext
      rw [hentries, show e.next = d.dec.next + 1 by omega, show n = d.dec.next by omega]
      rfl

/-! ### The end of the stream -/

/-- `u` reports the whole input of `x` as its result. -/
structure Restored (x u : State) : Prop where
  done   : u.status = .done
  outLen : u.outLen = x.snapLen
  out    : ∀ k < x.snapLen.toNat, u.outBuf.read? k = some (x.memRead k)

/-- A decoder that has output the whole input reads EOS and reports it (43_decoder.md R200). -/
theorem Sent.eos {x d : State} {e : EncRegs} {rest : List Bool} (hr : Restores x d) (hs : Sent [] e d)
    (hdict : EncDictInv d.cfg.dictCap e) (hwidth : Balanced e.width e.enl e.next)
    (hlen : d.dec.resLen = x.snapLen.toNat)
    (hbits : d.bitsLeft = fieldBits d.cfg.order e.width 2 ++ rest) :
    ∃ n u, engineRun n d = .next u ∧ Restored x u := by
  have hl := hr.loopInv hs.stage
  have hnext := hdict.next_eq
  rw [hs.entries, List.nil_append, ← hl.next_eq] at hnext
  have hw : e.width = d.dec.width := by rw [← hwidth.size_eq, ← hl.width.size_eq, hnext]
  rw [hw, ← tokenBits_of_two_le _ _ le_rfl 0] at hbits
  have hb := (busy_iff d).mpr hr.busy
  obtain ⟨r, hturn, _⟩ := State.ReadsAt.reads (.inr ⟨hs.stage, rfl⟩) hr.inv hr.busy
    (lt_two_pow_of_le_three hl.width.width_ge (by decide)) (.decEos (by rw [decodeCtx_decLoop hs.stage])) hbits
  have hb' : (((d.setSrc r).setStage .decLoop).returned (.ok d.dec.resLen)).busy = true := hb
  have hend := (engineRun_succ hb hturn 1).trans (engineRun_succ hb' (engineTurn_complete hb' rfl) 0)
  refine ⟨2, _, hend, rfl, ?_, fun k hk => hr.out k (hlen ▸ hk)⟩
  show BitVec.ofNat 32 d.dec.resLen = x.snapLen
  rw [hlen, BitVec.ofNat_toNat, BitVec.setWidth_eq]

end Sys2Proof.Machine
end

section
/-! The family `43_decoder.md`, the round trip (R206), the encoder's side: at every place of COMPRESS, a decoder that
has read the bits written so far keeps up; then the law itself. -/

namespace Sys2Proof.Machine

open Sys2Proof

/-! ### A token of the encoder -/

/-- `Pushed` speaks of the sink and OUT, and of ALPHL before. -/
theorem Pushed.congr {bits : List Bool} {s s' t t' : State} (h : Pushed bits s t) (hs : s'.sink = s.sink)
    (hso : s'.outBuf = s.outBuf) (hal : s'.alphl = s.alphl) (ht : t'.sink = t.sink) (hto : t'.outBuf = t.outBuf) :
    Pushed bits s' t' where
  outN := by rw [hs, ht]; exact h.outN
  pos := by rw [hs, ht]; exact h.pos
  pending := by rw [hs, ht]; exact h.pending
  chars := by rw [hs, ht, hal, hto]; exact h.chars
  rest := by rw [hs, ht, hso, hto]; exact h.rest

/-- The token that leads from `s` to `t`, by marker and payload, and what it does to the encoder's registers. -/
structure TokenSent (s t : State) (m p : Nat) : Prop where
  sends  : s.enc.Sends m p
  pushed : Pushed (tokenBits s.cfg.order s.enc.width m p) s t
  dict   : t.enc.dict = s.enc.dict
  w      : t.enc.w = s.enc.w
  i      : t.enc.i = s.enc.i
  pend   : t.enc.pend = s.enc.pend.filter (· ≠ s.enc.w)

section TokenSent

variable {g : Stage} {s t : State} (hk : SinkInv s) (hw2 : 2 ≤ s.enc.width) (hw25 : s.enc.width ≤ 25)
include hk hw2 hw25

/-- A literal is sent, or Run returns an error (42_encoder.md R167, R168). -/
theorem emitLiteral_sent {m n : Nat} {u : CodeUnit} (hw : s.enc.w = [u]) (hsend : s.enc.Sends m u.toNat) (hm : m ≤ 3)
    (hn : payloadLength m = n) (hn1 : 1 ≤ n) (hn25 : n ≤ 25) (hu : u.toNat < 2 ^ n)
    (h : (emitLiteral m n u (s.setStage g)).outcome = .next t) :
    (∃ e, t.stage = .complete (.err e)) ∨ t.stage = g ∧ TokenSent s t m u.toNat := by
  by_cases hr : (s.setStage g).sink.room ((s.setStage g).enc.width + n) (s.setStage g).cfg.outCap
  · obtain ⟨t', ht', hpushed, hframe⟩ := emitLiteral_pushed (hk.setStage g) hw2 hw25 hm hn1 hn25 hu hr
    cases ht'.symm.trans h
    right
    rw [hframe] at hpushed ⊢
    refine ⟨rfl, hsend, ?_, rfl, rfl, rfl, ?_⟩
    · rw [tokenBits, hn]
      exact hpushed.congr rfl rfl rfl rfl rfl
    · rw [hw]
      rfl
  · obtain ⟨t', ht', hstage, _⟩ := (full_emitLiteral (hk.setStage g) hw2 hw25 hm hn1 hn25 hu hr).outcome
    cases ht'.symm.trans h
    exact .inl ⟨_, hstage⟩

/-- A code is sent, or Run returns an error (42_encoder.md R169). -/
theorem encCode_sent {k : Nat} (hp : s.enc.w ∉ s.enc.pend) (hcode : dictCode s.enc.dict s.enc.w = some k)
    (hlt : k < 2 ^ s.enc.width) (h3 : 3 ≤ k) (h : exec (.encCode k) (s.setStage g) = .next t) :
    (∃ e, t.stage = .complete (.err e)) ∨ t.stage = g ∧ TokenSent s t k 0 := by
  by_cases hr : (s.setStage g).sink.room (s.setStage g).enc.width (s.setStage g).cfg.outCap
  · obtain ⟨t', ht', hpushed, hframe⟩ := encCodeToken (s.setStage g) k (hk.setStage g) hw2 hw25 hlt hr
    cases ht'.symm.trans h
    right
    rw [hframe] at hpushed ⊢
    refine ⟨rfl, .code hp hcode, ?_, rfl, rfl, rfl, ?_⟩
    · rw [tokenBits_of_two_le _ _ (by omega)]
      exact hpushed.congr rfl rfl rfl rfl rfl
    · refine (List.filter_eq_self.mpr fun q hq => ?_).symm
      simp only [ne_eq, decide_eq_true_eq]
      rintro rfl
      exact hp hq
  · obtain ⟨t', ht', hstage, _⟩ :=
      (outputFullRaisesResource (s.setStage g) (hk.setStage g) hw2 hw25).2.2.1 k hlt hr
    cases ht'.symm.trans h
    exact .inl ⟨_, hstage⟩

/-- EmitPhrase(E_W) sends the token of E_W, or Run returns an error (42_encoder.md R167 to R169). -/
theorem emitPhrase_sent {cap : Nat} (hdict : EncDictInv cap s.enc) (hlen : ∀ p ∈ s.enc.pend, p.length = 1)
    (hcode : s.enc.w ∉ s.enc.pend → ∀ k, dictCode s.enc.dict s.enc.w = some k → k < 2 ^ s.enc.width)
    (h : emitPhrase g s = .next t) :
    (∃ e, t.stage = .complete (.err e)) ∨ t.stage = g ∧ ∃ m p, TokenSent s t m p := by
  unfold emitPhrase at h
  by_cases hp : s.enc.w ∈ s.enc.pend
  · obtain ⟨u, hu⟩ := List.length_eq_one_iff.mp (hlen _ hp)
    rw [chooseToken_pending hu hp] at h
    suffices hsent : ∃ m, (∃ e, t.stage = .complete (.err e)) ∨ t.stage = g ∧ TokenSent s t m u.toNat by
      obtain ⟨m, hm⟩ := hsent
      exact hm.imp_right fun ⟨hg, ht⟩ => ⟨hg, m, _, ht⟩
    by_cases h256 : u.toNat < 256
    · rw [if_pos h256] at h
      have h' : (emitLiteral 0 8 ((u.setWidth 8).setWidth 16) (s.setStage g)).outcome = .next t := h
      rw [setWidth_setWidth_of_lt h256] at h'
      exact ⟨0, emitLiteral_sent (n := 8) hk hw2 hw25 hu (.lit8 hu hp h256) (by decide) rfl (by decide) (by decide)
        h256 h'⟩
    · rw [if_neg h256] at h
      exact ⟨1, emitLiteral_sent (n := 16) hk hw2 hw25 hu (.lit16 hu hp) (by decide) rfl (by decide) (by decide)
        u.isLt h⟩
  · rw [chooseToken_code hp] at h
    cases hk' : dictCode s.enc.dict s.enc.w with
    | none =>
      rw [hk'] at h
      cases h
    | some k =>
      rw [hk'] at h
      exact (encCode_sent hk hw2 hw25 hp hk' (hcode hp k hk') (hdict.code_range hk').1 h).imp_right
        fun ⟨hg, ht⟩ => ⟨hg, k, 0, ht⟩

end TokenSent

/-! ### A decoder that keeps up -/

/-- The sink at the beginning of an operation (40_bitpack.md R120, 44_host_interface.md R228). -/
def State.emptySink (x : State) : State := (sinkInit x).setOut []

@[simp] theorem emptySink_outN (x : State) : x.emptySink.sink.outN = 0 := rfl
@[simp] theorem emptySink_pos (x : State) : x.emptySink.sink.pos = 0 := rfl
@[simp] theorem emptySink_pending (x : State) : x.emptySink.sink.pending = [] := rfl

/-- For the bits that the COMPRESS of `x`'s input has written up to `s`: a DECOMPRESS of any stream that begins with
them comes to a state that has read exactly these and meets `R`. -/
def KeepsUp (x s : State) (R : State → Prop) : Prop :=
  ∃ bits, Pushed bits x.emptySink s ∧ ∀ d₀ rest, Restores x d₀ → d₀.stage = .decFirst → d₀.bitsLeft = bits ++ rest →
    ∃ n d, engineRun n d₀ = .next d ∧ Restores x d ∧ d.bitsLeft = rest ∧ R d

/-- Nothing is written. -/
theorem KeepsUp.mono {x s t : State} {R R' : State → Prop} (h : KeepsUp x s R) (hsink : t.sink = s.sink)
    (hout : t.outBuf = s.outBuf) (hR : ∀ d, Restores x d → R d → R' d) : KeepsUp x t R' := by
  obtain ⟨bits, hpushed, hrun⟩ := h
  refine ⟨bits, hpushed.congr rfl rfl rfl hsink hout, fun d₀ rest hd₀ hs hbits => ?_⟩
  obtain ⟨n, d, hn, hd, hleft, hRd⟩ := hrun d₀ rest hd₀ hs hbits
  exact ⟨n, d, hn, hd, hleft, hR d hd hRd⟩

/-- The bits of a token are written, and the decoder reads them in one turn. -/
theorem KeepsUp.push {x s t : State} {R R' : State → Prop} {bits : List Bool} (h : KeepsUp x s R)
    (hpushed : Pushed bits s t) (hal : s.alphl = x.alphl)
    (hR : ∀ d rest, Restores x d → R d → d.bitsLeft = bits ++ rest →
      ∃ d', engineTurn d = .next d' ∧ Restores x d' ∧ d'.bitsLeft = rest ∧ R' d') : KeepsUp x t R' := by
  obtain ⟨before, hbefore, hrun⟩ := h
  refine ⟨before ++ bits, hbefore.trans hpushed hal, fun d₀ rest hd₀ hs hbits => ?_⟩
  rw [List.append_assoc] at hbits
  obtain ⟨n, d, hn, hd, hleft, hRd⟩ := hrun d₀ _ hd₀ hs hbits
  obtain ⟨d', hturn, hd', hleft', hRd'⟩ := hR d rest hd hRd hleft
  exact ⟨n + 1, d', engineRun_turn hn ((busy_iff d).mpr hd.busy) hturn, hd', hleft', hRd'⟩

/-- OUT[0..m-1] is a result of COMPRESS from which the input of `x` comes back: nothing for nothing, or the text of a
stream that DECOMPRESS turns into the input. -/
def RunsBack (x t : State) (m : Nat) : Prop :=
  x.snapLen.toNat = 0 ∧ m = 0 ∨
    0 < x.snapLen.toNat ∧ ∃ bits n, 0 < n ∧ TextOf x.alphl bits n t.outBuf m ∧
      ∀ d₀, Restores x d₀ → d₀.stage = .decFirst → d₀.bitsLeft = bits →
        ∃ k u, engineRun k d₀ = .next u ∧ Restored x u

/-- What a decoder that keeps up with the COMPRESS of `x`'s input is like while that stands at `g` in state `s`. -/
def InStep (x s : State) : Stage → Prop
  | .encLoop => KeepsUp x s fun d => Unsent [] s.enc d ∧ Spells x d s.enc.w s.enc.i
  | .encBreak c => ∃ ahead, Ahead c ahead ∧
      KeepsUp x s fun d => Unsent ahead s.enc d ∧ Spells x d (s.enc.w ++ [c]) s.enc.i
  | .encInsert c => ∃ ahead, Ahead c ahead ∧ KeepsUp x s fun d => Sent ahead s.enc d ∧ Spells x d [c] s.enc.i
  | .encLast => KeepsUp x s fun d => Unsent [] s.enc d ∧ Spells x d s.enc.w s.enc.i
  | .encEos => KeepsUp x s fun d => Sent [] s.enc d ∧ d.dec.resLen = x.snapLen.toNat
  | .complete (.ok m) => RunsBack x s m
  | _ => True

/-- `s` compresses the input of `x`. -/
structure Compresses (x s : State) : Prop where
  inv   : Inv s
  input : SameInput x s
  op    : s.opl = .compress
  fits  : x.snapLen.toNat ≤ x.cfg.outCap

/-- What the sink has written from its beginning on, with the padding after it, is the text of the bits. -/
theorem textOf_pushed {x u : State} {bits : List Bool} {buf : Memory} {n m : Nat} (h : Pushed bits x.emptySink u)
    (hlen : bits.length = 6 * n) (hm : (if x.alphl = .base64 then 4 * ((n + 3) / 4) else n) = m)
    (hbuf : ∀ k, buf.read? k = if n ≤ k ∧ k < m then some 0x3D else u.outBuf.read? k) :
    TextOf x.alphl bits n buf m where
  length := hlen
  chars := by
    intro j hj
    have hout := h.outN
    have hchar := h.chars j
    simp only [emptySink_outN, emptySink_pos, emptySink_pending, Nat.zero_add, List.nil_append] at hout hchar
    rw [hbuf, if_neg (by omega), hchar (by omega)]
    rfl
  le := by
    rw [← hm]
    split <;> omega
  pads := fun j hn hj => by
    rw [hbuf, if_pos ⟨hn, hj⟩]
    rfl
  le_add := by
    rw [← hm]
    split <;> omega
  uri := fun huri => by
    rw [← hm, huri]
    rfl

/-- E_W grows, or breaks, after its unit has been looked up, with the registers `e` (42_encoder.md R165, R166). -/
theorem KeepsUp.encExtend {x s : State} {e : EncRegs} {c : CodeUnit} (hs : s.stage = .encLoop)
    (hext : e.w ++ [c] ∈ e.keys →
      KeepsUp x s fun d => Unsent [] (e.setW (e.w ++ [c])) d ∧ Spells x d (e.w ++ [c]) e.i)
    (hbreak : e.w ++ [c] ∉ e.keys → ∃ ahead, Ahead c ahead ∧
      KeepsUp x s fun d => Unsent ahead e d ∧ Spells x d (e.w ++ [c]) e.i) :
    InStep x (encExtend c (s.setEnc e)) (encExtend c (s.setEnc e)).stage := by
  rw [encExtend_eq]
  split
  next hkey =>
    show InStep x _ s.stage
    rw [hs]
    exact KeepsUp.mono (hext hkey) rfl rfl fun d _ hd => hd
  next hkey =>
    obtain ⟨ahead, hahead, hkeeps⟩ := hbreak hkey
    exact ⟨ahead, hahead, hkeeps.mono rfl rfl fun d _ hd => hd⟩

section Turns

variable {x s t : State} (hx : Compresses x s)
include hx

/-- The beginning of Run (42_encoder.md R160 to R162). -/
theorem Compresses.startRun (hs : s.stage = .start) (h : (startRun s).outcome = .next t) : InStep x t t.stage := by
  have hrun := hx.inv.run
  rw [hs] at hrun
  have hout : s.outBuf = [] := hrun
  unfold Machine.startRun startCompress at h
  rw [hx.op] at h
  dsimp only at h
  split_ifs at h with hcap hzero <;> cases h
  · trivial
  · exact .inl ⟨by rw [← hx.input.snapLen, hzero], rfl⟩
  · refine ⟨[], ?_, fun d₀ rest hd₀ hfirst hbits => ⟨0, d₀, rfl, hd₀, hbits, ⟨List.not_mem_nil, ?_⟩, ?_⟩⟩
    · exact (Pushed.refl (s := x.emptySink) (Nat.zero_le 5)).congr rfl rfl rfl rfl hout
    · refine ⟨[], [], .nothing hfirst, rfl, ?_⟩
      rw [(hd₀.first hfirst).2.1]
      rfl
    · exact ⟨(hd₀.first hfirst).2.2, fun k hk => absurd hk (Nat.not_lt_zero k)⟩

/-- The head of the loop (42_encoder.md R160, R164 to R166). -/
theorem Compresses.encHead (hs : s.stage = .encLoop) (hstep : InStep x s .encLoop)
    (h : (encHead s).outcome = .next t) : InStep x t t.stage := by
  have hrun := hx.inv.run
  rw [hs] at hrun
  obtain ⟨henc, hphrase⟩ := hrun
  have hdict : EncDictInv s.cfg.dictCap s.enc.advance := henc.dict.congr rfl rfl fun _ hq => hq
  unfold Machine.encHead at h
  split at h
  next hi =>
    have hread : s.memRead s.enc.i = x.memRead s.enc.i := hx.input.memRead _ (by rwa [← hx.input.snapLen])
    rw [encStep_eq, hread] at h
    generalize hc : x.memRead s.enc.i = c at h
    have hstep : KeepsUp x s fun d => Unsent [] s.enc.advance d ∧ Spells x d (s.enc.w ++ [c]) (s.enc.i + 1) :=
      KeepsUp.mono hstep rfl rfl fun d _ ⟨hu, hd⟩ => ⟨⟨hu.fresh, hu.owes⟩, hc ▸ hd.snoc⟩
    split_ifs at h with hkey hcap <;> cases h
    · have hw : s.enc.w ∈ s.enc.keys := by
        rcases hphrase with hphrase | ⟨_, _, hnone, _⟩
        · exact hphrase.w
        · rw [EncRegs.keys, hnone] at hkey
          cases hkey
      refine KeepsUp.encExtend hs (fun hext => ?_) fun hbreak => ⟨[], .inl rfl, hstep⟩
      have hne : s.enc.w ≠ [] := fun hnil => henc.dict.nonempty (hnil ▸ hw)
      have hp : s.enc.w ∉ s.enc.pend := fun hmem => (henc.dict.pending _ hmem).2 c hext
      exact hstep.mono rfl rfl fun d _ ⟨hu, hd⟩ => ⟨hu.extend hne hp c, hd⟩
    · trivial
    · refine KeepsUp.encExtend hs (fun hext => ?_) fun hbreak => ⟨[(s.enc.next, [c])], .inr ⟨_, rfl⟩, ?_⟩
      · have hnil : s.enc.w = [] := by
          by_contra hne
          rcases List.mem_cons.mp hext with heq | hmem
          · exact hne (singleton_eq_append heq.symm).1
          · exact hkey (henc.dict.units _ _ hmem)
        refine hstep.mono rfl rfl fun d hr ⟨hu, hd⟩ => ⟨?_, hd⟩
        have hfirst := hu.first hr hdict hnil hkey
        show Unsent [] ((s.enc.advance.register c).setW (s.enc.w ++ [c])) d
        rwa [hnil]
      · have hw : s.enc.w ≠ [c] := by
          rintro heq
          rcases hphrase with hphrase | ⟨hnil, _⟩
          · exact hkey (heq ▸ hphrase.w)
          · cases hnil.symm.trans heq
        exact hstep.mono rfl rfl fun d _ ⟨hu, hd⟩ => ⟨hu.register hdict hkey hw, hd⟩
  next hi =>
    cases h
    exact KeepsUp.mono hstep rfl rfl fun d _ hd => hd

/-- The decoder reads the token that E_W is sent as (43_decoder.md R193 to R202). -/
theorem Compresses.tokenSent {d : State} {ahead : List (Nat × Phrase)} {m p i : Nat} {rest : List Bool}
    (hdict : EncDictInv s.cfg.dictCap s.enc) (hne : s.enc.w ≠ [])
    (hwidth : Balanced s.enc.width s.enc.enl (s.enc.next - 1 - s.enc.pend.length)) (hi : i ≤ s.snapLen.toNat)
    (hsent : TokenSent s t m p) (hr : Restores x d) (hu : Unsent ahead s.enc d) (hw : Spells x d s.enc.w i)
    (hbits : d.bitsLeft = tokenBits s.cfg.order s.enc.width m p ++ rest) :
    ∃ d', engineTurn d = .next d' ∧ Restores x d' ∧ d'.bitsLeft = rest ∧ Sent ahead t.enc d' ∧
      d'.dec.resLen = d.dec.resLen + s.enc.w.length := by
  have hcfg : d.cfg = s.cfg := hr.cfg.trans hx.input.cfg.symm
  rw [← hcfg] at hdict hbits
  have hroom : d.dec.resLen + s.enc.w.length ≤ d.cfg.outCap := by
    rw [hw.len, hr.cfg]
    rw [hx.input.snapLen] at hi
    exact Nat.le_trans hi hx.fits
  obtain ⟨new, d', hd', hentries⟩ := hu.deliver hr hdict hne hwidth hroom hsent.sends hbits
  exact ⟨d', hd'.turn, hr.deliver hd' hw, hd'.left, hu.sent hd' hentries hsent.dict hsent.w hsent.pend, hd'.resLen⟩

/-- EmitPhrase(E_W) before a break's entry (42_encoder.md R166). -/
theorem Compresses.encBreak {c : CodeUnit} (hs : s.stage = .encBreak c) (hstep : InStep x s (.encBreak c))
    (h : emitPhrase (.encInsert c) s = .next t) : InStep x t t.stage := by
  have hrun := hx.inv.run
  rw [hs] at hrun
  obtain ⟨henc, hbreak⟩ := hrun
  have hw25 := henc.dict.width_le hx.inv.host.cfg.2.2.2 hbreak.width (by omega)
  have hcode : s.enc.w ∉ s.enc.pend → ∀ k, dictCode s.enc.dict s.enc.w = some k → k < 2 ^ s.enc.width :=
    fun hp k hk => by
      have hlt := hbreak.width.lt_pow
      have hle := hbreak.code hp k hk
      omega
  rcases emitPhrase_sent henc.sink hbreak.width.width_ge hw25 henc.dict (fun p hp => (hbreak.pend.2 p hp).1) hcode h
    with ⟨e, he⟩ | ⟨hg, m, p, hsent⟩
  · rw [he]
    trivial
  · rw [hg]
    obtain ⟨ahead, hahead, hkeeps⟩ := hstep
    refine ⟨ahead, hahead, hkeeps.push hsent.pushed hx.input.alphl fun d rest hr ⟨hu, hd⟩ hbits => ?_⟩
    have hlen := hd.len
    rw [List.length_append, List.length_singleton] at hlen
    have hi := henc.i
    obtain ⟨d', hturn, hr', hleft, hsent', hres⟩ := hx.tokenSent henc.dict
      (fun hnil => henc.dict.nonempty (hnil ▸ hbreak.w)) hbreak.width (by omega) hsent hr hu hd.left hbits
    refine ⟨d', hturn, hr', hleft, hsent', ?_⟩
    rw [hsent.i]
    exact hd.right hres

/-- A break's entry (42_encoder.md R166). -/
theorem Compresses.encInsert {c : CodeUnit} (hs : s.stage = .encInsert c) (hstep : InStep x s (.encInsert c))
    (h : (encAfterBreak c (s.setStage .encLoop)).outcome = .next t) : InStep x t t.stage := by
  have hrun := hx.inv.run
  rw [hs] at hrun
  obtain ⟨henc, _⟩ := hrun
  rw [encAfterBreak_eq] at h
  split_ifs at h with hcap <;> cases h
  · trivial
  · obtain ⟨ahead, hahead, hkeeps⟩ := hstep
    exact KeepsUp.mono hkeeps rfl rfl fun d hr ⟨hsent, hd⟩ => ⟨hsent.insert hr hahead henc.dict, hd⟩

/-- EmitPhrase(E_W) for the last phrase (42_encoder.md R170). -/
theorem Compresses.encLast (hs : s.stage = .encLast) (hstep : InStep x s .encLast)
    (h : emitPhrase .encEos s = .next t) : InStep x t t.stage := by
  have hrun := hx.inv.run
  rw [hs] at hrun
  obtain ⟨henc, hphrase, hi⟩ := hrun
  have hw25 := henc.dict.width_le hx.inv.host.cfg.2.2.2 hphrase.width (by omega)
  have hpend : ∀ p ∈ s.enc.pend, p.length = 1 := fun p hp => by
    rcases hphrase.pend with hnone | ⟨hone, hlen⟩
    · rw [hnone] at hp
      cases hp
    · rw [hone, List.mem_singleton] at hp
      rw [hp, hlen]
  have hcode : s.enc.w ∉ s.enc.pend → ∀ k, dictCode s.enc.dict s.enc.w = some k → k < 2 ^ s.enc.width :=
    fun hp k hk => by
      obtain ⟨hnone, hle⟩ := hphrase.code henc.dict hp hk
      have hlt := hphrase.width.lt_pow
      rw [hnone, List.length_nil] at hlt
      omega
  rcases emitPhrase_sent henc.sink hphrase.width.width_ge hw25 henc.dict hpend hcode h
    with ⟨e, he⟩ | ⟨hg, m, p, hsent⟩
  · rw [he]
    trivial
  · rw [hg]
    refine KeepsUp.push hstep hsent.pushed hx.input.alphl fun d rest hr ⟨hu, hd⟩ hbits => ?_
    obtain ⟨d', hturn, hr', hleft, hsent', hres⟩ := hx.tokenSent henc.dict
      (fun hnil => henc.dict.nonempty (hnil ▸ hphrase.w)) hphrase.width (Nat.le_of_eq hi) hsent hr hu hd hbits
    exact ⟨d', hturn, hr', hleft, hsent', by rw [hres, hd.len, hi, hx.input.snapLen]⟩

/-- EOS, the last character and the padding (42_encoder.md R170). -/
theorem Compresses.encEos (hs : s.stage = .encEos) (hstep : InStep x s .encEos) (h : exec .encEos s = .next t) :
    InStep x t t.stage := by
  have hrun := hx.inv.run
  rw [hs] at hrun
  obtain ⟨henc, hpend, hwidth⟩ := hrun
  have hw2 := hwidth.width_ge
  have hw25 := henc.dict.width_le hx.inv.host.cfg.2.2.2 hwidth (by omega)
  generalize hn : s.sink.outN + (s.sink.pos + s.enc.width) / 6 + 1 = n
  generalize hm : (if s.alphl = .base64 then 4 * ((n + 3) / 4) else n) = m
  rcases Nat.lt_or_ge s.cfg.outCap m with hfull | hroom
  · obtain ⟨t', ht', hstage, _⟩ := (outputFullRaisesResource s henc.sink hw2 hw25).2.2.2 n hn.symm (hm ▸ hfull)
    cases ht'.symm.trans h
    rw [hstage]
    trivial
  · obtain ⟨u, t', ht', hpushed, hread, hframe⟩ := encEosToken s n m henc.sink hw2 hw25 hn.symm hm.symm hroom
    cases ht'.symm.trans h
    have hstage : t.stage = .complete (.ok m) := by rw [hframe]
    rw [hstage]
    obtain ⟨bits, hbits, hkeeps⟩ := hstep
    have hall := hbits.trans hpushed hx.input.alphl
    have htext := textOf_pushed hall (n := n) (m := m) (buf := t.outBuf) ?_ (hx.input.alphl ▸ hm) hread
    · refine .inr ⟨hx.input.snapLen ▸ henc.some_, _, n, by omega, htext, fun d₀ hd₀ hfirst hleft => ?_⟩
      obtain ⟨k, d, hk, hd, hleft', hsent, hres⟩ := hkeeps d₀ _ hd₀ hfirst hleft
      have hcfg : d.cfg = s.cfg := hd.cfg.trans hx.input.cfg.symm
      obtain ⟨j, v, hj, hv⟩ := hsent.eos hd (hcfg ▸ henc.dict) hwidth hres (hcfg ▸ hleft')
      exact ⟨k + j, v, (engineRun_add hk j).trans hj, hv⟩
    · have hout := hbits.outN
      have hpos := hbits.pos
      simp only [emptySink_outN, emptySink_pos] at hout hpos
      simp only [List.length_append, fieldBits_length, List.length_replicate]
      omega

end Turns

/-! ### The round trip -/

/-- `s` compresses the input of `x` with a decoder in step, or has done so and reports a result that runs back. -/
structure Compressed (x s : State) : Prop where
  compresses : Compresses x s
  inStep     : InStep x s s.stage
  result     : s.status = .done → RunsBack x s s.outLen.toNat

/-- While an operation goes on it has no other input. -/
theorem EngFrame.sameInput {s t : State} (h : EngFrame s t) : SameInput s t :=
  ⟨h.cfg, h.opl, h.alphl, h.snapLen, fun k _ => h.memRead k⟩

theorem SameInput.trans {s t u : State} (h₁ : SameInput s t) (h₂ : SameInput t u) : SameInput s u :=
  ⟨h₂.cfg.trans h₁.cfg, h₂.opl.trans h₁.opl, h₂.alphl.trans h₁.alphl, h₂.snapLen.trans h₁.snapLen,
    fun k hk => (h₂.memRead k (by rwa [h₁.snapLen])).trans (h₁.memRead k hk)⟩

/-- A turn of COMPRESS takes the decoder along. -/
theorem Compresses.inStep_engineTurn {x s t : State} (hx : Compresses x s) (hstep : InStep x s s.stage)
    (hb : s.busy = true) (h : engineTurn s = .next t) : InStep x t t.stage := by
  have hrun := hx.inv.run
  unfold engineTurn at h
  rw [if_pos hb] at h
  generalize hs : s.stage = g at h hrun hstep
  cases g with
  | idle => cases h
  | start => exact hx.startRun hs h
  | encLoop => exact hx.encHead hs hstep h
  | encBreak c => exact hx.encBreak hs hstep h
  | encInsert c => exact hx.encInsert hs hstep h
  | encLast => exact hx.encLast hs hstep h
  | encEos => exact hx.encEos hs hstep h
  | decFirst => cases hx.op.symm.trans hrun.1.op
  | decLoop => cases hx.op.symm.trans hrun.1.op
  | complete r =>
    cases h
    rw [completion_stage]
    trivial

theorem completion_sameInput (r : RunResult) (s : State) : SameInput s (s.completion r) := by
  cases r <;> exact ⟨rfl, rfl, rfl, rfl, fun _ _ => rfl⟩

/-- A turn goes on in step, or is the completion step, which reports the result that Run has returned. -/
theorem Compressed.engineTurn {x s t : State} (h : Compressed x s) (hb : s.busy = true)
    (ht : engineTurn s = .next t) : Compressed x t := by
  obtain ⟨hx, hstep, _⟩ := h
  have hbusy := (busy_iff s).mp hb
  have hstep' := hx.inStep_engineTurn hstep hb ht
  obtain ⟨u, hu, hcase⟩ := engineTurn_busy hx.inv hbusy
  cases hu.symm.trans ht
  rcases hcase with hadv | ⟨r, hs, rfl, hinv, _⟩
  · refine ⟨⟨hadv.inv, hx.input.trans hadv.frame.sameInput, hadv.frame.opl.trans hx.op, hx.fits⟩, hstep',
      fun hdone => ?_⟩
    cases (hadv.frame.status.trans hbusy).symm.trans hdone
  · have hinput := completion_sameInput r s
    refine ⟨⟨hinv, hx.input.trans hinput, hinput.opl.trans hx.op, hx.fits⟩, hstep', fun hdone => ?_⟩
    rw [hs] at hstep
    have hrun := hx.inv.run
    rw [hs] at hrun
    cases r with
    | ok m =>
      have hcap := hx.inv.host.cfg.2.1.2
      have hm : (BitVec.ofNat 32 m).toNat = m := by
        rw [BitVec.toNat_ofNat]
        exact Nat.mod_eq_of_lt (by have := hrun.2; omega)
      show RunsBack x _ (BitVec.ofNat 32 m).toNat
      rw [hm]
      exact hstep
    | err e => cases hdone

/-- The host may fill IN with any buffer of elements below IN_CAP. -/
theorem Inv.setInBuf {s : State} (h : Inv s) (hb : s.busy = false) {m : Memory} (hwf : m.wf)
    (hbelow : m.below s.cfg.inCap) : Inv (s.setIn m) := by
  rw [not_busy_iff] at hb
  exact Inv.ofHost { h.host with
    inWf := hwf, inBelow := hbelow, snapshot := fun hc => absurd hc hb, latches := fun hc => absurd hc hb } hb

/-- A DECOMPRESS that starts on a text comes to its first token with the bits of the text before it (43_decoder.md R190
to R192). -/
theorem State.HoldsText.begins {x s : State} {bits : List Bool} {n : Nat} (h : s.HoldsText bits n) (hinv : Inv s)
    (hs : s.stage = .start) (hop : s.opl = .decompress) (hn : 0 < n) (hcap : s.snapLen.toNat ≤ s.cfg.inCap)
    (hcfg : s.cfg = x.cfg) :
    ∃ d, engineRun 1 s = .next d ∧ Restores x d ∧ d.stage = .decFirst ∧ d.bitsLeft = bits := by
  have hbusy := (hinv.atStart hs).1
  have hb := (busy_iff s).mpr hbusy
  have hturn : engineTurn s = .next ((decInit n s).setStage .decFirst) := by
    rw [engineTurn_start hb hs, startRun_decompress hop (Nat.lt_of_lt_of_le hn h.le) hcap h.valid, h.dataLength_eq]
    rfl
  exact ⟨_, engineRun_succ hb hturn 0, ⟨hinv.engineTurn hturn, hbusy, hcfg, fun k hk => absurd hk (Nat.not_lt_zero k)⟩,
    rfl, h.bitsLeft_decInit .decFirst⟩

/-- A DECOMPRESS of nothing reports nothing (43_decoder.md R191). -/
theorem decompress_empty {x s : State} (hb : s.busy = true) (hs : s.stage = .start) (hop : s.opl = .decompress)
    (hlen : s.snapLen.toNat = 0) (hx : x.snapLen.toNat = 0) : ∃ u, engineRun 2 s = .next u ∧ Restored x u := by
  have hturn : engineTurn s = .next (s.returned (.ok 0)) := by
    rw [engineTurn_start hb hs, startRun, hlen, if_neg (Nat.not_lt_zero _), hop]
    dsimp only
    rw [startDecompress, State.inputUnits, hlen]
    rfl
  have hb' : (s.returned (.ok 0)).busy = true := hb
  have hend := (engineRun_succ hb hturn 1).trans (engineRun_succ hb' (engineTurn_complete hb' rfl) 0)
  refine ⟨_, hend, rfl, ?_, fun k hk => absurd hk (by omega)⟩
  exact (BitVec.eq_of_toNat_eq hx).symm

/-- The block that has taken its own result as input and starts to decompress it. -/
def State.runBack (al : Alphabet) (t : State) : State :=
  ((t.setInLen t.outLen).setIn t.outBuf).startOp .decompress al

/-- A result that fits into IN can be taken as input. -/
theorem Inv.runBack {t : State} (h : Inv t) (hdone : t.status = .done) (hin : t.outLen.toNat ≤ t.cfg.inCap)
    (al : Alphabet) : Inv (t.runBack al) := by
  have hb : t.busy = false := by
    rw [State.busy, hdone]
    rfl
  obtain ⟨_, hfilled, _⟩ := h.host.done hdone
  have hbelow : t.outBuf.below t.cfg.inCap := fun e he =>
    Nat.lt_of_lt_of_le (Memory.filled_below hfilled e he) hin
  exact ((h.setInLen hb t.outLen).setInBuf hb (Memory.filled_wf hfilled) hbelow).startOp _ _

/-- A result that runs back does so. -/
theorem RunsBack.restored {x t : State} (h : RunsBack x t t.outLen.toNat) (hinv : Inv (t.runBack x.alphl))
    (hin : t.outLen.toNat ≤ t.cfg.inCap) (hcfg : t.cfg = x.cfg) :
    ∃ n u, engineRun n (t.runBack x.alphl) = .next u ∧ Restored x u := by
  rcases h with ⟨hempty, hzero⟩ | ⟨_, bits, n, hn, htext, hreads⟩
  · obtain ⟨u, hu, hres⟩ := decompress_empty (s := t.runBack x.alphl) rfl rfl rfl hzero hempty
    exact ⟨2, u, hu, hres⟩
  · have hholds : (t.runBack x.alphl).HoldsText bits n := htext
    obtain ⟨d, hd, hrestores, hfirst, hleft⟩ := hholds.begins hinv rfl rfl hn hin hcfg
    obtain ⟨k, u, hu, hres⟩ := hreads d hrestores hfirst hleft
    exact ⟨1 + k, u, (engineRun_add hd k).trans hu, hres⟩

/-- Settles O6: in every turn of COMPRESS a decoder of what is written keeps up, so the decoder of all that is written
comes to its end with the input restored. -/
theorem decompressUndoesCompress : Obligations.DecompressUndoesCompress := by
  intro s t al hinv _ hrun hdone hin hout
  have hstart : Compressed (s.startOp .compress al) (s.startOp .compress al) :=
    ⟨⟨hinv.startOp _ _, ⟨rfl, rfl, rfl, rfl, fun _ _ => rfl⟩, rfl, hout⟩, trivial, fun hd => by cases hd⟩
  have hend := engineRun_keeps Compressed.engineTurn hstart hrun
  have hcfg : t.cfg = s.cfg := hend.compresses.input.cfg
  rw [← hcfg] at hin
  have hback := hend.compresses.inv.runBack hdone hin al
  obtain ⟨u, hu, hub⟩ := engineRun_completes hback (turnsLeft_startOp_le .decompress al _)
  obtain ⟨n, v, hv, hres⟩ := (hend.result hdone).restored hback hin hcfg
  have hvb : v.busy = false := by
    rw [State.busy, hres.done]
    rfl
  cases engineRun_end_unique hu hub hv hvb
  exact ⟨u, hu, hres.done, hres.outLen, hres.out⟩

end Sys2Proof.Machine
end

section
/-! The family `44_host_interface.md`, the host's side: what each command word and each register or buffer access does,
while BUSY and while not. -/

namespace Sys2Proof.Machine

open Sys2Proof

/-! ### Command words -/

/-- A row that is a write the host may make only while not BUSY, while BUSY: it is only answered (44_host_interface.md
R221). -/
theorem next_writeUnlessBusy_busy {s : State} (hs : s.status = .busy) (f : State → State) :
    (.next (s.writeUnlessBusy f) : Host.Outcome State Fault Refusal) = .next (s.respond .ack) :=
  congrArg _ (writeUnlessBusy_busy ((busy_iff s).mpr hs) f)

/-- Such a row while not BUSY: its write takes place. -/
theorem next_writeUnlessBusy_free {s : State} (hs : s.status ≠ .busy) (f : State → State) :
    (.next (s.writeUnlessBusy f) : Host.Outcome State Fault Refusal) = .next ((f s).respond .ack) :=
  congrArg _ (writeUnlessBusy_free ((not_busy_iff s).mpr hs) f)

/-- Settles O26: CTRL_WRITE_BUSY by its own look at STATE, each other row as a write that BUSY turns away. -/
theorem commandsWhileBusyAreIgnored : Obligations.CommandsWhileBusyAreIgnored := by
  intro s v op al
  refine ⟨fun hs => ?_, fun hs => if_neg (by simpa [busy_iff] using hs)⟩
  have ignored := next_writeUnlessBusy_busy hs
  exact ⟨⟨.ack, if_pos ((busy_iff s).mpr hs)⟩, ⟨.ack, ignored _⟩, ⟨.ack, ignored _⟩, ⟨.ack, ignored _⟩,
    ⟨.ack, ignored _⟩, ⟨.ack, ignored _⟩, .ack, ignored _⟩

/-- Settles O27: SETMODE's write takes place. -/
theorem setmodeWritesTheLatches : Obligations.SetmodeWritesTheLatches :=
  fun _ op al hs => ⟨.ack, next_writeUnlessBusy_free hs (State.setMode op al)⟩

/-- Settles O28: each of the four rows is StartOp of its operation and alphabet, which takes place. -/
theorem startCommandsStart : Obligations.StartCommandsStart := by
  intro s hs
  have start := fun op al => next_writeUnlessBusy_free hs (State.startOp op al)
  exact ⟨⟨_, start .compress .base64, startOp_started _ _ s _⟩, ⟨_, start .compress .uri, startOp_started _ _ s _⟩,
    ⟨_, start .decompress .base64, startOp_started _ _ s _⟩, _, start .decompress .uri, startOp_started _ _ s _⟩

/-- Settles O29: the report takes place. -/
theorem illegalCommandIsReported : Obligations.IllegalCommandIsReported :=
  fun s v hs _ => ⟨_, next_writeUnlessBusy_free hs (State.enterError .illegalCmd v), enterError_illegal v s .ack⟩

/-! ### Registers -/

/-- CTRL as a number (44_host_interface.md R229). -/
theorem ctrlWord_eq (s : State) : s.ctrlWord = BitVec.ofNat 32
    ((if s.ctrlAlph = .uri then 4 else 0) + (if s.ctrlOp = .decompress then 2 else 0)) := by
  unfold State.ctrlWord
  cases s.ctrlAlph <;> cases s.ctrlOp <;> rfl

/-- STATUS as a number (44_host_interface.md R230). -/
theorem statusWord_eq (s : State) : s.statusWord = BitVec.ofNat 32 (16 * s.err.number + s.status.number) := by
  unfold State.statusWord
  cases s.err <;> cases s.status <;> rfl

/-- CONFIG as a number (10_state.md R27). -/
theorem configWord_eq (s : State) : s.configWord = if s.cfg.order = .msbFirst then 0x160 else 0x161 := by
  unfold State.configWord
  cases s.cfg.order <;> rfl

theorem outLenValue_free {s : State} (hb : s.busy = false) : s.outLenValue = s.outLen := by
  rw [State.outLenValue, hb]
  rfl

theorem errInfoValue_free {s : State} (hb : s.busy = false) : s.errInfoValue = s.errInfo := by
  rw [State.errInfoValue, hb]
  rfl

/-- Settles O31, by the word CTRL reads. -/
theorem ctrlReadGivesTheLatches : Obligations.CtrlReadGivesTheLatches :=
  fun s => ctrlWord_eq s ▸ rfl

/-- Settles O32, by the word STATUS reads; a write is only answered. -/
theorem statusAccess : Obligations.StatusAccess :=
  fun s _ => ⟨statusWord_eq s ▸ rfl, .ack, rfl⟩

/-- Settles O33: the write takes place while not BUSY, and is turned away otherwise. -/
theorem inLenAccess : Obligations.InLenAccess :=
  fun s v => ⟨rfl, fun hs => ⟨.ack, exec_rwInLen_write ((not_busy_iff s).mpr hs) v⟩,
    fun hs => ⟨.ack, next_writeUnlessBusy_busy hs (State.setInLen v)⟩⟩

/-- Settles O34: each of the six is a read-only register, with its value. -/
theorem readOnlyRegisters : Obligations.ReadOnlyRegisters := by
  intro s v
  refine ⟨fun hs => ?_, fun _ => ⟨⟨s.outLenValue, rfl⟩, s.errInfoValue, rfl⟩, configWord_eq s ▸ rfl, rfl, rfl, rfl,
    ⟨.ack, rfl⟩, ⟨.ack, rfl⟩, ⟨.ack, rfl⟩, ⟨.ack, rfl⟩, ⟨.ack, rfl⟩, .ack, rfl⟩
  have hb := (not_busy_iff s).mpr hs
  exact ⟨outLenValue_free hb ▸ rfl, errInfoValue_free hb ▸ rfl⟩

/-! ### Buffers -/

/-- RW_IN at an index at or beyond IN_CAP (20_memory.md R61, R66). -/
theorem exec_rwIn_beyond {s : State} {k : BitVec 18} (hk : s.cfg.inCap ≤ k.toNat) (a : AccessKind) :
    exec (.rwIn k a) s = .next (s.respond .busError) := if_neg (Nat.not_lt.mpr hk)

/-- RW_IN of a write below IN_CAP, while BUSY (44_host_interface.md R233). -/
theorem exec_rwIn_write_busy {s : State} (hs : s.status = .busy) {k : BitVec 18} (hk : k.toNat < s.cfg.inCap)
    (v : Word) : exec (.rwIn k (.write v)) s = .next (s.respond .ack) :=
  (if_pos hk).trans (next_writeUnlessBusy_busy hs _)

theorem exec_rwIn_read {s : State} {k : BitVec 18} (hk : k.toNat < s.cfg.inCap) :
    exec (.rwIn k .read) s = .next (s.respond (.data ((s.inElem k.toNat).setWidth 32))) := if_pos hk

/-- IN after a write of one element: that element, and every other one as it was. -/
theorem inElem_write {s : State} (hwf : s.inBuf.wf) (k : Nat) (u : CodeUnit) (j : Nat) :
    (s.setIn (s.inBuf.write k u)).inElem j = if j = k then u else s.inElem j := by
  change ((s.inBuf.write k u).read? j).getD _ = if j = k then u else (s.inBuf.read? j).getD _
  rw [Memory.read?_write s.inBuf hwf]
  split <;> rfl

/-- Settles O36: below IN_CAP the read and the write, turned away or not; beyond it the bus error. -/
theorem inElementAccess : Obligations.InElementAccess := by
  intro s k v hwf
  refine ⟨fun hk => ⟨exec_rwIn_read hk, fun hs => ⟨.ack, exec_rwIn_write_busy hs hk v⟩, fun hs => ?_⟩,
    fun hk a => exec_rwIn_beyond hk a⟩
  have hread := inElem_write hwf k.toNat (v.setWidth 16)
  refine ⟨_, exec_rwIn_write ((not_busy_iff s).mpr hs) hk v, ?_, fun j hj => (hread j).trans (if_neg hj), rfl⟩
  rw [← BitVec.setWidth_eq_extractLsb' (by decide)]
  exact (hread k.toNat).trans (if_pos rfl)

/-- RD_OUT below OUT_CAP is a read-only register (44_host_interface.md R240). -/
theorem exec_rdOut {s : State} {k : BitVec 18} (hk : k.toNat < s.cfg.outCap) (a : AccessKind) :
    exec (.rdOut k a) s = .next (s.readOnly ((s.outElem k.toNat).setWidth 32) a) := if_pos hk

/-- RD_OUT at an index at or beyond OUT_CAP (20_memory.md R61, R66). -/
theorem exec_rdOut_beyond {s : State} {k : BitVec 18} (hk : s.cfg.outCap ≤ k.toNat) (a : AccessKind) :
    exec (.rdOut k a) s = .next (s.respond .busError) := if_neg (Nat.not_lt.mpr hk)

/-- In DONE, OUT reads what the operation wrote below OUT_LEN. -/
theorem outElem_done {s : State} {k : Nat} {u : CodeUnit} (hs : s.status = .done) (hk : k < s.outLen.toNat)
    (hu : s.outBuf.read? k = some u) : s.outElem k = u := by
  rw [State.outElem, if_pos ⟨hs, hk⟩, hu]
  rfl

/-- Settles O37: below OUT_CAP the element as the host reads it; beyond it the bus error. -/
theorem outElementAccess : Obligations.OutElementAccess := by
  refine fun s k v => ⟨fun hk => ⟨fun u hs hlen hu => ?_, ⟨s.outElem k.toNat, exec_rdOut hk .read⟩, .ack,
    exec_rdOut hk (.write v)⟩, fun hk a => exec_rdOut_beyond hk a⟩
  rw [exec_rdOut hk, outElem_done hs hlen hu]
  rfl

end Sys2Proof.Machine
end

section
/-! The family `44_host_interface.md`, the engine: an operation completes within a bound of turns, what a turn leaves as
it was, how Run begins and ends, and that a step runs the instruction that was decoded. -/

namespace Sys2Proof.Machine

open Sys2Proof

/-! ### Every operation completes -/

/-- `turnBound` turns are enough from every place of Run. -/
theorem Inv.turnsLeft_le_turnBound {s : State} (h : Inv s) : s.turnsLeft ≤ s.turnBound := by
  have hrun := h.run
  unfold State.turnsLeft State.turnBound
  generalize s.stage = g at hrun ⊢
  cases g with
  | decFirst | decLoop =>
    have hndata := hrun.1.src.ndata
    dsimp only
    omega
  | _ =>
    dsimp only
    omega

/-- A busy block has turns to come. -/
theorem Inv.turnsLeft_pos {s : State} (h : Inv s) (hb : s.status = .busy) : 0 < s.turnsLeft := by
  have hstage : s.stage ≠ .idle := fun hidle => h.host.stage.mp hidle hb
  unfold State.turnsLeft
  generalize s.stage = g at hstage ⊢
  cases g with
  | idle => exact absurd rfl hstage
  | _ =>
    dsimp only
    omega

/-- PHASE is IDLE once the operation has ended (10_state.md R31). -/
theorem Inv.phase_idle {s : State} (h : Inv s) (hb : s.status ≠ .busy) : s.phase = .idle := by
  cases hp : s.phase with
  | idle => rfl
  | run => exact absurd (h.host.phase.mp hp) hb

/-- STATE is DONE or ERROR: an operation has ended (10_state.md R23). -/
def State.Ended (s : State) : Prop := s.status = .done ∨ s.status = .error

theorem State.Ended.not_busy {s : State} (h : s.Ended) : s.status ≠ .busy := by
  rcases h with h | h <;> simp [h]

/-- The completion step ends the operation. -/
theorem completion_ended (r : RunResult) (s : State) : (s.completion r).Ended := by
  rcases completion_status r s with ⟨_, _, hdone⟩ | ⟨_, _, herr⟩
  · exact .inl hdone
  · exact .inr herr

/-- The completion step leaves the inputs still to come. -/
theorem completion_events (r : RunResult) (s : State) : (s.completion r).events = s.events := by
  cases r <;> rfl

/-- A turn has brought the operation closer to its end, or to it. -/
structure Progress (s t : State) : Prop where
  inv    : Inv t
  events : t.events = s.events
  closer : t.status = .busy ∧ t.turnsLeft < s.turnsLeft ∨ t.Ended

theorem engineTurn_progress {s : State} (h : Inv s) (hb : s.status = .busy) :
    ∃ t, engineTurn s = .next t ∧ Progress s t := by
  obtain ⟨t, ht, hadv | ⟨r, _, rfl, hinv, _⟩⟩ := engineTurn_busy h hb
  · exact ⟨t, ht, hadv.inv, hadv.frame.events, .inl ⟨hadv.frame.status.trans hb, hadv.less⟩⟩
  · exact ⟨_, ht, hinv, completion_events r s, .inr (completion_ended r s)⟩

/-- With no input waiting, a step of a busy block is a turn of the engine (44_host_interface.md R238). -/
theorem step_turn {s : State} (hev : s.events = []) (hb : s.status = .busy) : step s = engineTurn s.countEvent := by
  rw [step_eq, hev]
  exact if_pos ((busy_iff s).mpr hb)

theorem step_progress {s : State} (h : Inv s) (hev : s.events = []) (hb : s.status = .busy) :
    ∃ t, step s = .next t ∧ Progress s t := by
  obtain ⟨t, ht, hp⟩ := engineTurn_progress (s := s.countEvent) (h.inputs s.events (s.freeCtr + 1)) hb
  exact ⟨t, (step_turn hev hb).trans ht, hp.inv, hp.events, hp.closer⟩

/-- With no input waiting, a block that is not busy stays as it is, however many steps it takes (60_exceptions.md
R269). -/
theorem stepRun_free {s : State} (hev : s.events = []) (hb : s.status ≠ .busy) (n : Nat) :
    stepRun n s = .next s := by
  have hstep : step s = .next s := by
    rw [step_eq, hev]
    exact if_neg (by simpa [busy_iff] using hb)
  induction n with
  | zero => rfl
  | succ n ih => simp only [stepRun, hstep, ih]

/-- With no input waiting, as many steps as `turnsLeft` says end the operation. -/
theorem stepRun_completes {n : Nat} {s : State} (h : Inv s) (hev : s.events = []) (hb : s.status = .busy)
    (hn : s.turnsLeft ≤ n) : ∃ t, stepRun n s = .next t ∧ t.Ended := by
  induction n generalizing s with
  | zero =>
    have hpos := h.turnsLeft_pos hb
    omega
  | succ n ih =>
    obtain ⟨t, ht, hinv, hevents, hcloser⟩ := step_progress h hev hb
    simp only [stepRun, ht]
    rcases hcloser with ⟨hbusy, hless⟩ | hended
    · exact ih hinv (hevents.trans hev) hbusy (by omega)
    · exact ⟨t, stepRun_free (hevents.trans hev) hended.not_busy n, hended⟩

/-- A run of the engine that begins BUSY goes on BUSY, or the operation has ended. -/
theorem engineRun_busy_or_ended {n : Nat} {s t : State} (h : Inv s) (hb : s.status = .busy)
    (ht : engineRun n s = .next t) : Inv t ∧ (t.status = .busy ∨ t.Ended) := by
  refine engineRun_keeps (P := fun u => Inv u ∧ (u.status = .busy ∨ u.Ended)) ?_ ⟨h, .inl hb⟩ ht
  rintro u v ⟨hu, _⟩ hub hv
  obtain ⟨w, hw, hp⟩ := engineTurn_progress hu ((busy_iff u).mp hub)
  cases hw.symm.trans hv
  exact ⟨hp.inv, hp.closer.imp_left And.left⟩

/-- Settles O5: every turn brings the operation closer to its end, and `turnBound` turns are enough from every place of
Run. -/
theorem everyOperationCompletes : Obligations.EveryOperationCompletes := by
  intro s h hb
  refine ⟨?_, fun hev => stepRun_completes h hev hb h.turnsLeft_le_turnBound⟩
  obtain ⟨t, ht, hfree⟩ := engineRun_completes h h.turnsLeft_le_turnBound
  obtain ⟨hinv, hend⟩ := engineRun_busy_or_ended h hb ht
  rw [not_busy_iff] at hfree
  exact ⟨t, ht, hinv, hinv.phase_idle hfree, hend.resolve_left hfree⟩

/-! ### What a turn leaves as it was -/

/-- Settles O11: the blocks of Run keep the engine's frame, and the completion step writes the result alone. -/
theorem engineLeavesTheHostsRegisters : Obligations.EngineLeavesTheHostsRegisters := by
  intro s t h ht
  cases hb : s.busy with
  | false =>
    cases (engineTurn_free hb).symm.trans ht
    exact ⟨rfl, rfl, rfl, rfl, rfl, rfl, rfl, rfl, rfl, rfl, rfl, rfl, rfl⟩
  | true =>
    obtain ⟨u, hu, hadv | ⟨r, _, rfl, _⟩⟩ := engineTurn_busy h ((busy_iff s).mp hb)
    · cases hu.symm.trans ht
      have f := hadv.frame
      exact ⟨f.cfg, f.ctrlOp, f.ctrlAlph, f.inLen, f.inBuf, f.opl, f.alphl, f.snapLen, f.snapIn, f.resets, f.resp,
        f.events, f.freeCtr⟩
    · cases hu.symm.trans ht
      cases r with
      | ok m => exact ⟨rfl, rfl, rfl, rfl, rfl, rfl, rfl, rfl, rfl, rfl, rfl, rfl, rfl⟩
      | err e => exact ⟨rfl, rfl, rfl, rfl, rfl, rfl, rfl, rfl, rfl, rfl, rfl, rfl, rfl⟩

/-! ### How Run begins and ends -/

/-- Settles O42, for each of the two results. -/
theorem completionStep : Obligations.CompletionStep := by
  refine ⟨fun s m hb hs => engineTurn_complete ((busy_iff s).mpr hb) hs, fun s e hb hs => ?_⟩
  exact ⟨_, engineTurn_complete ((busy_iff s).mpr hb) hs, rfl, rfl, rfl, rfl, rfl, rfl⟩

/-- The capacity check comes first (44_host_interface.md R237). -/
theorem startRun_over_capacity {s : State} (hcap : s.cfg.inCap < s.snapLen.toNat) :
    startRun s = .raise (.resource .input) s := if_pos hcap

/-- On the empty input Run returns the empty result, whatever the operation (42_encoder.md R161, 43_decoder.md
R191). -/
theorem startRun_empty {s : State} (hzero : s.snapLen.toNat = 0) : startRun s = .ok () (s.returned (.ok 0)) := by
  have hunits : s.inputUnits = [] := List.eq_nil_of_length_eq_zero ((inputUnits_length s).trans hzero)
  rw [startRun, if_neg (by omega)]
  cases s.opl with
  | compress => exact if_pos hzero
  | decompress =>
    dsimp only
    rw [startDecompress, hunits]
    exact if_pos hzero

/-- Validate reports the lowest index of an invalid character (43_decoder.md R191). -/
theorem startRun_decompress_invalid {s : State} (hop : s.opl = .decompress) (hcap : s.snapLen.toNat ≤ s.cfg.inCap)
    {k : Nat} (hk : InvalidAt s.alphl s.inputUnits k) (hlow : ∀ j < k, ¬ InvalidAt s.alphl s.inputUnits j) :
    startRun s = .raise (.alphabet k) s := by
  have hvalidate := ((validateReportsTheLowestIndex s.alphl s.inputUnits).2 k).mpr ⟨hk, hlow⟩
  rw [startRun, if_neg (Nat.not_lt.mpr hcap), hop]
  dsimp only
  rw [startDecompress, hvalidate]

/-- Settles O43, check by check. -/
theorem runBeginsWithItsChecks : Obligations.RunBeginsWithItsChecks := by
  intro s hb hs
  rw [engineTurn_start ((busy_iff s).mpr hb) hs]
  refine ⟨fun hcap => ?_, fun hzero => ?_, fun hcap hop k hk hlow => ?_⟩
  · rw [startRun_over_capacity hcap]
    rfl
  · rw [startRun_empty hzero]
    rfl
  · rw [startRun_decompress_invalid hop hcap hk hlow]
    rfl

/-! ### A step runs the decoded instruction -/

theorem decodeCtx_cfg (s : State) : s.decodeCtx.cfg = s.cfg := by
  unfold State.decodeCtx
  split <;> rfl

theorem decodeCtx_busy (s : State) : s.decodeCtx.busy = s.busy := by
  unfold State.decodeCtx
  split <;> rfl

/-- A write of CTRL runs the command word its value decodes to (30_encoding.md R90, R91). -/
theorem exec_commandInstr (v : Word) (s : State) :
    exec (commandInstr v (decodeCommand s.busy v)) s = exec (.wrCtrl v) s := by
  have hwrite : exec (.wrCtrl v) s = writeCtrl v s := rfl
  rw [hwrite, writeCtrl]
  cases hc : decodeCommand s.busy v with
  | writeBusy =>
    change (if s.busy then .next (s.respond .ack) else writeCtrl v s) = _
    rw [writeCtrl, hc]
    exact ite_self _
  | setmode | compressB64 | compressUri | decompressB64 | decompressUri | illegal => rfl

/-- EmitPhrase runs the token it chooses, with `g` what follows it (42_encoder.md section 3). -/
theorem emitPhrase_eq_exec {s : State} {i : Instr} (g : Stage) (h : chooseToken s.enc = some i) :
    emitPhrase g s = exec i (s.setStage g) := by
  unfold emitPhrase
  rw [h]

theorem engineTurn_encBreak {s : State} {c : CodeUnit} (hb : s.busy = true) (hs : s.stage = .encBreak c) :
    engineTurn s = emitPhrase (.encInsert c) s := by
  rw [engineTurn, if_pos hb, hs]

theorem engineTurn_encLast {s : State} (hb : s.busy = true) (hs : s.stage = .encLast) :
    engineTurn s = emitPhrase .encEos s := by
  rw [engineTurn, if_pos hb, hs]

theorem engineTurn_encEos {s : State} (hb : s.busy = true) (hs : s.stage = .encEos) :
    engineTurn s = exec .encEos s := by
  rw [engineTurn, if_pos hb, hs]

/-- A turn that reads a token runs it, with the loop next (30_encoding.md R95). -/
theorem runToken_eq_exec {w : Nat} {s t : State} {bits : List Bool} {i : Instr} (hread : readToken w s = .ok bits t)
    (hi : decode s.decodeCtx (.token bits) = .ok i) : runToken w s = exec i (t.setStage .decLoop) := by
  rw [runToken, hread]
  dsimp only
  rw [hi]

/-- A step that takes an access runs the instruction it decodes to (44_host_interface.md R220). -/
theorem step_access {s : State} {b : BusAccess} {rest : List Event} (hev : s.events = .access b :: rest) :
    step s = exec (decodeAccess s.cfg b) (s.take (.access b) rest) := by
  rw [step_eq, hev]

/-- Settles O22, clause by clause: an access, a command word, a token read, a token emitted, and a turn of the
engine. -/
theorem stepRunsTheDecodedInstruction : Obligations.StepRunsTheDecodedInstruction := by
  refine ⟨fun s b rest i hev hi => ?_, fun s v rest i hev hi => ?_,
    fun s t w bits i hb (hr : s.ReadsAt w) hread hi => ?_, fun s c i hb hs hi => ?_, fun s i hb hs hi => ?_,
    fun s hb hs => engineTurn_encEos ((busy_iff s).mpr hb) hs, fun s rest hev => ?_, fun s hev hb => step_turn hev hb⟩
  · rw [decode, decodeCtx_cfg] at hi
    cases hi
    exact step_access hev
  · rw [decode, decodeCtx_busy] at hi
    cases hi
    rw [step_access hev, show accessAt s.cfg 0 (.write v) = accessAt s.cfg (4 * 0) (.write v) from rfl,
      decodeAccess_reg s.cfg 0 (by decide)]
    exact (exec_commandInstr v (s.take _ rest)).symm
  · rw [hr.engineTurn ((busy_iff s).mpr hb), runToken_eq_exec hread hi]
  · rw [engineTurn_encBreak ((busy_iff s).mpr hb) hs, emitPhrase_eq_exec _ hi]
  · rw [engineTurn_encLast ((busy_iff s).mpr hb) hs, emitPhrase_eq_exec _ hi]
  · rw [step_eq, hev]

end Sys2Proof.Machine
end

section
/-! The family `60_exceptions.md`: what an operation that ends in an error reports, what leaves an error, a token cut
short, and the block that is not busy. -/

namespace Sys2Proof.Machine

open Sys2Proof

/-! ### A block that is not busy -/

/-- With no input waiting, a block that is not busy stays as it is (60_exceptions.md R269). -/
theorem step_free {s : State} (hb : s.busy = false) (hev : s.events = []) : step s = .next s := by
  rw [step_eq, hev]
  exact if_neg (by simp [hb])

/-- A turn of an engine that is not busy is only taken from the inputs (60_exceptions.md R269). -/
theorem take_engine_free {s : State} (hb : s.busy = false) (rest : List Event) :
    s.take .engine rest = { s with events := rest } := by
  rw [State.take, nextFree_quiet hb (writesNothing_engine s)]

/-- Settles O15: with no event waiting by the step itself, and a turn of an idle engine gives back the state. -/
theorem idleBlockKeepsItsState : Obligations.IdleBlockKeepsItsState := by
  intro s hs
  have hb : s.busy = false := (not_busy_iff s).mpr hs
  refine ⟨step_free hb, fun rest hev => ?_⟩
  rw [step_eq, hev]
  dsimp only
  rw [take_engine_free hb]
  exact engineTurn_free hb

/-! ### What leaves an error -/

theorem readOnly_status (v : Word) (a : AccessKind) (s : State) : (s.readOnly v a).status = s.status := by
  obtain ⟨r, hr⟩ := readOnly_eq v a s
  rw [hr, respond_status]

/-- A write that leaves STATE does so whether or not BUSY turns it away. -/
theorem writeUnlessBusy_status {f : State → State} {s : State} (hf : (f s).status = s.status) :
    (s.writeUnlessBusy f).status = s.status := by
  cases hb : s.busy with
  | true => rw [writeUnlessBusy_busy hb, respond_status]
  | false => rw [writeUnlessBusy_free hb, respond_status, hf]

/-- Of the rows of format BUS only the write of CTRL changes STATE. -/
theorem exec_bus_status {c : DecodeCtx} {b : BusAccess} {i : Instr} {s t : State} (hi : encode c i = .access b)
    (h : exec i s = .next t) : (∃ v, i = .wrCtrl v) ∨ t.status = s.status := by
  cases i with
  | wrCtrl v => exact .inl ⟨v, rfl⟩
  | rdCtrl | busIllegal =>
    cases h
    exact .inr rfl
  | rwStatus | rdOutLen | rdErrInfo | rdConfig | rdInCapR | rdOutCapR | rdDictCapR | rwReservedReg =>
    cases h
    exact .inr (readOnly_status _ _ s)
  | rwInLen a =>
    cases a with
    | read =>
      cases h
      exact .inr rfl
    | write v =>
      cases h
      exact .inr (writeUnlessBusy_status rfl)
  | rwIn k a =>
    change execRwIn k a s = .next t at h
    unfold execRwIn at h
    split at h
    · cases a with
      | read =>
        cases h
        exact .inr rfl
      | write v =>
        cases h
        exact .inr (writeUnlessBusy_status rfl)
    · cases h
      exact .inr rfl
  | rdOut k a =>
    change execRdOut k a s = .next t at h
    unfold execRdOut at h
    split at h
    · cases h
      exact .inr (readOnly_status _ _ s)
    · cases h
      exact .inr rfl
  | _ => cases hi

/-- A write of CTRL in ERROR keeps ERROR, but for the four values that start an operation (44_host_interface.md R222 to
R228). -/
theorem CtrlWritten.error_cases {v : Word} {s t : State} (h : CtrlWritten v s t) (hs : s.status = .error) :
    t.status = .error ∨
      (v.toNat = 1 ∨ v.toNat = 3 ∨ v.toNat = 5 ∨ v.toNat = 7) ∧ t.status = .busy := by
  unfold CtrlWritten at h
  rw [if_neg (by simp [hs])] at h
  split at h
  · exact .inl h.status.1
  split at h
  next hstart =>
    have hodd : v.toNat % 2 = 1 := by simpa [BitVec.getLsbD, Nat.testBit_zero] using hstart
    exact .inr ⟨by omega, h.status.1⟩
  next =>
    obtain ⟨r, rfl⟩ := h
    exact .inl hs

/-- Settles O14, by the event of the step: of the accesses only a write of CTRL changes STATE, a reset makes it IDLE,
and an engine that is not busy does nothing. -/
theorem errorIsLeftOnlyByStartOrReset : Obligations.ErrorIsLeftOnlyByStartOrReset := by
  intro s t hs h
  have hb : s.busy = false := (not_busy_iff s).mpr (by simp [hs])
  match hev : s.events with
  | [] =>
    cases (step_free hb hev).symm.trans h
    exact .inl hs
  | .engine :: rest =>
    cases ((idleBlockKeepsItsState s (by simp [hs])).2 rest hev).symm.trans h
    exact .inl hs
  | .reset :: rest =>
    rw [step_eq, hev] at h
    cases h
    exact .inr (.inl ⟨rest, rfl, rfl⟩)
  | .access b :: rest =>
    rw [step_access hev] at h
    rcases exec_bus_status (decodeAccess_wf_and_encode s.decodeCtx b).2 (decodeCtx_cfg s ▸ h) with ⟨v, hv⟩ | hkept
    · rw [decodeCtx_cfg] at hv
      rw [hv] at h
      obtain ⟨u, hu, hwritten⟩ := ctrlWriteDoesItsCommand (s.take (.access b) rest) v
      cases hu.symm.trans h
      exact (hwritten.error_cases hs).imp_right fun ⟨hvalue, hbusy⟩ => .inr ⟨b, rest, v, rfl, hv, hvalue, hbusy⟩
    · exact .inl (hkept.trans hs)

/-! ### A token cut short -/

/-- Where the bits left do not cover a token, its fetch consumes them all and raises TRUNCATED (60_exceptions.md
R254). -/
theorem readToken_short (w : Nat) {s : State} (h : SourceInv s)
    (hn : s.bitsLeft.length < w + payloadLength (fieldValue s.cfg.order (s.bitsLeft.take w))) :
    ∃ u, readToken w s = .raise (.truncated (6 * s.src.ndata)) u ∧ SourceFrame s u ∧
      u.src.bcnt = 6 * s.src.ndata := by
  rcases Nat.lt_or_ge s.bitsLeft.length w with hmarker | hmarker
  · obtain ⟨u, hread, hframe, _, hbcnt⟩ := readRaw_short w h hmarker
    exact ⟨u, by rw [readToken, hread, Eng.bind_raise], hframe, hbcnt⟩
  · obtain ⟨t, hread, hft, hit, hndata, _, hleft⟩ := readRaw_left w h hmarker
    have hcfg : t.cfg = s.cfg := hft.eng.cfg
    obtain ⟨u, hpayload, hfu, _, hbcnt⟩ :=
      readRaw_short (payloadLength (fieldValue s.cfg.order (s.bitsLeft.take w))) hit
        (by rw [hleft, List.length_drop]; omega)
    rw [hndata] at hpayload hbcnt
    refine ⟨u, ?_, hft.trans hfu, hbcnt⟩
    rw [readToken, hread, Eng.bind_ok, hcfg, hpayload, Eng.bind_raise]

/-- Settles O24: the fetch raises, and the raise ends Run. -/
theorem truncatedReportsTheBitCount : Obligations.TruncatedReportsTheBitCount := by
  intro s w hinv hb (hr : s.ReadsAt w) hshort
  obtain ⟨u, hread, hframe, hbcnt⟩ := readToken_short w (hr.sourceInv hinv) (by omega)
  refine ⟨u.returned (.err (.truncated (6 * s.src.ndata))), ?_, rfl, hbcnt, ?_⟩
  · rw [hr.engineTurn ((busy_iff s).mpr hb), runToken, hread]
  · rw [hframe]
    rfl

/-! ### What an operation that ends reports -/

/-- `t` is met in a run of the engine from `s`: the operation still runs, or its completion step has reported what Run
returned. -/
inductive OperationOf (s : State) : State → Prop
  | running {t : State} (hinv : Inv t) (hframe : EngFrame s t) : OperationOf s t
  | completed {u : State} {r : RunResult} (hinv : Inv u) (hframe : EngFrame s u) (hstage : u.stage = .complete r) :
      OperationOf s (u.completion r)

theorem OperationOf.engineTurn {s t v : State} (h : OperationOf s t) (hb : t.busy = true)
    (hv : engineTurn t = .next v) : OperationOf s v := by
  cases h with
  | running hinv hframe =>
    obtain ⟨w, hw, hadv | ⟨r, hstage, rfl, _⟩⟩ := engineTurn_busy hinv ((busy_iff t).mp hb)
    · cases hw.symm.trans hv
      exact .running hadv.inv (hframe.trans hadv.frame)
    · cases hw.symm.trans hv
      exact .completed hinv hframe hstage
  | completed hinv hframe hstage => exact absurd ((busy_iff _).mp hb) (turn_complete hinv hstage).2

/-- Where a run of the engine has ended an operation, that was the completion step of what Run had returned
(44_host_interface.md R234, R235). -/
theorem engineRun_completed {n : Nat} {s t : State} (h : Inv s) (hb : s.status = .busy)
    (ht : engineRun n s = .next t) (hend : t.status ≠ .busy) :
    ∃ u r, Inv u ∧ EngFrame s u ∧ u.stage = .complete r ∧ t = u.completion r := by
  cases engineRun_keeps (P := OperationOf s) OperationOf.engineTurn (.running h (EngFrame.refl s)) ht with
  | running _ hframe => exact absurd (hframe.status.trans hb) hend
  | completed hinv hframe hstage => exact ⟨_, _, hinv, hframe, hstage, rfl⟩

/-- The error Run has returned is one its operation can end in. -/
theorem Inv.errorFits {s : State} {e : OpError} (h : Inv s) (hs : s.stage = .complete (.err e)) : ErrorFits s e := by
  have hrun := h.run
  rw [hs] at hrun
  exact hrun

/-- COMPRESS raises RESOURCE alone (60_exceptions.md R270). -/
theorem ErrorFits.resource_of_compress {s : State} {e : OpError} (h : ErrorFits s e) (hop : s.opl = .compress) :
    ∃ r, e = .resource r := by
  cases e with
  | resource r => exact ⟨r, rfl⟩
  | alphabet | dictCorrupt | truncated => cases hop.symm.trans h.1

/-- The subcodes of RESOURCE (60_exceptions.md R255). -/
theorem resource_info (r : Resource) :
    (OpError.resource r).info = 1 ∨ (OpError.resource r).info = 2 ∨ (OpError.resource r).info = 3 := by
  cases r with
  | input => exact .inl rfl
  | dictionary => exact .inr (.inl rfl)
  | output => exact .inr (.inr rfl)

/-- Settles O12: what the completion step reports is a result, or an error that COMPRESS can end in. -/
theorem compressEndsInSuccessOrResource : Obligations.CompressEndsInSuccessOrResource := by
  intro s t n h hb hop hrun hend
  obtain ⟨u, r, hinv, hframe, hstage, rfl⟩ := engineRun_completed h hb hrun hend
  cases r with
  | ok m => exact .inl rfl
  | err e =>
    obtain ⟨c, rfl⟩ := (hinv.errorFits hstage).resource_of_compress (hframe.opl.trans hop)
    exact .inr ⟨rfl, rfl, resource_info c⟩

/-- Settles O13: the error that the completion step reports is one that DECOMPRESS can end in, and its information fits
ERR_INFO. -/
theorem decompressErrorInformation : Obligations.DecompressErrorInformation := by
  intro s t n h hb _ hrun herr
  obtain ⟨u, r, hinv, hframe, hstage, rfl⟩ := engineRun_completed h hb hrun (by simp [herr])
  cases r with
  | ok m => cases herr
  | err e =>
    have hfits := hinv.errorFits hstage
    have hinfo : ∀ {k : Nat}, k < 2 ^ 32 → (BitVec.ofNat 32 k).toNat = k := fun hk => by
      rw [BitVec.toNat_ofNat, Nat.mod_eq_of_lt hk]
    cases e with
    | alphabet k =>
      obtain ⟨_, hk⟩ := hfits
      rw [hframe.snapLen] at hk
      exact .inl ⟨rfl, (hinfo (hk.trans s.snapLen.isLt)).symm ▸ hk⟩
    | dictCorrupt k =>
      obtain ⟨_, hge, hlt⟩ := hfits
      have hk := hinfo (hlt.trans (by decide))
      exact .inr (.inl ⟨rfl, hk.symm ▸ hge, hk.symm ▸ hlt⟩)
    | truncated b =>
      obtain ⟨_, hbits, hlt⟩ := hfits
      exact .inr (.inr (.inl ⟨rfl, (hinfo (hlt.trans (by decide))).trans hbits⟩))
    | resource c => exact .inr (.inr (.inr ⟨rfl, resource_info c⟩))

end Sys2Proof.Machine
end

section
/-! The family `70_reset_and_hazards.md`: the reset state meets the invariant, and what the host sees after a reset. -/

namespace Sys2Proof.Machine

open Sys2Proof

/-- The parameters of `State.reset` are in the ranges of 00_scope.md R9. -/
theorem paramsDefault_wf : Params.default.wf := by
  simp [Params.wf, Params.default]

/-- Settles O1: a reset state meets the invariant with whatever parameters are in range. -/
theorem resetMeetsTheInvariant : Obligations.ResetMeetsTheInvariant :=
  Inv.resetWith paramsDefault_wf 0 0 []

/-- A step that takes a reset builds the reset state of the same parameters, one reset later and with the later inputs
still waiting (70_reset_and_hazards.md R280, R281). -/
theorem step_reset {s : State} {rest : List Event} (h : s.events = .reset :: rest) :
    step s = .next (State.resetWith s.cfg (s.resets + 1) (s.nextFree .reset) rest) := by
  rw [step_eq, h]
  rfl

/-- After a reset the host has written no element of IN yet (10_state.md R43). -/
theorem inElem_resetWith (p : Params) (n c : Nat) (l : List Event) (k : Nat) :
    (State.resetWith p n c l).inElem k = Config.freeIn n k := rfl

/-- Outside DONE no element of OUT is a result (44_host_interface.md R240). -/
theorem outElem_not_done {s : State} (hs : s.status ≠ .done) (k : Nat) :
    s.outElem k = Config.freeOut s.freeCtr k := if_neg fun hdone => hs hdone.1

/-- Settles O2: the step is a reset, the registers are those of the reset state, and IN and OUT read free values. -/
theorem resetSetsTheHostRegisters : Obligations.ResetSetsTheHostRegisters := by
  intro s rest hev
  refine ⟨_, step_reset hev, rfl, rfl, rfl, rfl, rfl, rfl, rfl, rfl, rfl, rfl, rfl, inElem_resetWith _ _ _ _,
    fun k hk => ?_, rfl⟩
  rw [exec_rdOut hk, outElem_not_done (by simp [State.resetWith])]
  rfl

end Sys2Proof.Machine
end
